-- ==== Sys2Proof/Word.lean ====
section
/-! DEFINITION. The word types of dusk-tlv CORE (00_scope.md R8, R9): a byte of 8 bits, the 4-bit nibbles of
a type byte, the 64-bit payload size and the 65-bit byte count of ENCODE. Every quantity is unsigned (R72). -/

namespace Sys2Proof

/-- A byte, `BYTE_BITS` = 8 (R8, R35). -/
abbrev Byte := BitVec 8

/-- One nibble of a type byte: `T[7:4]` or `T[3:0]` (R63). -/
abbrev Nibble := BitVec 4

/-- A payload size `s`, `SIZE_BITS` = 64 (R8). -/
abbrev Size := BitVec 64

/-- The byte count ENCODE returns, `COUNT_BITS` = 65 (R8, R72). -/
abbrev Count := BitVec 65

/-- A command code `OP` of 3 bits (R78). -/
abbrev OpCode := BitVec 3

end Sys2Proof
end

