-- ==== Sys2Proof/Syntax.lean ====
section
/-! DEFINITION. The instructions of dusk-tlv CORE: one constructor for each of the 24 rows of spec/opcode_table.json.
Format CMD is a command a host presents (30_encoding.md R78, R79); its operands are buffers of the host (R31), which the
command port of the state holds, not bits of the code. Format TYPE_ENC is a type byte ENC emits (R64). Format TYPE_DEC is a
class of type byte DEC takes (R75 to R77), with the upper nibble `hi`, which never changes the class. -/

namespace Sys2Proof

inductive Instr where
  /-- ENCODE, `OP = 001` (R86). -/
  | encode
  /-- ENCODE_LIST, `OP = 010` (R119). -/
  | encodeList
  /-- PEEK_SIZE, `OP = 100` (R103). -/
  | peekSize
  /-- READ_BYTES, `OP = 101` (R105). -/
  | readBytes
  /-- READ_INTO, `OP = 110` (R108). -/
  | readInto
  /-- DECODE_LIST, `OP = 111` (R125). -/
  | decodeList
  /-- Reserved command code `000` (R79). -/
  | reserved000
  /-- Reserved command code `011` (R79). -/
  | reserved011
  /-- ENC emits the type byte `F1` (R64, R89). -/
  | typeF1
  /-- ENC emits the type byte `F2` (R64, R89). -/
  | typeF2
  /-- ENC emits the type byte `F4` (R64, R89). -/
  | typeF4
  /-- ENC emits the type byte `F8` (R64, R89). -/
  | typeF8
  /-- DEC takes a type byte of width 0 (R76, R102). -/
  | decWidth0 (hi : Nibble)
  /-- DEC takes a type byte of width 1 (R75). -/
  | decWidth1 (hi : Nibble)
  /-- DEC takes a type byte of width 2 (R75). -/
  | decWidth2 (hi : Nibble)
  /-- DEC takes a type byte of width 3 (R75). -/
  | decWidth3 (hi : Nibble)
  /-- DEC takes a type byte of width 4 (R75). -/
  | decWidth4 (hi : Nibble)
  /-- DEC takes a type byte of width 5 (R75). -/
  | decWidth5 (hi : Nibble)
  /-- DEC takes a type byte of width 6 (R75). -/
  | decWidth6 (hi : Nibble)
  /-- DEC takes a type byte of width 7 (R75). -/
  | decWidth7 (hi : Nibble)
  /-- DEC takes a type byte of width 8 (R75). -/
  | decWidth8 (hi : Nibble)
  /-- DEC takes a type byte of width 9 (R77, R101). -/
  | decWidth9 (hi : Nibble)
  /-- DEC takes a type byte of width 10 or 11 (R77, R101); `m` is the width. -/
  | decWidth10to11 (hi : Nibble) (m : Nibble)
  /-- DEC takes a type byte of width 12 to 15 (R77, R101); `m` is the width. -/
  | decWidth12to15 (hi : Nibble) (m : Nibble)
  deriving DecidableEq, Repr

end Sys2Proof
end

