-- ==== Sys2Proof/WellFormed.lean ====
section
/-! DEFINITION. Which terms of Instr stand for a row of the opcode table. The types settle every field but the width of the
two rows that cover more than one width (30_encoding.md R83: three rows together cover 9 to 15). -/

namespace Sys2Proof

/-- The width field of the rows DEC_WIDTH_10_11 and DEC_WIDTH_12_15 lies in the row's range. -/
def Instr.wf : Instr → Bool
  | .decWidth10to11 _ m => m == 10 || m == 11
  | .decWidth12to15 _ m => decide (12 ≤ m.toNat)
  | .encode | .encodeList | .peekSize | .readBytes | .readInto | .decodeList => true
  | .reserved000 | .reserved011 => true
  | .typeF1 | .typeF2 | .typeF4 | .typeF8 => true
  | .decWidth0 _ | .decWidth1 _ | .decWidth2 _ | .decWidth3 _ | .decWidth4 _ => true
  | .decWidth5 _ | .decWidth6 _ | .decWidth7 _ | .decWidth8 _ | .decWidth9 _ => true

end Sys2Proof
end

