-- ==== Sys2Proof/Decode.lean ====
section
/-! DEFINITION. The decoder and the encoder of instruction words, from spec/opcode_table.json and 30_encoding.md section 4
and 5. A word is read in one of three places, and the place is the table's column "format": a command code at the command port
(CMD), a type byte ENC is about to emit (TYPE_ENC), a type byte that reaches DEC (TYPE_DEC). The three formats reuse
each other's bit patterns, so a word has a meaning only together with its format (assumption log 9). -/

namespace Sys2Proof

/-- The table's column "format". -/
inductive Format where
  | cmd
  | typeEnc
  | typeDec
  deriving DecidableEq, Repr

/-- Why a word is no instruction. -/
inductive DecodeError where
  /-- No byte was given. -/
  | noWord
  /-- Bits above the 3 bits of `OP` are set (R78: a command code is 3 bits). -/
  | notACommandCode
  /-- ENC emits no such type byte (R64: exactly four values). -/
  | notAnEncoderTypeByte
  deriving DecidableEq, Repr

/-! ### The type byte (R63) -/

/-- `T[7:4]`. -/
def typeHi (t : Byte) : Nibble := t.extractLsb' 4 4

/-- `T[3:0]`, the width `m := type_byte & 0x0F` (R65). -/
def typeLo (t : Byte) : Nibble := t.extractLsb' 0 4

/-- The type byte with upper nibble `hi` and width `m`. -/
def typeByte (hi m : Nibble) : Byte := hi ++ m

/-- The type byte ENC computes as `0xF0 | m` (R64). -/
def encTypeByte (m : Nibble) : Byte := 0xF0#8 ||| m.zeroExtend 8

/-! ### Decoding -/

/-- The eight rows of format CMD (R78, R79). -/
def decodeCmd (op : OpCode) : Instr :=
  match op.toNat with
  | 0 => .reserved000
  | 1 => .encode
  | 2 => .encodeList
  | 3 => .reserved011
  | 4 => .peekSize
  | 5 => .readBytes
  | 6 => .readInto
  | _ => .decodeList

/-- The four rows of format TYPE_ENC (R64). -/
def decodeTypeEnc (t : Byte) : Option Instr :=
  if t = 0xF1#8 then some .typeF1
  else if t = 0xF2#8 then some .typeF2
  else if t = 0xF4#8 then some .typeF4
  else if t = 0xF8#8 then some .typeF8
  else none

/-- The twelve rows of format TYPE_DEC, which cover every byte (R65, R75). -/
def decodeTypeDec (t : Byte) : Instr :=
  match (typeLo t).toNat with
  | 0 => .decWidth0 (typeHi t)
  | 1 => .decWidth1 (typeHi t)
  | 2 => .decWidth2 (typeHi t)
  | 3 => .decWidth3 (typeHi t)
  | 4 => .decWidth4 (typeHi t)
  | 5 => .decWidth5 (typeHi t)
  | 6 => .decWidth6 (typeHi t)
  | 7 => .decWidth7 (typeHi t)
  | 8 => .decWidth8 (typeHi t)
  | 9 => .decWidth9 (typeHi t)
  | 10 => .decWidth10to11 (typeHi t) (typeLo t)
  | 11 => .decWidth10to11 (typeHi t) (typeLo t)
  | _ => .decWidth12to15 (typeHi t) (typeLo t)

/-- One instruction from the front of a byte sequence, with what follows it; every instruction is one byte long (a
command code stands in the low 3 bits of its byte). -/
def decode (f : Format) (bytes : List Byte) : Except DecodeError (Instr × List Byte) :=
  match bytes with
  | [] => .error .noWord
  | b :: rest =>
    match f with
    | .cmd => if b.toNat < 8 then .ok (decodeCmd (b.truncate 3), rest) else .error .notACommandCode
    | .typeEnc =>
      match decodeTypeEnc b with
      | some i => .ok (i, rest)
      | none => .error .notAnEncoderTypeByte
    | .typeDec => .ok (decodeTypeDec b, rest)

/-! ### Encoding -/

/-- The format of an instruction's row. -/
def Instr.format : Instr → Format
  | .encode | .encodeList | .peekSize | .readBytes | .readInto | .decodeList => .cmd
  | .reserved000 | .reserved011 => .cmd
  | .typeF1 | .typeF2 | .typeF4 | .typeF8 => .typeEnc
  | .decWidth0 _ | .decWidth1 _ | .decWidth2 _ | .decWidth3 _ | .decWidth4 _ | .decWidth5 _ => .typeDec
  | .decWidth6 _ | .decWidth7 _ | .decWidth8 _ | .decWidth9 _ => .typeDec
  | .decWidth10to11 _ _ | .decWidth12to15 _ _ => .typeDec

/-- The word of an instruction, from the column "match" of its row and, for TYPE_DEC, the upper nibble. -/
def encode : Instr → List Byte
  | .reserved000 => [0b000#8]
  | .encode => [0b001#8]
  | .encodeList => [0b010#8]
  | .reserved011 => [0b011#8]
  | .peekSize => [0b100#8]
  | .readBytes => [0b101#8]
  | .readInto => [0b110#8]
  | .decodeList => [0b111#8]
  | .typeF1 => [0xF1#8]
  | .typeF2 => [0xF2#8]
  | .typeF4 => [0xF4#8]
  | .typeF8 => [0xF8#8]
  | .decWidth0 hi => [typeByte hi 0]
  | .decWidth1 hi => [typeByte hi 1]
  | .decWidth2 hi => [typeByte hi 2]
  | .decWidth3 hi => [typeByte hi 3]
  | .decWidth4 hi => [typeByte hi 4]
  | .decWidth5 hi => [typeByte hi 5]
  | .decWidth6 hi => [typeByte hi 6]
  | .decWidth7 hi => [typeByte hi 7]
  | .decWidth8 hi => [typeByte hi 8]
  | .decWidth9 hi => [typeByte hi 9]
  | .decWidth10to11 hi m => [typeByte hi m]
  | .decWidth12to15 hi m => [typeByte hi m]

/-! ### The opcode table, as data -/

/-- A row of spec/opcode_table.json: a byte is of the row when its bits under `mask` are `value`. -/
structure TableRow where
  mnemonic : String
  format : Format
  value : Byte
  mask : Byte
  deriving DecidableEq, Repr

def TableRow.covers (r : TableRow) (b : Byte) : Bool := b &&& r.mask == r.value

def cmdRows : List TableRow :=
  [⟨"ENCODE", .cmd, 0x1, 0x7⟩, ⟨"ENCODE_LIST", .cmd, 0x2, 0x7⟩, ⟨"PEEK_SIZE", .cmd, 0x4, 0x7⟩,
   ⟨"READ_BYTES", .cmd, 0x5, 0x7⟩, ⟨"READ_INTO", .cmd, 0x6, 0x7⟩, ⟨"DECODE_LIST", .cmd, 0x7, 0x7⟩,
   ⟨"RESERVED_000", .cmd, 0x0, 0x7⟩, ⟨"RESERVED_011", .cmd, 0x3, 0x7⟩]

def typeEncRows : List TableRow :=
  [⟨"TYPE_F1", .typeEnc, 0xF1, 0xFF⟩, ⟨"TYPE_F2", .typeEnc, 0xF2, 0xFF⟩,
   ⟨"TYPE_F4", .typeEnc, 0xF4, 0xFF⟩, ⟨"TYPE_F8", .typeEnc, 0xF8, 0xFF⟩]

def typeDecRows : List TableRow :=
  [⟨"DEC_WIDTH_0", .typeDec, 0x00, 0x0F⟩, ⟨"DEC_WIDTH_1", .typeDec, 0x01, 0x0F⟩,
   ⟨"DEC_WIDTH_2", .typeDec, 0x02, 0x0F⟩, ⟨"DEC_WIDTH_3", .typeDec, 0x03, 0x0F⟩,
   ⟨"DEC_WIDTH_4", .typeDec, 0x04, 0x0F⟩, ⟨"DEC_WIDTH_5", .typeDec, 0x05, 0x0F⟩,
   ⟨"DEC_WIDTH_6", .typeDec, 0x06, 0x0F⟩, ⟨"DEC_WIDTH_7", .typeDec, 0x07, 0x0F⟩,
   ⟨"DEC_WIDTH_8", .typeDec, 0x08, 0x0F⟩, ⟨"DEC_WIDTH_9", .typeDec, 0x09, 0x0F⟩,
   ⟨"DEC_WIDTH_10_11", .typeDec, 0x0A, 0x0E⟩, ⟨"DEC_WIDTH_12_15", .typeDec, 0x0C, 0x0C⟩]

/-- The row a well-formed instruction stands for. -/
def Instr.mnemonic : Instr → String
  | .encode => "ENCODE"
  | .encodeList => "ENCODE_LIST"
  | .peekSize => "PEEK_SIZE"
  | .readBytes => "READ_BYTES"
  | .readInto => "READ_INTO"
  | .decodeList => "DECODE_LIST"
  | .reserved000 => "RESERVED_000"
  | .reserved011 => "RESERVED_011"
  | .typeF1 => "TYPE_F1"
  | .typeF2 => "TYPE_F2"
  | .typeF4 => "TYPE_F4"
  | .typeF8 => "TYPE_F8"
  | .decWidth0 _ => "DEC_WIDTH_0"
  | .decWidth1 _ => "DEC_WIDTH_1"
  | .decWidth2 _ => "DEC_WIDTH_2"
  | .decWidth3 _ => "DEC_WIDTH_3"
  | .decWidth4 _ => "DEC_WIDTH_4"
  | .decWidth5 _ => "DEC_WIDTH_5"
  | .decWidth6 _ => "DEC_WIDTH_6"
  | .decWidth7 _ => "DEC_WIDTH_7"
  | .decWidth8 _ => "DEC_WIDTH_8"
  | .decWidth9 _ => "DEC_WIDTH_9"
  | .decWidth10to11 _ _ => "DEC_WIDTH_10_11"
  | .decWidth12to15 _ _ => "DEC_WIDTH_12_15"

/-! ### A word as the opcode table numbers it -/

/-- The format a bare table word is read in (assumption log 9): words 0 to 7, and any word of fewer than 8 bits, are
command codes; the four type bytes of ENC are ENC's; every other byte is a type byte that reaches DEC. DESIGN CHOICE: the
table reuses its bit patterns between formats and the word alone does not say which format is meant. -/
def tableFormat (nbits w : Nat) : Format :=
  if nbits < 8 ∨ w < 8 then .cmd
  else if w = 0xF1 ∨ w = 0xF2 ∨ w = 0xF4 ∨ w = 0xF8 then .typeEnc
  else .typeDec

/-- The instruction the decoder reads from a table word; a word that does not fit one byte is no instruction. -/
def decodeTableWord (nbits w : Nat) : Option Instr :=
  if w < 256 then
    match decode (tableFormat nbits w) [BitVec.ofNat 8 w] with
    | .ok (i, _) => some i
    | .error _ => none
  else none

end Sys2Proof
end

