-- ==== Sys2Proof/Config.lean ====
section
/-! DEFINITION. What an implementation of dusk-tlv CORE fixes (the OPEN parameters of 00_scope.md R8) and the
values the spec leaves free. The parameters are plain data, so that a statement about every state is a statement
about every value of them; the free values are opaque constants, of which nothing can be proved. -/

namespace Sys2Proof

/-- The three OPEN parameters of R8. `none` is "unbounded", the default R8 gives the two sizes. -/
structure Config where
  /-- `MAX_ALLOC`: the largest payload READ_BYTES can hold (R106, D19). -/
  maxAlloc : Option Nat
  /-- `IBUF_CAP`: the capacity of each intermediate buffer (R52, R123, R126, D19). -/
  ibufCap : Option Nat
  /-- `ZERO_LEN_WRITE`: whether an empty payload is offered to the sink as a zero-length write (R51, D12). -/
  zeroLenWrite : Bool
  deriving DecidableEq, Repr

/-- FREE VALUE (assumption log 6). The draws of READ_INTO (R108, R113, R114) once the tape of draws in the state
is used up: whether to ask again past the frame, and how to end on a source error there. -/
opaque Config.freeDraw : Nat → Bool

/-- FREE VALUE (assumption log 7). The bytes R115 calls unspecified: `buf[n..B)` after a successful READ_INTO and the
whole of `buf` after a failure in its payload read. -/
opaque Config.freeByte : Nat → Byte

end Sys2Proof
end

