-- ==== Sys2Proof/Machine/State.lean ====
section
/-! DEFINITION. The state of dusk-tlv CORE as plain data: the two units ENC and DEC with every register, phase, status
field and buffer of 10_state.md; the environment each is bound to (a source, a sink: 20_memory.md R41, R44), which the spec
makes a parameter of the run and this model holds as data, so that a statement about every state is one about every
environment; the parameters of R8; and the host's side: the moves still to come and the operands of the present command. -/

namespace Sys2Proof.Machine

/-! ### Results (60_exceptions.md R147) -/

/-- An error of the environment: opaque to the block, which only passes it on (R157). -/
structure EnvError where
  code : Nat
  deriving DecidableEq, Repr

/-- Where a frame was cut short (R150). -/
inductive Where where
  | len
  | payload
  deriving DecidableEq, Repr

/-- What SINK_WRITE_FAILURE carries (R151): `short` with the count the sink took, or the sink's own error. -/
inductive WriteFailure where
  | short (k : Nat)
  | err (e : EnvError)
  deriving DecidableEq, Repr

/-- The value an operation delivers with OK (the column "result value" of R78). -/
inductive Value where
  /-- ENCODE and ENCODE_LIST: the byte count. -/
  | count (n : Count)
  /-- PEEK_SIZE: the size `s`. -/
  | size (s : Size)
  /-- READ_BYTES: the payload. -/
  | payload (p : List Byte)
  /-- READ_INTO: the number of bytes placed in the caller's buffer. -/
  | filled (n : Size)
  /-- DECODE_LIST: the payloads in order. -/
  | items (l : List (List Byte))
  deriving DecidableEq, Repr

/-- The eight result kinds with the information each carries (R147). -/
inductive Result where
  | ok (v : Value)
  | cleanEos
  | truncated (w : Where)
  | sinkWriteFailure (f : WriteFailure)
  | insufficientBuffer (s b : Size)
  | sourceError (e : EnvError)
  | resourceExhausted (size : Nat)
  | badWidth (t : Byte)
  deriving DecidableEq, Repr

/-- The five checker flags, `CHK` bits 0 to 4 (R28). -/
structure Chk where
  nib : Bool
  w0 : Bool
  whi : Bool
  wnd : Bool
  wnm : Bool
  deriving DecidableEq, Repr

/-- All five flags clear. -/
def Chk.clear : Chk := ⟨false, false, false, false, false⟩

/-! ### The environment (R40 to R44) -/

/-- How the sink answers once the answers listed for it are used up (assumption log 3). -/
inductive Pace where
  /-- At once and in full. -/
  | prompt
  /-- Not at all: the request stays outstanding (R60). -/
  | silent
  deriving DecidableEq, Repr

/-- How the source answers, while it has bytes left, once the choices listed for it are used up (assumption log 3). -/
inductive SrcPace where
  /-- At once and in full. -/
  | prompt
  /-- Not at all: the request stays outstanding (R60). -/
  | silent
  /-- With `Data([])`, every request, for ever (R60). -/
  | empty
  deriving DecidableEq, Repr

/-- What a source does once it has no byte left (R41). -/
inductive SrcEnd where
  | eos
  | err (e : EnvError)
  | never
  deriving DecidableEq, Repr

/-- A source bound to DEC (R41). -/
structure Source where
  /-- The bytes it will still deliver, in stream order. -/
  rem : List Byte
  /-- `end`: what it answers once `rem` is empty. -/
  fin : SrcEnd
  /-- The chunking choices for the coming requests: how many bytes each response hands over (R41). -/
  cuts : List Nat
  /-- How it answers when `cuts` is used up. -/
  later : SrcPace
  /-- The sizes of the requests it has answered so far, oldest first. -/
  asked : List Nat
  deriving DecidableEq, Repr

/-- A response of a source (R40). -/
inductive SrcReply where
  | data (b : List Byte)
  | eos
  | err (e : EnvError)
  deriving DecidableEq, Repr

/-- One choice of a sink's response (R43, R44): it takes the first `k` bytes and says so, or fails with `e` having taken
`j` bytes, which the block does not learn. -/
inductive SinkChoice where
  | wrote (k : Nat)
  | err (e : EnvError) (j : Nat)
  deriving DecidableEq, Repr

/-- A sink bound to ENC (R44). -/
structure Sink where
  /-- `acc`: the bytes it has accepted. -/
  acc : List Byte
  /-- The responses to the coming requests. -/
  answers : List SinkChoice
  /-- How it answers when `answers` is used up. -/
  later : Pace
  /-- The requests it has answered so far, oldest first, each as the bytes offered (R54, R192). -/
  offered : List (List Byte)
  deriving DecidableEq, Repr

/-- A response of a sink as the block sees it (R43); `full` is the refusal of an intermediate buffer, with the length it
would have reached (R52, R123). -/
inductive SinkReply where
  | wrote (k : Nat)
  | err (e : EnvError)
  | full (size : Nat)
  deriving DecidableEq, Repr

/-! ### The encoder unit (R19, R22, R24, R26, R30) -/

inductive EncPhase where
  | idle
  | wType
  | wLen
  | wPay
  deriving DecidableEq, Repr

/-- `ENC.DST`. -/
inductive EncDst where
  | snk
  | ibuf
  deriving DecidableEq, Repr

inductive EncOp where
  | encode
  | encodeList
  deriving DecidableEq, Repr

/-- What ENC delivers to the host (R80). -/
structure EncDelivery where
  op : EncOp
  result : Result
  deriving DecidableEq, Repr

/-- The registers of `ENC`. -/
structure EncUnit where
  /-- `ENC.PHASE` (R22). -/
  phase : EncPhase
  /-- `ENC.S` (R19). -/
  s : Size
  /-- `ENC.M` (R19). -/
  m : Nibble
  /-- `ENC.CNT` (R19). -/
  cnt : Count
  /-- `ENC.DST` (R19). -/
  dst : EncDst
  /-- `ENC.IDX` (R19). -/
  idx : Nat
  /-- `ENC_STAT.BUSY` (R26). -/
  busy : Bool
  /-- `ENC_STAT.POISON` (R27). -/
  poison : Bool
  /-- `ENC_STAT.RESULT` (R26). -/
  result : BitVec 3
  /-- `IBUF_E` (R30). -/
  ibuf : List Byte
  /-- The operation in progress. -/
  op : EncOp
  /-- The payload of the frame being emitted: the operand of ENCODE, an item, or `IBUF_E` (R31, R121, R122). -/
  payload : List Byte
  /-- The operand of ENCODE_LIST (R31). -/
  items : List (List Byte)
  /-- The results delivered to the host, oldest first (R80, R191). -/
  out : List EncDelivery
  deriving DecidableEq, Repr

/-- `ENC` with the sink it is bound to (R176). -/
structure Enc where
  unit : EncUnit
  snk : Sink
  deriving DecidableEq, Repr

/-! ### The decoder unit (R18, R22, R23, R26, R28, R30) -/

inductive DecPhase where
  | idle
  | type
  | len
  | pay
  | over
  deriving DecidableEq, Repr

/-- `DEC.SEL`. -/
inductive DecSel where
  | src
  | ibuf
  deriving DecidableEq, Repr

inductive DecOp where
  | peekSize
  | readBytes
  | readInto
  | decodeList
  deriving DecidableEq, Repr

/-- What DEC delivers to the host (R80): the result and the checker flags. -/
structure Delivery where
  op : DecOp
  result : Result
  chk : Chk
  deriving DecidableEq, Repr

/-- The registers of `DEC`. -/
structure DecUnit where
  /-- `DEC.PHASE` (R22). -/
  phase : DecPhase
  /-- `DEC.T` (R18). -/
  t : Byte
  /-- `DEC.M` (R18). -/
  m : Nibble
  /-- `DEC.LB`, the 8-byte length scratch buffer (R18). -/
  lb : Vector Byte 8
  /-- `DEC.S` (R18). -/
  s : Size
  /-- `DEC.N` (R18). -/
  n : Size
  /-- `DEC.SEL` (R18). -/
  sel : DecSel
  /-- `DEC_STAT.BUSY` (R26). -/
  busy : Bool
  /-- `DEC_STAT.POISON` (R27). -/
  poison : Bool
  /-- `DEC_STAT.RESULT` (R26). -/
  result : BitVec 3
  /-- `DEC_STAT.CHK` (R28). -/
  chk : Chk
  /-- `IBUF_D` (R30): filled with the outer payload, then read front to back; a byte read from it is dropped. -/
  ibuf : List Byte
  /-- The operation in progress. -/
  op : DecOp
  /-- READ_INTO's caller buffer (R31). -/
  buf : List Byte
  /-- The payload READ_BYTES is building (R31). -/
  pay : List Byte
  /-- The list DECODE_LIST is building (R31). -/
  items : List (List Byte)
  /-- The flags gathered over the frames of a DECODE_LIST so far (R125, R131). -/
  flags : Chk
  /-- The results delivered to the host, oldest first (R80, R191). -/
  out : List Delivery
  deriving DecidableEq, Repr

/-- `DEC` with the source it is bound to (R176) and what READ_INTO draws its open choices from (R108): first the listed
draws, then, at `tick` and on, the free values of Config. -/
structure Dec where
  unit : DecUnit
  src : Source
  draws : List Bool
  tick : Nat
  deriving DecidableEq, Repr

/-! ### The host (R15, R31, R78) -/

/-- The operand buffers a host supplies with a command (R31); a command reads those its row of R78 names. -/
structure Operands where
  payload : List Byte
  items : List (List Byte)
  buf : List Byte
  deriving DecidableEq, Repr

/-- Which unit takes a turn. -/
inductive Side where
  | enc
  | dec
  deriving DecidableEq, Repr

/-- What the world outside the block does next (R15). -/
inductive Move where
  /-- The host presents a command (R78). -/
  | command (op : OpCode) (operands : Operands)
  /-- The host presents a command (R78) that is only accepted in this step: its transactions are spread over later ones. -/
  | begin (op : OpCode) (operands : Operands)
  /-- The block is reset (R173), and bound to a new source and sink where one is given (R176: only under reset). -/
  | reset (source : Option Source) (sink : Option Sink)
  /-- The host takes `k` bytes from the bound source by its own means (R182). -/
  | draw (k : Nat)
  /-- The source is given more chunking choices, and how it answers after them. -/
  | sourceAnswers (cuts : List Nat) (later : SrcPace)
  /-- The sink is given more responses, and how it answers after them. -/
  | sinkAnswers (answers : List SinkChoice) (later : Pace)
  /-- A unit that was left waiting takes one transaction before the next move. -/
  | turn (side : Side)
  deriving DecidableEq, Repr

end Sys2Proof.Machine

/-! ### The state -/

open Sys2Proof Sys2Proof.Machine

namespace Sys2Proof.Machine

structure State where
  enc : Enc
  dec : Dec
  /-- The parameters of R8: fixed, no step changes them. -/
  cfg : Config
  /-- The command port: the operands of the present command. -/
  cmd : Operands
  /-- The moves of the host and the environment still to come, next one first. -/
  moves : List Move
  deriving DecidableEq, Repr

/-- Why the machine stops with a fault. -/
inductive Fault where
  /-- Raised by `hostMove` when the host draws from the bound source while DEC is busy (R46, R182: with exclusive use broken
  "every rule about what the decoder next sees is void"). Safe: nothing is claimed of such a run. -/
  | exclusiveUseBroken
  deriving DecidableEq, Repr

/-- Why a command or a word is refused: the spec gives it no meaning (R13, R169). All are safe: nothing is claimed of a
run that contains one. -/
inductive Refusal where
  /-- An instruction that has no meaning in this model; raised by no arm. -/
  | notModelled (mnemonic : String)
  /-- A command to a unit whose `BUSY` is 1 (R29); raised by every command. -/
  | unitBusy
  /-- A command to a unit whose `POISON` is 1 (R27); raised by every command. -/
  | unitPoisoned
  /-- A reserved command code (R79); raised by RESERVED_000 and RESERVED_011. -/
  | reservedCommand
  /-- An operand of `2^64` bytes or more (R87, R108, R123, R169); raised by ENCODE, ENCODE_LIST and READ_INTO. -/
  | operandTooLong
  /-- A type byte presented to a unit that is not at that point of a frame (R23, R24: a type byte is emitted in phase
  W_TYPE with its width in `M`, and taken in phase TYPE); raised by the rows of format TYPE_ENC and TYPE_DEC. -/
  | typeByteNotDue
  deriving DecidableEq, Repr

/-! ### Reset (R34, R173) -/

/-- `ENC` after reset. The values of `s`, `m`, `cnt`, `dst`, `idx`, `op`, `payload` and `items` are this model's (assumption
log 1): the spec leaves working registers unspecified, and dead. -/
def EncUnit.initial : EncUnit :=
  { phase := .idle, s := 0, m := 0, cnt := 0, dst := .snk, idx := 0
    busy := false, poison := false, result := 0, ibuf := []
    op := .encode, payload := [], items := [], out := [] }

/-- `DEC` after reset. The values of `t`, `m`, `lb`, `s`, `n`, `sel`, `op`, `buf`, `pay`, `items` and `flags` are this model's
(assumption log 1). -/
def DecUnit.initial : DecUnit :=
  { phase := .idle, t := 0, m := 0, lb := Vector.replicate 8 0, s := 0, n := 0, sel := .src
    busy := false, poison := false, result := 0, chk := Chk.clear, ibuf := []
    op := .peekSize, buf := [], pay := [], items := [], flags := Chk.clear, out := [] }

/-- The source of the state after reset (assumption log 2): it has no byte and is at its end. -/
def Source.initial : Source := { rem := [], fin := .eos, cuts := [], later := .prompt, asked := [] }

/-- The sink of the state after reset (assumption log 2): it holds no byte and takes every write in full. -/
def Sink.initial : Sink := { acc := [], answers := [], later := .prompt, offered := [] }

/-- The parameters of the state after reset: the defaults of R8, and for `ZERO_LEN_WRITE`, which has no default, a value of
this model (assumption log 4). -/
def Config.initial : Config := { maxAlloc := none, ibufCap := none, zeroLenWrite := false }

/-- No operand. -/
def Operands.none : Operands := { payload := [], items := [], buf := [] }

/-- The machine right after reset (R34), with no move to come. -/
def State.reset : State :=
  { enc := { unit := EncUnit.initial, snk := Sink.initial }
    dec := { unit := DecUnit.initial, src := Source.initial, draws := [], tick := 0 }
    cfg := Config.initial
    cmd := Operands.none
    moves := [] }

end Sys2Proof.Machine
end

