-- ==== Sys2Proof/Machine/Codec.lean ====
section
/-! DEFINITION. The pure functions of the format: field assembly and the width function (30_encoding.md R68 to R70), the
frame of a payload and of a list (R62, R119), and what the decoder's operations make of a whole byte sequence
(R98, R125). The units of the machine use `leBytes`, `leValue` and `mEnc`; the rest says, in closed form, what an operation that
runs to its end must deliver. -/

namespace Sys2Proof.Machine

/-! ### Field assembly -/

/-- `le_bytes(v, m)` (R68): the `m` low-order bytes of `v`, least significant first. -/
def leBytes (v : Nat) : Nat → List Byte
  | 0 => []
  | m + 1 => BitVec.ofNat 8 v :: leBytes (v / 256) m

/-- `le_value(x)` (R69): the value of `x` read least significant byte first. -/
def leValue : List Byte → Nat
  | [] => 0
  | b :: x => b.toNat + 256 * leValue x

/-- `m_enc(s)` (R70): the smallest of 1, 2, 4, 8 that holds `s`. -/
def mEnc (s : Nat) : Nat :=
  if s < 2 ^ 8 then 1 else if s < 2 ^ 16 then 2 else if s < 2 ^ 32 then 4 else 8

/-- `frame(p)` (R62). -/
def frame (p : List Byte) : List Byte :=
  encTypeByte (BitVec.ofNat 4 (mEnc p.length)) :: (leBytes p.length (mEnc p.length) ++ p)

/-- The inner frames of a list, in item order (R120). -/
def frameAll : List (List Byte) → List Byte
  | [] => []
  | p :: ps => frame p ++ frameAll ps

/-- `list_frame(items)` (R119). -/
def listFrame (items : List (List Byte)) : List Byte := frame (frameAll items)

/-- A size passes a bound; no size passes an absent one (R8: "default unbounded"). -/
def passes (cap : Option Nat) (n : Nat) : Bool :=
  match cap with
  | none => false
  | some c => decide (c < n)

/-! ### CHECK (43_checker.md R137) -/

/-- `CHECK(T, S)`, for a width of at most 8. -/
def check (t : Byte) (s : Nat) : Chk :=
  let m := (typeLo t).toNat
  { nib := typeHi t != 0xF#4
    w0 := m == 0
    whi := false
    wnd := m == 3 || m == 5 || m == 6 || m == 7
    wnm := decide (1 ≤ m) && decide (m ≤ 8) && m != mEnc s }

/-- `CHECK_T(T)`, for a width above 8. -/
def checkT (t : Byte) : Chk :=
  { nib := typeHi t != 0xF#4, w0 := false, whi := true, wnd := false, wnm := false }

/-- The bitwise or of two sets of flags (R131). -/
def Chk.or (a b : Chk) : Chk :=
  { nib := a.nib || b.nib, w0 := a.w0 || b.w0, whi := a.whi || b.whi, wnd := a.wnd || b.wnd, wnm := a.wnm || b.wnm }

/-! ### What the decoder makes of a byte sequence

A byte sequence stands for all a source will still deliver, and `fin` for what the source does after that (R41). -/

/-- The end of a reading: a value and what is left of the stream; a failure and what is left; or no end at all. -/
inductive Reading (α : Type) where
  | value (v : α) (rest : List Byte)
  | stop (r : Result) (rest : List Byte)
  | hang
  deriving DecidableEq, Repr

/-- The stream is used up with bytes still owed: what that is depends on the source's end (R49, R153). -/
def atEnd {α : Type} (fin : SrcEnd) (onEos : Result) : Reading α :=
  match fin with
  | .eos => .stop onEos []
  | .err e => .stop (.sourceError e) []
  | .never => .hang

/-- `parse_prefix` (R98) for any source end: the type byte and the size. -/
def parsePrefix (fin : SrcEnd) (x : List Byte) : Reading (Byte × Nat) :=
  match x with
  | [] => atEnd fin .cleanEos
  | t :: y =>
    let m := (typeLo t).toNat
    if 8 < m then .stop (.badWidth t) y
    else if y.length < m then atEnd fin (.truncated .len)
    else .value (t, leValue (y.take m)) (y.drop m)

/-- `parse1` (R98, R105) for any source end and any bound on the payload. -/
def parseFrame (cap : Option Nat) (fin : SrcEnd) (x : List Byte) : Reading (List Byte) :=
  match parsePrefix fin x with
  | .value (_, s) y =>
    if passes cap s then .stop (.resourceExhausted s) y
    else if y.length < s then atEnd fin (.truncated .payload)
    else .value (y.take s) (y.drop s)
  | .stop r y => .stop r y
  | .hang => .hang

/-- `parse1` of R98: no bound, and the stream ends with `Eos`. -/
def parse1 (x : List Byte) : Reading (List Byte) := parseFrame none .eos x

/-- The flags CHECK gives the prefix at the front of `x` (R97): none when no whole prefix is there. -/
def prefixFlags (x : List Byte) : Chk :=
  match x with
  | [] => Chk.clear
  | t :: y =>
    let m := (typeLo t).toNat
    if 8 < m then checkT t
    else if y.length < m then Chk.clear
    else check t (leValue (y.take m))

/-- `frames` (R125) with the bound `MAX_ALLOC` on each item (R127): the items in order, or the first failure. Each frame
takes at least one byte, so `fuel = |y| + 1` is enough (R125). -/
def framesFuel (cap : Option Nat) : Nat → List Byte → Except Result (List (List Byte))
  | 0, _ => .ok []
  | fuel + 1, y =>
    match parseFrame cap .eos y with
    | .value p y' =>
      match framesFuel cap fuel y' with
      | .ok ps => .ok (p :: ps)
      | .error r => .error r
    | .stop .cleanEos _ => .ok []
    | .stop r _ => .error r
    | .hang => .ok []

def frames (cap : Option Nat) (y : List Byte) : Except Result (List (List Byte)) := framesFuel cap (y.length + 1) y

/-- The or of the flags over every inner prefix parsed, the one that failed included (R131). -/
def framesFlagsFuel (cap : Option Nat) : Nat → List Byte → Chk
  | 0, _ => Chk.clear
  | fuel + 1, y =>
    match parseFrame cap .eos y with
    | .value _ y' => (prefixFlags y).or (framesFlagsFuel cap fuel y')
    | .stop _ _ => prefixFlags y
    | .hang => Chk.clear

def framesFlags (cap : Option Nat) (y : List Byte) : Chk := framesFlagsFuel cap (y.length + 1) y

/-- `decode_list` (R125) for any source end: the outer payload is bounded by `IBUF_CAP` (R126), each item by `MAX_ALLOC`. -/
def decodeListOf (cfg : Config) (fin : SrcEnd) (x : List Byte) : Reading (List (List Byte)) :=
  match parseFrame cfg.ibufCap fin x with
  | .value outer rest =>
    match frames cfg.maxAlloc outer with
    | .ok items => .value items rest
    | .error r => .stop r rest
  | .stop r y => .stop r y
  | .hang => .hang

/-- The flags DECODE_LIST leaves (R131). -/
def decodeListFlags (cfg : Config) (fin : SrcEnd) (x : List Byte) : Chk :=
  match parseFrame cfg.ibufCap fin x with
  | .value outer _ => (prefixFlags x).or (framesFlags cfg.maxAlloc outer)
  | _ => prefixFlags x

end Sys2Proof.Machine
end

