-- ==== Sys2Proof/Machine/Flags.lean ====
section
/-! DEFINITION. The status of the two units: the codes of the result kinds (60_exceptions.md R147), which kinds set `POISON`
(10_state.md R27), and the read-only status registers as the host reads them (R26, R28). The five checker flags are
computed in Codec.lean (`check`, `checkT`). -/

namespace Sys2Proof.Machine

/-- The 3-bit kind code (R147). -/
def Result.code : Result → BitVec 3
  | .ok _ => 0
  | .cleanEos => 1
  | .truncated _ => 2
  | .sinkWriteFailure _ => 3
  | .insufficientBuffer _ _ => 4
  | .sourceError _ => 5
  | .resourceExhausted _ => 6
  | .badWidth _ => 7

/-- The kinds that set `POISON` (R27, R160): every failure but CLEAN_EOS. -/
def Result.poisons : Result → Bool
  | .ok _ | .cleanEos => false
  | .truncated _ | .sinkWriteFailure _ | .insufficientBuffer _ _ => true
  | .sourceError _ | .resourceExhausted _ | .badWidth _ => true

/-- `CHK` as a number: `NIB` is bit 0, `W0` bit 1, `WHI` bit 2, `WND` bit 3, `WNM` bit 4 (R28, R136). -/
def Chk.bits (c : Chk) : BitVec 5 :=
  BitVec.ofBool c.wnm ++ BitVec.ofBool c.wnd ++ BitVec.ofBool c.whi ++ BitVec.ofBool c.w0 ++ BitVec.ofBool c.nib

/-- `DEC_STAT` (R26): `BUSY` bit 0, `POISON` bit 1, `RESULT` bits 4:2, `CHK` bits 9:5, all others 0. The width of 16 bits is
this model's (assumption log 12). -/
def DecUnit.stat (u : DecUnit) : BitVec 16 :=
  (u.chk.bits ++ u.result ++ BitVec.ofBool u.poison ++ BitVec.ofBool u.busy).zeroExtend 16

/-- `ENC_STAT` (R26): `BUSY` bit 0, `POISON` bit 1, `RESULT` bits 4:2, all others 0. -/
def EncUnit.stat (u : EncUnit) : BitVec 16 :=
  (u.result ++ BitVec.ofBool u.poison ++ BitVec.ofBool u.busy).zeroExtend 16

end Sys2Proof.Machine
end

