-- ==== Sys2Proof/Machine/Operands.lean ====
section
/-! DEFINITION. The operand forms of the commands (30_encoding.md R78, 10_state.md R31) and their contracts: what a command reads
from the command port, and when its operand is outside the contract, so that the command is refused (60_exceptions.md R169). -/

namespace Sys2Proof.Machine

/-- A byte sequence whose length fits the 64-bit length field (R87, R108, D27). -/
def fits64 (x : List Byte) : Bool := decide (x.length < 2 ^ 64)

/-- ENCODE's operand: a payload of fewer than `2^64` bytes (R86, R87). -/
def Operands.encodeOk (o : Operands) : Bool := fits64 o.payload

/-- The length of `IBUF_E` once every item is framed (R120): the sum of `1 + m_enc(|p|) + |p|` over the items. -/
def framedLength : List (List Byte) → Nat
  | [] => 0
  | p :: ps => 1 + mEnc p.length + p.length + framedLength ps

/-- ENCODE_LIST's operand (R119, R123): every item is shorter than `2^64`, and so is the whole of the inner frames, unless
`IBUF_CAP` stops the operation with RESOURCE_EXHAUSTED before they are all there (assumption log 11). -/
def Operands.encodeListOk (cfg : Config) (o : Operands) : Bool :=
  o.items.all fits64 && (decide (framedLength o.items < 2 ^ 64) || passes cfg.ibufCap (framedLength o.items))

/-- READ_INTO's operand: a caller buffer of `B` bytes, `0 ≤ B < 2^64` (R31, R108). -/
def Operands.readIntoOk (o : Operands) : Bool := fits64 o.buf

end Sys2Proof.Machine
end

