-- ==== Sys2Proof/Machine/Ops.lean ====
section
/-! DEFINITION. The shared operations of both units: the source and sink primitives (20_memory.md R40 to R44, R52), the delivery
of a result (60_exceptions.md R160, which stands where taking an exception stands in a processor: there is no handler and no
return, R163), the emission with its short-write check (R50, R51), and the admission of a command (R27, R29, R169). -/

namespace Sys2Proof.Machine

/-! ### The source (R40, R41) -/

/-- The source hands over `d` bytes in answer to a request for `n`, with `cuts` left to choose from. -/
def Source.handOver (src : Source) (n d : Nat) (cuts : List Nat) : SrcReply × Source :=
  (.data (src.rem.take d), { src with rem := src.rem.drop d, cuts := cuts, asked := src.asked ++ [n] })

/-- `SrcRead(n)` against a bound source (R40, R41): the response and the source after it, or `none` while no answer is listed and
none comes of itself (R60). A choice outside `0 ≤ k ≤ min(n, |rem|)` stands for the nearest one inside it (assumption log 5). A
source that answers with no bytes for ever gives each such answer as a choice of its own, `Source.starve`. -/
def Source.answer (src : Source) (n : Nat) : Option (SrcReply × Source) :=
  match src.rem with
  | [] =>
    match src.fin with
    | .eos => some (.eos, { src with asked := src.asked ++ [n] })
    | .err e => some (.err e, { src with asked := src.asked ++ [n] })
    | .never => none
  | _ :: _ =>
    match src.cuts with
    | k :: ks => some (src.handOver n (min k (min n src.rem.length)) ks)
    | [] =>
      match src.later with
      | .prompt => some (src.handOver n (min n src.rem.length) [])
      | .silent | .empty => none

/-- The source has bytes left, and answers every request with `Data([])` from here on (R60). -/
def Source.starves (src : Source) : Bool := !src.rem.isEmpty && src.cuts.isEmpty && src.later == .empty

/-- The next request is answered with `Data([])`. -/
def Source.starve (src : Source) : Source := { src with cuts := [0] }

/-- `IBUF_D` read as a source (R52): its bytes in order, then `Eos`, never an error, never blocking. -/
def ibufAnswer (ibuf : List Byte) (n : Nat) : SrcReply × List Byte :=
  match ibuf with
  | [] => (.eos, [])
  | _ :: _ => (.data (ibuf.take n), ibuf.drop n)

/-- `SrcRead(n)` from the source `DEC.SEL` selects (R18, R47). -/
def Dec.srcRead (d : Dec) (n : Nat) : Option (SrcReply × Dec) :=
  match d.unit.sel with
  | .src =>
    match d.src.answer n with
    | some (r, src) => some (r, { d with src := src })
    | none => none
  | .ibuf =>
    some ((ibufAnswer d.unit.ibuf n).1, { d with unit := { d.unit with ibuf := (ibufAnswer d.unit.ibuf n).2 } })

/-- A draw of READ_INTO (R108): the next one listed, or else a free value. -/
def Dec.draw (d : Dec) : Bool × Dec :=
  match d.draws with
  | b :: bs => (b, { d with draws := bs })
  | [] => (Config.freeDraw d.tick, { d with tick := d.tick + 1 })

/-- `k` bytes the spec calls unspecified (R115). -/
def freeBytes (tick k : Nat) : List Byte := (List.range k).map (fun i => Config.freeByte (tick + i))

/-! ### The sink (R43, R44, R52) -/

/-- `SinkWrite(x)` to a bound sink: the response and the sink after it, or `none` while the request is not answered (R60).
After an error the sink has accepted a prefix the block does not learn (R44). A choice outside `0 ≤ k ≤ |x|` stands for
the nearest one inside it (assumption log 5). -/
def Sink.answer (snk : Sink) (x : List Byte) : Option (SinkReply × Sink) :=
  match snk.answers with
  | .wrote k :: as =>
    some (.wrote (min k x.length),
      { snk with acc := snk.acc ++ x.take (min k x.length), answers := as, offered := snk.offered ++ [x] })
  | .err e j :: as =>
    some (.err e, { snk with acc := snk.acc ++ x.take (min j x.length), answers := as, offered := snk.offered ++ [x] })
  | [] =>
    match snk.later with
    | .prompt => some (.wrote x.length, { snk with acc := snk.acc ++ x, offered := snk.offered ++ [x] })
    | .silent => none

/-- `SinkWrite(x)` to where `ENC.DST` points (R19, R52): `IBUF_E` takes every write whole, up to `IBUF_CAP`. -/
def Enc.sinkWrite (cfg : Config) (e : Enc) (x : List Byte) : Option (SinkReply × Enc) :=
  match e.unit.dst with
  | .snk =>
    match e.snk.answer x with
    | some (r, snk) => some (r, { e with snk := snk })
    | none => none
  | .ibuf =>
    if passes cfg.ibufCap (e.unit.ibuf.length + x.length) then
      some (.full (e.unit.ibuf.length + x.length), e)
    else
      some (.wrote x.length, { e with unit := { e.unit with ibuf := e.unit.ibuf ++ x } })

/-! ### Delivering a result (R160) -/

/-- ENC ends its operation with `r`: idle, not busy, `RESULT` and `POISON` as the kind says, the result handed to the host. -/
def Enc.finish (e : Enc) (r : Result) : Enc :=
  { e with unit :=
    { e.unit with
      phase := .idle
      busy := false
      result := r.code
      poison := e.unit.poison || r.poisons
      out := e.unit.out ++ [{ op := e.unit.op, result := r }] } }

/-- DEC ends its operation with `r`, likewise; the host gets the checker flags with it (R80). -/
def Dec.finish (d : Dec) (r : Result) : Dec :=
  { d with unit :=
    { d.unit with
      phase := .idle
      busy := false
      result := r.code
      poison := d.unit.poison || r.poisons
      out := d.unit.out ++ [{ op := d.unit.op, result := r, chk := d.unit.chk }] } }

/-- The whole of READ_INTO's buffer becomes unspecified (R115). -/
def Dec.spoilBuf (d : Dec) : Dec :=
  { d with
    unit := { d.unit with buf := freeBytes d.tick d.unit.buf.length }
    tick := d.tick + d.unit.buf.length }

/-- `buf[n..B)` becomes unspecified (R115). -/
def Dec.spoilBufFrom (d : Dec) (n : Nat) : Dec :=
  { d with
    unit := { d.unit with buf := d.unit.buf.take n ++ freeBytes d.tick (d.unit.buf.length - n) }
    tick := d.tick + (d.unit.buf.length - n) }

/-- READ_INTO has begun to hand out room in its buffer (R111, R115). -/
def DecUnit.bufHandedOut (u : DecUnit) : Bool :=
  u.op == .readInto && (u.phase == .pay || u.phase == .over)

/-- DEC runs an inner frame of a DECODE_LIST (R128). -/
def DecUnit.inner (u : DecUnit) : Bool := u.op == .decodeList && u.sel == .ibuf

/-- A failure of the parse in progress ends the operation with it (R158, R160). An inner failure of DECODE_LIST discards the
items and leaves the or of all flags (R129, R131); READ_INTO leaves its buffer unspecified once it has handed out room in it, and
untouched before (R115, 92_eei_decisions.md D16 f, assumption log 10). -/
def Dec.fail (d : Dec) (r : Result) : Dec :=
  if d.unit.inner then
    { d with unit := { d.unit with chk := d.unit.flags.or d.unit.chk, items := [] } }.finish r
  else if d.unit.bufHandedOut then d.spoilBuf.finish r
  else d.finish r

/-! ### Emission (R50, R51) -/

/-- `Emit(x)`, then `k`: one `SinkWrite`, and on success `CNT` grows by `|x|`; a short write or an error ends the operation.
An empty `x` makes a request only if `ZERO_LEN_WRITE` (R51). `none` while the request is not answered. -/
def Enc.emit (cfg : Config) (e : Enc) (x : List Byte) (k : Enc → Enc) : Option Enc :=
  if x.isEmpty && !cfg.zeroLenWrite then some (k e)
  else
    match e.sinkWrite cfg x with
    | none => none
    | some (.wrote n, e') =>
      if n = x.length then
        some (k { e' with unit := { e'.unit with cnt := e'.unit.cnt + BitVec.ofNat 65 x.length } })
      else some (e'.finish (.sinkWriteFailure (.short n)))
    | some (.err er, e') => some (e'.finish (.sinkWriteFailure (.err er)))
    | some (.full size, e') => some (e'.finish (.resourceExhausted size))

/-! ### Admission of a command (R27, R29, R169) -/

/-- A command to a unit with these status bits is refused, or goes on. -/
def admitted (busy poison operandOk : Bool) (s : State) : Host.Outcome State Fault Refusal :=
  if busy then .refused .unitBusy
  else if poison then .refused .unitPoisoned
  else if !operandOk then .refused .operandTooLong
  else .next s

end Sys2Proof.Machine
end

