-- ==== Sys2Proof/Machine/Decoder.lean ====
section
/-! DEFINITION. The decoder unit: the phase machine of 10_state.md R23, and on it PEEK_SIZE, READ_BYTES and READ_INTO
(41_decoder.md R103, R105, R108), DECODE_LIST (42_listcodec.md R125, R128) and the twelve classes of type byte DEC takes
(30_encoding.md R75 to R77). A command runs until its result, or until a request to the source is not answered, or would be
answered with no bytes for ever (assumption log 8). -/

namespace Sys2Proof.Machine

/-! ### Entering a phase (R23) -/

/-- Entry to phase TYPE: the scratch buffer, the counter and the flags are cleared (R20, R23, R97). -/
def Dec.enterType (d : Dec) : Dec :=
  { d with unit :=
    { d.unit with
      phase := .type
      lb := Vector.replicate 8 0
      n := 0
      chk := Chk.clear } }

/-- Entry to phase PAY; READ_BYTES makes a fresh payload (R106). -/
def Dec.enterPay (d : Dec) : Dec := { d with unit := { d.unit with phase := .pay, pay := [] } }

/-- READ_INTO ends with `Ok(N)`; the rest of the buffer is unspecified (R112, R115). -/
def Dec.finishReadInto (d : Dec) : Dec :=
  (d.spoilBufFrom d.unit.n.toNat).finish (.ok (.filled d.unit.n))

/-- The outer payload of DECODE_LIST is in `IBUF_D`; the first inner frame begins (R125). -/
def Dec.outerDone (d : Dec) : Dec :=
  { d with unit := { d.unit with sel := .ibuf, items := [], flags := d.unit.chk } }.enterType

/-- An inner payload is complete: it joins the list, and the next inner frame begins (R125, R127). -/
def Dec.innerDone (d : Dec) (p : List Byte) : Dec :=
  { d with unit :=
    { d.unit with
      items := d.unit.items ++ [p]
      flags := d.unit.flags.or d.unit.chk } }.enterType

/-- `IBUF_D` is used up: the normal end of DECODE_LIST (R127, R131). -/
def Dec.listDone (d : Dec) : Dec :=
  { d with unit := { d.unit with chk := d.unit.flags.or d.unit.chk } }.finish (.ok (.items d.unit.items))

/-! ### The size is known (R23, R106, R110, R126) -/

/-- The whole payload has arrived: what is done with it. -/
def Dec.payDone (d : Dec) : Dec :=
  match d.unit.op with
  | .peekSize => d
  | .readBytes => d.finish (.ok (.payload d.unit.pay))
  | .readInto => { d with unit := { d.unit with phase := .over } }
  | .decodeList => if d.unit.sel = .src then d.outerDone else d.innerDone d.unit.pay

/-- The bound on the payload being read (R106, R126, R127): `IBUF_CAP` for the outer frame of DECODE_LIST, else `MAX_ALLOC`. -/
def DecUnit.bound (cfg : Config) (u : DecUnit) : Option Nat :=
  match u.op, u.sel with
  | .decodeList, .src => cfg.ibufCap
  | _, _ => cfg.maxAlloc

/-- The row "size known" of R23 once `S` and the flags are in: the size is delivered, checked against its bound, or the
payload read begins (which is over at once when `S = 0`, R48). -/
def Dec.afterSize (cfg : Config) (d : Dec) : Dec :=
  match d.unit.op with
  | .peekSize => d.finish (.ok (.size d.unit.s))
  | .readBytes =>
    if passes (d.unit.bound cfg) d.unit.s.toNat then d.fail (.resourceExhausted d.unit.s.toNat)
    else if d.unit.s = 0 then d.enterPay.payDone
    else d.enterPay
  | .readInto =>
    if d.unit.buf.length < d.unit.s.toNat then
      d.fail (.insufficientBuffer d.unit.s (BitVec.ofNat 64 d.unit.buf.length))
    else if d.unit.s = 0 then d.enterPay.payDone
    else d.enterPay
  | .decodeList =>
    if passes (d.unit.bound cfg) d.unit.s.toNat then d.fail (.resourceExhausted d.unit.s.toNat)
    else if d.unit.s = 0 then d.enterPay.payDone
    else d.enterPay

/-- The step "size known" (R23, R97): `S <- le_value(LB)`, the flags from CHECK, `N <- 0`. -/
def Dec.sizeKnown (cfg : Config) (d : Dec) : Dec :=
  { d with unit :=
    { d.unit with
      s := BitVec.ofNat 64 (leValue d.unit.lb.toList)
      chk := check d.unit.t (leValue d.unit.lb.toList)
      n := 0 } }.afterSize cfg

/-! ### A type byte arrives (R23, R97, R99, R101) -/

/-- The type byte and its width are latched. -/
def Dec.latchType (d : Dec) (t : Byte) : Dec :=
  { d with unit := { d.unit with t := t, m := typeLo t, n := 0 } }

/-- A width of 0: the prefix is complete, no length byte is read (R76, R102). -/
def Dec.takeWidthZero (cfg : Config) (d : Dec) (t : Byte) : Dec := (d.latchType t).sizeKnown cfg

/-- A width of 1 to 8: the length field comes next (R75, R100). -/
def Dec.takeWidth (d : Dec) (t : Byte) : Dec :=
  { d.latchType t with unit := { (d.latchType t).unit with phase := .len } }

/-- A width of 9 to 15: BAD_WIDTH at once (R77, R101). -/
def Dec.takeBadWidth (d : Dec) (t : Byte) : Dec :=
  { d.latchType t with unit := { (d.latchType t).unit with chk := checkT t } }.fail (.badWidth t)

/-- A type byte arrives in phase TYPE, of whatever class (R75). -/
def Dec.takeType (cfg : Config) (d : Dec) (t : Byte) : Dec :=
  if (typeLo t).toNat = 0 then d.takeWidthZero cfg t
  else if (typeLo t).toNat ≤ 8 then d.takeWidth t
  else d.takeBadWidth t

/-! ### One transaction (R23) -/

/-- `LB[n ..) <- b` (R23). -/
def writeLb (lb : Vector Byte 8) (n : Nat) : List Byte → Vector Byte 8
  | [] => lb
  | b :: bs => writeLb (lb.setIfInBounds n b) (n + 1) bs

/-- `buf[n ..) <- b` (R108). -/
def writeBuf (buf : List Byte) (n : Nat) (b : List Byte) : List Byte := buf.take n ++ b ++ buf.drop (n + b.length)

/-- `N <- N + |b|`. -/
def DecUnit.advance (u : DecUnit) (b : List Byte) : Size := u.n + BitVec.ofNat 64 b.length

/-- `Eos` in phase TYPE: a clean end of the stream (R99, R149), which on `IBUF_D` ends the list (R127). -/
def Dec.eosInType (d : Dec) : Dec := if d.unit.inner then d.listDone else d.finish .cleanEos

/-- Phase TYPE: a request for the one type byte (R97, R99). -/
def Dec.tickType (cfg : Config) (d : Dec) : Option Dec :=
  match d.srcRead 1 with
  | none => none
  | some (.data [], d') => some d'
  | some (.data (t :: _), d') => some (d'.takeType cfg t)
  | some (.eos, d') => some d'.eosInType
  | some (.err e, d') => some (d'.fail (.sourceError e))

/-- Length bytes arrive (R100). -/
def Dec.takeLen (cfg : Config) (d : Dec) (b : List Byte) : Dec :=
  let d' : Dec := { d with unit := { d.unit with lb := writeLb d.unit.lb d.unit.n.toNat b, n := d.unit.advance b } }
  if d'.unit.n.toNat < d'.unit.m.toNat then d' else d'.sizeKnown cfg

/-- Phase LEN: a request for the length bytes still missing (R97, R100). -/
def Dec.tickLen (cfg : Config) (d : Dec) : Option Dec :=
  match d.srcRead (d.unit.m.toNat - d.unit.n.toNat) with
  | none => none
  | some (.data b, d') => some (d'.takeLen cfg b)
  | some (.eos, d') => some (d'.fail (.truncated .len))
  | some (.err e, d') => some (d'.fail (.sourceError e))

/-- The payload bytes `b` go where the operation keeps them: the caller's buffer (R111), `IBUF_D` for an outer frame
(R126), the fresh payload otherwise (R106). -/
def Dec.store (d : Dec) (b : List Byte) : Dec :=
  { d with unit :=
    match d.unit.op with
    | .readInto => { d.unit with buf := writeBuf d.unit.buf d.unit.n.toNat b, n := d.unit.advance b }
    | .decodeList =>
      match d.unit.sel with
      | .src => { d.unit with ibuf := d.unit.ibuf ++ b, n := d.unit.advance b }
      | .ibuf => { d.unit with pay := d.unit.pay ++ b, n := d.unit.advance b }
    | _ => { d.unit with pay := d.unit.pay ++ b, n := d.unit.advance b } }

/-- Payload bytes arrive. -/
def Dec.takePay (d : Dec) (b : List Byte) : Dec :=
  if (d.store b).unit.n.toNat < (d.store b).unit.s.toNat then d.store b else (d.store b).payDone

/-- The size of a request for payload: what is still missing of the frame, or, for READ_INTO, the room left in the caller's
buffer (R23, R111). -/
def DecUnit.payRequest (u : DecUnit) : Nat :=
  match u.op with
  | .readInto => u.buf.length - u.n.toNat
  | _ => u.s.toNat - u.n.toNat

/-- Phase PAY (R106, R111). -/
def Dec.tickPay (d : Dec) : Option Dec :=
  match d.srcRead d.unit.payRequest with
  | none => none
  | some (.data b, d') => some (d'.takePay b)
  | some (.eos, d') => some (d'.fail (.truncated .payload))
  | some (.err e, d') => some (d'.fail (.sourceError e))

/-- A source error during the over-read: OK or SOURCE_ERROR, either (R114). -/
def Dec.errInOver (d : Dec) (e : EnvError) : Dec :=
  let (stop, d') := d.draw
  if stop then d'.finishReadInto else d'.fail (.sourceError e)

/-- Phase OVER (R113): READ_INTO stops when the buffer is full or when it chooses to, or asks again. -/
def Dec.tickOver (d : Dec) : Option Dec :=
  if d.unit.buf.length ≤ d.unit.n.toNat then some d.finishReadInto
  else
    let (go, d') := d.draw
    if go then
      match d'.srcRead (d'.unit.buf.length - d'.unit.n.toNat) with
      | none => none
      | some (.data b, d'') => some (d''.store b)
      | some (.eos, d'') => some d''.finishReadInto
      | some (.err e, d'') => some (d''.errInOver e)
    else some d'.finishReadInto

/-- One transaction of DEC (R23), or `none` when it is idle or its request is not answered. -/
def Dec.transact (cfg : Config) (d : Dec) : Option Dec :=
  if d.unit.busy then
    match d.unit.phase with
    | .idle => none
    | .type => d.tickType cfg
    | .len => d.tickLen cfg
    | .pay => d.tickPay
    | .over => d.tickOver
  else none

/-- What DEC does when its turn comes: one transaction (R23); against a source that answers with no bytes for ever, each answer
`Data([])` is one (R60). -/
def Dec.turn (cfg : Config) (d : Dec) : Option Dec :=
  match d.transact cfg with
  | some d' => some d'
  | none => if d.src.starves then { d with src := d.src.starve }.transact cfg else none

/-- An upper bound on the transactions DEC still makes (R190), the empty answers of a source that starves it apart: each uses up a
chunking choice, takes a byte from the source or from `IBUF_D`, or ends the operation. -/
def Dec.work (d : Dec) : Nat :=
  if d.unit.busy then 1 + d.src.cuts.length + 2 * d.src.rem.length + d.unit.ibuf.length else 0

/-- DEC takes up to `fuel` transactions, as long as its source answers and does not starve it. -/
def Dec.run (cfg : Config) : Nat → Dec → Dec
  | 0, d => d
  | fuel + 1, d =>
    match d.transact cfg with
    | some d' => Dec.run cfg fuel d'
    | none => d

/-- DEC runs on until its result, or until a request is not answered, or would be answered with no bytes for ever (R60: such a run
has no end; it goes on a turn at a time, assumption log 8). -/
def Dec.runOn (cfg : Config) (d : Dec) : Dec := Dec.run cfg d.work d

/-! ### The commands -/

/-- A command is accepted (R23): `BUSY <- 1`, the bound source is selected, phase TYPE begins. -/
def Dec.accept (d : Dec) (op : DecOp) : Dec :=
  { d with unit := { d.unit with op := op, busy := true, sel := .src } }.enterType

/-- READ_INTO is accepted with the caller's buffer (R31, R108). -/
def Dec.acceptReadInto (d : Dec) (buf : List Byte) : Dec :=
  { d.accept .readInto with unit := { (d.accept .readInto).unit with buf := buf } }

/-- DECODE_LIST is accepted: `IBUF_D` is emptied (R30, R125). -/
def Dec.acceptDecodeList (d : Dec) : Dec :=
  { d.accept .decodeList with
    unit := { (d.accept .decodeList).unit with ibuf := [], items := [], flags := Chk.clear } }

/-- PEEK_SIZE (R103). -/
def execPeekSize (s : State) : Host.Outcome State Fault Refusal :=
  admitted s.dec.unit.busy s.dec.unit.poison true
    { s with dec := (s.dec.accept .peekSize).runOn s.cfg }

/-- READ_BYTES (R105). -/
def execReadBytes (s : State) : Host.Outcome State Fault Refusal :=
  admitted s.dec.unit.busy s.dec.unit.poison true
    { s with dec := (s.dec.accept .readBytes).runOn s.cfg }

/-- READ_INTO (R108). -/
def execReadInto (s : State) : Host.Outcome State Fault Refusal :=
  admitted s.dec.unit.busy s.dec.unit.poison s.cmd.readIntoOk
    { s with dec := (s.dec.acceptReadInto s.cmd.buf).runOn s.cfg }

/-- DECODE_LIST (R125). -/
def execDecodeList (s : State) : Host.Outcome State Fault Refusal :=
  admitted s.dec.unit.busy s.dec.unit.poison true
    { s with dec := s.dec.acceptDecodeList.runOn s.cfg }

/-! ### The classes of type byte DEC takes (R75 to R77) -/

/-- DEC awaits a type byte. -/
def DecUnit.typeDue (u : DecUnit) : Bool := u.busy && u.phase == .type

/-- A type byte that has just arrived has the effect `k`, if DEC awaits one. -/
def takeTypeRow (k : Dec → Dec) (s : State) : Host.Outcome State Fault Refusal :=
  if s.dec.unit.typeDue then .next { s with dec := k s.dec } else .refused .typeByteNotDue

/-- DEC_WIDTH_0: a one-byte frame (R76). -/
def execDecWidth0 (hi : Nibble) (s : State) : Host.Outcome State Fault Refusal :=
  takeTypeRow (fun d => d.takeWidthZero s.cfg (typeByte hi 0)) s

/-- DEC_WIDTH_1. -/
def execDecWidth1 (hi : Nibble) (s : State) : Host.Outcome State Fault Refusal :=
  takeTypeRow (fun d => d.takeWidth (typeByte hi 1)) s

/-- DEC_WIDTH_2. -/
def execDecWidth2 (hi : Nibble) (s : State) : Host.Outcome State Fault Refusal :=
  takeTypeRow (fun d => d.takeWidth (typeByte hi 2)) s

/-- DEC_WIDTH_3. -/
def execDecWidth3 (hi : Nibble) (s : State) : Host.Outcome State Fault Refusal :=
  takeTypeRow (fun d => d.takeWidth (typeByte hi 3)) s

/-- DEC_WIDTH_4. -/
def execDecWidth4 (hi : Nibble) (s : State) : Host.Outcome State Fault Refusal :=
  takeTypeRow (fun d => d.takeWidth (typeByte hi 4)) s

/-- DEC_WIDTH_5. -/
def execDecWidth5 (hi : Nibble) (s : State) : Host.Outcome State Fault Refusal :=
  takeTypeRow (fun d => d.takeWidth (typeByte hi 5)) s

/-- DEC_WIDTH_6. -/
def execDecWidth6 (hi : Nibble) (s : State) : Host.Outcome State Fault Refusal :=
  takeTypeRow (fun d => d.takeWidth (typeByte hi 6)) s

/-- DEC_WIDTH_7. -/
def execDecWidth7 (hi : Nibble) (s : State) : Host.Outcome State Fault Refusal :=
  takeTypeRow (fun d => d.takeWidth (typeByte hi 7)) s

/-- DEC_WIDTH_8. -/
def execDecWidth8 (hi : Nibble) (s : State) : Host.Outcome State Fault Refusal :=
  takeTypeRow (fun d => d.takeWidth (typeByte hi 8)) s

/-- DEC_WIDTH_9: BAD_WIDTH (R77, R101). -/
def execDecWidth9 (hi : Nibble) (s : State) : Host.Outcome State Fault Refusal :=
  takeTypeRow (fun d => d.takeBadWidth (typeByte hi 9)) s

/-- DEC_WIDTH_10_11: BAD_WIDTH (R77, R101). -/
def execDecWidth10to11 (hi m : Nibble) (s : State) : Host.Outcome State Fault Refusal :=
  takeTypeRow (fun d => d.takeBadWidth (typeByte hi m)) s

/-- DEC_WIDTH_12_15: BAD_WIDTH (R77, R101). -/
def execDecWidth12to15 (hi m : Nibble) (s : State) : Host.Outcome State Fault Refusal :=
  takeTypeRow (fun d => d.takeBadWidth (typeByte hi m)) s

end Sys2Proof.Machine
end

