-- ==== Sys2Proof/Machine/Encoder.lean ====
section
/-! DEFINITION. The encoder unit: the phase machine of 10_state.md R24, and on it ENCODE (40_encoder.md R86), ENCODE_LIST
(42_listcodec.md R119, R122) and the four type bytes ENC emits (30_encoding.md R64, R89). A command runs until its result, or until a
request to the sink is not answered (assumption log 8). -/

namespace Sys2Proof.Machine

/-! ### The phase machine (R24) -/

/-- The frame of `p` begins (R87, R88): the size, the width, the count. -/
def Enc.startFrame (e : Enc) (p : List Byte) : Enc :=
  { e with unit :=
    { e.unit with
      payload := p
      s := BitVec.ofNat 64 p.length
      m := BitVec.ofNat 4 (mEnc p.length)
      cnt := 0
      phase := .wType } }

/-- The next cycle of ENCODE_LIST (R119, R122): the next item into `IBUF_E`, or `IBUF_E` itself into the bound sink. -/
def Enc.nextFrame (e : Enc) : Enc :=
  match e.unit.items.drop e.unit.idx with
  | p :: _ => { e with unit := { e.unit with idx := e.unit.idx + 1, dst := .ibuf } }.startFrame p
  | [] => { e with unit := { e.unit with dst := .snk } }.startFrame e.unit.ibuf

/-- A whole frame has been emitted: an inner one leads to the next cycle (R122), any other ends the operation with the byte
count (R92, R123). -/
def Enc.frameDone (e : Enc) : Enc :=
  match e.unit.dst with
  | .ibuf => e.nextFrame
  | .snk => e.finish (.ok (.count e.unit.cnt))

/-- Phase W_TYPE (R89): the type byte `t` is emitted. -/
def Enc.emitType (cfg : Config) (t : Byte) (e : Enc) : Option Enc :=
  e.emit cfg [t] (fun e => { e with unit := { e.unit with phase := .wLen } })

/-- Phase W_LEN (R90): the low `M` bytes of `S`, little-endian. -/
def Enc.emitLen (cfg : Config) (e : Enc) : Option Enc :=
  e.emit cfg (leBytes e.unit.s.toNat e.unit.m.toNat) (fun e => { e with unit := { e.unit with phase := .wPay } })

/-- Phase W_PAY (R91): the payload. -/
def Enc.emitPay (cfg : Config) (e : Enc) : Option Enc := e.emit cfg e.unit.payload Enc.frameDone

/-- One transaction of ENC (R24), or `none` when it is idle or its request is not answered. -/
def Enc.transact (cfg : Config) (e : Enc) : Option Enc :=
  if e.unit.busy then
    match e.unit.phase with
    | .idle => none
    | .wType => e.emitType cfg (encTypeByte e.unit.m)
    | .wLen => e.emitLen cfg
    | .wPay => e.emitPay cfg
  else none

/-- Transactions still to come in the frame being emitted. -/
def EncPhase.left : EncPhase → Nat
  | .idle => 0
  | .wType => 3
  | .wLen => 2
  | .wPay => 1

/-- An upper bound on the transactions ENC still makes (R190: three for each frame). -/
def Enc.work (e : Enc) : Nat :=
  if e.unit.busy then
    e.unit.phase.left
      + (match e.unit.dst with
         | .ibuf => 3 * ((e.unit.items.length - e.unit.idx) + 1)
         | .snk => 0)
  else 0

/-- ENC takes up to `fuel` transactions, as long as the sink answers. -/
def Enc.run (cfg : Config) : Nat → Enc → Enc
  | 0, e => e
  | fuel + 1, e =>
    match e.transact cfg with
    | some e' => Enc.run cfg fuel e'
    | none => e

/-- ENC runs on until its result, or until a request is not answered. -/
def Enc.runOn (cfg : Config) (e : Enc) : Enc := Enc.run cfg e.work e

/-! ### The commands -/

/-- ENCODE is accepted (R24, R86). -/
def Enc.acceptEncode (e : Enc) (payload : List Byte) : Enc :=
  { e with unit := { e.unit with op := .encode, busy := true, dst := .snk } }.startFrame payload

/-- ENCODE_LIST is accepted (R119, R120): `IBUF_E` is emptied and the first cycle begins. -/
def Enc.acceptEncodeList (e : Enc) (items : List (List Byte)) : Enc :=
  { e with unit := { e.unit with op := .encodeList, busy := true, ibuf := [], items := items, idx := 0 } }.nextFrame

/-- ENCODE (R86). -/
def execEncode (s : State) : Host.Outcome State Fault Refusal :=
  admitted s.enc.unit.busy s.enc.unit.poison s.cmd.encodeOk
    { s with enc := (s.enc.acceptEncode s.cmd.payload).runOn s.cfg }

/-- ENCODE_LIST (R119). -/
def execEncodeList (s : State) : Host.Outcome State Fault Refusal :=
  admitted s.enc.unit.busy s.enc.unit.poison (s.cmd.encodeListOk s.cfg)
    { s with enc := (s.enc.acceptEncodeList s.cmd.items).runOn s.cfg }

/-! ### The type bytes ENC emits (R64, R89) -/

/-- ENC stands before the type byte of width `m`. -/
def EncUnit.typeDue (u : EncUnit) (m : Nibble) : Bool := u.busy && u.phase == .wType && u.m == m

/-- The type byte of width `m` goes to where `DST` points, if ENC stands before it; while the sink does not answer, ENC stays
where it is (R60). -/
def emitTypeRow (m : Nibble) (s : State) : Host.Outcome State Fault Refusal :=
  if s.enc.unit.typeDue m then
    match s.enc.emitType s.cfg (encTypeByte m) with
    | some e => .next { s with enc := e }
    | none => .next s
  else .refused .typeByteNotDue

/-- TYPE_F1: width 1, `0 ≤ s < 2^8`. -/
def execTypeF1 (s : State) : Host.Outcome State Fault Refusal := emitTypeRow 1 s

/-- TYPE_F2: width 2, `2^8 ≤ s < 2^16`. -/
def execTypeF2 (s : State) : Host.Outcome State Fault Refusal := emitTypeRow 2 s

/-- TYPE_F4: width 4, `2^16 ≤ s < 2^32`. -/
def execTypeF4 (s : State) : Host.Outcome State Fault Refusal := emitTypeRow 4 s

/-- TYPE_F8: width 8, `2^32 ≤ s < 2^64`. -/
def execTypeF8 (s : State) : Host.Outcome State Fault Refusal := emitTypeRow 8 s

end Sys2Proof.Machine
end

