-- ==== Sys2Proof/Machine/Reserved.lean ====
section
/-! DEFINITION. The two reserved command codes (30_encoding.md R79): a command with such a code selects no operation and is
refused; no state changes, no stream is touched, no result is produced. -/

namespace Sys2Proof.Machine

/-- RESERVED_000 (R79). -/
def execReserved000 (_ : State) : Host.Outcome State Fault Refusal := .refused .reservedCommand

/-- RESERVED_011 (R79). -/
def execReserved011 (_ : State) : Host.Outcome State Fault Refusal := .refused .reservedCommand

end Sys2Proof.Machine
end

