-- ==== Sys2Proof/Machine/Dispatch.lean ====
section
/-! DEFINITION. One arm for each row of the opcode table. -/

namespace Sys2Proof.Machine

def exec (i : Instr) (s : State) : Host.Outcome State Fault Refusal :=
  match i with
  -- format CMD
  | .encode => Sys2Proof.Machine.execEncode s
  | .encodeList => Sys2Proof.Machine.execEncodeList s
  | .peekSize => Sys2Proof.Machine.execPeekSize s
  | .readBytes => Sys2Proof.Machine.execReadBytes s
  | .readInto => Sys2Proof.Machine.execReadInto s
  | .decodeList => Sys2Proof.Machine.execDecodeList s
  | .reserved000 => Sys2Proof.Machine.execReserved000 s
  | .reserved011 => Sys2Proof.Machine.execReserved011 s
  -- format TYPE_ENC
  | .typeF1 => Sys2Proof.Machine.execTypeF1 s
  | .typeF2 => Sys2Proof.Machine.execTypeF2 s
  | .typeF4 => Sys2Proof.Machine.execTypeF4 s
  | .typeF8 => Sys2Proof.Machine.execTypeF8 s
  -- format TYPE_DEC
  | .decWidth0 hi => Sys2Proof.Machine.execDecWidth0 hi s
  | .decWidth1 hi => Sys2Proof.Machine.execDecWidth1 hi s
  | .decWidth2 hi => Sys2Proof.Machine.execDecWidth2 hi s
  | .decWidth3 hi => Sys2Proof.Machine.execDecWidth3 hi s
  | .decWidth4 hi => Sys2Proof.Machine.execDecWidth4 hi s
  | .decWidth5 hi => Sys2Proof.Machine.execDecWidth5 hi s
  | .decWidth6 hi => Sys2Proof.Machine.execDecWidth6 hi s
  | .decWidth7 hi => Sys2Proof.Machine.execDecWidth7 hi s
  | .decWidth8 hi => Sys2Proof.Machine.execDecWidth8 hi s
  | .decWidth9 hi => Sys2Proof.Machine.execDecWidth9 hi s
  | .decWidth10to11 hi m => Sys2Proof.Machine.execDecWidth10to11 hi m s
  | .decWidth12to15 hi m => Sys2Proof.Machine.execDecWidth12to15 hi m s

end Sys2Proof.Machine
end

