-- ==== Sys2Proof/Machine/Fetch.lean ====
section
/-! DEFINITION. What the machine does next. The block has no program counter and fetches no instruction from a memory (10_state.md
R21): a word comes to it in one of three places, at the command port from the host's next move (30_encoding.md R78), at ENC
when a type byte is due (R89), and at DEC when its source hands over a type byte (R99). Everything else a unit does is a
transaction of its phase machine (R23, R24). -/

namespace Sys2Proof.Machine

/-- What comes next. -/
inductive Fetched where
  /-- The instruction `i` runs at the state `s`, the word having been taken from where it stood. -/
  | run (i : Instr) (s : State)
  /-- A transaction without a word of its own, a move of the environment, or nothing. -/
  | went (s : State)
  | fault (f : Fault)
  | refuse (r : Refusal)
  deriving DecidableEq, Repr

/-! ### A turn of one unit -/

/-- The type byte DEC's source hands over at this moment, if DEC awaits one, with DEC after the request. -/
def Dec.arrivingType (d : Dec) : Option (Byte × Dec) :=
  if d.unit.typeDue then
    match d.srcRead 1 with
    | some (.data (t :: _), d') => some (t, d')
    | _ => none
  else none

/-- DEC takes one transaction (R23); a type byte that arrives is decoded and run. -/
def decTurn (s : State) : Fetched :=
  match s.dec.arrivingType with
  | some (t, d) => .run (decodeTypeDec t) { s with dec := d }
  | none =>
    match s.dec.turn s.cfg with
    | some d => .went { s with dec := d }
    | none => .went s

/-- ENC takes one transaction (R24); the type byte it is about to emit is decoded and run. -/
def encTurn (s : State) : Fetched :=
  if s.enc.unit.busy ∧ s.enc.unit.phase = .wType then
    match decodeTypeEnc (encTypeByte s.enc.unit.m) with
    | some i => .run i s
    | none => .refuse .typeByteNotDue
  else
    match s.enc.transact s.cfg with
    | some e => .went { s with enc := e }
    | none => .went s

/-! ### The moves of the world outside -/

/-- Reset (R34, R173 to R176): both units as after reset, whatever they were doing; the streams, the results already delivered
and the host's buffer stay, but for a buffer READ_INTO had begun to hand out (R115, assumption log 10). A unit may be bound to a new
stream. -/
def State.resetBlock (s : State) (source : Option Source) (sink : Option Sink) : State :=
  { s with
    enc := { unit := { EncUnit.initial with out := s.enc.unit.out }, snk := sink.getD s.enc.snk }
    dec :=
      { unit :=
          { DecUnit.initial with
            out := s.dec.unit.out
            buf := if s.dec.unit.bufHandedOut then s.dec.spoilBuf.unit.buf else s.dec.unit.buf }
        src := source.getD s.dec.src
        draws := s.dec.draws
        tick := if s.dec.unit.bufHandedOut then s.dec.spoilBuf.tick else s.dec.tick } }

/-- The host takes `k` bytes from the bound source by its own means, which it may do only while DEC is idle (R46, R182). -/
def State.hostDraw (s : State) (k : Nat) : Fetched :=
  if s.dec.unit.busy then .fault .exclusiveUseBroken
  else .went { s with dec := { s.dec with src := { s.dec.src with rem := s.dec.src.rem.drop k } } }

/-- The host presents a command (R78): the operands come to the command port, the code is decoded. -/
def State.present (s : State) (op : OpCode) (operands : Operands) : Fetched :=
  .run (decodeCmd op) { s with cmd := operands }

/-- The command `op`, with the operands at the command port, is accepted and no more (R23, R24, the rows "command accepted"), or
refused as its meaning refuses it (R169). -/
def acceptOnly (op : OpCode) (s : State) : Host.Outcome State Fault Refusal :=
  match op.toNat with
  | 1 =>
    admitted s.enc.unit.busy s.enc.unit.poison s.cmd.encodeOk { s with enc := s.enc.acceptEncode s.cmd.payload }
  | 2 =>
    admitted s.enc.unit.busy s.enc.unit.poison (s.cmd.encodeListOk s.cfg)
      { s with enc := s.enc.acceptEncodeList s.cmd.items }
  | 4 => admitted s.dec.unit.busy s.dec.unit.poison true { s with dec := s.dec.accept .peekSize }
  | 5 => admitted s.dec.unit.busy s.dec.unit.poison true { s with dec := s.dec.accept .readBytes }
  | 6 => admitted s.dec.unit.busy s.dec.unit.poison s.cmd.readIntoOk { s with dec := s.dec.acceptReadInto s.cmd.buf }
  | 7 => admitted s.dec.unit.busy s.dec.unit.poison true { s with dec := s.dec.acceptDecodeList }
  | _ => .refused .reservedCommand

/-- The host presents a command that is only accepted (assumption log 8). -/
def State.beginCommand (s : State) (op : OpCode) (operands : Operands) : Fetched :=
  match acceptOnly op { s with cmd := operands } with
  | .next s' => .went s'
  | .fault f => .fault f
  | .refused r => .refuse r

/-- One move, at the state that no longer lists it. -/
def hostMove (m : Move) (s : State) : Fetched :=
  match m with
  | .command op operands => s.present op operands
  | .begin op operands => s.beginCommand op operands
  | .reset source sink => .went (s.resetBlock source sink)
  | .draw k => s.hostDraw k
  | .sourceAnswers cuts later =>
    .went { s with dec := { s.dec with src := { s.dec.src with cuts := s.dec.src.cuts ++ cuts, later := later } } }
  | .sinkAnswers answers later =>
    .went { s with enc := { s.enc with snk := { s.enc.snk with answers := s.enc.snk.answers ++ answers, later := later } } }
  | .turn .dec => decTurn s
  | .turn .enc => encTurn s

/-! ### Who goes next -/

/-- The next move of the list; with none left, a unit that waits and can go on: DEC first, then ENC (assumption log 8: they
share nothing, so the order between them is not observable, R57 f), then a DEC whose source starves it. With nothing to do, nothing
happens (R60, R191). -/
def fetch (s : State) : Fetched :=
  match s.moves with
  | m :: rest => hostMove m { s with moves := rest }
  | [] =>
    if (s.dec.transact s.cfg).isSome then decTurn s
    else if (s.enc.transact s.cfg).isSome then encTurn s
    else decTurn s

/-! ### A word of the opcode table as the next thing to run -/

/-- The host presents the command code `w` with operands of no bytes. -/
def State.placeCommand (s : State) (w : Nat) : State :=
  { s with moves := .command (BitVec.ofNat 3 w) Operands.none :: s.moves }

/-- ENC is in ENCODE, about to emit the type byte `w`. -/
def State.placeTypeEnc (s : State) (w : Nat) : State :=
  { s with
    enc := { s.enc.acceptEncode [] with unit := { (s.enc.acceptEncode []).unit with m := typeLo (BitVec.ofNat 8 w) } }
    moves := .turn .enc :: s.moves }

/-- DEC is in READ_BYTES, awaiting a type byte, and its source hands over `w` next. -/
def State.placeTypeDec (s : State) (w : Nat) : State :=
  { s with
    dec :=
      { s.dec.accept .readBytes with
        src := { s.dec.src with rem := BitVec.ofNat 8 w :: s.dec.src.rem, cuts := 1 :: s.dec.src.cuts } }
    moves := .turn .dec :: s.moves }

/-- `s` with the word `w` where the machine takes its next word from, in the format a bare table word is read in. -/
def State.placeWord (s : State) (nbits w : Nat) : State :=
  match tableFormat nbits w with
  | .cmd => s.placeCommand w
  | .typeEnc => s.placeTypeEnc w
  | .typeDec => s.placeTypeDec w

end Sys2Proof.Machine
end

