-- ==== Sys2Proof/Machine/Step.lean ====
section
/-! DEFINITION. One step of the machine: what comes next, and, if that is an instruction, its meaning. -/

namespace Sys2Proof.Machine

def step (s : State) : Host.Outcome State Fault Refusal :=
  match fetch s with
  | .run i s' => exec i s'
  | .went s' => .next s'
  | .fault f => .fault f
  | .refuse r => .refused r

/-- `s` with the opcode-table word `w` placed so that the next step runs exactly it (assumption log 9). -/
def State.withFetchWord (s : State) (nbits w : Nat) : State := s.placeWord nbits w

end Sys2Proof.Machine
end

