-- ==== Sys2Proof/Safety.lean ====
section
/-! DEFINITION. What claims about dusk-tlv CORE are stated in: the invariant of the two units, the frames of a step, and what a
sink does with a whole sequence of writes. A run is safe when no step of it faults or is refused. -/

namespace Sys2Proof.Machine

/-! ### The invariant -/

/-- `ENC` between two transactions. -/
structure Enc.Inv (cfg : Config) (e : Enc) : Prop where
  /-- `BUSY` is 1 while an operation is in progress (R26). -/
  busy_phase : e.unit.busy = true ↔ e.unit.phase ≠ .idle
  /-- No command runs on a poisoned unit (R27). -/
  busy_clean : e.unit.busy = true → e.unit.poison = false
  /-- `POISON` stands exactly with a failure of the last operation (R27, R160); ENC never ends with CLEAN_EOS (R156). -/
  poison_result : e.unit.poison = true ↔ e.unit.result ≠ 0
  /-- The size and the width are those of the payload being emitted (R87, R88). -/
  size : e.unit.busy = true → e.unit.s = BitVec.ofNat 64 e.unit.payload.length
  width : e.unit.busy = true → e.unit.m = BitVec.ofNat 4 (mEnc e.unit.payload.length)
  /-- `CNT` counts what the frame's destination has accepted (R19, R24). -/
  count : e.unit.busy = true →
    e.unit.cnt =
      match e.unit.phase with
      | .wPay => 1 + BitVec.ofNat 65 (mEnc e.unit.payload.length)
      | .wLen => 1
      | _ => 0
  /-- Only ENCODE_LIST writes to `IBUF_E` (R19, R30). -/
  inner_list : e.unit.busy = true → e.unit.dst = .ibuf → e.unit.op = .encodeList
  /-- `IBUF_E` holds at most `IBUF_CAP` bytes (R30). -/
  ibuf_cap : passes cfg.ibufCap e.unit.ibuf.length = false

/-- `DEC` between two transactions. -/
structure Dec.Inv (cfg : Config) (d : Dec) : Prop where
  /-- `BUSY` is 1 while an operation is in progress (R26). -/
  busy_phase : d.unit.busy = true ↔ d.unit.phase ≠ .idle
  /-- No command runs on a poisoned unit (R27). -/
  busy_clean : d.unit.busy = true → d.unit.poison = false
  /-- `POISON` stands exactly with a failure other than CLEAN_EOS (R27, R160). -/
  poison_result : d.unit.poison = true ↔ d.unit.result ≠ 0 ∧ d.unit.result ≠ 1
  /-- A width off the doubling sequence is never the encoder's (R141). -/
  chk_order : d.unit.chk.wnd = true → d.unit.chk.wnm = true
  flags_order : d.unit.flags.wnd = true → d.unit.flags.wnm = true
  /-- Phase TYPE is entered with the scratch buffer, the counter and the flags clear (R20, R23). -/
  type_clear : d.unit.phase = .type →
    d.unit.lb = Vector.replicate 8 0 ∧ d.unit.n = 0 ∧ d.unit.chk = Chk.clear
  /-- Phase LEN awaits at least one of the `M` length bytes (R23, R100). -/
  len_range : d.unit.phase = .len →
    d.unit.m = typeLo d.unit.t ∧ d.unit.m.toNat ≤ 8 ∧ d.unit.n.toNat < d.unit.m.toNat
  /-- Phase PAY awaits at least one byte of the payload (R23), and PEEK_SIZE never comes to it (R103). -/
  pay_range : d.unit.phase = .pay → d.unit.n.toNat < d.unit.s.toNat ∧ d.unit.op ≠ .peekSize
  /-- Phase OVER is READ_INTO's, with all the owed bytes in (R22, R113). -/
  over_range : d.unit.phase = .over →
    d.unit.op = .readInto ∧ d.unit.s.toNat ≤ d.unit.n.toNat ∧ d.unit.n.toNat ≤ d.unit.buf.length
  /-- READ_INTO's buffer fits the 64-bit counters, and holds the payload once it is being read (R31, R110). -/
  buf_size : d.unit.busy = true → d.unit.op = .readInto → d.unit.buf.length < 2 ^ 64
  buf_room : d.unit.phase = .pay → d.unit.op = .readInto → d.unit.s.toNat ≤ d.unit.buf.length
  /-- `N` counts the payload bytes delivered so far (R18). -/
  pay_count : d.unit.phase = .pay → d.unit.op = .readBytes → d.unit.pay.length = d.unit.n.toNat
  outer_count : d.unit.phase = .pay → d.unit.op = .decodeList → d.unit.sel = .src →
    d.unit.ibuf.length = d.unit.n.toNat ∧ passes cfg.ibufCap d.unit.s.toNat = false
  inner_count : d.unit.phase = .pay → d.unit.op = .decodeList → d.unit.sel = .ibuf →
    d.unit.pay.length = d.unit.n.toNat
  /-- Only DECODE_LIST reads from `IBUF_D` (R18, R30). -/
  inner_list : d.unit.busy = true → d.unit.sel = .ibuf → d.unit.op = .decodeList
  /-- `IBUF_D` is empty until the outer payload comes (R30, R125). -/
  outer_empty : d.unit.busy = true → d.unit.op = .decodeList → d.unit.sel = .src → d.unit.phase ≠ .pay →
    d.unit.ibuf = []
  /-- `IBUF_D` holds at most `IBUF_CAP` bytes (R30). -/
  ibuf_cap : passes cfg.ibufCap d.unit.ibuf.length = false

/-- The invariant of the machine. -/
structure State.Inv (s : State) : Prop where
  enc : s.enc.Inv s.cfg
  dec : s.dec.Inv s.cfg

/-! ### Frames -/

/-- Nothing but ENC and its sink differs. -/
def State.onlyEnc (s t : State) : Prop := t = { s with enc := t.enc }

/-- Nothing but DEC and its source differs. -/
def State.onlyDec (s t : State) : Prop := t = { s with dec := t.dec }

/-- ENC has ended the operation `op` that began at `u`, with `r` (R160, R26), and has delivered it. -/
def EncUnit.endedWith (u v : EncUnit) (op : EncOp) (r : Result) : Prop :=
  v.phase = .idle ∧ v.busy = false ∧ v.result = r.code ∧ v.poison = r.poisons ∧
    v.out = u.out ++ [{ op := op, result := r }]

/-- DEC has ended the operation `op` that began at `u`, with `r` and the checker flags `c` (R160, R26, R80), and has delivered
them. -/
def DecUnit.endedWith (u v : DecUnit) (op : DecOp) (r : Result) (c : Chk) : Prop :=
  v.phase = .idle ∧ v.busy = false ∧ v.result = r.code ∧ v.poison = r.poisons ∧ v.chk = c ∧
    v.out = u.out ++ [{ op := op, result := r, chk := c }]

/-- DEC is left in the middle of `op`, its request not answered (R60): nothing has been delivered. -/
def DecUnit.waitsIn (u v : DecUnit) (op : DecOp) : Prop :=
  v.phase ≠ .idle ∧ v.busy = true ∧ v.op = op ∧ v.result = u.result ∧ v.poison = u.poison ∧ v.out = u.out

/-- ENC is left in the middle of `op`, its request not answered (R60): nothing has been delivered. -/
def EncUnit.waitsIn (u v : EncUnit) (op : EncOp) : Prop :=
  v.phase ≠ .idle ∧ v.busy = true ∧ v.op = op ∧ v.result = u.result ∧ v.poison = u.poison ∧ v.out = u.out

/-- What an operation can do to the source it reads: hand over bytes in stream order, use up chunking choices, answer
requests; its end and its pace stay (R41, R42, R47). -/
structure Source.consumed (a b : Source) : Prop where
  fin : b.fin = a.fin
  later : b.later = a.later
  rem : b.rem <:+ a.rem
  cuts : b.cuts <:+ a.cuts
  asked : a.asked <+: b.asked

/-- What an operation can do to the sink it writes: append bytes, use up answers, answer requests; its pace stays (R44, R45). -/
structure Sink.grown (a b : Sink) : Prop where
  later : b.later = a.later
  acc : a.acc <+: b.acc
  answers : b.answers <:+ a.answers
  offered : a.offered <+: b.offered

/-- The source leaves a request unanswered (R60): it ends in silence, or it has no more choices listed and gives none. -/
def Source.unanswered (src : Source) : Prop :=
  (src.rem = [] ∧ src.fin = .never) ∨ (src.rem ≠ [] ∧ src.cuts = [] ∧ src.later = .silent)

/-- The source brings DEC no further (R60): a request is left unanswered, or answered with no bytes for ever. -/
def Source.stuck (src : Source) : Prop :=
  (src.rem = [] ∧ src.fin = .never) ∨ (src.rem ≠ [] ∧ src.cuts = [] ∧ src.later ≠ .prompt)

/-- The sink leaves a request unanswered (R60). -/
def Sink.unanswered (snk : Sink) : Prop := snk.answers = [] ∧ snk.later = .silent

/-- The source answers every request, and does not go on answering with no bytes for ever (R190). -/
def Source.answersAll (src : Source) : Prop := src.fin ≠ .never ∧ src.later = .prompt

/-- The registers and buffers only DECODE_LIST uses are as they were. -/
def Dec.listKept (d e : Dec) : Prop :=
  e.unit.items = d.unit.items ∧ e.unit.flags = d.unit.flags ∧ e.unit.ibuf = d.unit.ibuf

/-- The caller's buffer and the draws, which only READ_INTO uses, are as they were. -/
def Dec.intoKept (d e : Dec) : Prop := e.unit.buf = d.unit.buf ∧ e.draws = d.draws ∧ e.tick = d.tick

/-- The buffers only ENCODE_LIST uses are as they were. -/
def Enc.listKept (e f : Enc) : Prop :=
  f.unit.ibuf = e.unit.ibuf ∧ f.unit.items = e.unit.items ∧ f.unit.idx = e.unit.idx

/-! ### How an operation of DEC comes out -/

/-- The value of a reading through `f`. -/
def Reading.map {α β : Type} (f : α → β) : Reading α → Reading β
  | .value v rest => .value (f v) rest
  | .stop r rest => .stop r rest
  | .hang => .hang

/-- The operation `op`, which began at `d`, has ended at `e` as the reading says: with its value, or with the failure it
stops at, and with the flags `c`; the bound source stands at what the reading leaves. -/
def Dec.endedAs (op : DecOp) (d e : Dec) (c : Chk) (rd : Reading Value) : Prop :=
  match rd with
  | .value v rest => d.unit.endedWith e.unit op (.ok v) c ∧ e.src.rem = rest
  | .stop r rest => d.unit.endedWith e.unit op r c ∧ e.src.rem = rest
  | .hang => False

/-- The operation waits for its source, and for nothing else. -/
def Dec.waitsFor (op : DecOp) (d e : Dec) : Prop := d.unit.waitsIn e.unit op ∧ e.src.stuck

/-- How READ_INTO, which began at `d`, comes out once the `s` bytes of the payload are in, `y` being all that follows the prefix in
the stream (R112 to R114): with a count it chose, or on a source error past the frame. -/
def Dec.overread (d e : Dec) (c : Chk) (s : Nat) (y : List Byte) (buf : List Byte) : Prop :=
  (∃ n, s ≤ n ∧ n ≤ min buf.length y.length ∧
      d.unit.endedWith e.unit .readInto (.ok (.filled (BitVec.ofNat 64 n))) c ∧ e.src.rem = y.drop n ∧
      e.unit.buf.take n = y.take n) ∨
    ∃ er, d.src.fin = .err er ∧ y.length < buf.length ∧ d.unit.endedWith e.unit .readInto (.sourceError er) c ∧
      e.src.rem = []

/-- How READ_INTO into `buf`, which began at `d`, comes out (R108 to R115): the buffer is untouched by the failures of the prefix
(a source error there among them by 92_eei_decisions.md D16 f, assumption log 10) and by INSUFFICIENT_BUFFER; `buf[0..n)` holds what
followed the prefix. -/
def Dec.endedInto (d e : Dec) (buf : List Byte) : Prop :=
  match parsePrefix d.src.fin d.src.rem with
  | .hang => False
  | .stop r rest =>
    d.unit.endedWith e.unit .readInto r (prefixFlags d.src.rem) ∧ e.src.rem = rest ∧ e.unit.buf = buf
  | .value (_, s) y =>
    if buf.length < s then
      d.unit.endedWith e.unit .readInto (.insufficientBuffer (BitVec.ofNat 64 s) (BitVec.ofNat 64 buf.length))
          (prefixFlags d.src.rem) ∧
        e.src.rem = y ∧ e.unit.buf = buf
    else if y.length < s then
      Dec.endedAs .readInto d e (prefixFlags d.src.rem) (atEnd d.src.fin (.truncated .payload))
    else d.overread e (prefixFlags d.src.rem) s y buf

/-- How the writes of one frame end at a sink. -/
inductive Offer where
  | done
  | waiting
  | failed (r : Result)
  deriving DecidableEq, Repr

/-! ### How an operation of ENC comes out -/

/-- The operation `op`, which began at `e`, has come out at `f` as the offer of its writes to the bound sink did: with the byte
count `n`, or with the failure, or not yet. -/
def Enc.cameOut (op : EncOp) (e f : Enc) (n : Nat) (o : Offer × Sink) : Prop :=
  f.snk = o.2 ∧
    match o.1 with
    | .done => e.unit.endedWith f.unit op (.ok (.count (BitVec.ofNat 65 n)))
    | .failed r => e.unit.endedWith f.unit op r
    | .waiting => e.unit.waitsIn f.unit op

/-! ### What a sink does with a sequence of writes -/

/-- Every write is answered in full. -/
def Sink.takesAll : List (List Byte) → Sink → Prop
  | [], _ => True
  | x :: xs, snk => ∃ snk', snk.answer x = some (.wrote x.length, snk') ∧ takesAll xs snk'

/-- The writes are offered one after the other until one is not taken in full (R50, R93). -/
def Sink.offerAll : List (List Byte) → Sink → Offer × Sink
  | [], snk => (.done, snk)
  | x :: xs, snk =>
    match snk.answer x with
    | none => (.waiting, snk)
    | some (.wrote k, snk') =>
      if k = x.length then offerAll xs snk' else (.failed (.sinkWriteFailure (.short k)), snk')
    | some (.err e, snk') => (.failed (.sinkWriteFailure (.err e)), snk')
    | some (.full n, snk') => (.failed (.resourceExhausted n), snk')

/-- The writes of one frame (R54, R192): the type byte, the length field, and the payload, which is left out when it is empty
and `ZERO_LEN_WRITE` is false (R51). -/
def frameWrites (cfg : Config) (p : List Byte) : List (List Byte) :=
  [encTypeByte (BitVec.ofNat 4 (mEnc p.length))] :: leBytes p.length (mEnc p.length) ::
    (if p.isEmpty && !cfg.zeroLenWrite then [] else [p])

/-- The writes of the inner frames of a list, in order (R120). -/
def innerWrites (cfg : Config) : List (List Byte) → List (List Byte)
  | [] => []
  | p :: ps => frameWrites cfg p ++ innerWrites cfg ps

/-- The length a buffer of `len` bytes would have reached with the first of these writes that does not fit (R123). -/
def firstPast (cap : Option Nat) (len : Nat) : List (List Byte) → Option Nat
  | [] => none
  | x :: xs => if passes cap (len + x.length) then some (len + x.length) else firstPast cap (len + x.length) xs

/-- ENCODE, run at `s`, has failed at its `n`-th write with the cause `c`: the writes up to it were offered and no other, nothing else
changed, and ENC, now poisoned, refuses every later command (R93, R27). -/
def State.encodeFailed (s t : State) (n : Nat) (c : WriteFailure) : Prop :=
  s.onlyEnc t ∧ s.enc.listKept t.enc ∧ s.enc.unit.endedWith t.enc.unit .encode (.sinkWriteFailure c) ∧
    t.enc.unit.poison = true ∧ t.enc.snk.offered = s.enc.snk.offered ++ (frameWrites s.cfg s.cmd.payload).take n ∧
    ∀ o, exec .encode { t with cmd := o } = .refused .unitPoisoned ∧
      exec .encodeList { t with cmd := o } = .refused .unitPoisoned

/-! ### Which operation can end in which kind (R156) -/

/-- The kinds an ENC operation can deliver. -/
def EncOp.may : EncOp → Result → Bool
  | _, .ok (.count _) | _, .sinkWriteFailure _ => true
  | .encodeList, .resourceExhausted _ => true
  | _, _ => false

/-- The kinds a DEC operation can deliver. -/
def DecOp.may : DecOp → Result → Bool
  | .peekSize, .ok (.size _) | .readBytes, .ok (.payload _) => true
  | .readInto, .ok (.filled _) | .decodeList, .ok (.items _) => true
  | _, .cleanEos | _, .truncated .len | _, .sourceError _ | _, .badWidth _ => true
  | .readBytes, .truncated .payload | .readInto, .truncated .payload | .decodeList, .truncated .payload => true
  | .readInto, .insufficientBuffer _ _ => true
  | .readBytes, .resourceExhausted _ | .decodeList, .resourceExhausted _ => true
  | _, _ => false

/-- Every result delivered so far is one its operation can end in. -/
def State.deliveriesAllowed (s : State) : Prop :=
  (∀ x ∈ s.enc.unit.out, x.op.may x.result = true) ∧ (∀ x ∈ s.dec.unit.out, x.op.may x.result = true)

/-! ### The loop the spec gives beside the width table (R70) -/

/-- `while m < 8 and (s >> (8*m)) != 0: m <- 2*m`, for at most `fuel` rounds. -/
def mEncLoop (s : Nat) : Nat → Nat → Nat
  | 0, m => m
  | fuel + 1, m => if m < 8 ∧ s >>> (8 * m) ≠ 0 then mEncLoop s fuel (2 * m) else m

/-! ### Which unit an instruction belongs to (R15, R78) -/

def sideOf : Instr → Option Side
  | .encode | .encodeList | .typeF1 | .typeF2 | .typeF4 | .typeF8 => some .enc
  | .peekSize | .readBytes | .readInto | .decodeList => some .dec
  | .reserved000 | .reserved011 => none
  | .decWidth0 _ | .decWidth1 _ | .decWidth2 _ | .decWidth3 _ | .decWidth4 _ | .decWidth5 _ => some .dec
  | .decWidth6 _ | .decWidth7 _ | .decWidth8 _ | .decWidth9 _ => some .dec
  | .decWidth10to11 _ _ | .decWidth12to15 _ _ => some .dec

/-! ### What outlives an operation (R20, R33) -/

/-- Two DEC units between operations that differ only in what is dead there (R20, R30): the working registers `T`, `M`, `LB`, `S`,
`N`, `SEL`, `IBUF_D`, and the host's and the operation's own variables of the operation before. -/
structure DecUnit.sameLive (u v : DecUnit) : Prop where
  phase : u.phase = v.phase
  busy : u.busy = v.busy
  poison : u.poison = v.poison
  result : u.result = v.result
  chk : u.chk = v.chk
  buf : u.buf = v.buf
  out : u.out = v.out

/-- Two ENC units between operations that differ only in what is dead there (R20, R30). -/
structure EncUnit.sameLive (u v : EncUnit) : Prop where
  phase : u.phase = v.phase
  busy : u.busy = v.busy
  poison : u.poison = v.poison
  result : u.result = v.result
  out : u.out = v.out

/-! ### A type byte latched (R75, R99) -/

/-- `T` and `M` hold the type byte of upper nibble `hi` and width `m`, and DEC stands before the length field. -/
def State.latched (s : State) (hi m : Nibble) : State :=
  { s with dec := { s.dec with unit :=
    { s.dec.unit with
      t := typeByte hi m
      m := m
      n := 0
      phase := .len } } }

/-! ### Moves -/

/-- The next move is a reset. -/
def State.resetsNext (s : State) : Bool :=
  match s.moves with
  | .reset _ _ :: _ => true
  | _ => false

end Sys2Proof.Machine
end

