-- ==== Sys2Proof/Certificates/Slice0/Obligations.lean ====
section
/-! DEFINITION. What is claimed of dusk-tlv CORE, from the numbered rules of spec/. A statement about the commands of a unit holds
for every environment: the bytes the source still holds, how it will cut them up, whether and when it or the sink fails
or falls silent, are all fields of the state it quantifies over; so are the parameters of R8. -/

open Sys2Proof Sys2Proof.Machine

/-! ### Reset and the invariant -/

/-- R34: every register, status field and buffer the rule gives a value after reset holds that value. (The values of the working
registers, which the rule leaves unspecified, are the model's own, assumption log 1, and nothing is said of them here.) -/
def Obligations.ResetState : Prop :=
  State.reset.dec.unit.phase = .idle ∧ State.reset.enc.unit.phase = .idle ∧
    State.reset.dec.unit.busy = false ∧ State.reset.enc.unit.busy = false ∧
    State.reset.dec.unit.poison = false ∧ State.reset.enc.unit.poison = false ∧
    State.reset.dec.unit.result = 0 ∧ State.reset.enc.unit.result = 0 ∧
    State.reset.dec.unit.chk = Chk.clear ∧
    State.reset.enc.unit.ibuf = [] ∧ State.reset.dec.unit.ibuf = []

/-- The invariant of the machine holds after reset. -/
def Obligations.ResetInv : Prop := State.reset.Inv

/-- Every step keeps the invariant of the machine, whatever the moves of the host and the environment (R15 to R31). -/
def Obligations.StepKeepsInv : Prop :=
  ∀ s t : State, s.Inv → step s = .next t → t.Inv

/-! ### Words -/

/-- Every well-formed instruction is read back from its own word, with every operand and whatever follows it. -/
def Obligations.DecodeOfEncode : Prop :=
  ∀ (i : Instr) (rest : List Byte), i.wf = true → decode i.format (encode i ++ rest) = .ok (i, rest)

/-- What the decoder reads is a well-formed instruction of the format it was asked for, and the word read is that instruction's
word: no other word decodes to it. -/
def Obligations.EncodeOfDecode : Prop :=
  ∀ (f : Format) (bytes rest : List Byte) (i : Instr),
    decode f bytes = .ok (i, rest) → i.wf = true ∧ i.format = f ∧ bytes = encode i ++ rest

/-- Words written out from the tables of R64, R75 and R78: one of each format and each class of type byte. -/
def Obligations.DecodeWords : Prop :=
  decode .cmd [0b001#8] = .ok (.encode, []) ∧
    decode .cmd [0b010#8] = .ok (.encodeList, []) ∧
    decode .cmd [0b111#8] = .ok (.decodeList, []) ∧
    decode .cmd [0b011#8] = .ok (.reserved011, []) ∧
    decode .typeEnc [0xF4#8] = .ok (.typeF4, []) ∧
    decode .typeEnc [0xF3#8] = .error .notAnEncoderTypeByte ∧
    decode .typeDec [0xA1#8, 0x02#8] = .ok (.decWidth1 0xA#4, [0x02#8]) ∧
    decode .typeDec [0xF3#8, 0x02#8] = .ok (.decWidth3 0xF#4, [0x02#8]) ∧
    decode .typeDec [0x08#8] = .ok (.decWidth8 0x0#4, []) ∧
    decode .typeDec [0x30#8] = .ok (.decWidth0 0x3#4, []) ∧
    decode .typeDec [0xFB#8] = .ok (.decWidth10to11 0xF#4 11#4, []) ∧
    decode .typeDec [0x3C#8] = .ok (.decWidth12to15 0x3#4 12#4, [])

/-- R64: the first byte of an encoded frame is `0xF0 | m` with `m` the width of the payload's size; the bytes that so arise are
exactly `F1`, `F2`, `F4` and `F8`. -/
def Obligations.EncoderTypeBytes : Prop :=
  (∀ p : List Byte, (frame p).head? = some (0xF0#8 ||| BitVec.ofNat 8 (mEnc p.length))) ∧
    ∀ b : Byte, (∃ p : List Byte, p.length < 2 ^ 64 ∧ (frame p).head? = some b) ↔
      b = 0xF1#8 ∨ b = 0xF2#8 ∨ b = 0xF4#8 ∨ b = 0xF8#8

/-! ### Field assembly and the frame -/

/-- R70: the four ranges of the width function, and the loop the rule gives beside them. -/
def Obligations.WidthFunction : Prop :=
  ∀ s : Nat, s < 2 ^ 64 →
    (s < 2 ^ 8 → mEnc s = 1) ∧ (2 ^ 8 ≤ s → s < 2 ^ 16 → mEnc s = 2) ∧ (2 ^ 16 ≤ s → s < 2 ^ 32 → mEnc s = 4) ∧
      (2 ^ 32 ≤ s → mEnc s = 8) ∧ mEncLoop s 4 1 = mEnc s

/-- R71: the five laws of `le_bytes`, `le_value` and `m_enc`. -/
def Obligations.FieldLaws : Prop :=
  (∀ v m : Nat, m ≤ 8 → v < 2 ^ (8 * m) → leValue (leBytes v m) = v) ∧
    (∀ x : List Byte, x.length ≤ 8 → leBytes (leValue x) x.length = x) ∧
    (∀ s : Nat, s < 2 ^ 64 → s < 2 ^ (8 * mEnc s) ∧ leValue (leBytes s (mEnc s)) = s) ∧
    (∀ x z : List Byte, x.length + z.length ≤ 8 → (∀ b ∈ z, b = 0#8) → leValue (x ++ z) = leValue x) ∧
    ∀ s s' : Nat, s ≤ s' → mEnc s ≤ mEnc s'

/-- R66: the length field of a frame is its `m` bytes after the type byte, byte `i` holding bits `8i+7` to `8i` of the size; with
zeros above it, it reads as the size. -/
def Obligations.LengthField : Prop :=
  ∀ p : List Byte, p.length < 2 ^ 64 →
    (∀ i : Nat, i < mEnc p.length → (frame p)[1 + i]? = some (BitVec.ofNat 8 (p.length >>> (8 * i) % 256))) ∧
      leValue (((frame p).drop 1).take (mEnc p.length) ++ List.replicate (8 - mEnc p.length) 0#8) = p.length

/-- R85: parsing one frame from the front of `frame(p) ++ rest` gives `p` back, leaves `rest`, and raises no checker flag; the frame
has `1 + m + s` bytes. The converse does not hold: other byte sequences parse to `p` and `rest` too. -/
def Obligations.ParseOfFrame : Prop :=
  (∀ p rest : List Byte, p.length < 2 ^ 64 →
    parse1 (frame p ++ rest) = .value p rest ∧ prefixFlags (frame p ++ rest) = Chk.clear ∧
      (frame p).length = 1 + mEnc p.length + p.length) ∧
    ∀ p rest : List Byte, p.length < 2 ^ 64 → ∃ x, x ≠ frame p ++ rest ∧ parse1 x = .value p rest

/-- R84: one frame parsed from the front of a byte sequence comes out in one of four ways, and a frame that is read is the prefix
its own bytes announce, its payload, and the rest. -/
def Obligations.ParseSplits : Prop :=
  ∀ x : List Byte,
    match parse1 x with
    | .value p rest => ∃ (t : Byte) (f : List Byte), f.length = (typeLo t).toNat ∧ f.length ≤ 8 ∧
        leValue f = p.length ∧ x = t :: f ++ p ++ rest
    | .stop r rest => rest <:+ x ∧
        ((r = .cleanEos ∧ x = []) ∨ (x ≠ [] ∧ (r = .truncated .len ∨ r = .truncated .payload) ∧ rest = []) ∨
          ∃ t, r = .badWidth t ∧ 8 < (typeLo t).toNat ∧ x = t :: rest)
    | .hang => False

/-! ### CHECK -/

/-- R137: the five flags, from the type byte read as a number and the size. -/
def Obligations.CheckFlags : Prop :=
  (∀ (t : Byte) (s : Nat), t.toNat % 16 ≤ 8 →
    ((check t s).nib = true ↔ t.toNat / 16 ≠ 15) ∧ ((check t s).w0 = true ↔ t.toNat % 16 = 0) ∧
      (check t s).whi = false ∧
      ((check t s).wnd = true ↔ t.toNat % 16 = 3 ∨ t.toNat % 16 = 5 ∨ t.toNat % 16 = 6 ∨ t.toNat % 16 = 7) ∧
      ((check t s).wnm = true ↔ 1 ≤ t.toNat % 16 ∧ t.toNat % 16 ≤ 8 ∧ t.toNat % 16 ≠ mEnc s)) ∧
    ∀ t : Byte, 8 < t.toNat % 16 →
      ((checkT t).nib = true ↔ t.toNat / 16 ≠ 15) ∧ (checkT t).w0 = false ∧ (checkT t).whi = true ∧
        (checkT t).wnd = false ∧ (checkT t).wnm = false

/-- R143: a prefix is canonical, which is to say CHECK gives it no flag, exactly when its upper nibble is `0xF` and its width one of 1,
2, 4, 8 and the encoder's for its size; and exactly when it is the one ENCODE emits for a payload of that size. -/
def Obligations.CanonicalPrefix : Prop :=
  (∀ (t : Byte) (f : List Byte), f.length = (typeLo t).toNat → f.length ≤ 8 →
    (check t (leValue f) = Chk.clear ↔
      typeHi t = 0xF#4 ∧ typeLo t ∈ [1#4, 2#4, 4#4, 8#4] ∧ (typeLo t).toNat = mEnc (leValue f)) ∧
    (check t (leValue f) = Chk.clear ↔
      t :: f = encTypeByte (BitVec.ofNat 4 (mEnc (leValue f))) :: leBytes (leValue f) (mEnc (leValue f)))) ∧
  ∀ p : List Byte, p.length < 2 ^ 64 →
    ∃ (t : Byte) (f : List Byte), f.length = (typeLo t).toNat ∧ f.length ≤ 8 ∧ leValue f = p.length ∧
      check t (leValue f) = Chk.clear ∧ frame p = t :: f ++ p

/-! ### ENCODE -/

/-- ENCODE offers its frame to the sink in its writes, one after the other, and comes out as they do: with the byte count, with
SINK_WRITE_FAILURE, or still waiting. Nothing else changes but the registers of `ENC` the operation works in (R86 to R93). -/
def Obligations.EncodeOffersItsFrame : Prop :=
  ∀ s : State, s.enc.Inv s.cfg → s.enc.unit.busy = false → s.enc.unit.poison = false → s.cmd.payload.length < 2 ^ 64 →
    ∃ t, exec .encode s = .next t ∧ s.onlyEnc t ∧ s.enc.listKept t.enc ∧ s.enc.snk.grown t.enc.snk ∧
      s.enc.cameOut .encode t.enc (frame s.cmd.payload).length (s.enc.snk.offerAll (frameWrites s.cfg s.cmd.payload))

/-- R92: when every write is taken in full, ENCODE returns `1 + M + S`, exact in 65 bits, which is the sum of the lengths of its
writes and the length of the frame; the sink has accepted exactly the frame. -/
def Obligations.EncodeSucceeds : Prop :=
  ∀ s : State, s.enc.Inv s.cfg → s.enc.unit.busy = false → s.enc.unit.poison = false → s.cmd.payload.length < 2 ^ 64 →
    Sink.takesAll (frameWrites s.cfg s.cmd.payload) s.enc.snk →
    ∃ (t : State) (n : Count), exec .encode s = .next t ∧ s.onlyEnc t ∧ s.enc.listKept t.enc ∧
      s.enc.unit.endedWith t.enc.unit .encode (.ok (.count n)) ∧
      n.toNat = 1 + mEnc s.cmd.payload.length + s.cmd.payload.length ∧
      n.toNat = ((frameWrites s.cfg s.cmd.payload).map List.length).sum ∧
      n.toNat = (frame s.cmd.payload).length ∧
      t.enc.snk.acc = s.enc.snk.acc ++ frame s.cmd.payload ∧
      t.enc.snk.offered = s.enc.snk.offered ++ frameWrites s.cfg s.cmd.payload

/-- R93: the six ways a write of ENCODE can fail, and what the sink has accepted after each. The writes up to the failing one have been
offered and no other; the unit is poisoned, and refuses every later command. -/
def Obligations.EncodeFailures : Prop :=
  ∀ s : State, s.enc.Inv s.cfg → s.enc.unit.busy = false → s.enc.unit.poison = false → s.cmd.payload.length < 2 ^ 64 →
    (∀ as, s.enc.snk.answers = .wrote 0 :: as →
      ∃ t, exec .encode s = .next t ∧ s.encodeFailed t 1 (.short 0) ∧ t.enc.snk.acc = s.enc.snk.acc) ∧
    (∀ e j as, s.enc.snk.answers = .err e j :: as →
      ∃ t, exec .encode s = .next t ∧ s.encodeFailed t 1 (.err e) ∧
        (t.enc.snk.acc = s.enc.snk.acc ∨
          t.enc.snk.acc = s.enc.snk.acc ++ [encTypeByte (BitVec.ofNat 4 (mEnc s.cmd.payload.length))])) ∧
    (∀ k as, k < mEnc s.cmd.payload.length → s.enc.snk.answers = .wrote 1 :: .wrote k :: as →
      ∃ t, exec .encode s = .next t ∧ s.encodeFailed t 2 (.short k) ∧
        t.enc.snk.acc = s.enc.snk.acc ++ [encTypeByte (BitVec.ofNat 4 (mEnc s.cmd.payload.length))] ++
          (leBytes s.cmd.payload.length (mEnc s.cmd.payload.length)).take k) ∧
    (∀ e j as, s.enc.snk.answers = .wrote 1 :: .err e j :: as →
      ∃ t, exec .encode s = .next t ∧ s.encodeFailed t 2 (.err e) ∧
        ∃ k, k ≤ mEnc s.cmd.payload.length ∧
          t.enc.snk.acc = s.enc.snk.acc ++ [encTypeByte (BitVec.ofNat 4 (mEnc s.cmd.payload.length))] ++
            (leBytes s.cmd.payload.length (mEnc s.cmd.payload.length)).take k) ∧
    (∀ k as, k < s.cmd.payload.length →
      s.enc.snk.answers = .wrote 1 :: .wrote (mEnc s.cmd.payload.length) :: .wrote k :: as →
      ∃ t, exec .encode s = .next t ∧ s.encodeFailed t 3 (.short k) ∧
        t.enc.snk.acc = s.enc.snk.acc ++ [encTypeByte (BitVec.ofNat 4 (mEnc s.cmd.payload.length))] ++
          leBytes s.cmd.payload.length (mEnc s.cmd.payload.length) ++ s.cmd.payload.take k) ∧
    (∀ e j as, s.cmd.payload ≠ [] ∨ s.cfg.zeroLenWrite = true →
      s.enc.snk.answers = .wrote 1 :: .wrote (mEnc s.cmd.payload.length) :: .err e j :: as →
      ∃ t, exec .encode s = .next t ∧ s.encodeFailed t 3 (.err e) ∧
        ∃ k, k ≤ s.cmd.payload.length ∧
          t.enc.snk.acc = s.enc.snk.acc ++ [encTypeByte (BitVec.ofNat 4 (mEnc s.cmd.payload.length))] ++
            leBytes s.cmd.payload.length (mEnc s.cmd.payload.length) ++ s.cmd.payload.take k)

/-! ### ENCODE_LIST -/

/-- ENCODE_LIST frames every item into `IBUF_E`, stopping with RESOURCE_EXHAUSTED at the first write that does not fit, before
anything reaches the sink; then it offers the outer frame to the sink and comes out as those writes do (R119 to R123). The operand
contract it assumes admits a list of `2^64` bytes or more that `IBUF_CAP` stops first, as the model reads R123 (assumption log 11). -/
def Obligations.EncodeListOffersItsFrame : Prop :=
  ∀ s : State, s.enc.Inv s.cfg → s.enc.unit.busy = false → s.enc.unit.poison = false →
    s.cmd.encodeListOk s.cfg = true →
    ∃ t, exec .encodeList s = .next t ∧ s.onlyEnc t ∧ s.enc.snk.grown t.enc.snk ∧
      match firstPast s.cfg.ibufCap 0 (innerWrites s.cfg s.cmd.items) with
      | some n => s.enc.unit.endedWith t.enc.unit .encodeList (.resourceExhausted n) ∧ t.enc.snk = s.enc.snk
      | none =>
        s.enc.cameOut .encodeList t.enc (listFrame s.cmd.items).length
          (s.enc.snk.offerAll (frameWrites s.cfg (frameAll s.cmd.items)))

/-- R121: with every write taken in full, what reaches the sink is one ordinary frame whose payload is the inner frames in item
order, its width the encoder's for their total; the count is the length of that frame. -/
def Obligations.EncodeListSucceeds : Prop :=
  ∀ s : State, s.enc.Inv s.cfg → s.enc.unit.busy = false → s.enc.unit.poison = false →
    (∀ p ∈ s.cmd.items, p.length < 2 ^ 64) →
    (s.cmd.items.map (fun p => 1 + mEnc p.length + p.length)).sum < 2 ^ 64 →
    passes s.cfg.ibufCap (s.cmd.items.map (fun p => 1 + mEnc p.length + p.length)).sum = false →
    Sink.takesAll (frameWrites s.cfg (s.cmd.items.map frame).flatten) s.enc.snk →
    ∃ (t : State) (n : Count), exec .encodeList s = .next t ∧ s.onlyEnc t ∧
      s.enc.unit.endedWith t.enc.unit .encodeList (.ok (.count n)) ∧
      n.toNat = (frame (s.cmd.items.map frame).flatten).length ∧
      t.enc.snk.acc = s.enc.snk.acc ++ frame (s.cmd.items.map frame).flatten ∧
      t.enc.snk.offered = s.enc.snk.offered ++ frameWrites s.cfg (s.cmd.items.map frame).flatten

/-! ### PEEK_SIZE, READ_BYTES, READ_INTO, DECODE_LIST -/

/-- PEEK_SIZE delivers what the prefix parse makes of the stream in front of it, however the source cuts it up, and consumes just
that; or it waits for a source that does not answer (R97 to R103). -/
def Obligations.PeekSizeMeaning : Prop :=
  ∀ s : State, s.dec.Inv s.cfg → s.dec.unit.busy = false → s.dec.unit.poison = false →
    ∃ t, exec .peekSize s = .next t ∧ s.onlyDec t ∧ s.dec.src.consumed t.dec.src ∧ s.dec.listKept t.dec ∧
      s.dec.intoKept t.dec ∧
      (s.dec.waitsFor .peekSize t.dec ∨
        s.dec.endedAs .peekSize t.dec (prefixFlags s.dec.src.rem)
          ((parsePrefix s.dec.src.fin s.dec.src.rem).map (fun v => .size (BitVec.ofNat 64 v.2))))

/-- READ_BYTES delivers the payload of the frame in front of it, or the failure its parse meets, within `MAX_ALLOC`; or it
waits (R105 to R107). -/
def Obligations.ReadBytesMeaning : Prop :=
  ∀ s : State, s.dec.Inv s.cfg → s.dec.unit.busy = false → s.dec.unit.poison = false →
    ∃ t, exec .readBytes s = .next t ∧ s.onlyDec t ∧ s.dec.src.consumed t.dec.src ∧ s.dec.listKept t.dec ∧
      s.dec.intoKept t.dec ∧
      (s.dec.waitsFor .readBytes t.dec ∨
        s.dec.endedAs .readBytes t.dec (prefixFlags s.dec.src.rem)
          ((parseFrame s.cfg.maxAlloc s.dec.src.fin s.dec.src.rem).map .payload))

/-- READ_INTO fills the caller's buffer with at least the payload of the frame in front of it, and may go past the frame; or it
fails, or waits (R108 to R115). That a source error in the prefix leaves the buffer untouched, as the other failures before the first
payload request do, follows ruling D16 (f) of 92_eei_decisions.md, not the words of R115 and R161 (assumption log 10). -/
def Obligations.ReadIntoMeaning : Prop :=
  ∀ s : State, s.dec.Inv s.cfg → s.dec.unit.busy = false → s.dec.unit.poison = false → s.cmd.buf.length < 2 ^ 64 →
    ∃ t, exec .readInto s = .next t ∧ s.onlyDec t ∧ s.dec.src.consumed t.dec.src ∧ s.dec.listKept t.dec ∧
      t.dec.unit.buf.length = s.cmd.buf.length ∧
      (s.dec.waitsFor .readInto t.dec ∨ s.dec.endedInto t.dec s.cmd.buf)

/-- DECODE_LIST delivers the payloads of the frames inside the frame in front of it, in order, or the first failure, outer or
inner, with the flags of every prefix parsed; or it waits (R125 to R131). -/
def Obligations.DecodeListMeaning : Prop :=
  ∀ s : State, s.dec.Inv s.cfg → s.dec.unit.busy = false → s.dec.unit.poison = false →
    ∃ t, exec .decodeList s = .next t ∧ s.onlyDec t ∧ s.dec.src.consumed t.dec.src ∧ s.dec.intoKept t.dec ∧
      (s.dec.waitsFor .decodeList t.dec ∨
        s.dec.endedAs .decodeList t.dec (decodeListFlags s.cfg s.dec.src.fin s.dec.src.rem)
          ((decodeListOf s.cfg s.dec.src.fin s.dec.src.rem).map .items))

/-- Against a source that answers every request, each DEC operation succeeds on every stream its parse reads a value from:
it returns that value, consumes what the parse consumes, and leaves `DEC` idle and unpoisoned (R97, R103, R105, R108, R125). -/
def Obligations.DecOperationsSucceed : Prop :=
  ∀ s : State, s.dec.Inv s.cfg → s.dec.unit.busy = false → s.dec.unit.poison = false → s.dec.src.answersAll →
    (∀ ty sz y, parsePrefix s.dec.src.fin s.dec.src.rem = .value (ty, sz) y →
      ∃ t, exec .peekSize s = .next t ∧
        s.dec.unit.endedWith t.dec.unit .peekSize (.ok (.size (BitVec.ofNat 64 sz))) (prefixFlags s.dec.src.rem) ∧
        t.dec.src.rem = y) ∧
    (∀ p y, parseFrame s.cfg.maxAlloc s.dec.src.fin s.dec.src.rem = .value p y →
      ∃ t, exec .readBytes s = .next t ∧
        s.dec.unit.endedWith t.dec.unit .readBytes (.ok (.payload p)) (prefixFlags s.dec.src.rem) ∧ t.dec.src.rem = y) ∧
    (∀ ty sz y, s.cmd.buf.length < 2 ^ 64 → parsePrefix s.dec.src.fin s.dec.src.rem = .value (ty, sz) y →
      sz ≤ s.cmd.buf.length → sz ≤ y.length → s.dec.src.fin = .eos →
      ∃ t n, exec .readInto s = .next t ∧ sz ≤ n ∧ n ≤ s.cmd.buf.length ∧
        s.dec.unit.endedWith t.dec.unit .readInto (.ok (.filled (BitVec.ofNat 64 n))) (prefixFlags s.dec.src.rem) ∧
        t.dec.unit.buf.take n = y.take n ∧ t.dec.src.rem = y.drop n) ∧
    ∀ l y, decodeListOf s.cfg s.dec.src.fin s.dec.src.rem = .value l y →
      ∃ t, exec .decodeList s = .next t ∧
        s.dec.unit.endedWith t.dec.unit .decodeList (.ok (.items l))
          (decodeListFlags s.cfg s.dec.src.fin s.dec.src.rem) ∧
        t.dec.src.rem = y

/-- R113: `n` is open. For every count between the payload's size and what the buffer and the stream can give there are choices of
the source and draws of the operation under which READ_INTO returns it. -/
def Obligations.ReadIntoEveryCount : Prop :=
  ∀ (s : State) (ty : Byte) (sz n : Nat) (y : List Byte),
    s.dec.Inv s.cfg → s.dec.unit.busy = false → s.dec.unit.poison = false → s.cmd.buf.length < 2 ^ 64 →
    parsePrefix s.dec.src.fin s.dec.src.rem = .value (ty, sz) y → sz ≤ n → n ≤ min s.cmd.buf.length y.length →
    ∃ (cuts : List Nat) (draws : List Bool) (t : State),
      exec .readInto { s with dec := { s.dec with src := { s.dec.src with cuts := cuts }, draws := draws } } = .next t ∧
        s.dec.unit.endedWith t.dec.unit .readInto (.ok (.filled (BitVec.ofNat 64 n))) (prefixFlags s.dec.src.rem) ∧
        t.dec.unit.buf.take n = y.take n ∧ t.dec.src.rem = y.drop n

/-- R110: the buffer is checked as soon as the size is known. A buffer that is too small gives INSUFFICIENT_BUFFER, even when the
stream is too short as well; the buffer is untouched, the payload still in the source, the unit poisoned. A buffer of exactly the
size passes. -/
def Obligations.BufferCheckFirst : Prop :=
  ∀ (s : State) (ty : Byte) (sz : Nat) (y : List Byte),
    s.dec.Inv s.cfg → s.dec.unit.busy = false → s.dec.unit.poison = false → s.cmd.buf.length < 2 ^ 64 →
    s.dec.src.answersAll → parsePrefix s.dec.src.fin s.dec.src.rem = .value (ty, sz) y →
    (s.cmd.buf.length < sz →
      ∃ t, exec .readInto s = .next t ∧
        s.dec.unit.endedWith t.dec.unit .readInto
          (.insufficientBuffer (BitVec.ofNat 64 sz) (BitVec.ofNat 64 s.cmd.buf.length)) (prefixFlags s.dec.src.rem) ∧
        t.dec.unit.poison = true ∧ t.dec.unit.buf = s.cmd.buf ∧ t.dec.src.rem = y) ∧
    (s.cmd.buf.length = sz → sz ≤ y.length →
      ∃ t, exec .readInto s = .next t ∧
        s.dec.unit.endedWith t.dec.unit .readInto (.ok (.filled (BitVec.ofNat 64 sz))) (prefixFlags s.dec.src.rem) ∧
        t.dec.unit.buf = y.take sz ∧ t.dec.src.rem = y.drop sz)

/-- R101: a type byte of width 9 to 15 ends every DEC operation with BAD_WIDTH as soon as it is latched: one byte consumed, nothing
more asked of the source, `S` not computed, `WHI` set (and `NIB` if it applies), the unit poisoned. -/
def Obligations.BadWidthAtOnce : Prop :=
  ∀ (s : State) (ty : Byte) (y : List Byte) (i : Instr) (op : DecOp),
    s.dec.Inv s.cfg → s.dec.unit.busy = false → s.dec.unit.poison = false → s.cmd.buf.length < 2 ^ 64 →
    s.dec.src.cuts = [] → s.dec.src.later = .prompt → s.dec.src.rem = ty :: y → 8 < (typeLo ty).toNat →
    (i, op) ∈ [(Instr.peekSize, DecOp.peekSize), (.readBytes, .readBytes), (.readInto, .readInto),
      (.decodeList, .decodeList)] →
    ∃ t, exec i s = .next t ∧
      s.dec.unit.endedWith t.dec.unit op (.badWidth ty) ⟨typeHi ty != 0xF#4, false, true, false, false⟩ ∧
      t.dec.unit.poison = true ∧ t.dec.unit.s = s.dec.unit.s ∧
      t.dec.src.rem = y ∧ t.dec.src.asked = s.dec.src.asked ++ [1]

/-- The result, the flags and what is consumed do not depend on how the source cuts its bytes up (R41, R49), but for READ_INTO. -/
def Obligations.ChunkingDoesNotMatter : Prop :=
  ∀ (s t t' : State) (cuts : List Nat) (later : SrcPace) (i : Instr),
    i ∈ [Instr.peekSize, .readBytes, .decodeList] → s.dec.Inv s.cfg →
    exec i s = .next t →
    exec i { s with dec := { s.dec with src := { s.dec.src with cuts := cuts, later := later } } } = .next t' →
    t.dec.unit.busy = false → t'.dec.unit.busy = false →
    t.dec.unit.out = t'.dec.unit.out ∧ t.dec.src.rem = t'.dec.src.rem ∧ t.dec.unit.poison = t'.dec.unit.poison ∧
      t.dec.unit.result = t'.dec.unit.result ∧ t.dec.unit.chk = t'.dec.unit.chk

/-! ### The rows of the type byte -/

/-- A type byte of width 1 to 8 that DEC awaits is latched with its width, whatever its upper nibble, and the length field comes
next; nothing else changes (R75, R99). -/
def Obligations.WidthIsLatched : Prop :=
  ∀ (hi : Nibble) (s : State), s.dec.unit.typeDue = true →
    exec (.decWidth1 hi) s = .next (s.latched hi 1) ∧ exec (.decWidth2 hi) s = .next (s.latched hi 2) ∧
      exec (.decWidth3 hi) s = .next (s.latched hi 3) ∧ exec (.decWidth4 hi) s = .next (s.latched hi 4) ∧
      exec (.decWidth5 hi) s = .next (s.latched hi 5) ∧ exec (.decWidth6 hi) s = .next (s.latched hi 6) ∧
      exec (.decWidth7 hi) s = .next (s.latched hi 7) ∧ exec (.decWidth8 hi) s = .next (s.latched hi 8)

/-- R102: a type byte of width 0 is a whole frame: no request is made, the size is 0, `W0` is set, and the operation goes on with an
empty payload. -/
def Obligations.WidthZero : Prop :=
  ∀ (hi : Nibble) (s : State), s.dec.Inv s.cfg → s.dec.unit.typeDue = true →
    ∃ t, exec (.decWidth0 hi) s = .next t ∧ s.onlyDec t ∧ t.dec.src = s.dec.src ∧ t.dec.draws = s.dec.draws ∧
      t.dec.tick = s.dec.tick ∧ t.dec.unit.buf = s.dec.unit.buf ∧ t.dec.unit.ibuf = s.dec.unit.ibuf ∧
      t.dec.unit.s = 0 ∧ t.dec.unit.t = typeByte hi 0 ∧ t.dec.unit.m = 0 ∧ t.dec.unit.lb = Vector.replicate 8 0 ∧
      match s.dec.unit.op with
      | .peekSize =>
        s.dec.unit.endedWith t.dec.unit .peekSize (.ok (.size 0)) ⟨hi != 0xF#4, true, false, false, false⟩
      | .readBytes =>
        s.dec.unit.endedWith t.dec.unit .readBytes (.ok (.payload [])) ⟨hi != 0xF#4, true, false, false, false⟩
      | .readInto =>
        t.dec.unit.phase = .over ∧ t.dec.unit.n = 0 ∧ t.dec.unit.out = s.dec.unit.out ∧
          t.dec.unit.chk = ⟨hi != 0xF#4, true, false, false, false⟩
      | .decodeList =>
        t.dec.unit.phase = .type ∧ t.dec.unit.sel = .ibuf ∧ t.dec.unit.out = s.dec.unit.out ∧
          match s.dec.unit.sel with
          | .src => t.dec.unit.items = [] ∧ t.dec.unit.flags = ⟨hi != 0xF#4, true, false, false, false⟩
          | .ibuf => t.dec.unit.items = s.dec.unit.items ++ [[]] ∧
              t.dec.unit.flags = s.dec.unit.flags.or ⟨hi != 0xF#4, true, false, false, false⟩

/-- R77: a type byte of width 9 to 15 that DEC awaits ends the operation with BAD_WIDTH carrying it, and the unit is poisoned; no
size is computed, nothing more is consumed. -/
def Obligations.BadWidthRows : Prop :=
  ∀ (i : Instr) (hi m : Nibble) (s : State), s.dec.Inv s.cfg → s.dec.unit.typeDue = true →
    9 ≤ m.toNat → i = .decWidth9 hi ∧ m = 9 ∨ i = .decWidth10to11 hi m ∧ m.toNat ≤ 11 ∨ i = .decWidth12to15 hi m ∧ 12 ≤ m.toNat →
    ∃ t, exec i s = .next t ∧ s.onlyDec t ∧ t.dec.src = s.dec.src ∧ t.dec.draws = s.dec.draws ∧ t.dec.tick = s.dec.tick ∧
      t.dec.unit.s = s.dec.unit.s ∧ t.dec.unit.buf = s.dec.unit.buf ∧ t.dec.unit.ibuf = s.dec.unit.ibuf ∧
      t.dec.unit.t = typeByte hi m ∧ t.dec.unit.m = m ∧ t.dec.unit.poison = true ∧
      s.dec.unit.endedWith t.dec.unit s.dec.unit.op (.badWidth (typeByte hi m))
        (if s.dec.unit.inner then s.dec.unit.flags.or ⟨hi != 0xF#4, false, true, false, false⟩
          else ⟨hi != 0xF#4, false, true, false, false⟩)

/-- R89: the type byte of the width in `M` is emitted as a write of its own, one byte long, to the sink or to `IBUF_E`; with it taken,
the length field comes next. -/
def Obligations.TypeByteEmitted : Prop :=
  ∀ (i : Instr) (m : Nibble) (s : State),
    (i, m) ∈ [(Instr.typeF1, (1 : Nibble)), (.typeF2, 2), (.typeF4, 4), (.typeF8, 8)] →
    s.enc.unit.poison = false → s.enc.unit.typeDue m = true →
    (s.enc.unit.dst = .snk →
      match s.enc.snk.answer [0xF0#8 ||| m.zeroExtend 8] with
      | none => exec i s = .next s
      | some (.wrote k, snk) =>
        if k = 1 then
          exec i s = .next { s with enc :=
            { unit := { s.enc.unit with phase := .wLen, cnt := s.enc.unit.cnt + 1 }, snk := snk } }
        else
          ∃ t, exec i s = .next t ∧ s.onlyEnc t ∧ s.enc.listKept t.enc ∧ t.enc.snk = snk ∧
            s.enc.unit.endedWith t.enc.unit s.enc.unit.op (.sinkWriteFailure (.short k))
      | some (.err e, snk) =>
        ∃ t, exec i s = .next t ∧ s.onlyEnc t ∧ s.enc.listKept t.enc ∧ t.enc.snk = snk ∧
          s.enc.unit.endedWith t.enc.unit s.enc.unit.op (.sinkWriteFailure (.err e))
      | some (.full _, _) => False) ∧
    (s.enc.unit.dst = .ibuf → passes s.cfg.ibufCap (s.enc.unit.ibuf.length + 1) = false →
      exec i s = .next { s with enc := { s.enc with unit :=
        { s.enc.unit with
          phase := .wLen, cnt := s.enc.unit.cnt + 1
          ibuf := s.enc.unit.ibuf ++ [0xF0#8 ||| m.zeroExtend 8] } } }) ∧
    (s.enc.unit.dst = .ibuf → passes s.cfg.ibufCap (s.enc.unit.ibuf.length + 1) = true →
      ∃ t, exec i s = .next t ∧ s.onlyEnc t ∧ s.enc.listKept t.enc ∧ t.enc.snk = s.enc.snk ∧
        s.enc.unit.endedWith t.enc.unit s.enc.unit.op (.resourceExhausted (s.enc.unit.ibuf.length + 1)))

/-- R88: in phase W_TYPE the row that is due is the one of the width of the payload's size, and depends on nothing else. -/
def Obligations.WidthDue : Prop :=
  ∀ (s : State) (m : Nibble), s.enc.Inv s.cfg → s.enc.unit.busy = true → s.enc.unit.phase = .wType →
    (s.enc.unit.typeDue m = true ↔ m.toNat = mEnc s.enc.unit.payload.length)

/-- A type byte presented where none is due is refused (the model's reading of the rows, assumption log 13). -/
def Obligations.TypeByteNotDue : Prop :=
  ∀ s : State,
    (∀ i : Instr, i.format = .typeDec → s.dec.unit.typeDue = false → exec i s = .refused .typeByteNotDue) ∧
      ∀ (i : Instr) (m : Nibble), (i, m) ∈ [(Instr.typeF1, (1 : Nibble)), (.typeF2, 2), (.typeF4, 4), (.typeF8, 8)] →
        s.enc.unit.typeDue m = false → exec i s = .refused .typeByteNotDue

/-! ### Refusals -/

/-- R169, R123: a command is refused when its unit is busy, when it is poisoned, when its code is reserved, or when its operand is
outside the contract; a list of `2^64` bytes or more that `IBUF_CAP` does not let come together ends otherwise (R123, assumption
log 11). -/
def Obligations.RefusedCommands : Prop :=
  ∀ s : State,
    (s.enc.unit.busy = true → exec .encode s = .refused .unitBusy ∧ exec .encodeList s = .refused .unitBusy) ∧
    (s.dec.unit.busy = true → exec .peekSize s = .refused .unitBusy ∧ exec .readBytes s = .refused .unitBusy ∧
      exec .readInto s = .refused .unitBusy ∧ exec .decodeList s = .refused .unitBusy) ∧
    (s.enc.unit.busy = false → s.enc.unit.poison = true →
      exec .encode s = .refused .unitPoisoned ∧ exec .encodeList s = .refused .unitPoisoned) ∧
    (s.dec.unit.busy = false → s.dec.unit.poison = true →
      exec .peekSize s = .refused .unitPoisoned ∧ exec .readBytes s = .refused .unitPoisoned ∧
        exec .readInto s = .refused .unitPoisoned ∧ exec .decodeList s = .refused .unitPoisoned) ∧
    exec .reserved000 s = .refused .reservedCommand ∧ exec .reserved011 s = .refused .reservedCommand ∧
    (s.enc.unit.busy = false → s.enc.unit.poison = false →
      (2 ^ 64 ≤ s.cmd.payload.length → exec .encode s = .refused .operandTooLong) ∧
        ((∃ p ∈ s.cmd.items, 2 ^ 64 ≤ p.length) → exec .encodeList s = .refused .operandTooLong) ∧
        (2 ^ 64 ≤ (s.cmd.items.map (fun p => 1 + mEnc p.length + p.length)).sum →
          passes s.cfg.ibufCap (s.cmd.items.map (fun p => 1 + mEnc p.length + p.length)).sum = false →
          exec .encodeList s = .refused .operandTooLong)) ∧
    (s.dec.unit.busy = false → s.dec.unit.poison = false → 2 ^ 64 ≤ s.cmd.buf.length →
      exec .readInto s = .refused .operandTooLong)

/-- R79: a reserved code selects no operation, at whatever state, and the step that presents one is refused. -/
def Obligations.ReservedCodes : Prop :=
  (∀ s : State, exec .reserved000 s = .refused .reservedCommand ∧ exec .reserved011 s = .refused .reservedCommand) ∧
    ∀ (s : State) (o : Operands) (ms : List Move),
      (s.moves = .command 0b000#3 o :: ms → step s = .refused .reservedCommand) ∧
        (s.moves = .command 0b011#3 o :: ms → step s = .refused .reservedCommand)

/-! ### Status and results -/

/-- R26: where the fields stand in the two status registers; every other bit reads as 0. -/
def Obligations.StatusRegisters : Prop :=
  (∀ u : DecUnit, u.stat.extractLsb' 0 1 = BitVec.ofBool u.busy ∧ u.stat.extractLsb' 1 1 = BitVec.ofBool u.poison ∧
    u.stat.extractLsb' 2 3 = u.result ∧ u.stat.extractLsb' 5 5 = u.chk.bits ∧
    ∀ k, 10 ≤ k → u.stat.getLsbD k = false) ∧
  (∀ u : EncUnit, u.stat.extractLsb' 0 1 = BitVec.ofBool u.busy ∧ u.stat.extractLsb' 1 1 = BitVec.ofBool u.poison ∧
    u.stat.extractLsb' 2 3 = u.result ∧ ∀ k, 5 ≤ k → u.stat.getLsbD k = false) ∧
  ∀ c : Chk, c.bits.getLsbD 0 = c.nib ∧ c.bits.getLsbD 1 = c.w0 ∧ c.bits.getLsbD 2 = c.whi ∧ c.bits.getLsbD 3 = c.wnd ∧
    c.bits.getLsbD 4 = c.wnm

/-- The codes of the eight result kinds (R147), and which of them set `POISON` (R27). -/
def Obligations.ResultCodes : Prop :=
  ∀ r : Result,
    match r with
    | .ok _ => r.code = 0 ∧ r.poisons = false
    | .cleanEos => r.code = 1 ∧ r.poisons = false
    | .truncated _ => r.code = 2 ∧ r.poisons = true
    | .sinkWriteFailure _ => r.code = 3 ∧ r.poisons = true
    | .insufficientBuffer _ _ => r.code = 4 ∧ r.poisons = true
    | .sourceError _ => r.code = 5 ∧ r.poisons = true
    | .resourceExhausted _ => r.code = 6 ∧ r.poisons = true
    | .badWidth _ => r.code = 7 ∧ r.poisons = true

/-- R156: whatever a step delivers, it delivers of a kind the operation can end in. -/
def Obligations.OnlyAllowedKinds : Prop :=
  ∀ s t : State, s.Inv → s.deliveriesAllowed → step s = .next t → t.deliveriesAllowed

/-- R160: a step delivers at most one result for each unit; the unit that delivers one is idle and not busy, `RESULT` holds the code
of its kind, and `POISON` is set unless the kind is OK or CLEAN_EOS. -/
def Obligations.ResultDelivered : Prop :=
  ∀ s t : State, s.Inv → step s = .next t →
    (t.dec.unit.out = s.dec.unit.out ∨ ∃ x, t.dec.unit.out = s.dec.unit.out ++ [x] ∧
      t.dec.unit.phase = .idle ∧ t.dec.unit.busy = false ∧ t.dec.unit.result = x.result.code ∧
      (t.dec.unit.poison = true ↔ x.result.code ≠ 0 ∧ x.result.code ≠ 1) ∧ x.chk = t.dec.unit.chk) ∧
    (t.enc.unit.out = s.enc.unit.out ∨ ∃ x, t.enc.unit.out = s.enc.unit.out ++ [x] ∧
      t.enc.unit.phase = .idle ∧ t.enc.unit.busy = false ∧ t.enc.unit.result = x.result.code ∧
      (t.enc.unit.poison = true ↔ x.result.code ≠ 0 ∧ x.result.code ≠ 1))

/-- R154: with both bounds absent, RESOURCE_EXHAUSTED is never raised. -/
def Obligations.NeverExhausted : Prop :=
  ∀ s t : State, s.Inv → s.cfg.maxAlloc = none → s.cfg.ibufCap = none → step s = .next t →
    (∀ x n, x ∈ t.enc.unit.out → x.result = .resourceExhausted n → x ∈ s.enc.unit.out) ∧
      ∀ x n, x ∈ t.dec.unit.out → x.result = .resourceExhausted n → x ∈ s.dec.unit.out

/-! ### Whole-machine rules -/

/-- R173: a reset puts both units in the state of R34, whatever they were doing, and no other event clears `POISON`. -/
def Obligations.ResetClearsPoison : Prop :=
  (∀ (s : State) (source : Option Source) (sink : Option Sink) (ms : List Move), s.moves = .reset source sink :: ms →
    ∃ t, step s = .next t ∧
      t.dec.unit.phase = .idle ∧ t.enc.unit.phase = .idle ∧ t.dec.unit.busy = false ∧ t.enc.unit.busy = false ∧
      t.dec.unit.poison = false ∧ t.enc.unit.poison = false ∧ t.dec.unit.result = 0 ∧ t.enc.unit.result = 0 ∧
      t.dec.unit.chk = Chk.clear ∧ t.enc.unit.ibuf = [] ∧ t.dec.unit.ibuf = []) ∧
    ∀ s t : State, step s = .next t → s.resetsNext = false →
      (s.dec.unit.poison = true → t.dec.unit.poison = true) ∧ (s.enc.unit.poison = true → t.enc.unit.poison = true)

/-- R175, R176: a reset leaves each stream as it is, or, where it binds a unit to a new one, at what that stream is; it delivers no
result. -/
def Obligations.ResetKeepsStreams : Prop :=
  ∀ (s : State) (source : Option Source) (sink : Option Sink) (ms : List Move), s.moves = .reset source sink :: ms →
    ∃ t, step s = .next t ∧
      (source = none → t.dec.src = s.dec.src) ∧ (∀ src, source = some src → t.dec.src = src) ∧
      (sink = none → t.enc.snk = s.enc.snk) ∧ (∀ snk, sink = some snk → t.enc.snk = snk) ∧
      t.dec.unit.out = s.dec.unit.out ∧ t.enc.unit.out = s.enc.unit.out ∧ t.cfg = s.cfg ∧ t.moves = ms

/-- R159: an instruction of one unit neither sees nor changes the other, nor its stream, nor anything of the host's. -/
def Obligations.UnitsIndependent : Prop :=
  ∀ (i : Instr) (s t : State), exec i s = .next t →
    (sideOf i = some .dec → t = { s with dec := t.dec } ∧
      ∀ e : Enc, exec i { s with enc := e } = .next { t with enc := e }) ∧
    (sideOf i = some .enc → t = { s with enc := t.enc } ∧
      ∀ d : Dec, exec i { s with dec := d } = .next { t with dec := d })

/-- R42, R45: without a new binding, the source only loses bytes from its front and the sink only gains bytes at its end. -/
def Obligations.StreamsMoveForward : Prop :=
  ∀ s t : State, step s = .next t → s.resetsNext = false →
    t.dec.src.rem <:+ s.dec.src.rem ∧ s.enc.snk.acc <+: t.enc.snk.acc

/-- R20: the result of an operation, the streams after it and the status do not depend on what the working registers and
intermediate buffers held when the command was accepted. -/
def Obligations.DeadRegisters : Prop :=
  ∀ (s : State) (u : DecUnit) (v : EncUnit) (i : Instr),
    i ∈ [Instr.encode, .encodeList, .peekSize, .readBytes, .readInto, .decodeList] → s.Inv →
    (s.dec.unit.sameLive u ∧ s.dec.unit.busy = false ∧ Dec.Inv s.cfg { s.dec with unit := u }) →
    (s.enc.unit.sameLive v ∧ s.enc.unit.busy = false ∧ Enc.Inv s.cfg { s.enc with unit := v }) →
    match exec i s, exec i { s with dec := { s.dec with unit := u }, enc := { s.enc with unit := v } } with
    | .next t, .next t' =>
      t.dec.unit.sameLive t'.dec.unit ∧ t.dec.src = t'.dec.src ∧ t.dec.draws = t'.dec.draws ∧ t.dec.tick = t'.dec.tick ∧
        t.enc.unit.sameLive t'.enc.unit ∧ t.enc.snk = t'.enc.snk
    | .refused r, .refused r' => r = r'
    | _, _ => False

/-! ### Steps -/

/-- A command the host presents is decoded, and the step is the meaning of what it decodes to, with the operands at the command
port. -/
def Obligations.StepRunsCommand : Prop :=
  ∀ (s : State) (op : OpCode) (o : Operands) (ms : List Move) (i : Instr),
    s.moves = .command op o :: ms → decode .cmd [op.zeroExtend 8] = .ok (i, []) →
    step s = exec i { s with moves := ms, cmd := o }

/-- A command that is only accepted (the rows "command accepted" of R23 and R24): it is refused exactly as its meaning is, and
otherwise its unit is busy in its first phase, with nothing requested of a stream and nothing delivered yet. -/
def Obligations.CommandAccepted : Prop :=
  ∀ (s : State) (op : OpCode) (o : Operands) (ms : List Move), s.moves = .begin op o :: ms →
    (∀ r, exec (decodeCmd op) { s with moves := ms, cmd := o } = .refused r ↔ step s = .refused r) ∧
    ∀ t, step s = .next t →
      (op.toNat < 4 → t = { s with moves := ms, cmd := o, enc := t.enc } ∧ t.enc.snk = s.enc.snk ∧
        t.enc.unit.busy = true ∧ t.enc.unit.phase = .wType ∧ t.enc.unit.cnt = 0 ∧
        t.enc.unit.s = BitVec.ofNat 64 t.enc.unit.payload.length ∧
        t.enc.unit.m = BitVec.ofNat 4 (mEnc t.enc.unit.payload.length) ∧
        t.enc.unit.result = s.enc.unit.result ∧ t.enc.unit.out = s.enc.unit.out ∧
        (op = 1 → t.enc.unit.op = .encode ∧ t.enc.unit.payload = o.payload ∧ t.enc.unit.dst = .snk) ∧
        (op = 2 → t.enc.unit.op = .encodeList ∧ t.enc.unit.items = o.items ∧ t.enc.unit.ibuf = [])) ∧
      (4 ≤ op.toNat → t = { s with moves := ms, cmd := o, dec := t.dec } ∧ t.dec.src = s.dec.src ∧
        t.dec.unit.busy = true ∧ t.dec.unit.phase = .type ∧ t.dec.unit.lb = Vector.replicate 8 0 ∧ t.dec.unit.n = 0 ∧
        t.dec.unit.chk = Chk.clear ∧ t.dec.unit.sel = .src ∧
        t.dec.unit.result = s.dec.unit.result ∧ t.dec.unit.out = s.dec.unit.out ∧
        (op = 4 → t.dec.unit.op = .peekSize) ∧ (op = 5 → t.dec.unit.op = .readBytes) ∧
        (op = 6 → t.dec.unit.op = .readInto ∧ t.dec.unit.buf = o.buf) ∧
        (op = 7 → t.dec.unit.op = .decodeList ∧ t.dec.unit.ibuf = []))

/-- A type byte that reaches DEC is decoded, and the step is the meaning of what it decodes to, at the state after the request
that brought it. -/
def Obligations.StepRunsTypeByteOfDec : Prop :=
  ∀ (s : State) (b : Byte) (bs : List Byte) (d : Dec) (i : Instr),
    s.dec.unit.typeDue = true → s.dec.srcRead 1 = some (.data (b :: bs), d) → decode .typeDec [b] = .ok (i, []) →
    (∀ ms, s.moves = .turn .dec :: ms → step s = exec i { s with moves := ms, dec := d }) ∧
      (s.moves = [] → step s = exec i { s with dec := d })

/-- The type byte ENC is about to emit is decoded, and the step is the meaning of what it decodes to. -/
def Obligations.StepRunsTypeByteOfEnc : Prop :=
  ∀ (s : State) (i : Instr),
    s.enc.unit.busy = true → s.enc.unit.phase = .wType → decode .typeEnc [0xF0#8 ||| s.enc.unit.m.zeroExtend 8] = .ok (i, []) →
    (∀ ms, s.moves = .turn .enc :: ms → step s = exec i { s with moves := ms }) ∧
      (s.moves = [] → s.dec.transact s.cfg = none → (s.enc.transact s.cfg ≠ none ∨ s.dec.src.starves = false) →
        step s = exec i s)

/-- The other moves: a draw of the host from the source (which faults while DEC is busy, R46, R182), and answers of the
environment. -/
def Obligations.StepOfOtherMoves : Prop :=
  ∀ (s : State) (ms : List Move),
    (∀ k, s.moves = .draw k :: ms → s.dec.unit.busy = false →
      step s = .next { s with moves := ms, dec := { s.dec with src := { s.dec.src with rem := s.dec.src.rem.drop k } } }) ∧
    (∀ k, s.moves = .draw k :: ms → s.dec.unit.busy = true → step s = .fault .exclusiveUseBroken) ∧
    (∀ cuts later, s.moves = .sourceAnswers cuts later :: ms →
      step s = .next { s with moves := ms, dec := { s.dec with
        src := { s.dec.src with cuts := s.dec.src.cuts ++ cuts, later := later } } }) ∧
    ∀ answers later, s.moves = .sinkAnswers answers later :: ms →
      step s = .next { s with moves := ms, enc := { s.enc with
        snk := { s.enc.snk with answers := s.enc.snk.answers ++ answers, later := later } } }

/-- A turn of a unit is one transaction of its phase machine (R23, R24), the decoded type bytes included; a unit that can do nothing
stays as it is. A source that starves DEC answers with `Data([])`: one transaction as well (R60). -/
def Obligations.TurnIsOneTransaction : Prop :=
  ∀ (s : State) (ms : List Move), s.Inv →
    (s.moves = .turn .dec :: ms →
      (∀ d, s.dec.transact s.cfg = some d → step s = .next { s with moves := ms, dec := d }) ∧
      (s.dec.transact s.cfg = none → s.dec.src.starves = false → step s = .next { s with moves := ms }) ∧
      (s.dec.transact s.cfg = none → s.dec.src.starves = true →
        step s = .next { s with
          moves := ms
          dec := (Dec.transact s.cfg { s.dec with src := { s.dec.src with cuts := [0] } }).getD s.dec })) ∧
    (s.moves = .turn .enc :: ms →
      step s = .next { s with moves := ms, enc := (s.enc.transact s.cfg).getD s.enc })

/-- The requests of DEC (R23, R40, R47, R111). A turn of DEC makes at most one, of the bound source: for 1 byte in phase TYPE, for the
length or payload bytes still missing of the frame in LEN and PAY, and for READ_INTO in PAY and OVER for all the room left in the
caller's buffer; only in OVER may it make none though the source would answer. No step makes a request for no bytes. -/
def Obligations.RequestSizes : Prop :=
  (∀ (s : State) (ms : List Move), s.Inv → s.moves = .turn .dec :: ms →
    ∃ t, step s = .next t ∧
      (s.dec.unit.busy = false ∨ s.dec.unit.sel = .ibuf ∨ s.dec.turn s.cfg = none → t.dec.src.asked = s.dec.src.asked) ∧
      (s.dec.unit.busy = true → s.dec.unit.sel = .src → s.dec.turn s.cfg ≠ none →
        match s.dec.unit.phase with
        | .idle => False
        | .type => t.dec.src.asked = s.dec.src.asked ++ [1]
        | .len => 1 ≤ s.dec.unit.m.toNat - s.dec.unit.n.toNat ∧
            t.dec.src.asked = s.dec.src.asked ++ [s.dec.unit.m.toNat - s.dec.unit.n.toNat]
        | .pay =>
          if s.dec.unit.op = .readInto then
            1 ≤ s.dec.unit.buf.length - s.dec.unit.n.toNat ∧
              t.dec.src.asked = s.dec.src.asked ++ [s.dec.unit.buf.length - s.dec.unit.n.toNat]
          else
            1 ≤ s.dec.unit.s.toNat - s.dec.unit.n.toNat ∧
              t.dec.src.asked = s.dec.src.asked ++ [s.dec.unit.s.toNat - s.dec.unit.n.toNat]
        | .over => t.dec.src.asked = s.dec.src.asked ∨
            1 ≤ s.dec.unit.buf.length - s.dec.unit.n.toNat ∧
              t.dec.src.asked = s.dec.src.asked ++ [s.dec.unit.buf.length - s.dec.unit.n.toNat])) ∧
    ∀ s t : State, s.Inv → step s = .next t → s.resetsNext = false →
      ∃ new, t.dec.src.asked = s.dec.src.asked ++ new ∧ ∀ n ∈ new, 1 ≤ n

/-- R25: a command run in one step comes to the state that its transactions, taken one step at a time from the acceptance of the
command, come to. (That a command runs in one step, and that a step with no move to come is one transaction, is
the model's choice, assumption log 8.) -/
def Obligations.CommandIsItsTransactions : Prop :=
  ∀ s t : State, s.Inv → s.moves = [] → s.enc.unit.busy = false → s.dec.unit.busy = false →
    (exec .peekSize s = .next t → ∃ k, Sys2Proof.core.run k { s with dec := s.dec.accept .peekSize } = .next t) ∧
    (exec .readBytes s = .next t → ∃ k, Sys2Proof.core.run k { s with dec := s.dec.accept .readBytes } = .next t) ∧
    (exec .readInto s = .next t → ∃ k, Sys2Proof.core.run k { s with dec := s.dec.acceptReadInto s.cmd.buf } = .next t) ∧
    (exec .decodeList s = .next t → ∃ k, Sys2Proof.core.run k { s with dec := s.dec.acceptDecodeList } = .next t) ∧
    (exec .encode s = .next t → ∃ k, Sys2Proof.core.run k { s with enc := s.enc.acceptEncode s.cmd.payload } = .next t) ∧
    (exec .encodeList s = .next t → ∃ k, Sys2Proof.core.run k { s with enc := s.enc.acceptEncodeList s.cmd.items } = .next t)

/-! ### Progress -/

/-- A step of a machine with no move to come takes its units nearer their ends wherever one can go on; it leaves the state as it is
only where neither can; and where the source starves DEC and ENC cannot go on, the step is one more answer with no bytes, which
changes nothing but the draws of READ_INTO past its frame and the record of requests (R60, R190). -/
def Obligations.StepsMakeProgress : Prop :=
  ∀ s : State, s.Inv → s.moves = [] →
    (s.dec.transact s.cfg ≠ none ∨ s.enc.transact s.cfg ≠ none →
      ∃ t, step s = .next t ∧ t.Inv ∧ t.moves = [] ∧ t.dec.work + t.enc.work < s.dec.work + s.enc.work) ∧
    (s.dec.transact s.cfg = none → s.enc.transact s.cfg = none →
      (s.dec.unit.busy = false ∨ s.dec.src.starves = false → step s = .next s) ∧
      (s.dec.unit.busy = true → s.dec.src.starves = true →
        ∃ t n, step s = .next t ∧ t = { s with dec := t.dec } ∧ t.dec.unit = s.dec.unit ∧ 1 ≤ n ∧
          t.dec.src = { s.dec.src with asked := s.dec.src.asked ++ [n] } ∧
          (s.dec.unit.phase ≠ .over → t.dec.draws = s.dec.draws ∧ t.dec.tick = s.dec.tick)))

/-- A unit that is busy and can do nothing more is waiting for its own stream, and for nothing else: its request is not answered, or,
for DEC, is answered with no bytes for ever (R60). -/
def Obligations.BlockedOnlyBySilence : Prop :=
  ∀ s : State, s.Inv →
    (s.dec.unit.busy = true → s.dec.turn s.cfg = none → s.dec.unit.sel = .src ∧ s.dec.src.unanswered) ∧
      (s.dec.unit.busy = true → s.dec.transact s.cfg = none → s.dec.turn s.cfg ≠ none →
        s.dec.unit.sel = .src ∧ s.dec.src.starves = true) ∧
      (s.enc.unit.busy = true → s.enc.transact s.cfg = none → s.enc.unit.dst = .snk ∧ s.enc.snk.unanswered)

/-- R190: when every request is answered and the source does not go on handing over nothing for ever, every operation ends, and
delivers one result. For ENCODE_LIST that takes in a list of `2^64` bytes or more that `IBUF_CAP` stops first, as the model
reads R123 (assumption log 11). -/
def Obligations.OperationsEnd : Prop :=
  ∀ s : State, s.Inv → s.enc.unit.busy = false → s.dec.unit.busy = false → s.enc.unit.poison = false →
    s.dec.unit.poison = false →
    (s.dec.src.answersAll →
      (∀ i ∈ [Instr.peekSize, .readBytes, .decodeList],
        ∃ t x, exec i s = .next t ∧ t.dec.unit.busy = false ∧ t.dec.unit.out = s.dec.unit.out ++ [x]) ∧
      (s.cmd.buf.length < 2 ^ 64 →
        ∃ t x, exec .readInto s = .next t ∧ t.dec.unit.busy = false ∧ t.dec.unit.out = s.dec.unit.out ++ [x])) ∧
    (s.enc.snk.later = .prompt →
      (s.cmd.payload.length < 2 ^ 64 →
        ∃ t x, exec .encode s = .next t ∧ t.enc.unit.busy = false ∧ t.enc.unit.out = s.enc.unit.out ++ [x]) ∧
      (s.cmd.encodeListOk s.cfg = true →
        ∃ t x, exec .encodeList s = .next t ∧ t.enc.unit.busy = false ∧ t.enc.unit.out = s.enc.unit.out ++ [x]))

/-! ### Frames in sequence and lists -/

/-- R117: against a source whose bytes are the frames of `k` payloads and then the end, `k` READ_BYTES return the payloads in order and
the next returns CLEAN_EOS, however the source cuts the bytes up. -/
def Obligations.StreamingConcatenation : Prop :=
  ∀ (s : State) (ps : List (List Byte)), s.Inv → s.dec.unit.busy = false → s.dec.unit.poison = false →
    s.dec.src.rem = (ps.map frame).flatten → s.dec.src.fin = .eos → s.dec.src.later = .prompt →
    (∀ p ∈ ps, p.length < 2 ^ 64 ∧ passes s.cfg.maxAlloc p.length = false) →
    s.moves = List.replicate (ps.length + 1) (.command 0b101#3 Operands.none) →
    ∃ t, Sys2Proof.core.run (ps.length + 1) s = .next t ∧
      t.dec.unit.out = s.dec.unit.out ++ ps.map (fun p => ⟨.readBytes, .ok (.payload p), Chk.clear⟩) ++
        [⟨.readBytes, .cleanEos, Chk.clear⟩] ∧
      t.dec.src.rem = [] ∧ t.dec.unit.poison = false ∧ t.enc = s.enc

/-- R133: decoding the list frame of `L`, with whatever follows it, gives `L` back in order and raises no checker flag, and the source
is left at what follows. The list frame of no items is `F1 00`. -/
def Obligations.ListRoundTrip : Prop :=
  listFrame [] = [0xF1#8, 0x00#8] ∧
  ∀ (s : State) (l : List (List Byte)) (rest : List Byte),
    s.Inv → s.dec.unit.busy = false → s.dec.unit.poison = false → s.dec.src.answersAll →
    s.dec.src.rem = listFrame l ++ rest → (frameAll l).length < 2 ^ 64 → passes s.cfg.ibufCap (frameAll l).length = false →
    (∀ p ∈ l, passes s.cfg.maxAlloc p.length = false) →
    ∃ t, exec .decodeList s = .next t ∧
      s.dec.unit.endedWith t.dec.unit .decodeList (.ok (.items l)) Chk.clear ∧ t.dec.src.rem = rest

/-- PEEK_SIZE, then a draw of the payload by the host, then READ_BYTES: the second frame is read (R104, R182). -/
def Obligations.PeekThenDraw : Prop :=
  ∀ (s : State) (p q rest : List Byte), s.Inv → s.dec.unit.busy = false → s.dec.unit.poison = false → s.dec.src.answersAll →
    p.length < 2 ^ 64 → q.length < 2 ^ 64 → passes s.cfg.maxAlloc q.length = false →
    s.dec.src.rem = frame p ++ frame q ++ rest →
    s.moves = [.command 0b100#3 Operands.none, .draw p.length, .command 0b101#3 Operands.none] →
    ∃ t, Sys2Proof.core.run 3 s = .next t ∧
      t.dec.unit.out = s.dec.unit.out ++
        [⟨.peekSize, .ok (.size (BitVec.ofNat 64 p.length)), Chk.clear⟩, ⟨.readBytes, .ok (.payload q), Chk.clear⟩] ∧
      t.dec.src.rem = rest
end

