-- ==== Sys2Proof/Laws/Codec.lean ====
section
/-! SUPPORT. The small lemmas of the pure functions of Codec.lean and of the type byte. -/

namespace Sys2Proof

/-! ### The type byte (R63) -/

@[simp] theorem typeLo_typeByte (hi m : Nibble) : typeLo (typeByte hi m) = m := by
  revert hi m; decide

@[simp] theorem typeHi_typeByte (hi m : Nibble) : typeHi (typeByte hi m) = hi := by
  revert hi m; decide

@[simp] theorem typeByte_hi_lo (t : Byte) : typeByte (typeHi t) (typeLo t) = t := by
  revert t; decide

theorem encTypeByte_eq (m : Nibble) : encTypeByte m = typeByte 0xF#4 m := by
  revert m; decide

@[simp] theorem typeLo_encTypeByte (m : Nibble) : typeLo (encTypeByte m) = m := by
  rw [encTypeByte_eq]; simp

@[simp] theorem typeHi_encTypeByte (m : Nibble) : typeHi (encTypeByte m) = 0xF#4 := by
  rw [encTypeByte_eq]; simp

namespace Machine

/-! ### Little-endian fields (R68, R69) -/

@[simp] theorem leBytes_length (v m : Nat) : (leBytes v m).length = m := by
  induction m generalizing v with
  | zero => rfl
  | succ m ih => simp [leBytes, ih]

theorem leValue_leBytes_mod (v m : Nat) : leValue (leBytes v m) = v % 256 ^ m := by
  induction m generalizing v with
  | zero => simp [leBytes, leValue, Nat.mod_one]
  | succ m ih =>
    simp only [leBytes, leValue, ih, BitVec.toNat_ofNat, pow_succ' 256, Nat.mod_mul, Nat.reducePow]

theorem leValue_lt (x : List Byte) : leValue x < 256 ^ x.length := by
  induction x with
  | nil => simp [leValue]
  | cons b x ih =>
    have hb := b.isLt
    simp only [leValue, List.length_cons, pow_succ']
    omega

theorem leBytes_leValue_length (x : List Byte) : leBytes (leValue x) x.length = x := by
  induction x with
  | nil => rfl
  | cons b x ih =>
    have hb := b.isLt
    simp only [List.length_cons, leBytes, leValue]
    rw [show (b.toNat + 256 * leValue x) / 256 = leValue x by omega, ih]
    congr 1
    apply BitVec.eq_of_toNat_eq
    simp only [BitVec.toNat_ofNat]
    omega

theorem leValue_append (x y : List Byte) : leValue (x ++ y) = leValue x + 256 ^ x.length * leValue y := by
  induction x with
  | nil => simp [leValue]
  | cons b x ih => simp only [List.cons_append, leValue, ih, List.length_cons, pow_succ']; ring

theorem leValue_zeros (k : Nat) : leValue (List.replicate k 0#8) = 0 := by
  induction k with
  | zero => rfl
  | succ k ih => simp [List.replicate_succ, leValue, ih]

/-! ### The width function (R70) -/

theorem mEnc_cases (s : Nat) : mEnc s = 1 ∨ mEnc s = 2 ∨ mEnc s = 4 ∨ mEnc s = 8 := by
  unfold mEnc; split_ifs <;> simp

theorem mEnc_pos (s : Nat) : 1 ≤ mEnc s := by
  have := mEnc_cases s; omega

theorem mEnc_le (s : Nat) : mEnc s ≤ 8 := by
  have := mEnc_cases s; omega

theorem lt_pow_mEnc {s : Nat} (h : s < 2 ^ 64) : s < 256 ^ mEnc s := by
  unfold mEnc
  split_ifs <;> norm_num at * <;> omega

theorem mEnc_mono {s s' : Nat} (h : s ≤ s') : mEnc s ≤ mEnc s' := by
  unfold mEnc
  split_ifs <;> norm_num at * <;> omega

@[simp] theorem toNat_mEnc_nibble (s : Nat) : (BitVec.ofNat 4 (mEnc s)).toNat = mEnc s := by
  rcases mEnc_cases s with h | h | h | h <;> simp [h]

theorem leValue_leBytes_mEnc {s : Nat} (h : s < 2 ^ 64) : leValue (leBytes s (mEnc s)) = s := by
  rw [leValue_leBytes_mod, Nat.mod_eq_of_lt (lt_pow_mEnc h)]

/-! ### Frames (R62, R119) -/

@[simp] theorem frame_length (p : List Byte) : (frame p).length = 1 + mEnc p.length + p.length := by
  simp [frame]; omega

theorem frame_ne_nil (p : List Byte) : frame p ≠ [] := by simp [frame]

@[simp] theorem frameAll_append (l l' : List (List Byte)) : frameAll (l ++ l') = frameAll l ++ frameAll l' := by
  induction l with
  | nil => rfl
  | cons p l ih => simp [frameAll, ih]

@[simp] theorem passes_none (n : Nat) : passes none n = false := rfl

theorem passes_mono {cap : Option Nat} {m n : Nat} (h : m ≤ n) (hp : passes cap n = false) : passes cap m = false := by
  cases cap with
  | none => rfl
  | some c => simp [passes] at *; omega

@[simp] theorem passes_zero (cap : Option Nat) : passes cap 0 = false := by
  cases cap <;> simp [passes]

/-! ### The checker's flags (R137, R131) -/

theorem check_wnd_wnm (t : Byte) (s : Nat) (h : (check t s).wnd = true) : (check t s).wnm = true := by
  have hm := mEnc_cases s
  simp only [check, Bool.or_eq_true, beq_iff_eq, Bool.and_eq_true, decide_eq_true_eq, bne_iff_ne, ne_eq] at *
  omega

@[simp] theorem Chk.clear_or (c : Chk) : Chk.clear.or c = c := by
  cases c; simp [Chk.or, Chk.clear]

@[simp] theorem Chk.or_clear (c : Chk) : c.or Chk.clear = c := by
  cases c; simp [Chk.or, Chk.clear]

theorem Chk.or_assoc (a b c : Chk) : (a.or b).or c = a.or (b.or c) := by
  cases a; cases b; cases c; simp [Chk.or, Bool.or_assoc]

end Machine
end Sys2Proof
end

