-- ==== Sys2Proof/Laws/State.lean ====
section
/-! SUPPORT. One lemma for each register under each named update of a unit: what the update writes, and that it writes nothing
else. All hold by rfl. -/

namespace Sys2Proof.Machine

/-! ### Dec.finish -/

@[simp] theorem Dec.finish_phase (d : Dec) (r : Result) : (d.finish r).unit.phase = .idle := rfl
@[simp] theorem Dec.finish_t (d : Dec) (r : Result) : (d.finish r).unit.t = d.unit.t := rfl
@[simp] theorem Dec.finish_m (d : Dec) (r : Result) : (d.finish r).unit.m = d.unit.m := rfl
@[simp] theorem Dec.finish_lb (d : Dec) (r : Result) : (d.finish r).unit.lb = d.unit.lb := rfl
@[simp] theorem Dec.finish_s (d : Dec) (r : Result) : (d.finish r).unit.s = d.unit.s := rfl
@[simp] theorem Dec.finish_n (d : Dec) (r : Result) : (d.finish r).unit.n = d.unit.n := rfl
@[simp] theorem Dec.finish_sel (d : Dec) (r : Result) : (d.finish r).unit.sel = d.unit.sel := rfl
@[simp] theorem Dec.finish_busy (d : Dec) (r : Result) : (d.finish r).unit.busy = false := rfl
@[simp] theorem Dec.finish_poison (d : Dec) (r : Result) : (d.finish r).unit.poison = (d.unit.poison || r.poisons) := rfl
@[simp] theorem Dec.finish_result (d : Dec) (r : Result) : (d.finish r).unit.result = r.code := rfl
@[simp] theorem Dec.finish_chk (d : Dec) (r : Result) : (d.finish r).unit.chk = d.unit.chk := rfl
@[simp] theorem Dec.finish_ibuf (d : Dec) (r : Result) : (d.finish r).unit.ibuf = d.unit.ibuf := rfl
@[simp] theorem Dec.finish_op (d : Dec) (r : Result) : (d.finish r).unit.op = d.unit.op := rfl
@[simp] theorem Dec.finish_buf (d : Dec) (r : Result) : (d.finish r).unit.buf = d.unit.buf := rfl
@[simp] theorem Dec.finish_pay (d : Dec) (r : Result) : (d.finish r).unit.pay = d.unit.pay := rfl
@[simp] theorem Dec.finish_items (d : Dec) (r : Result) : (d.finish r).unit.items = d.unit.items := rfl
@[simp] theorem Dec.finish_flags (d : Dec) (r : Result) : (d.finish r).unit.flags = d.unit.flags := rfl
@[simp] theorem Dec.finish_out (d : Dec) (r : Result) : (d.finish r).unit.out = d.unit.out ++ [{ op := d.unit.op, result := r, chk := d.unit.chk }] := rfl
@[simp] theorem Dec.finish_src (d : Dec) (r : Result) : (d.finish r).src = d.src := rfl
@[simp] theorem Dec.finish_draws (d : Dec) (r : Result) : (d.finish r).draws = d.draws := rfl
@[simp] theorem Dec.finish_tick (d : Dec) (r : Result) : (d.finish r).tick = d.tick := rfl

/-! ### Dec.spoilBuf -/

@[simp] theorem Dec.spoilBuf_phase (d : Dec) : (d.spoilBuf).unit.phase = d.unit.phase := rfl
@[simp] theorem Dec.spoilBuf_t (d : Dec) : (d.spoilBuf).unit.t = d.unit.t := rfl
@[simp] theorem Dec.spoilBuf_m (d : Dec) : (d.spoilBuf).unit.m = d.unit.m := rfl
@[simp] theorem Dec.spoilBuf_lb (d : Dec) : (d.spoilBuf).unit.lb = d.unit.lb := rfl
@[simp] theorem Dec.spoilBuf_s (d : Dec) : (d.spoilBuf).unit.s = d.unit.s := rfl
@[simp] theorem Dec.spoilBuf_n (d : Dec) : (d.spoilBuf).unit.n = d.unit.n := rfl
@[simp] theorem Dec.spoilBuf_sel (d : Dec) : (d.spoilBuf).unit.sel = d.unit.sel := rfl
@[simp] theorem Dec.spoilBuf_busy (d : Dec) : (d.spoilBuf).unit.busy = d.unit.busy := rfl
@[simp] theorem Dec.spoilBuf_poison (d : Dec) : (d.spoilBuf).unit.poison = d.unit.poison := rfl
@[simp] theorem Dec.spoilBuf_result (d : Dec) : (d.spoilBuf).unit.result = d.unit.result := rfl
@[simp] theorem Dec.spoilBuf_chk (d : Dec) : (d.spoilBuf).unit.chk = d.unit.chk := rfl
@[simp] theorem Dec.spoilBuf_ibuf (d : Dec) : (d.spoilBuf).unit.ibuf = d.unit.ibuf := rfl
@[simp] theorem Dec.spoilBuf_op (d : Dec) : (d.spoilBuf).unit.op = d.unit.op := rfl
@[simp] theorem Dec.spoilBuf_buf (d : Dec) : (d.spoilBuf).unit.buf = freeBytes d.tick d.unit.buf.length := rfl
@[simp] theorem Dec.spoilBuf_pay (d : Dec) : (d.spoilBuf).unit.pay = d.unit.pay := rfl
@[simp] theorem Dec.spoilBuf_items (d : Dec) : (d.spoilBuf).unit.items = d.unit.items := rfl
@[simp] theorem Dec.spoilBuf_flags (d : Dec) : (d.spoilBuf).unit.flags = d.unit.flags := rfl
@[simp] theorem Dec.spoilBuf_out (d : Dec) : (d.spoilBuf).unit.out = d.unit.out := rfl
@[simp] theorem Dec.spoilBuf_src (d : Dec) : (d.spoilBuf).src = d.src := rfl
@[simp] theorem Dec.spoilBuf_draws (d : Dec) : (d.spoilBuf).draws = d.draws := rfl
@[simp] theorem Dec.spoilBuf_tick (d : Dec) : (d.spoilBuf).tick = d.tick + d.unit.buf.length := rfl

/-! ### Dec.spoilBufFrom -/

@[simp] theorem Dec.spoilBufFrom_phase (d : Dec) (k : Nat) : (d.spoilBufFrom k).unit.phase = d.unit.phase := rfl
@[simp] theorem Dec.spoilBufFrom_t (d : Dec) (k : Nat) : (d.spoilBufFrom k).unit.t = d.unit.t := rfl
@[simp] theorem Dec.spoilBufFrom_m (d : Dec) (k : Nat) : (d.spoilBufFrom k).unit.m = d.unit.m := rfl
@[simp] theorem Dec.spoilBufFrom_lb (d : Dec) (k : Nat) : (d.spoilBufFrom k).unit.lb = d.unit.lb := rfl
@[simp] theorem Dec.spoilBufFrom_s (d : Dec) (k : Nat) : (d.spoilBufFrom k).unit.s = d.unit.s := rfl
@[simp] theorem Dec.spoilBufFrom_n (d : Dec) (k : Nat) : (d.spoilBufFrom k).unit.n = d.unit.n := rfl
@[simp] theorem Dec.spoilBufFrom_sel (d : Dec) (k : Nat) : (d.spoilBufFrom k).unit.sel = d.unit.sel := rfl
@[simp] theorem Dec.spoilBufFrom_busy (d : Dec) (k : Nat) : (d.spoilBufFrom k).unit.busy = d.unit.busy := rfl
@[simp] theorem Dec.spoilBufFrom_poison (d : Dec) (k : Nat) : (d.spoilBufFrom k).unit.poison = d.unit.poison := rfl
@[simp] theorem Dec.spoilBufFrom_result (d : Dec) (k : Nat) : (d.spoilBufFrom k).unit.result = d.unit.result := rfl
@[simp] theorem Dec.spoilBufFrom_chk (d : Dec) (k : Nat) : (d.spoilBufFrom k).unit.chk = d.unit.chk := rfl
@[simp] theorem Dec.spoilBufFrom_ibuf (d : Dec) (k : Nat) : (d.spoilBufFrom k).unit.ibuf = d.unit.ibuf := rfl
@[simp] theorem Dec.spoilBufFrom_op (d : Dec) (k : Nat) : (d.spoilBufFrom k).unit.op = d.unit.op := rfl
@[simp] theorem Dec.spoilBufFrom_buf (d : Dec) (k : Nat) : (d.spoilBufFrom k).unit.buf = d.unit.buf.take k ++ freeBytes d.tick (d.unit.buf.length - k) := rfl
@[simp] theorem Dec.spoilBufFrom_pay (d : Dec) (k : Nat) : (d.spoilBufFrom k).unit.pay = d.unit.pay := rfl
@[simp] theorem Dec.spoilBufFrom_items (d : Dec) (k : Nat) : (d.spoilBufFrom k).unit.items = d.unit.items := rfl
@[simp] theorem Dec.spoilBufFrom_flags (d : Dec) (k : Nat) : (d.spoilBufFrom k).unit.flags = d.unit.flags := rfl
@[simp] theorem Dec.spoilBufFrom_out (d : Dec) (k : Nat) : (d.spoilBufFrom k).unit.out = d.unit.out := rfl
@[simp] theorem Dec.spoilBufFrom_src (d : Dec) (k : Nat) : (d.spoilBufFrom k).src = d.src := rfl
@[simp] theorem Dec.spoilBufFrom_draws (d : Dec) (k : Nat) : (d.spoilBufFrom k).draws = d.draws := rfl
@[simp] theorem Dec.spoilBufFrom_tick (d : Dec) (k : Nat) : (d.spoilBufFrom k).tick = d.tick + (d.unit.buf.length - k) := rfl

/-! ### Dec.enterType -/

@[simp] theorem Dec.enterType_phase (d : Dec) : (d.enterType).unit.phase = .type := rfl
@[simp] theorem Dec.enterType_t (d : Dec) : (d.enterType).unit.t = d.unit.t := rfl
@[simp] theorem Dec.enterType_m (d : Dec) : (d.enterType).unit.m = d.unit.m := rfl
@[simp] theorem Dec.enterType_lb (d : Dec) : (d.enterType).unit.lb = Vector.replicate 8 0 := rfl
@[simp] theorem Dec.enterType_s (d : Dec) : (d.enterType).unit.s = d.unit.s := rfl
@[simp] theorem Dec.enterType_n (d : Dec) : (d.enterType).unit.n = 0 := rfl
@[simp] theorem Dec.enterType_sel (d : Dec) : (d.enterType).unit.sel = d.unit.sel := rfl
@[simp] theorem Dec.enterType_busy (d : Dec) : (d.enterType).unit.busy = d.unit.busy := rfl
@[simp] theorem Dec.enterType_poison (d : Dec) : (d.enterType).unit.poison = d.unit.poison := rfl
@[simp] theorem Dec.enterType_result (d : Dec) : (d.enterType).unit.result = d.unit.result := rfl
@[simp] theorem Dec.enterType_chk (d : Dec) : (d.enterType).unit.chk = Chk.clear := rfl
@[simp] theorem Dec.enterType_ibuf (d : Dec) : (d.enterType).unit.ibuf = d.unit.ibuf := rfl
@[simp] theorem Dec.enterType_op (d : Dec) : (d.enterType).unit.op = d.unit.op := rfl
@[simp] theorem Dec.enterType_buf (d : Dec) : (d.enterType).unit.buf = d.unit.buf := rfl
@[simp] theorem Dec.enterType_pay (d : Dec) : (d.enterType).unit.pay = d.unit.pay := rfl
@[simp] theorem Dec.enterType_items (d : Dec) : (d.enterType).unit.items = d.unit.items := rfl
@[simp] theorem Dec.enterType_flags (d : Dec) : (d.enterType).unit.flags = d.unit.flags := rfl
@[simp] theorem Dec.enterType_out (d : Dec) : (d.enterType).unit.out = d.unit.out := rfl
@[simp] theorem Dec.enterType_src (d : Dec) : (d.enterType).src = d.src := rfl
@[simp] theorem Dec.enterType_draws (d : Dec) : (d.enterType).draws = d.draws := rfl
@[simp] theorem Dec.enterType_tick (d : Dec) : (d.enterType).tick = d.tick := rfl

/-! ### Dec.enterPay -/

@[simp] theorem Dec.enterPay_phase (d : Dec) : (d.enterPay).unit.phase = .pay := rfl
@[simp] theorem Dec.enterPay_t (d : Dec) : (d.enterPay).unit.t = d.unit.t := rfl
@[simp] theorem Dec.enterPay_m (d : Dec) : (d.enterPay).unit.m = d.unit.m := rfl
@[simp] theorem Dec.enterPay_lb (d : Dec) : (d.enterPay).unit.lb = d.unit.lb := rfl
@[simp] theorem Dec.enterPay_s (d : Dec) : (d.enterPay).unit.s = d.unit.s := rfl
@[simp] theorem Dec.enterPay_n (d : Dec) : (d.enterPay).unit.n = d.unit.n := rfl
@[simp] theorem Dec.enterPay_sel (d : Dec) : (d.enterPay).unit.sel = d.unit.sel := rfl
@[simp] theorem Dec.enterPay_busy (d : Dec) : (d.enterPay).unit.busy = d.unit.busy := rfl
@[simp] theorem Dec.enterPay_poison (d : Dec) : (d.enterPay).unit.poison = d.unit.poison := rfl
@[simp] theorem Dec.enterPay_result (d : Dec) : (d.enterPay).unit.result = d.unit.result := rfl
@[simp] theorem Dec.enterPay_chk (d : Dec) : (d.enterPay).unit.chk = d.unit.chk := rfl
@[simp] theorem Dec.enterPay_ibuf (d : Dec) : (d.enterPay).unit.ibuf = d.unit.ibuf := rfl
@[simp] theorem Dec.enterPay_op (d : Dec) : (d.enterPay).unit.op = d.unit.op := rfl
@[simp] theorem Dec.enterPay_buf (d : Dec) : (d.enterPay).unit.buf = d.unit.buf := rfl
@[simp] theorem Dec.enterPay_pay (d : Dec) : (d.enterPay).unit.pay = [] := rfl
@[simp] theorem Dec.enterPay_items (d : Dec) : (d.enterPay).unit.items = d.unit.items := rfl
@[simp] theorem Dec.enterPay_flags (d : Dec) : (d.enterPay).unit.flags = d.unit.flags := rfl
@[simp] theorem Dec.enterPay_out (d : Dec) : (d.enterPay).unit.out = d.unit.out := rfl
@[simp] theorem Dec.enterPay_src (d : Dec) : (d.enterPay).src = d.src := rfl
@[simp] theorem Dec.enterPay_draws (d : Dec) : (d.enterPay).draws = d.draws := rfl
@[simp] theorem Dec.enterPay_tick (d : Dec) : (d.enterPay).tick = d.tick := rfl

/-! ### Dec.latchType -/

@[simp] theorem Dec.latchType_phase (d : Dec) (b : Byte) : (d.latchType b).unit.phase = d.unit.phase := rfl
@[simp] theorem Dec.latchType_t (d : Dec) (b : Byte) : (d.latchType b).unit.t = b := rfl
@[simp] theorem Dec.latchType_m (d : Dec) (b : Byte) : (d.latchType b).unit.m = typeLo b := rfl
@[simp] theorem Dec.latchType_lb (d : Dec) (b : Byte) : (d.latchType b).unit.lb = d.unit.lb := rfl
@[simp] theorem Dec.latchType_s (d : Dec) (b : Byte) : (d.latchType b).unit.s = d.unit.s := rfl
@[simp] theorem Dec.latchType_n (d : Dec) (b : Byte) : (d.latchType b).unit.n = 0 := rfl
@[simp] theorem Dec.latchType_sel (d : Dec) (b : Byte) : (d.latchType b).unit.sel = d.unit.sel := rfl
@[simp] theorem Dec.latchType_busy (d : Dec) (b : Byte) : (d.latchType b).unit.busy = d.unit.busy := rfl
@[simp] theorem Dec.latchType_poison (d : Dec) (b : Byte) : (d.latchType b).unit.poison = d.unit.poison := rfl
@[simp] theorem Dec.latchType_result (d : Dec) (b : Byte) : (d.latchType b).unit.result = d.unit.result := rfl
@[simp] theorem Dec.latchType_chk (d : Dec) (b : Byte) : (d.latchType b).unit.chk = d.unit.chk := rfl
@[simp] theorem Dec.latchType_ibuf (d : Dec) (b : Byte) : (d.latchType b).unit.ibuf = d.unit.ibuf := rfl
@[simp] theorem Dec.latchType_op (d : Dec) (b : Byte) : (d.latchType b).unit.op = d.unit.op := rfl
@[simp] theorem Dec.latchType_buf (d : Dec) (b : Byte) : (d.latchType b).unit.buf = d.unit.buf := rfl
@[simp] theorem Dec.latchType_pay (d : Dec) (b : Byte) : (d.latchType b).unit.pay = d.unit.pay := rfl
@[simp] theorem Dec.latchType_items (d : Dec) (b : Byte) : (d.latchType b).unit.items = d.unit.items := rfl
@[simp] theorem Dec.latchType_flags (d : Dec) (b : Byte) : (d.latchType b).unit.flags = d.unit.flags := rfl
@[simp] theorem Dec.latchType_out (d : Dec) (b : Byte) : (d.latchType b).unit.out = d.unit.out := rfl
@[simp] theorem Dec.latchType_src (d : Dec) (b : Byte) : (d.latchType b).src = d.src := rfl
@[simp] theorem Dec.latchType_draws (d : Dec) (b : Byte) : (d.latchType b).draws = d.draws := rfl
@[simp] theorem Dec.latchType_tick (d : Dec) (b : Byte) : (d.latchType b).tick = d.tick := rfl

/-! ### Dec.takeWidth -/

@[simp] theorem Dec.takeWidth_phase (d : Dec) (b : Byte) : (d.takeWidth b).unit.phase = .len := rfl
@[simp] theorem Dec.takeWidth_t (d : Dec) (b : Byte) : (d.takeWidth b).unit.t = b := rfl
@[simp] theorem Dec.takeWidth_m (d : Dec) (b : Byte) : (d.takeWidth b).unit.m = typeLo b := rfl
@[simp] theorem Dec.takeWidth_lb (d : Dec) (b : Byte) : (d.takeWidth b).unit.lb = d.unit.lb := rfl
@[simp] theorem Dec.takeWidth_s (d : Dec) (b : Byte) : (d.takeWidth b).unit.s = d.unit.s := rfl
@[simp] theorem Dec.takeWidth_n (d : Dec) (b : Byte) : (d.takeWidth b).unit.n = 0 := rfl
@[simp] theorem Dec.takeWidth_sel (d : Dec) (b : Byte) : (d.takeWidth b).unit.sel = d.unit.sel := rfl
@[simp] theorem Dec.takeWidth_busy (d : Dec) (b : Byte) : (d.takeWidth b).unit.busy = d.unit.busy := rfl
@[simp] theorem Dec.takeWidth_poison (d : Dec) (b : Byte) : (d.takeWidth b).unit.poison = d.unit.poison := rfl
@[simp] theorem Dec.takeWidth_result (d : Dec) (b : Byte) : (d.takeWidth b).unit.result = d.unit.result := rfl
@[simp] theorem Dec.takeWidth_chk (d : Dec) (b : Byte) : (d.takeWidth b).unit.chk = d.unit.chk := rfl
@[simp] theorem Dec.takeWidth_ibuf (d : Dec) (b : Byte) : (d.takeWidth b).unit.ibuf = d.unit.ibuf := rfl
@[simp] theorem Dec.takeWidth_op (d : Dec) (b : Byte) : (d.takeWidth b).unit.op = d.unit.op := rfl
@[simp] theorem Dec.takeWidth_buf (d : Dec) (b : Byte) : (d.takeWidth b).unit.buf = d.unit.buf := rfl
@[simp] theorem Dec.takeWidth_pay (d : Dec) (b : Byte) : (d.takeWidth b).unit.pay = d.unit.pay := rfl
@[simp] theorem Dec.takeWidth_items (d : Dec) (b : Byte) : (d.takeWidth b).unit.items = d.unit.items := rfl
@[simp] theorem Dec.takeWidth_flags (d : Dec) (b : Byte) : (d.takeWidth b).unit.flags = d.unit.flags := rfl
@[simp] theorem Dec.takeWidth_out (d : Dec) (b : Byte) : (d.takeWidth b).unit.out = d.unit.out := rfl
@[simp] theorem Dec.takeWidth_src (d : Dec) (b : Byte) : (d.takeWidth b).src = d.src := rfl
@[simp] theorem Dec.takeWidth_draws (d : Dec) (b : Byte) : (d.takeWidth b).draws = d.draws := rfl
@[simp] theorem Dec.takeWidth_tick (d : Dec) (b : Byte) : (d.takeWidth b).tick = d.tick := rfl

/-! ### Dec.outerDone -/

@[simp] theorem Dec.outerDone_phase (d : Dec) : (d.outerDone).unit.phase = .type := rfl
@[simp] theorem Dec.outerDone_t (d : Dec) : (d.outerDone).unit.t = d.unit.t := rfl
@[simp] theorem Dec.outerDone_m (d : Dec) : (d.outerDone).unit.m = d.unit.m := rfl
@[simp] theorem Dec.outerDone_lb (d : Dec) : (d.outerDone).unit.lb = Vector.replicate 8 0 := rfl
@[simp] theorem Dec.outerDone_s (d : Dec) : (d.outerDone).unit.s = d.unit.s := rfl
@[simp] theorem Dec.outerDone_n (d : Dec) : (d.outerDone).unit.n = 0 := rfl
@[simp] theorem Dec.outerDone_sel (d : Dec) : (d.outerDone).unit.sel = .ibuf := rfl
@[simp] theorem Dec.outerDone_busy (d : Dec) : (d.outerDone).unit.busy = d.unit.busy := rfl
@[simp] theorem Dec.outerDone_poison (d : Dec) : (d.outerDone).unit.poison = d.unit.poison := rfl
@[simp] theorem Dec.outerDone_result (d : Dec) : (d.outerDone).unit.result = d.unit.result := rfl
@[simp] theorem Dec.outerDone_chk (d : Dec) : (d.outerDone).unit.chk = Chk.clear := rfl
@[simp] theorem Dec.outerDone_ibuf (d : Dec) : (d.outerDone).unit.ibuf = d.unit.ibuf := rfl
@[simp] theorem Dec.outerDone_op (d : Dec) : (d.outerDone).unit.op = d.unit.op := rfl
@[simp] theorem Dec.outerDone_buf (d : Dec) : (d.outerDone).unit.buf = d.unit.buf := rfl
@[simp] theorem Dec.outerDone_pay (d : Dec) : (d.outerDone).unit.pay = d.unit.pay := rfl
@[simp] theorem Dec.outerDone_items (d : Dec) : (d.outerDone).unit.items = [] := rfl
@[simp] theorem Dec.outerDone_flags (d : Dec) : (d.outerDone).unit.flags = d.unit.chk := rfl
@[simp] theorem Dec.outerDone_out (d : Dec) : (d.outerDone).unit.out = d.unit.out := rfl
@[simp] theorem Dec.outerDone_src (d : Dec) : (d.outerDone).src = d.src := rfl
@[simp] theorem Dec.outerDone_draws (d : Dec) : (d.outerDone).draws = d.draws := rfl
@[simp] theorem Dec.outerDone_tick (d : Dec) : (d.outerDone).tick = d.tick := rfl

/-! ### Dec.innerDone -/

@[simp] theorem Dec.innerDone_phase (d : Dec) (p : List Byte) : (d.innerDone p).unit.phase = .type := rfl
@[simp] theorem Dec.innerDone_t (d : Dec) (p : List Byte) : (d.innerDone p).unit.t = d.unit.t := rfl
@[simp] theorem Dec.innerDone_m (d : Dec) (p : List Byte) : (d.innerDone p).unit.m = d.unit.m := rfl
@[simp] theorem Dec.innerDone_lb (d : Dec) (p : List Byte) : (d.innerDone p).unit.lb = Vector.replicate 8 0 := rfl
@[simp] theorem Dec.innerDone_s (d : Dec) (p : List Byte) : (d.innerDone p).unit.s = d.unit.s := rfl
@[simp] theorem Dec.innerDone_n (d : Dec) (p : List Byte) : (d.innerDone p).unit.n = 0 := rfl
@[simp] theorem Dec.innerDone_sel (d : Dec) (p : List Byte) : (d.innerDone p).unit.sel = d.unit.sel := rfl
@[simp] theorem Dec.innerDone_busy (d : Dec) (p : List Byte) : (d.innerDone p).unit.busy = d.unit.busy := rfl
@[simp] theorem Dec.innerDone_poison (d : Dec) (p : List Byte) : (d.innerDone p).unit.poison = d.unit.poison := rfl
@[simp] theorem Dec.innerDone_result (d : Dec) (p : List Byte) : (d.innerDone p).unit.result = d.unit.result := rfl
@[simp] theorem Dec.innerDone_chk (d : Dec) (p : List Byte) : (d.innerDone p).unit.chk = Chk.clear := rfl
@[simp] theorem Dec.innerDone_ibuf (d : Dec) (p : List Byte) : (d.innerDone p).unit.ibuf = d.unit.ibuf := rfl
@[simp] theorem Dec.innerDone_op (d : Dec) (p : List Byte) : (d.innerDone p).unit.op = d.unit.op := rfl
@[simp] theorem Dec.innerDone_buf (d : Dec) (p : List Byte) : (d.innerDone p).unit.buf = d.unit.buf := rfl
@[simp] theorem Dec.innerDone_pay (d : Dec) (p : List Byte) : (d.innerDone p).unit.pay = d.unit.pay := rfl
@[simp] theorem Dec.innerDone_items (d : Dec) (p : List Byte) : (d.innerDone p).unit.items = d.unit.items ++ [p] := rfl
@[simp] theorem Dec.innerDone_flags (d : Dec) (p : List Byte) : (d.innerDone p).unit.flags = d.unit.flags.or d.unit.chk := rfl
@[simp] theorem Dec.innerDone_out (d : Dec) (p : List Byte) : (d.innerDone p).unit.out = d.unit.out := rfl
@[simp] theorem Dec.innerDone_src (d : Dec) (p : List Byte) : (d.innerDone p).src = d.src := rfl
@[simp] theorem Dec.innerDone_draws (d : Dec) (p : List Byte) : (d.innerDone p).draws = d.draws := rfl
@[simp] theorem Dec.innerDone_tick (d : Dec) (p : List Byte) : (d.innerDone p).tick = d.tick := rfl

/-! ### Dec.accept -/

@[simp] theorem Dec.accept_phase (d : Dec) (o : DecOp) : (d.accept o).unit.phase = .type := rfl
@[simp] theorem Dec.accept_t (d : Dec) (o : DecOp) : (d.accept o).unit.t = d.unit.t := rfl
@[simp] theorem Dec.accept_m (d : Dec) (o : DecOp) : (d.accept o).unit.m = d.unit.m := rfl
@[simp] theorem Dec.accept_lb (d : Dec) (o : DecOp) : (d.accept o).unit.lb = Vector.replicate 8 0 := rfl
@[simp] theorem Dec.accept_s (d : Dec) (o : DecOp) : (d.accept o).unit.s = d.unit.s := rfl
@[simp] theorem Dec.accept_n (d : Dec) (o : DecOp) : (d.accept o).unit.n = 0 := rfl
@[simp] theorem Dec.accept_sel (d : Dec) (o : DecOp) : (d.accept o).unit.sel = .src := rfl
@[simp] theorem Dec.accept_busy (d : Dec) (o : DecOp) : (d.accept o).unit.busy = true := rfl
@[simp] theorem Dec.accept_poison (d : Dec) (o : DecOp) : (d.accept o).unit.poison = d.unit.poison := rfl
@[simp] theorem Dec.accept_result (d : Dec) (o : DecOp) : (d.accept o).unit.result = d.unit.result := rfl
@[simp] theorem Dec.accept_chk (d : Dec) (o : DecOp) : (d.accept o).unit.chk = Chk.clear := rfl
@[simp] theorem Dec.accept_ibuf (d : Dec) (o : DecOp) : (d.accept o).unit.ibuf = d.unit.ibuf := rfl
@[simp] theorem Dec.accept_op (d : Dec) (o : DecOp) : (d.accept o).unit.op = o := rfl
@[simp] theorem Dec.accept_buf (d : Dec) (o : DecOp) : (d.accept o).unit.buf = d.unit.buf := rfl
@[simp] theorem Dec.accept_pay (d : Dec) (o : DecOp) : (d.accept o).unit.pay = d.unit.pay := rfl
@[simp] theorem Dec.accept_items (d : Dec) (o : DecOp) : (d.accept o).unit.items = d.unit.items := rfl
@[simp] theorem Dec.accept_flags (d : Dec) (o : DecOp) : (d.accept o).unit.flags = d.unit.flags := rfl
@[simp] theorem Dec.accept_out (d : Dec) (o : DecOp) : (d.accept o).unit.out = d.unit.out := rfl
@[simp] theorem Dec.accept_src (d : Dec) (o : DecOp) : (d.accept o).src = d.src := rfl
@[simp] theorem Dec.accept_draws (d : Dec) (o : DecOp) : (d.accept o).draws = d.draws := rfl
@[simp] theorem Dec.accept_tick (d : Dec) (o : DecOp) : (d.accept o).tick = d.tick := rfl

/-! ### Enc.finish -/

@[simp] theorem Enc.finish_phase (e : Enc) (r : Result) : (e.finish r).unit.phase = .idle := rfl
@[simp] theorem Enc.finish_s (e : Enc) (r : Result) : (e.finish r).unit.s = e.unit.s := rfl
@[simp] theorem Enc.finish_m (e : Enc) (r : Result) : (e.finish r).unit.m = e.unit.m := rfl
@[simp] theorem Enc.finish_cnt (e : Enc) (r : Result) : (e.finish r).unit.cnt = e.unit.cnt := rfl
@[simp] theorem Enc.finish_dst (e : Enc) (r : Result) : (e.finish r).unit.dst = e.unit.dst := rfl
@[simp] theorem Enc.finish_idx (e : Enc) (r : Result) : (e.finish r).unit.idx = e.unit.idx := rfl
@[simp] theorem Enc.finish_busy (e : Enc) (r : Result) : (e.finish r).unit.busy = false := rfl
@[simp] theorem Enc.finish_poison (e : Enc) (r : Result) : (e.finish r).unit.poison = (e.unit.poison || r.poisons) := rfl
@[simp] theorem Enc.finish_result (e : Enc) (r : Result) : (e.finish r).unit.result = r.code := rfl
@[simp] theorem Enc.finish_ibuf (e : Enc) (r : Result) : (e.finish r).unit.ibuf = e.unit.ibuf := rfl
@[simp] theorem Enc.finish_op (e : Enc) (r : Result) : (e.finish r).unit.op = e.unit.op := rfl
@[simp] theorem Enc.finish_payload (e : Enc) (r : Result) : (e.finish r).unit.payload = e.unit.payload := rfl
@[simp] theorem Enc.finish_items (e : Enc) (r : Result) : (e.finish r).unit.items = e.unit.items := rfl
@[simp] theorem Enc.finish_out (e : Enc) (r : Result) : (e.finish r).unit.out = e.unit.out ++ [{ op := e.unit.op, result := r }] := rfl
@[simp] theorem Enc.finish_snk (e : Enc) (r : Result) : (e.finish r).snk = e.snk := rfl

/-! ### Enc.startFrame -/

@[simp] theorem Enc.startFrame_phase (e : Enc) (p : List Byte) : (e.startFrame p).unit.phase = .wType := rfl
@[simp] theorem Enc.startFrame_s (e : Enc) (p : List Byte) : (e.startFrame p).unit.s = BitVec.ofNat 64 p.length := rfl
@[simp] theorem Enc.startFrame_m (e : Enc) (p : List Byte) : (e.startFrame p).unit.m = BitVec.ofNat 4 (mEnc p.length) := rfl
@[simp] theorem Enc.startFrame_cnt (e : Enc) (p : List Byte) : (e.startFrame p).unit.cnt = 0 := rfl
@[simp] theorem Enc.startFrame_dst (e : Enc) (p : List Byte) : (e.startFrame p).unit.dst = e.unit.dst := rfl
@[simp] theorem Enc.startFrame_idx (e : Enc) (p : List Byte) : (e.startFrame p).unit.idx = e.unit.idx := rfl
@[simp] theorem Enc.startFrame_busy (e : Enc) (p : List Byte) : (e.startFrame p).unit.busy = e.unit.busy := rfl
@[simp] theorem Enc.startFrame_poison (e : Enc) (p : List Byte) : (e.startFrame p).unit.poison = e.unit.poison := rfl
@[simp] theorem Enc.startFrame_result (e : Enc) (p : List Byte) : (e.startFrame p).unit.result = e.unit.result := rfl
@[simp] theorem Enc.startFrame_ibuf (e : Enc) (p : List Byte) : (e.startFrame p).unit.ibuf = e.unit.ibuf := rfl
@[simp] theorem Enc.startFrame_op (e : Enc) (p : List Byte) : (e.startFrame p).unit.op = e.unit.op := rfl
@[simp] theorem Enc.startFrame_payload (e : Enc) (p : List Byte) : (e.startFrame p).unit.payload = p := rfl
@[simp] theorem Enc.startFrame_items (e : Enc) (p : List Byte) : (e.startFrame p).unit.items = e.unit.items := rfl
@[simp] theorem Enc.startFrame_out (e : Enc) (p : List Byte) : (e.startFrame p).unit.out = e.unit.out := rfl
@[simp] theorem Enc.startFrame_snk (e : Enc) (p : List Byte) : (e.startFrame p).snk = e.snk := rfl

/-! ### Enc.acceptEncode -/

@[simp] theorem Enc.acceptEncode_phase (e : Enc) (p : List Byte) : (e.acceptEncode p).unit.phase = .wType := rfl
@[simp] theorem Enc.acceptEncode_s (e : Enc) (p : List Byte) : (e.acceptEncode p).unit.s = BitVec.ofNat 64 p.length := rfl
@[simp] theorem Enc.acceptEncode_m (e : Enc) (p : List Byte) : (e.acceptEncode p).unit.m = BitVec.ofNat 4 (mEnc p.length) := rfl
@[simp] theorem Enc.acceptEncode_cnt (e : Enc) (p : List Byte) : (e.acceptEncode p).unit.cnt = 0 := rfl
@[simp] theorem Enc.acceptEncode_dst (e : Enc) (p : List Byte) : (e.acceptEncode p).unit.dst = .snk := rfl
@[simp] theorem Enc.acceptEncode_idx (e : Enc) (p : List Byte) : (e.acceptEncode p).unit.idx = e.unit.idx := rfl
@[simp] theorem Enc.acceptEncode_busy (e : Enc) (p : List Byte) : (e.acceptEncode p).unit.busy = true := rfl
@[simp] theorem Enc.acceptEncode_poison (e : Enc) (p : List Byte) : (e.acceptEncode p).unit.poison = e.unit.poison := rfl
@[simp] theorem Enc.acceptEncode_result (e : Enc) (p : List Byte) : (e.acceptEncode p).unit.result = e.unit.result := rfl
@[simp] theorem Enc.acceptEncode_ibuf (e : Enc) (p : List Byte) : (e.acceptEncode p).unit.ibuf = e.unit.ibuf := rfl
@[simp] theorem Enc.acceptEncode_op (e : Enc) (p : List Byte) : (e.acceptEncode p).unit.op = .encode := rfl
@[simp] theorem Enc.acceptEncode_payload (e : Enc) (p : List Byte) : (e.acceptEncode p).unit.payload = p := rfl
@[simp] theorem Enc.acceptEncode_items (e : Enc) (p : List Byte) : (e.acceptEncode p).unit.items = e.unit.items := rfl
@[simp] theorem Enc.acceptEncode_out (e : Enc) (p : List Byte) : (e.acceptEncode p).unit.out = e.unit.out := rfl
@[simp] theorem Enc.acceptEncode_snk (e : Enc) (p : List Byte) : (e.acceptEncode p).snk = e.snk := rfl

end Sys2Proof.Machine
end

