-- ==== Sys2Proof/Laws/Ops.lean ====
section
/-! SUPPORT. What the source and sink primitives can do, said once each: if the primitive answers thus, then the bytes it
moved and what it left alone are these. -/

namespace Sys2Proof.Machine

/-! ### The bound source (R40, R41) -/

/-- A response with bytes: they are the next bytes of the stream, at most as many as asked for, and nothing else changes but
the list of choices, which gets shorter unless it was empty, in which case all that can be given is given. -/
theorem Source.answer_data {src src' : Source} {n : Nat} {b : List Byte}
    (h : src.answer n = some (.data b, src')) :
    src.rem = b ++ src'.rem ∧ b.length ≤ n ∧ src'.fin = src.fin ∧ src'.later = src.later ∧
      src'.asked = src.asked ++ [n] ∧
      (src'.cuts.length < src.cuts.length ∨
        (src.cuts = [] ∧ src'.cuts = [] ∧ src.later = .prompt ∧ src.rem ≠ [] ∧ b.length = min n src.rem.length)) := by
  unfold Source.answer at h
  split at h
  · split at h <;> simp at h
  · rename_i x xs hrem
    split at h
    · rename_i k ks hcuts
      simp only [Source.handOver, Option.some.injEq, Prod.mk.injEq, SrcReply.data.injEq] at h
      obtain ⟨rfl, rfl⟩ := h
      refine ⟨by simp, ?_, rfl, rfl, rfl, .inl (by simp [hcuts])⟩
      simp only [List.length_take]; omega
    · rename_i hcuts
      split at h
      · rename_i hl
        simp only [Source.handOver, Option.some.injEq, Prod.mk.injEq, SrcReply.data.injEq] at h
        obtain ⟨rfl, rfl⟩ := h
        refine ⟨by simp, ?_, rfl, rfl, rfl, .inr ⟨hcuts, rfl, hl, by simp [hrem], ?_⟩⟩ <;>
          simp only [List.length_take] <;> omega
      all_goals simp at h

/-- `Eos` comes only at the end, from a source that ends so, and changes nothing. -/
theorem Source.answer_eos {src src' : Source} {n : Nat} (h : src.answer n = some (.eos, src')) :
    src.rem = [] ∧ src.fin = .eos ∧ src' = { src with asked := src.asked ++ [n] } := by
  unfold Source.answer at h
  split at h
  · rename_i hrem
    split at h <;> simp_all
  · split at h
    · simp [Source.handOver] at h
    · split at h <;> simp [Source.handOver] at h

/-- `Err(e)` comes only at the end, from a source that ends so, and changes nothing. -/
theorem Source.answer_err {src src' : Source} {n : Nat} {e : EnvError} (h : src.answer n = some (.err e, src')) :
    src.rem = [] ∧ src.fin = .err e ∧ src' = { src with asked := src.asked ++ [n] } := by
  unfold Source.answer at h
  split at h
  · rename_i hrem
    split at h
    · simp at h
    · rename_i hfin
      simp only [Option.some.injEq, Prod.mk.injEq, SrcReply.err.injEq] at h
      obtain ⟨rfl, rfl⟩ := h
      exact ⟨hrem, hfin, rfl⟩
    · simp at h
  · split at h
    · simp [Source.handOver] at h
    · split at h <;> simp [Source.handOver] at h

/-- A request is left unanswered only by a source that ends in silence, or whose listed choices are used up and that gives no
more. -/
theorem Source.answer_none {src : Source} {n : Nat} (h : src.answer n = none) :
    (src.rem = [] ∧ src.fin = .never) ∨ (src.rem ≠ [] ∧ src.cuts = [] ∧ src.later ≠ .prompt) := by
  unfold Source.answer at h
  split at h
  · rename_i hrem
    split at h <;> simp_all
  · rename_i x xs hrem
    split at h
    · simp at h
    · split at h <;> simp_all

/-! ### The selected source (R18, R52) -/

/-- The bytes the selected source will still deliver. -/
def Dec.stream (d : Dec) : List Byte :=
  match d.unit.sel with
  | .src => d.src.rem
  | .ibuf => d.unit.ibuf

/-- What the selected source does at its end. -/
def Dec.streamEnd (d : Dec) : SrcEnd :=
  match d.unit.sel with
  | .src => d.src.fin
  | .ibuf => .eos

/-- DEC after a request: only the stream read from has changed. -/
structure Dec.ReadFrom (d d' : Dec) : Prop where
  unit : d'.unit = { d.unit with ibuf := d'.unit.ibuf }
  ibuf : d.unit.sel = .src → d'.unit.ibuf = d.unit.ibuf
  src : d.unit.sel = .ibuf → d'.src = d.src
  fin : d'.src.fin = d.src.fin
  later : d'.src.later = d.src.later
  draws : d'.draws = d.draws
  tick : d'.tick = d.tick

theorem Dec.ReadFrom.streamEnd {d d' : Dec} (h : d.ReadFrom d') : d'.streamEnd = d.streamEnd := by
  unfold Dec.streamEnd
  rw [h.unit]
  cases hs : d.unit.sel <;> simp [h.fin]

/-- A measure of what a source of bytes still holds (see `Dec.work`). -/
def Dec.fuel (d : Dec) : Nat := d.src.cuts.length + 2 * d.src.rem.length + d.unit.ibuf.length

theorem Dec.srcRead_data {d d' : Dec} {n : Nat} {b : List Byte} (h : d.srcRead n = some (.data b, d')) :
    d.ReadFrom d' ∧ d.stream = b ++ d'.stream ∧ b.length ≤ n ∧
      (1 ≤ n → d'.fuel < d.fuel) ∧ (1 ≤ n → d.unit.sel = .src → d'.fuel + b.length < d.fuel) := by
  unfold Dec.srcRead at h
  split at h
  · rename_i hsel
    split at h
    · rename_i r src' hans
      simp only [Option.some.injEq, Prod.mk.injEq] at h
      obtain ⟨rfl, rfl⟩ := h
      obtain ⟨hrem, hlen, hfin, hl, -, hprog⟩ := Source.answer_data hans
      refine ⟨⟨rfl, fun _ => rfl, fun hs => by simp [hsel] at hs, hfin, hl, rfl, rfl⟩, by simpa [Dec.stream, hsel] using hrem, hlen,
        ?_⟩
      have hl := congrArg List.length hrem
      have : src'.rem.length + b.length = d.src.rem.length := by simp at hl; omega
      simp only [Dec.fuel]
      rcases hprog with hp | ⟨hc, hc', -, hne, hb⟩
      · exact ⟨fun _ => by omega, fun _ _ => by omega⟩
      · have := List.length_pos_of_ne_nil hne
        simp only [hc, hc', List.length_nil]
        exact ⟨fun _ => by omega, fun _ _ => by omega⟩
    · simp at h
  · rename_i hsel
    simp only [Option.some.injEq, Prod.mk.injEq] at h
    obtain ⟨hb, rfl⟩ := h
    unfold ibufAnswer at *
    cases hi : d.unit.ibuf with
    | nil => simp [hi] at hb
    | cons x xs =>
      simp only [hi, SrcReply.data.injEq] at hb
      subst hb
      refine ⟨⟨by simp, fun hs => by simp [hsel] at hs, fun _ => rfl, rfl, rfl, rfl, rfl⟩, by simp [Dec.stream, hsel, hi],
        by simp only [List.length_take]; omega, ?_, fun _ hs => by simp [hsel] at hs⟩
      · intro hn
        simp only [Dec.fuel, hi, List.length_drop]
        have : (x :: xs).length ≥ 1 := by simp
        omega

theorem Dec.srcRead_eos {d d' : Dec} {n : Nat} (h : d.srcRead n = some (.eos, d')) :
    d.ReadFrom d' ∧ d.stream = [] ∧ d'.stream = [] ∧ d.streamEnd = .eos ∧ d'.src.rem = d.src.rem ∧
      d'.unit = d.unit := by
  unfold Dec.srcRead at h
  split at h
  · rename_i hsel
    split at h
    · rename_i r src' hans
      simp only [Option.some.injEq, Prod.mk.injEq] at h
      obtain ⟨rfl, rfl⟩ := h
      obtain ⟨hrem, hfin, rfl⟩ := Source.answer_eos hans
      exact ⟨⟨rfl, fun _ => rfl, fun hs => by simp [hsel] at hs, rfl, rfl, rfl, rfl⟩, by simp [Dec.stream, hsel, hrem],
        by simp [Dec.stream, hsel, hrem], by simp [Dec.streamEnd, hsel, hfin], rfl, rfl⟩
    · simp at h
  · rename_i hsel
    simp only [Option.some.injEq, Prod.mk.injEq] at h
    obtain ⟨hb, rfl⟩ := h
    unfold ibufAnswer at *
    cases hi : d.unit.ibuf with
    | nil =>
      exact ⟨⟨rfl, fun hs => by simp [hsel] at hs, fun _ => rfl, rfl, rfl, rfl, rfl⟩, by simp [Dec.stream, hsel, hi],
        by simp [Dec.stream, hsel], by simp [Dec.streamEnd, hsel], rfl, by simp [← hi]⟩
    | cons x xs => simp [hi] at hb

theorem Dec.srcRead_err {d d' : Dec} {n : Nat} {e : EnvError} (h : d.srcRead n = some (.err e, d')) :
    d.ReadFrom d' ∧ d.unit.sel = .src ∧ d.stream = [] ∧ d'.stream = [] ∧ d.streamEnd = .err e ∧ d'.unit = d.unit := by
  unfold Dec.srcRead at h
  split at h
  · rename_i hsel
    split at h
    · rename_i r src' hans
      simp only [Option.some.injEq, Prod.mk.injEq] at h
      obtain ⟨rfl, rfl⟩ := h
      obtain ⟨hrem, hfin, rfl⟩ := Source.answer_err hans
      exact ⟨⟨rfl, fun _ => rfl, fun hs => by simp [hsel] at hs, rfl, rfl, rfl, rfl⟩, hsel, by simp [Dec.stream, hsel, hrem],
        by simp [Dec.stream, hsel, hrem], by simp [Dec.streamEnd, hsel, hfin], rfl⟩
    · simp at h
  · rename_i hsel
    simp only [Option.some.injEq, Prod.mk.injEq] at h
    obtain ⟨hb, -⟩ := h
    unfold ibufAnswer at hb
    split at hb <;> simp at hb

/-- DEC is left without an answer only by its bound source. -/
theorem Dec.srcRead_none {d : Dec} {n : Nat} (h : d.srcRead n = none) :
    d.unit.sel = .src ∧
      ((d.src.rem = [] ∧ d.src.fin = .never) ∨ (d.src.rem ≠ [] ∧ d.src.cuts = [] ∧ d.src.later ≠ .prompt)) := by
  unfold Dec.srcRead at h
  split at h
  · rename_i hsel
    split at h
    · simp at h
    · rename_i hans
      exact ⟨hsel, Source.answer_none hans⟩
  · simp at h

end Sys2Proof.Machine
end

