-- ==== Sys2Proof/Laws/Decoder.lean ====
section
/-! SUPPORT. What the transactions of DEC can do, said once each: they keep the invariant, and each brings the operation nearer
its end. -/

namespace Sys2Proof.Machine

/-! ### The scratch buffer (R18, R100) -/

@[simp] theorem vector8_length (v : Vector Byte 8) : v.toList.length = 8 := by simp

theorem leValue_lb_lt (v : Vector Byte 8) : leValue v.toList < 2 ^ 64 := by
  have := leValue_lt v.toList
  simpa using this

theorem toNat_leValue_lb (v : Vector Byte 8) : (BitVec.ofNat 64 (leValue v.toList)).toNat = leValue v.toList := by
  have := leValue_lb_lt v
  simp only [BitVec.toNat_ofNat]
  omega

theorem writeLb_append (v : Vector Byte 8) (n : Nat) (a b : List Byte) :
    writeLb v n (a ++ b) = writeLb (writeLb v n a) (n + a.length) b := by
  induction a generalizing v n with
  | nil => simp [writeLb]
  | cons x a ih => simp [writeLb, ih]; congr 1; omega

theorem writeLb_toList (v : Vector Byte 8) (n : Nat) (b : List Byte) (h : n + b.length ≤ 8) :
    (writeLb v n b).toList = v.toList.take n ++ b ++ v.toList.drop (n + b.length) := by
  induction b generalizing v n with
  | nil => simp [writeLb]
  | cons x b ih =>
    simp only [List.length_cons] at h
    simp only [writeLb]
    rw [ih _ _ (by omega)]
    apply List.ext_getElem
    · simp; omega
    · intro i h1 h2
      simp only [List.getElem_append, List.getElem_take, List.getElem_drop, Vector.getElem_toList,
        Vector.getElem_setIfInBounds, List.length_append, List.length_take, List.length_cons, vector8_length]
      grind

/-- The value of the scratch buffer once a length field has been written to its low end (R69, R100). -/
theorem leValue_writeLb_zero (x : List Byte) (h : x.length ≤ 8) :
    leValue (writeLb (Vector.replicate 8 0) 0 x).toList = leValue x := by
  rw [writeLb_toList _ _ _ (by omega)]
  have hz : (List.replicate 8 (0#8 : Byte)).drop x.length = List.replicate (8 - x.length) 0#8 :=
    List.drop_replicate
  have : ((Vector.replicate 8 0 : Vector Byte 8)).toList = List.replicate 8 0#8 := by simp
  rw [this, Nat.zero_add, hz]
  simp [leValue_append, leValue_zeros]

/-! ### Results -/

theorem Result.poisons_code (r : Result) : r.poisons = true ↔ r.code ≠ 0 ∧ r.code ≠ 1 := by
  cases r <;> simp [Result.poisons, Result.code]

/-! ### The invariant -/

/-- What of the invariant an idle unit needs. -/
structure Dec.Rest (cfg : Config) (d : Dec) : Prop where
  clean : d.unit.poison = false
  last : ¬(d.unit.result ≠ 0 ∧ d.unit.result ≠ 1)
  chk : d.unit.chk.wnd = true → d.unit.chk.wnm = true
  flags : d.unit.flags.wnd = true → d.unit.flags.wnm = true
  cap : passes cfg.ibufCap d.unit.ibuf.length = false

theorem Dec.Inv.rest {cfg : Config} {d : Dec} (h : d.Inv cfg) (hb : d.unit.busy = true) : d.Rest cfg :=
  ⟨h.busy_clean hb, fun hr => by simpa [h.poison_result.mpr hr] using h.busy_clean hb,
    h.chk_order, h.flags_order, h.ibuf_cap⟩

theorem Dec.finish_inv {cfg : Config} {d : Dec} (h : d.Rest cfg) (r : Result) : (d.finish r).Inv cfg where
  busy_phase := by simp
  busy_clean := by simp
  poison_result := by simp [h.clean, Result.poisons_code]
  chk_order := by simpa using h.chk
  flags_order := by simpa using h.flags
  type_clear := by simp
  len_range := by simp
  pay_range := by simp
  over_range := by simp
  buf_size := by simp
  buf_room := by simp
  pay_count := by simp
  outer_count := by simp
  inner_count := by simp
  inner_list := by simp
  outer_empty := by simp
  ibuf_cap := by simpa using h.cap

theorem Chk.or_order {a b : Chk} (ha : a.wnd = true → a.wnm = true) (hb : b.wnd = true → b.wnm = true) :
    (a.or b).wnd = true → (a.or b).wnm = true := by
  simp only [Chk.or, Bool.or_eq_true]
  rintro (h | h)
  · exact .inl (ha h)
  · exact .inr (hb h)

theorem Dec.fail_inv {cfg : Config} {d : Dec} (h : d.Rest cfg) (r : Result) : (d.fail r).Inv cfg := by
  unfold Dec.fail
  split
  · apply Dec.finish_inv
    exact ⟨h.clean, h.last, Chk.or_order h.flags h.chk, h.flags, h.cap⟩
  · split
    · apply Dec.finish_inv
      exact ⟨h.clean, h.last, h.chk, h.flags, h.cap⟩
    · exact Dec.finish_inv h r

theorem Dec.listDone_inv {cfg : Config} {d : Dec} (h : d.Rest cfg) : d.listDone.Inv cfg := by
  apply Dec.finish_inv
  exact ⟨h.clean, h.last, Chk.or_order h.flags h.chk, h.flags, h.cap⟩

theorem Dec.eosInType_inv {cfg : Config} {d : Dec} (h : d.Rest cfg) : d.eosInType.Inv cfg := by
  unfold Dec.eosInType
  split
  · exact Dec.listDone_inv h
  · exact Dec.finish_inv h _

theorem Dec.finishReadInto_inv {cfg : Config} {d : Dec} (h : d.Rest cfg) : d.finishReadInto.Inv cfg := by
  apply Dec.finish_inv
  exact ⟨h.clean, h.last, h.chk, h.flags, h.cap⟩

/-- What of the invariant holds in every phase of a busy unit before the payload read. -/
structure Dec.Mid (cfg : Config) (d : Dec) : Prop extends Dec.Rest cfg d where
  busy : d.unit.busy = true
  buf : d.unit.op = .readInto → d.unit.buf.length < 2 ^ 64
  inner : d.unit.sel = .ibuf → d.unit.op = .decodeList
  outer : d.unit.op = .decodeList → d.unit.sel = .src → d.unit.ibuf = []

theorem Dec.Inv.mid {cfg : Config} {d : Dec} (h : d.Inv cfg) (hb : d.unit.busy = true) (hp : d.unit.phase ≠ .pay) :
    d.Mid cfg :=
  ⟨h.rest hb, hb, h.buf_size hb, h.inner_list hb, fun ho hs => h.outer_empty hb ho hs hp⟩

theorem Dec.enterType_inv {cfg : Config} {d : Dec} (h : d.Mid cfg) : d.enterType.Inv cfg where
  busy_phase := by simp [h.busy]
  busy_clean := by simp [h.clean]
  poison_result := by simpa [h.clean] using h.last
  chk_order := by simp [Chk.clear]
  flags_order := by simpa using h.flags
  type_clear := by simp
  len_range := by simp
  pay_range := by simp
  over_range := by simp
  buf_size := by simpa using fun _ => h.buf
  buf_room := by simp
  pay_count := by simp
  outer_count := by simp
  inner_count := by simp
  inner_list := by simpa using fun _ => h.inner
  outer_empty := by simpa using fun _ => h.outer
  ibuf_cap := by simpa using h.cap

theorem Dec.enterPay_inv {cfg : Config} {d : Dec} (h : d.Mid cfg) (hs : d.unit.s ≠ 0) (hn : d.unit.n = 0)
    (hp : d.unit.op ≠ .peekSize) (hb : d.unit.op = .readInto → d.unit.s.toNat ≤ d.unit.buf.length)
    (hc : d.unit.op = .decodeList → d.unit.sel = .src → passes cfg.ibufCap d.unit.s.toNat = false) :
    d.enterPay.Inv cfg where
  busy_phase := by simp [h.busy]
  busy_clean := by simp [h.clean]
  poison_result := by simpa [h.clean] using h.last
  chk_order := by simpa using h.chk
  flags_order := by simpa using h.flags
  type_clear := by simp
  len_range := by simp
  pay_range := by
    have : d.unit.s.toNat ≠ 0 := fun h0 => hs (BitVec.eq_of_toNat_eq (by simpa using h0))
    simp [hn, hp]
    omega
  over_range := by simp
  buf_size := by simpa using fun _ => h.buf
  buf_room := by simpa using hb
  pay_count := by simp [hn]
  outer_count := by
    intro _ ho hsel
    simp only [Dec.enterPay_op, Dec.enterPay_sel] at ho hsel
    simp [hn, h.outer ho hsel, hc ho hsel]
  inner_count := by simp [hn]
  inner_list := by simpa using fun _ => h.inner
  outer_empty := by simp
  ibuf_cap := by simpa using h.cap

/-- READ_INTO has all the owed bytes and comes to phase OVER. -/
theorem Dec.over_inv {cfg : Config} {d : Dec} (h : d.Rest cfg) (hbusy : d.unit.busy = true) (ho : d.unit.op = .readInto)
    (hb : d.unit.buf.length < 2 ^ 64) (hsel : d.unit.sel = .ibuf → d.unit.op = .decodeList)
    (hs : d.unit.s.toNat ≤ d.unit.n.toNat) (hn : d.unit.n.toNat ≤ d.unit.buf.length) :
    Dec.Inv cfg { d with unit := { d.unit with phase := .over } } where
  busy_phase := by simp [hbusy]
  busy_clean := by simp [h.clean]
  poison_result := by simpa [h.clean] using h.last
  chk_order := by simpa using h.chk
  flags_order := by simpa using h.flags
  type_clear := by simp
  len_range := by simp
  pay_range := by simp
  over_range := by simp [ho, hs, hn]
  buf_size := by simpa using fun _ _ => hb
  buf_room := by simp
  pay_count := by simp
  outer_count := by simp
  inner_count := by simp
  inner_list := by simpa using fun _ => hsel
  outer_empty := by simp [ho]
  ibuf_cap := by simpa using h.cap

theorem Dec.outerDone_inv {cfg : Config} {d : Dec} (h : d.Rest cfg) (hbusy : d.unit.busy = true)
    (ho : d.unit.op = .decodeList) : d.outerDone.Inv cfg := by
  apply Dec.enterType_inv
  exact { clean := h.clean, last := h.last, chk := h.chk, flags := h.chk, cap := h.cap, busy := hbusy
          buf := by simp [ho], inner := fun _ => ho, outer := by simp }

theorem Dec.innerDone_inv {cfg : Config} {d : Dec} (h : d.Rest cfg) (hbusy : d.unit.busy = true)
    (ho : d.unit.op = .decodeList) (hs : d.unit.sel ≠ .src) (p : List Byte) : (d.innerDone p).Inv cfg := by
  apply Dec.enterType_inv
  exact { clean := h.clean, last := h.last, chk := h.chk, flags := Chk.or_order h.flags h.chk, cap := h.cap, busy := hbusy
          buf := by simp [ho], inner := fun _ => ho, outer := fun _ h => absurd h hs }

/-- The payload of any operation but PEEK_SIZE is complete. -/
theorem Dec.payDone_inv {cfg : Config} {d : Dec} (h : d.Rest cfg) (hbusy : d.unit.busy = true)
    (hp : d.unit.op ≠ .peekSize) (hb : d.unit.op = .readInto → d.unit.buf.length < 2 ^ 64)
    (hsel : d.unit.sel = .ibuf → d.unit.op = .decodeList)
    (hs : d.unit.s.toNat ≤ d.unit.n.toNat) (hn : d.unit.op = .readInto → d.unit.n.toNat ≤ d.unit.buf.length) :
    d.payDone.Inv cfg := by
  unfold Dec.payDone
  split
  · rename_i ho; exact absurd ho hp
  · exact Dec.finish_inv h _
  · rename_i ho; exact Dec.over_inv h hbusy ho (hb ho) hsel hs (hn ho)
  · rename_i ho
    split
    · exact Dec.outerDone_inv h hbusy ho
    · rename_i hs'; exact Dec.innerDone_inv h hbusy ho hs' _

theorem Dec.afterSize_inv {cfg : Config} {d : Dec} (h : d.Mid cfg) (hn : d.unit.n = 0) : (d.afterSize cfg).Inv cfg := by
  have hr : d.enterPay.Rest cfg := ⟨h.clean, h.last, h.chk, h.flags, h.cap⟩
  unfold Dec.afterSize
  split
  · exact Dec.finish_inv h.toRest _
  · rename_i ho
    split
    · exact Dec.fail_inv h.toRest _
    · split
      · rename_i hs
        exact Dec.payDone_inv hr h.busy (by simp [ho]) (by simp [ho]) (by simpa using h.inner) (by simp [hs])
          (by simp [ho])
      · rename_i hs
        exact Dec.enterPay_inv h hs hn (by simp [ho]) (by simp [ho]) (by simp [ho])
  · rename_i ho
    split
    · exact Dec.fail_inv h.toRest _
    · rename_i hroom
      split
      · rename_i hs
        exact Dec.payDone_inv hr h.busy (by simp [ho]) (by simpa using h.buf) (by simpa using h.inner) (by simp [hs])
          (by simp [hn])
      · rename_i hs
        exact Dec.enterPay_inv h hs hn (by simp [ho]) (fun _ => by omega) (by simp [ho])
  · rename_i ho
    split
    · exact Dec.fail_inv h.toRest _
    · rename_i hcap
      split
      · rename_i hs
        exact Dec.payDone_inv hr h.busy (by simp [ho]) (by simp [ho]) (by simpa using h.inner) (by simp [hs])
          (by simp [ho])
      · rename_i hs
        exact Dec.enterPay_inv h hs hn (by simp [ho]) (by simp [ho]) (fun _ hsel => by simpa [DecUnit.bound, ho, hsel] using hcap)

theorem Dec.sizeKnown_inv {cfg : Config} {d : Dec} (h : d.Mid cfg) : (d.sizeKnown cfg).Inv cfg := by
  apply Dec.afterSize_inv _ rfl
  exact { clean := h.clean, last := h.last, chk := check_wnd_wnm _ _, flags := h.flags, cap := h.cap, busy := h.busy
          buf := h.buf, inner := h.inner, outer := h.outer }

theorem Dec.takeWidth_inv {cfg : Config} {d : Dec} (h : d.Mid cfg) (t : Byte) (h0 : (typeLo t).toNat ≠ 0)
    (h8 : (typeLo t).toNat ≤ 8) : (d.takeWidth t).Inv cfg where
  busy_phase := by simp [h.busy]
  busy_clean := by simp [h.clean]
  poison_result := by simpa [h.clean] using h.last
  chk_order := by simpa using h.chk
  flags_order := by simpa using h.flags
  type_clear := by simp
  len_range := by simp [h8]; omega
  pay_range := by simp
  over_range := by simp
  buf_size := by simpa using fun _ => h.buf
  buf_room := by simp
  pay_count := by simp
  outer_count := by simp
  inner_count := by simp
  inner_list := by simpa using fun _ => h.inner
  outer_empty := by simpa using fun _ => h.outer
  ibuf_cap := by simpa using h.cap

theorem Dec.takeWidthZero_inv {cfg : Config} {d : Dec} (h : d.Mid cfg) (t : Byte) : (d.takeWidthZero cfg t).Inv cfg := by
  apply Dec.sizeKnown_inv
  exact { clean := h.clean, last := h.last, chk := h.chk, flags := h.flags, cap := h.cap, busy := h.busy
          buf := h.buf, inner := h.inner, outer := h.outer }

theorem Dec.takeBadWidth_inv {cfg : Config} {d : Dec} (h : d.Mid cfg) (t : Byte) : (d.takeBadWidth t).Inv cfg := by
  apply Dec.fail_inv
  exact ⟨h.clean, h.last, by simp [checkT], h.flags, h.cap⟩

theorem Dec.takeType_inv {cfg : Config} {d : Dec} (h : d.Mid cfg) (t : Byte) : (d.takeType cfg t).Inv cfg := by
  unfold Dec.takeType
  split
  · exact Dec.takeWidthZero_inv h t
  · split
    · exact Dec.takeWidth_inv h t ‹_› ‹_›
    · exact Dec.takeBadWidth_inv h t

/-! ### One transaction keeps the invariant -/

theorem Dec.ReadFrom.inv {cfg : Config} {d d' : Dec} (h : d.ReadFrom d')
    (hlen : d'.unit.ibuf.length ≤ d.unit.ibuf.length) (hi : d.Inv cfg) : d'.Inv cfg := by
  obtain ⟨u, src, draws, tick⟩ := d'
  have hu := h.unit
  have hib := h.ibuf
  dsimp only at hu hib hlen
  clear h
  generalize u.ibuf = ib at hu hib hlen
  subst hu
  exact {
    busy_phase := hi.busy_phase
    busy_clean := hi.busy_clean
    poison_result := hi.poison_result
    chk_order := hi.chk_order
    flags_order := hi.flags_order
    type_clear := hi.type_clear
    len_range := hi.len_range
    pay_range := hi.pay_range
    over_range := hi.over_range
    buf_size := hi.buf_size
    buf_room := hi.buf_room
    pay_count := hi.pay_count
    outer_count := fun hp ho hs => by simpa [hib hs] using hi.outer_count hp ho hs
    inner_count := hi.inner_count
    inner_list := hi.inner_list
    outer_empty := fun hb ho hs hp => by simpa [hib hs] using hi.outer_empty hb ho hs hp
    ibuf_cap := passes_mono hlen hi.ibuf_cap }

theorem Dec.srcRead_data_ibuf {d d' : Dec} {n : Nat} {b : List Byte} (h : d.srcRead n = some (.data b, d')) :
    d'.unit.ibuf.length ≤ d.unit.ibuf.length := by
  obtain ⟨hr, hst, -⟩ := Dec.srcRead_data h
  cases hs : d.unit.sel with
  | src => rw [hr.ibuf hs]
  | ibuf =>
    have hs' : d'.unit.sel = .ibuf := by rw [hr.unit]; exact hs
    simp only [Dec.stream, hs, hs'] at hst
    simp [hst]

theorem Dec.srcRead_data_inv {cfg : Config} {d d' : Dec} {n : Nat} {b : List Byte}
    (h : d.srcRead n = some (.data b, d')) (hi : d.Inv cfg) : d'.Inv cfg :=
  (Dec.srcRead_data h).1.inv (Dec.srcRead_data_ibuf h) hi

/-- Every register of the unit but `IBUF_D` is as it was before the request. -/
theorem Dec.ReadFrom.regs {d d' : Dec} (h : d.ReadFrom d') :
    d'.unit.phase = d.unit.phase ∧ d'.unit.t = d.unit.t ∧ d'.unit.m = d.unit.m ∧ d'.unit.lb = d.unit.lb ∧
      d'.unit.s = d.unit.s ∧ d'.unit.n = d.unit.n ∧ d'.unit.sel = d.unit.sel ∧ d'.unit.busy = d.unit.busy ∧
      d'.unit.poison = d.unit.poison ∧ d'.unit.result = d.unit.result ∧ d'.unit.chk = d.unit.chk ∧
      d'.unit.op = d.unit.op ∧ d'.unit.buf = d.unit.buf ∧ d'.unit.pay = d.unit.pay ∧ d'.unit.items = d.unit.items ∧
      d'.unit.flags = d.unit.flags ∧ d'.unit.out = d.unit.out := by
  obtain ⟨u, src, draws, tick⟩ := d'
  have hu := h.unit
  dsimp only at hu
  clear h
  generalize u.ibuf = ib at hu
  subst hu
  exact ⟨rfl, rfl, rfl, rfl, rfl, rfl, rfl, rfl, rfl, rfl, rfl, rfl, rfl, rfl, rfl, rfl, rfl⟩

/-- `N <- N + |b|` is exact as long as the sum fits 64 bits (R72). -/
theorem DecUnit.toNat_advance {u : DecUnit} {b : List Byte} (h : u.n.toNat + b.length < 2 ^ 64) :
    (u.advance b).toNat = u.n.toNat + b.length := by
  simp only [DecUnit.advance, BitVec.toNat_add, BitVec.toNat_ofNat]
  omega

theorem Dec.takeLen_inv {cfg : Config} {d : Dec} (h : d.Inv cfg) (hb : d.unit.busy = true) (hp : d.unit.phase = .len)
    (b : List Byte) : (d.takeLen cfg b).Inv cfg := by
  have hm : d.Mid cfg := h.mid hb (by simp [hp])
  unfold Dec.takeLen
  dsimp only
  split
  · rename_i hlt
    exact {
      busy_phase := h.busy_phase
      busy_clean := h.busy_clean
      poison_result := h.poison_result
      chk_order := h.chk_order
      flags_order := h.flags_order
      type_clear := by simp [hp]
      len_range := fun _ => ⟨(h.len_range hp).1, (h.len_range hp).2.1, hlt⟩
      pay_range := by simp [hp]
      over_range := by simp [hp]
      buf_size := h.buf_size
      buf_room := by simp [hp]
      pay_count := by simp [hp]
      outer_count := by simp [hp]
      inner_count := by simp [hp]
      inner_list := h.inner_list
      outer_empty := h.outer_empty
      ibuf_cap := h.ibuf_cap }
  · apply Dec.sizeKnown_inv
    exact { clean := hm.clean, last := hm.last, chk := hm.chk, flags := hm.flags, cap := hm.cap, busy := hm.busy
            buf := hm.buf, inner := hm.inner, outer := hm.outer }

/-- Every register but the payload's own home and `N` is as it was before the bytes came. -/
theorem Dec.store_regs (d : Dec) (b : List Byte) :
    (d.store b).unit.phase = d.unit.phase ∧ (d.store b).unit.t = d.unit.t ∧ (d.store b).unit.m = d.unit.m ∧
      (d.store b).unit.s = d.unit.s ∧ (d.store b).unit.n = d.unit.advance b ∧ (d.store b).unit.sel = d.unit.sel ∧
      (d.store b).unit.busy = d.unit.busy ∧ (d.store b).unit.poison = d.unit.poison ∧
      (d.store b).unit.result = d.unit.result ∧ (d.store b).unit.chk = d.unit.chk ∧ (d.store b).unit.op = d.unit.op ∧
      (d.store b).unit.items = d.unit.items ∧ (d.store b).unit.flags = d.unit.flags ∧
      (d.store b).unit.out = d.unit.out ∧ (d.store b).src = d.src ∧ (d.store b).draws = d.draws ∧
      (d.store b).tick = d.tick := by
  cases ho : d.unit.op <;> cases hs : d.unit.sel <;> simp [Dec.store, ho, hs]

@[simp] theorem Dec.store_phase (d : Dec) (b : List Byte) : (d.store b).unit.phase = d.unit.phase := (Dec.store_regs d b).1
@[simp] theorem Dec.store_t (d : Dec) (b : List Byte) : (d.store b).unit.t = d.unit.t := (Dec.store_regs d b).2.1
@[simp] theorem Dec.store_m (d : Dec) (b : List Byte) : (d.store b).unit.m = d.unit.m := (Dec.store_regs d b).2.2.1
@[simp] theorem Dec.store_s (d : Dec) (b : List Byte) : (d.store b).unit.s = d.unit.s := (Dec.store_regs d b).2.2.2.1
@[simp] theorem Dec.store_n (d : Dec) (b : List Byte) : (d.store b).unit.n = d.unit.advance b := (Dec.store_regs d b).2.2.2.2.1
@[simp] theorem Dec.store_sel (d : Dec) (b : List Byte) : (d.store b).unit.sel = d.unit.sel := (Dec.store_regs d b).2.2.2.2.2.1
@[simp] theorem Dec.store_busy (d : Dec) (b : List Byte) : (d.store b).unit.busy = d.unit.busy := (Dec.store_regs d b).2.2.2.2.2.2.1
@[simp] theorem Dec.store_poison (d : Dec) (b : List Byte) : (d.store b).unit.poison = d.unit.poison := (Dec.store_regs d b).2.2.2.2.2.2.2.1
@[simp] theorem Dec.store_result (d : Dec) (b : List Byte) : (d.store b).unit.result = d.unit.result := (Dec.store_regs d b).2.2.2.2.2.2.2.2.1
@[simp] theorem Dec.store_chk (d : Dec) (b : List Byte) : (d.store b).unit.chk = d.unit.chk := (Dec.store_regs d b).2.2.2.2.2.2.2.2.2.1
@[simp] theorem Dec.store_op (d : Dec) (b : List Byte) : (d.store b).unit.op = d.unit.op := (Dec.store_regs d b).2.2.2.2.2.2.2.2.2.2.1
@[simp] theorem Dec.store_items (d : Dec) (b : List Byte) : (d.store b).unit.items = d.unit.items := (Dec.store_regs d b).2.2.2.2.2.2.2.2.2.2.2.1
@[simp] theorem Dec.store_flags (d : Dec) (b : List Byte) : (d.store b).unit.flags = d.unit.flags := (Dec.store_regs d b).2.2.2.2.2.2.2.2.2.2.2.2.1
@[simp] theorem Dec.store_out (d : Dec) (b : List Byte) : (d.store b).unit.out = d.unit.out := (Dec.store_regs d b).2.2.2.2.2.2.2.2.2.2.2.2.2.1
@[simp] theorem Dec.store_src (d : Dec) (b : List Byte) : (d.store b).src = d.src := (Dec.store_regs d b).2.2.2.2.2.2.2.2.2.2.2.2.2.2.1
@[simp] theorem Dec.store_draws (d : Dec) (b : List Byte) : (d.store b).draws = d.draws := (Dec.store_regs d b).2.2.2.2.2.2.2.2.2.2.2.2.2.2.2.1
@[simp] theorem Dec.store_tick (d : Dec) (b : List Byte) : (d.store b).tick = d.tick := (Dec.store_regs d b).2.2.2.2.2.2.2.2.2.2.2.2.2.2.2.2

theorem writeBuf_length (buf : List Byte) (n : Nat) (b : List Byte) (h : n + b.length ≤ buf.length) :
    (writeBuf buf n b).length = buf.length := by
  simp [writeBuf]; omega

/-- What a payload read brings, whatever its home: the bytes are there behind those that came before. -/
theorem Dec.store_readInto (d : Dec) (b : List Byte) (ho : d.unit.op = .readInto) :
    (d.store b).unit.buf = writeBuf d.unit.buf d.unit.n.toNat b ∧ (d.store b).unit.ibuf = d.unit.ibuf ∧
      (d.store b).unit.pay = d.unit.pay := by
  simp [Dec.store, ho]

theorem Dec.store_outer (d : Dec) (b : List Byte) (ho : d.unit.op = .decodeList) (hs : d.unit.sel = .src) :
    (d.store b).unit.ibuf = d.unit.ibuf ++ b ∧ (d.store b).unit.buf = d.unit.buf ∧ (d.store b).unit.pay = d.unit.pay := by
  simp [Dec.store, ho, hs]

theorem Dec.store_pay (d : Dec) (b : List Byte) (ho : d.unit.op ≠ .readInto)
    (hs : d.unit.op = .decodeList → d.unit.sel = .ibuf) :
    (d.store b).unit.pay = d.unit.pay ++ b ∧ (d.store b).unit.buf = d.unit.buf ∧ (d.store b).unit.ibuf = d.unit.ibuf := by
  cases h : d.unit.op <;> simp_all [Dec.store]

/-- A response to a request for payload fits what is owed, so `N` stays exact (R72). -/
theorem Dec.pay_fits {cfg : Config} {d : Dec} (h : d.Inv cfg) (hb : d.unit.busy = true) (hp : d.unit.phase = .pay)
    {b : List Byte} (hlen : b.length ≤ d.unit.payRequest) :
    (d.unit.advance b).toNat = d.unit.n.toNat + b.length ∧
      (d.unit.op = .readInto → d.unit.n.toNat + b.length ≤ d.unit.buf.length) ∧
      (d.unit.op ≠ .readInto → d.unit.n.toNat + b.length ≤ d.unit.s.toNat) := by
  have hlt := (h.pay_range hp).1
  have hs := d.unit.s.isLt
  by_cases ho : d.unit.op = .readInto
  · have h1 := h.buf_size hb ho
    have h2 := h.buf_room hp ho
    simp only [DecUnit.payRequest, ho] at hlen
    exact ⟨DecUnit.toNat_advance (by omega), fun _ => by omega, fun hn => absurd ho hn⟩
  · have : b.length ≤ d.unit.s.toNat - d.unit.n.toNat := by
      unfold DecUnit.payRequest at hlen
      split at hlen
      · exact absurd ‹_› ho
      · exact hlen
    exact ⟨DecUnit.toNat_advance (by omega), fun hy => absurd hy ho, fun _ => by omega⟩

theorem Dec.takePay_inv {cfg : Config} {d : Dec} (h : d.Inv cfg) (hb : d.unit.busy = true) (hp : d.unit.phase = .pay)
    {b : List Byte} (hlen : b.length ≤ d.unit.payRequest) : (d.takePay b).Inv cfg := by
  obtain ⟨hadv, hri, hother⟩ := Dec.pay_fits h hb hp hlen
  have hop := (h.pay_range hp).2
  have hcap : passes cfg.ibufCap (d.store b).unit.ibuf.length = false := by
    by_cases ho : d.unit.op = .decodeList
    · cases hs : d.unit.sel with
      | src =>
        rw [(Dec.store_outer d b ho hs).1]
        obtain ⟨h1, h2⟩ := h.outer_count hp ho hs
        exact passes_mono (by simpa [h1] using hother (by simp [ho])) h2
      | ibuf => rw [(Dec.store_pay d b (by simp [ho]) (fun _ => hs)).2.2]; exact h.ibuf_cap
    · by_cases ho' : d.unit.op = .readInto
      · rw [(Dec.store_readInto d b ho').2.1]; exact h.ibuf_cap
      · rw [(Dec.store_pay d b ho' (fun hd => absurd hd ho)).2.2]; exact h.ibuf_cap
  have hbuf : d.unit.op = .readInto → (d.store b).unit.buf.length = d.unit.buf.length := fun ho => by
    rw [(Dec.store_readInto d b ho).1, writeBuf_length _ _ _ (hri ho)]
  unfold Dec.takePay
  split
  · rename_i hlt
    exact {
      busy_phase := by simpa using h.busy_phase
      busy_clean := by simpa using h.busy_clean
      poison_result := by simpa using h.poison_result
      chk_order := by simpa using h.chk_order
      flags_order := by simpa using h.flags_order
      type_clear := by simp [hp]
      len_range := by simp [hp]
      pay_range := fun _ => ⟨hlt, by simpa using hop⟩
      over_range := by simp [hp]
      buf_size := by
        intro _ ho
        rw [hbuf (by simpa using ho)]
        exact h.buf_size hb (by simpa using ho)
      buf_room := by
        intro _ ho
        rw [hbuf (by simpa using ho)]
        simpa using h.buf_room hp (by simpa using ho)
      pay_count := by
        intro _ ho
        have ho : d.unit.op = .readBytes := by simpa using ho
        rw [(Dec.store_pay d b (by simp [ho]) (by simp [ho])).1]
        simp [hadv, h.pay_count hp ho]
      outer_count := by
        intro _ ho hs
        have ho : d.unit.op = .decodeList := by simpa using ho
        have hs : d.unit.sel = .src := by simpa using hs
        rw [(Dec.store_outer d b ho hs).1]
        obtain ⟨h1, h2⟩ := h.outer_count hp ho hs
        simp [hadv, h1, h2]
      inner_count := by
        intro _ ho hs
        have ho : d.unit.op = .decodeList := by simpa using ho
        have hs : d.unit.sel = .ibuf := by simpa using hs
        rw [(Dec.store_pay d b (by simp [ho]) (fun _ => hs)).1]
        simp [hadv, h.inner_count hp ho hs]
      inner_list := by simpa using h.inner_list
      outer_empty := by simp [hp]
      ibuf_cap := hcap }
  · rename_i hge
    have hr : (d.store b).Rest cfg :=
      ⟨by simpa using h.busy_clean hb, by simpa using (h.rest hb).last, by simpa using h.chk_order,
        by simpa using h.flags_order, hcap⟩
    exact Dec.payDone_inv hr (by simpa using hb) (by simpa using hop)
      (fun ho => by rw [hbuf (by simpa using ho)]; exact h.buf_size hb (by simpa using ho))
      (by simpa using h.inner_list hb) (by omega)
      (fun ho => by rw [hbuf (by simpa using ho)]; simpa [hadv] using hri (by simpa using ho))

theorem Dec.draw_eq (d : Dec) : ∃ ds tk, d.draw.2 = { d with draws := ds, tick := tk } := by
  unfold Dec.draw
  split <;> exact ⟨_, _, rfl⟩

theorem Dec.inv_draws {cfg : Config} {d : Dec} (h : d.Inv cfg) (ds : List Bool) (tk : Nat) :
    Dec.Inv cfg { d with draws := ds, tick := tk } := by
  obtain ⟨h1, h2, h3, h4, h5, h6, h7, h8, h9, h10, h11, h12, h13, h14, h15, h16, h17⟩ := h
  exact ⟨h1, h2, h3, h4, h5, h6, h7, h8, h9, h10, h11, h12, h13, h14, h15, h16, h17⟩

/-- Bytes past the frame arrive (R113). -/
theorem Dec.over_store_inv {cfg : Config} {d : Dec} (h : d.Inv cfg) (hb : d.unit.busy = true) (hp : d.unit.phase = .over)
    {b : List Byte} (hlen : b.length ≤ d.unit.buf.length - d.unit.n.toNat) : (d.store b).Inv cfg := by
  obtain ⟨ho, hsn, hnb⟩ := h.over_range hp
  have hsz := h.buf_size hb ho
  have hadv : (d.unit.advance b).toNat = d.unit.n.toNat + b.length := DecUnit.toNat_advance (by omega)
  have hbuf : (d.store b).unit.buf.length = d.unit.buf.length := by
    rw [(Dec.store_readInto d b ho).1, writeBuf_length _ _ _ (by omega)]
  exact {
    busy_phase := by simpa using h.busy_phase
    busy_clean := by simpa using h.busy_clean
    poison_result := by simpa using h.poison_result
    chk_order := by simpa using h.chk_order
    flags_order := by simpa using h.flags_order
    type_clear := by simp [hp]
    len_range := by simp [hp]
    pay_range := by simp [hp]
    over_range := fun _ => ⟨by simpa using ho, by simp [hadv]; omega, by simp [hadv, hbuf]; omega⟩
    buf_size := fun _ _ => by rw [hbuf]; exact hsz
    buf_room := by simp [hp]
    pay_count := by simp [hp]
    outer_count := by simp [hp]
    inner_count := by simp [hp]
    inner_list := by simpa using h.inner_list
    outer_empty := by simp [ho]
    ibuf_cap := by rw [(Dec.store_readInto d b ho).2.1]; exact h.ibuf_cap }

theorem Dec.ReadFrom.rest {cfg : Config} {d d' : Dec} (_h : d.ReadFrom d') (hu : d'.unit = d.unit) (hr : d.Rest cfg) :
    d'.Rest cfg :=
  ⟨hu ▸ hr.clean, hu ▸ hr.last, hu ▸ hr.chk, hu ▸ hr.flags, hu ▸ hr.cap⟩

theorem Dec.rest_draw {cfg : Config} {d : Dec} (hr : d.Rest cfg) : d.draw.2.Rest cfg := by
  obtain ⟨ds, tk, h⟩ := d.draw_eq
  rw [h]
  exact ⟨hr.clean, hr.last, hr.chk, hr.flags, hr.cap⟩

theorem Dec.errInOver_inv {cfg : Config} {d : Dec} (hr : d.Rest cfg) (e : EnvError) : (d.errInOver e).Inv cfg := by
  unfold Dec.errInOver
  dsimp only
  split
  · exact Dec.finishReadInto_inv (Dec.rest_draw hr)
  · exact Dec.fail_inv (Dec.rest_draw hr) _

/-- Every transaction keeps the invariant. -/
theorem Dec.transact_inv {cfg : Config} {d d' : Dec} (h : d.Inv cfg) (ht : d.transact cfg = some d') : d'.Inv cfg := by
  unfold Dec.transact at ht
  split at ht
  · rename_i hb
    have hrest := h.rest hb
    split at ht
    · simp at ht
    · -- TYPE
      rename_i hp
      unfold Dec.tickType at ht
      split at ht
      · simp at ht
      · rename_i hr; obtain rfl := Option.some.inj ht; exact Dec.srcRead_data_inv hr h
      · rename_i t _ _ hr
        obtain rfl := Option.some.inj ht
        have hreg := (Dec.srcRead_data hr).1.regs
        exact Dec.takeType_inv ((Dec.srcRead_data_inv hr h).mid (by rw [hreg.2.2.2.2.2.2.2.1]; exact hb)
          (by rw [hreg.1, hp]; simp)) t
      · rename_i hr
        obtain rfl := Option.some.inj ht
        obtain ⟨h1, -, -, -, -, h2⟩ := Dec.srcRead_eos hr
        exact Dec.eosInType_inv (h1.rest h2 hrest)
      · rename_i hr
        obtain rfl := Option.some.inj ht
        obtain ⟨h1, -, -, -, -, h2⟩ := Dec.srcRead_err hr
        exact Dec.fail_inv (h1.rest h2 hrest) _
    · -- LEN
      rename_i hp
      unfold Dec.tickLen at ht
      split at ht
      · simp at ht
      · rename_i hr
        obtain rfl := Option.some.inj ht
        have hreg := (Dec.srcRead_data hr).1.regs
        exact Dec.takeLen_inv (Dec.srcRead_data_inv hr h) (by rw [hreg.2.2.2.2.2.2.2.1]; exact hb)
          (by rw [hreg.1, hp]) _
      · rename_i hr
        obtain rfl := Option.some.inj ht
        obtain ⟨h1, -, -, -, -, h2⟩ := Dec.srcRead_eos hr
        exact Dec.fail_inv (h1.rest h2 hrest) _
      · rename_i hr
        obtain rfl := Option.some.inj ht
        obtain ⟨h1, -, -, -, -, h2⟩ := Dec.srcRead_err hr
        exact Dec.fail_inv (h1.rest h2 hrest) _
    · -- PAY
      rename_i hp
      unfold Dec.tickPay at ht
      split at ht
      · simp at ht
      · rename_i b d1 hr
        obtain rfl := Option.some.inj ht
        obtain ⟨hrf, -, hlen, -⟩ := Dec.srcRead_data hr
        have hreg := hrf.regs
        refine Dec.takePay_inv (Dec.srcRead_data_inv hr h) (by rw [hreg.2.2.2.2.2.2.2.1]; exact hb)
          (by rw [hreg.1, hp]) ?_
        rw [hrf.unit]
        exact hlen
      · rename_i hr
        obtain rfl := Option.some.inj ht
        obtain ⟨h1, -, -, -, -, h2⟩ := Dec.srcRead_eos hr
        exact Dec.fail_inv (h1.rest h2 hrest) _
      · rename_i hr
        obtain rfl := Option.some.inj ht
        obtain ⟨h1, -, -, -, -, h2⟩ := Dec.srcRead_err hr
        exact Dec.fail_inv (h1.rest h2 hrest) _
    · -- OVER
      rename_i hp
      unfold Dec.tickOver at ht
      split at ht
      · obtain rfl := Option.some.inj ht
        exact Dec.finishReadInto_inv hrest
      · have hinv : d.draw.2.Inv cfg := by
          obtain ⟨ds, tk, he⟩ := d.draw_eq
          rw [he]; exact Dec.inv_draws h ds tk
        have hun : d.draw.2.unit = d.unit := by
          obtain ⟨ds, tk, he⟩ := d.draw_eq
          rw [he]
        have hrd := Dec.rest_draw hrest
        revert ht
        generalize d.draw = p at *
        obtain ⟨go, d1⟩ := p
        dsimp only at *
        intro ht
        split at ht
        · split at ht
          · simp at ht
          · rename_i hr
            obtain rfl := Option.some.inj ht
            obtain ⟨hrf, -, hlen, -⟩ := Dec.srcRead_data hr
            have hreg := hrf.regs
            refine Dec.over_store_inv (Dec.srcRead_data_inv hr hinv) (by rw [hreg.2.2.2.2.2.2.2.1, hun]; exact hb)
              (by rw [hreg.1, hun, hp]) ?_
            rw [hrf.unit]
            exact hlen
          · rename_i hr
            obtain rfl := Option.some.inj ht
            obtain ⟨h1, -, -, -, -, h2⟩ := Dec.srcRead_eos hr
            exact Dec.finishReadInto_inv (h1.rest h2 hrd)
          · rename_i hr
            obtain rfl := Option.some.inj ht
            obtain ⟨h1, -, -, -, -, h2⟩ := Dec.srcRead_err hr
            exact Dec.errInOver_inv (h1.rest h2 hrd) _
        · obtain rfl := Option.some.inj ht
          exact Dec.finishReadInto_inv hrd
  · simp at ht

theorem Dec.run_inv {cfg : Config} (k : Nat) {d : Dec} (h : d.Inv cfg) : (Dec.run cfg k d).Inv cfg := by
  induction k generalizing d with
  | zero => exact h
  | succ k ih =>
    unfold Dec.run
    split
    · rename_i ht; exact ih (Dec.transact_inv h ht)
    · exact h

end Sys2Proof.Machine
end

