-- ==== Sys2Proof/Laws/Encoder.lean ====
section
/-! SUPPORT. What the transactions of ENC can do, said once each: they keep the invariant, each brings the operation nearer its
end, and what reaches the sink is what the writes of the frame offer it. -/

namespace Sys2Proof.Machine

/-! ### One write -/

/-- ENC after a request: only the destination written to has changed. -/
structure Enc.WroteTo (e e' : Enc) : Prop where
  unit : e'.unit = { e.unit with ibuf := e'.unit.ibuf }
  ibuf : e.unit.dst = .snk → e'.unit.ibuf = e.unit.ibuf
  snk : e.unit.dst = .ibuf → e'.snk = e.snk

theorem Enc.sinkWrite_some {cfg : Config} {e e' : Enc} {x : List Byte} {r : SinkReply}
    (h : e.sinkWrite cfg x = some (r, e')) :
    e.WroteTo e' ∧ (passes cfg.ibufCap e.unit.ibuf.length = false → passes cfg.ibufCap e'.unit.ibuf.length = false) := by
  unfold Enc.sinkWrite at h
  split at h
  · rename_i hd
    split at h
    · simp only [Option.some.injEq, Prod.mk.injEq] at h
      obtain ⟨-, rfl⟩ := h
      exact ⟨⟨rfl, fun _ => rfl, fun hs => by simp [hd] at hs⟩, id⟩
    · simp at h
  · rename_i hd
    split at h
    · simp only [Option.some.injEq, Prod.mk.injEq] at h
      obtain ⟨-, rfl⟩ := h
      exact ⟨⟨rfl, fun _ => rfl, fun _ => rfl⟩, id⟩
    · rename_i hp
      simp only [Option.some.injEq, Prod.mk.injEq] at h
      obtain ⟨-, rfl⟩ := h
      exact ⟨⟨rfl, fun hs => by simp [hd] at hs, fun _ => rfl⟩, fun _ => by simpa using hp⟩

/-- How an emission can end: it was skipped, or taken in full, or it ended the operation. -/
theorem Enc.emit_some {cfg : Config} {e e' : Enc} {x : List Byte} {k : Enc → Enc} (h : e.emit cfg x k = some e') :
    (x = [] ∧ e' = k e) ∨
      ∃ e1, e.WroteTo e1 ∧
        (passes cfg.ibufCap e.unit.ibuf.length = false → passes cfg.ibufCap e1.unit.ibuf.length = false) ∧
        (e' = k { e1 with unit := { e1.unit with cnt := e1.unit.cnt + BitVec.ofNat 65 x.length } } ∨
          ∃ r, e' = e1.finish r ∧ r.poisons = true) := by
  unfold Enc.emit at h
  split at h
  · rename_i hx
    simp only [Bool.and_eq_true, List.isEmpty_iff] at hx
    exact .inl ⟨hx.1, (Option.some.inj h).symm⟩
  · right
    split at h
    · simp at h
    · rename_i n e1 hw
      obtain ⟨h1, h2⟩ := Enc.sinkWrite_some hw
      refine ⟨e1, h1, h2, ?_⟩
      split at h
      · exact .inl (Option.some.inj h).symm
      · exact .inr ⟨_, (Option.some.inj h).symm, rfl⟩
    · rename_i hw
      obtain ⟨h1, h2⟩ := Enc.sinkWrite_some hw
      exact ⟨_, h1, h2, .inr ⟨_, (Option.some.inj h).symm, rfl⟩⟩
    · rename_i hw
      obtain ⟨h1, h2⟩ := Enc.sinkWrite_some hw
      exact ⟨_, h1, h2, .inr ⟨_, (Option.some.inj h).symm, rfl⟩⟩

/-! ### The invariant -/

/-- What of the invariant holds between two frames of an operation. -/
structure Enc.Rest (cfg : Config) (e : Enc) : Prop where
  clean : e.unit.poison = false
  last : e.unit.result = 0
  cap : passes cfg.ibufCap e.unit.ibuf.length = false

theorem Enc.Inv.rest {cfg : Config} {e : Enc} (h : e.Inv cfg) (hb : e.unit.busy = true) : e.Rest cfg :=
  ⟨h.busy_clean hb, by
    by_contra hr
    simpa [h.poison_result.mpr hr] using h.busy_clean hb, h.ibuf_cap⟩

theorem Enc.Rest.wrote {cfg : Config} {e e' : Enc} (h : e.Rest cfg) (hw : e.WroteTo e')
    (hc : passes cfg.ibufCap e'.unit.ibuf.length = false) : e'.Rest cfg :=
  ⟨by rw [hw.unit]; exact h.clean, by rw [hw.unit]; exact h.last, hc⟩

theorem Enc.finish_inv {cfg : Config} {e : Enc} (h : e.Rest cfg) (r : Result)
    (hr : r.poisons = true ↔ r.code ≠ 0) : (e.finish r).Inv cfg where
  busy_phase := by simp
  busy_clean := by simp
  poison_result := by simp [h.clean, hr]
  size := by simp
  width := by simp
  count := by simp
  inner_list := by simp
  ibuf_cap := by simpa using h.cap

theorem Result.poisons_code_ne_zero {r : Result} (h : r.poisons = true) : r.poisons = true ↔ r.code ≠ 0 := by
  cases r <;> simp_all [Result.poisons, Result.code]

theorem Enc.startFrame_inv {cfg : Config} {e : Enc} (h : e.Rest cfg) (hb : e.unit.busy = true)
    (hi : e.unit.dst = .ibuf → e.unit.op = .encodeList) (p : List Byte) : (e.startFrame p).Inv cfg where
  busy_phase := by simp [hb]
  busy_clean := by simp [h.clean]
  poison_result := by simp [h.clean, h.last]
  size := by simp
  width := by simp
  count := by simp
  inner_list := by simpa using fun _ => hi
  ibuf_cap := by simpa using h.cap

theorem Enc.nextFrame_inv {cfg : Config} {e : Enc} (h : e.Rest cfg) (hb : e.unit.busy = true)
    (ho : e.unit.op = .encodeList) : e.nextFrame.Inv cfg := by
  unfold Enc.nextFrame
  split
  all_goals
    apply Enc.startFrame_inv
    · exact ⟨h.clean, h.last, h.cap⟩
    · exact hb
    · exact fun _ => ho

theorem Enc.frameDone_inv {cfg : Config} {e : Enc} (h : e.Rest cfg) (hb : e.unit.busy = true)
    (hi : e.unit.dst = .ibuf → e.unit.op = .encodeList) : e.frameDone.Inv cfg := by
  unfold Enc.frameDone
  split
  · exact Enc.nextFrame_inv h hb (hi ‹_›)
  · exact Enc.finish_inv h _ (by simp [Result.poisons, Result.code])

/-- Every transaction keeps the invariant. -/
theorem Enc.transact_inv {cfg : Config} {e e' : Enc} (h : e.Inv cfg) (ht : e.transact cfg = some e') : e'.Inv cfg := by
  unfold Enc.transact at ht
  split at ht
  · rename_i hb
    have hrest := h.rest hb
    split at ht
    · simp at ht
    · rename_i hp
      rcases Enc.emit_some ht with ⟨h0, -⟩ | ⟨e1, hw, hc, h1 | ⟨r, rfl, hr⟩⟩
      · simp at h0
      · subst h1
        have hu := hw.unit
        have hcap := hc h.ibuf_cap
        obtain ⟨u1, s1⟩ := e1
        dsimp only at *
        clear hw hc
        generalize u1.ibuf = ib at *
        subst hu
        exact {
          busy_phase := by simp [hb]
          busy_clean := h.busy_clean
          poison_result := h.poison_result
          size := h.size
          width := h.width
          count := fun _ => by simpa [hp] using h.count hb
          inner_list := h.inner_list
          ibuf_cap := hcap }
      · exact Enc.finish_inv (hrest.wrote hw (hc h.ibuf_cap)) _ (Result.poisons_code_ne_zero hr)
    · rename_i hp
      have hm : e.unit.m.toNat = mEnc e.unit.payload.length := by rw [h.width hb, toNat_mEnc_nibble]
      rcases Enc.emit_some ht with ⟨h0, -⟩ | ⟨e1, hw, hc, h1 | ⟨r, rfl, hr⟩⟩
      · have := congrArg List.length h0
        have hpos := mEnc_pos e.unit.payload.length
        simp [hm] at this
        omega
      · subst h1
        have hu := hw.unit
        have hcap := hc h.ibuf_cap
        obtain ⟨u1, s1⟩ := e1
        dsimp only at *
        clear hw hc
        generalize u1.ibuf = ib at *
        subst hu
        exact {
          busy_phase := by simp [hb]
          busy_clean := h.busy_clean
          poison_result := h.poison_result
          size := h.size
          width := h.width
          count := fun _ => by simpa [hp, hm] using h.count hb
          inner_list := h.inner_list
          ibuf_cap := hcap }
      · exact Enc.finish_inv (hrest.wrote hw (hc h.ibuf_cap)) _ (Result.poisons_code_ne_zero hr)
    · rcases Enc.emit_some ht with ⟨-, rfl⟩ | ⟨e1, hw, hc, h1 | ⟨r, rfl, hr⟩⟩
      · exact Enc.frameDone_inv hrest hb (h.inner_list hb)
      · subst h1
        have h1 := hrest.wrote hw (hc h.ibuf_cap)
        have hu := hw.unit
        refine Enc.frameDone_inv ⟨h1.clean, h1.last, h1.cap⟩ ?_ ?_
        · dsimp only; rw [hu]; exact hb
        · dsimp only; rw [hu]; exact h.inner_list hb
      · exact Enc.finish_inv (hrest.wrote hw (hc h.ibuf_cap)) _ (Result.poisons_code_ne_zero hr)
  · simp at ht

/-! ### Every transaction is progress (R190) -/

theorem Enc.work_idle {e : Enc} (h : e.unit.busy = false) : e.work = 0 := by
  simp [Enc.work, h]

theorem Enc.startFrame_work_snk {e : Enc} (hd : e.unit.dst = .snk) (p : List Byte) : (e.startFrame p).work ≤ 3 := by
  simp [Enc.work, hd, EncPhase.left]; split <;> omega

theorem Enc.frameDone_work {e : Enc} (hb : e.unit.busy = true) (hp : e.unit.phase = .wPay) : e.frameDone.work < e.work := by
  unfold Enc.frameDone
  cases hd : e.unit.dst with
  | snk => simp [Enc.work, hb, hp, hd, EncPhase.left]
  | ibuf =>
    dsimp only
    unfold Enc.nextFrame
    split
    · rename_i p ps hdrop
      have hlt : e.unit.idx < e.unit.items.length := by
        by_contra hge
        rw [List.drop_eq_nil_of_le (by omega)] at hdrop
        simp at hdrop
      simp [Enc.work, hb, hp, hd, EncPhase.left]
      omega
    · simp [Enc.work, hb, hp, hd, EncPhase.left]
      omega

/-- Every transaction takes ENC nearer its end. -/
theorem Enc.transact_work {cfg : Config} {e e' : Enc} (ht : e.transact cfg = some e') : e'.work < e.work := by
  unfold Enc.transact at ht
  split at ht
  · rename_i hb
    have ended : ∀ {x : Enc} (r : Result), e.unit.phase ≠ .idle → (x.finish r).work < e.work := fun r hp => by
      rw [Enc.work_idle (by simp)]
      simp only [Enc.work, hb, if_true]
      cases he : e.unit.phase <;> simp_all [EncPhase.left]
    split at ht
    · simp at ht
    · rename_i hp
      rcases Enc.emit_some ht with ⟨h0, -⟩ | ⟨e1, hw, -, h1 | ⟨r, rfl, -⟩⟩
      · simp at h0
      · subst h1
        have hu := hw.unit
        simp only [Enc.work]
        rw [hu]
        simp [hb, hp, EncPhase.left]
      · exact ended r (by simp [hp])
    · rename_i hp
      rcases Enc.emit_some ht with ⟨-, rfl⟩ | ⟨e1, hw, -, h1 | ⟨r, rfl, -⟩⟩
      · simp [Enc.work, hb, hp, EncPhase.left]
      · subst h1
        have hu := hw.unit
        simp only [Enc.work]
        rw [hu]
        simp [hb, hp, EncPhase.left]
      · exact ended r (by simp [hp])
    · rename_i hp
      rcases Enc.emit_some ht with ⟨-, rfl⟩ | ⟨e1, hw, -, h1 | ⟨r, rfl, -⟩⟩
      · exact Enc.frameDone_work hb hp
      · subst h1
        have hu := hw.unit
        refine lt_of_lt_of_le (Enc.frameDone_work ?_ ?_) (le_of_eq ?_)
        · dsimp only; rw [hu]; exact hb
        · dsimp only; rw [hu]; exact hp
        · simp only [Enc.work]; rw [hu]
      · exact ended r (by simp [hp])
  · simp at ht

theorem Enc.run_inv {cfg : Config} (k : Nat) {e : Enc} (h : e.Inv cfg) : (Enc.run cfg k e).Inv cfg := by
  induction k generalizing e with
  | zero => exact h
  | succ k ih =>
    unfold Enc.run
    split
    · rename_i ht; exact ih (Enc.transact_inv h ht)
    · exact h

/-- What every transaction keeps, the whole run keeps. -/
theorem Enc.run_induct {cfg : Config} {P : Enc → Prop} (hstep : ∀ e e', P e → e.transact cfg = some e' → P e') (k : Nat)
    {e : Enc} (h : P e) : P (Enc.run cfg k e) := by
  induction k generalizing e with
  | zero => exact h
  | succ k ih =>
    unfold Enc.run
    split
    · rename_i ht; exact ih (hstep _ _ h ht)
    · exact h

theorem Enc.transact_idle {cfg : Config} {e : Enc} (h : e.unit.busy = false) : e.transact cfg = none := by
  simp [Enc.transact, h]

/-- A run with enough fuel goes on until nothing more can be done. -/
theorem Enc.run_quiet {cfg : Config} (k : Nat) {e : Enc} (h : e.Inv cfg) (hk : e.work ≤ k) :
    (Enc.run cfg k e).transact cfg = none := by
  induction k generalizing e with
  | zero =>
    apply Enc.transact_idle
    show e.unit.busy = false
    by_contra hb
    have hb : e.unit.busy = true := by simpa using hb
    have hp := h.busy_phase.mp hb
    simp only [Enc.work, hb, if_true, Nat.le_zero] at hk
    cases he : e.unit.phase <;> simp_all [EncPhase.left]
  | succ k ih =>
    unfold Enc.run
    split
    · rename_i ht
      have := Enc.transact_work ht
      exact ih (Enc.transact_inv h ht) (by omega)
    · rename_i ht; exact ht

theorem Enc.runOn_quiet {cfg : Config} {e : Enc} (h : e.Inv cfg) : (e.runOn cfg).transact cfg = none :=
  Enc.run_quiet _ h le_rfl

theorem Enc.runOn_inv {cfg : Config} {e : Enc} (h : e.Inv cfg) : (e.runOn cfg).Inv cfg := Enc.run_inv _ h

/-- With more fuel than it needs a run ends the same. -/
theorem Enc.run_of_quiet {cfg : Config} (k : Nat) {e : Enc} (h : e.transact cfg = none) : Enc.run cfg k e = e := by
  cases k with
  | zero => rfl
  | succ k => simp [Enc.run, h]

theorem Enc.run_add {cfg : Config} (j k : Nat) (e : Enc) : Enc.run cfg (j + k) e = Enc.run cfg k (Enc.run cfg j e) := by
  induction j generalizing e with
  | zero => simp [Enc.run]
  | succ j ih =>
    rw [Nat.succ_add]
    simp only [Enc.run]
    split
    · exact ih _
    · rename_i ht; rw [Enc.run_of_quiet k ht]

/-- The run of a unit that can go on is the run of what it becomes. -/
theorem Enc.runOn_transact {cfg : Config} {e e' : Enc} (h : e.Inv cfg) (ht : e.transact cfg = some e') :
    e.runOn cfg = e'.runOn cfg := by
  have hw := Enc.transact_work ht
  obtain ⟨j, hj⟩ : ∃ j, e.work = (e'.work + j) + 1 := ⟨e.work - e'.work - 1, by omega⟩
  unfold Enc.runOn
  rw [hj]
  simp only [Enc.run, ht]
  rw [Enc.run_add, Enc.run_of_quiet j (Enc.run_quiet _ (Enc.transact_inv h ht) le_rfl)]

theorem Enc.runOn_none {cfg : Config} {e : Enc} (ht : e.transact cfg = none) : e.runOn cfg = e :=
  Enc.run_of_quiet _ ht

/-! ### One frame into the bound sink (R86 to R93) -/

/-- How a frame of `n` bytes, emitted into the bound sink by a unit that started it as `u`, ends as its writes ended: only the
phase, `CNT`, and what the delivery of the result writes, differ from `u`. -/
def Enc.Ends (u : EncUnit) (n : Count) (o : Offer × Sink) (e : Enc) : Prop :=
  match o.1 with
  | .waiting => ∃ ph c, ph ≠ .idle ∧ e = { unit := { u with phase := ph, cnt := c }, snk := o.2 }
  | .failed r => ∃ ph c, e = Enc.finish { unit := { u with phase := ph, cnt := c }, snk := o.2 } r
  | .done => ∃ ph, e = Enc.finish { unit := { u with phase := ph, cnt := n }, snk := o.2 } (.ok (.count n))

theorem Enc.sinkWrite_snk {cfg : Config} {e : Enc} {x : List Byte} (hd : e.unit.dst = .snk) :
    e.sinkWrite cfg x = (e.snk.answer x).map (fun p => (p.1, { e with snk := p.2 })) := by
  unfold Enc.sinkWrite
  split
  · cases e.snk.answer x <;> rfl
  · simp_all

theorem Enc.sinkWrite_ibuf {cfg : Config} {e : Enc} {x : List Byte} (hd : e.unit.dst = .ibuf) :
    e.sinkWrite cfg x =
      if passes cfg.ibufCap (e.unit.ibuf.length + x.length) then
        some (.full (e.unit.ibuf.length + x.length), e)
      else
        some (.wrote x.length, { e with unit := { e.unit with ibuf := e.unit.ibuf ++ x } }) := by
  unfold Enc.sinkWrite
  split
  · simp_all
  · rfl

theorem Enc.frameDone_snk {e : Enc} (hd : e.unit.dst = .snk) : e.frameDone = e.finish (.ok (.count e.unit.cnt)) := by
  unfold Enc.frameDone
  split
  · simp_all
  · rfl

theorem Enc.frameDone_ibuf {e : Enc} (hd : e.unit.dst = .ibuf) : e.frameDone = e.nextFrame := by
  unfold Enc.frameDone
  split
  · rfl
  · simp_all

/-- One emission that makes a request to the bound sink. -/
theorem Enc.offer_step {cfg : Config} {e : Enc} {x : List Byte} {xs : List (List Byte)} {k : Enc → Enc}
    (h : e.Inv cfg) (ht : e.transact cfg = e.emit cfg x k) (hx : (x.isEmpty && !cfg.zeroLenWrite) = false)
    (hd : e.unit.dst = .snk) {Q : Offer × Sink → Enc → Prop}
    (hnone : Q (.waiting, e.snk) e)
    (hfail : ∀ r snk', Q (.failed r, snk') (Enc.finish { e with snk := snk' } r))
    (hdone : ∀ snk', Q (Sink.offerAll xs snk')
      ((k { unit := { e.unit with cnt := e.unit.cnt + BitVec.ofNat 65 x.length }, snk := snk' }).runOn cfg)) :
    Q (Sink.offerAll (x :: xs) e.snk) (e.runOn cfg) := by
  have hem : e.emit cfg x k =
      match e.snk.answer x with
      | none => none
      | some (.wrote n, snk') =>
        if n = x.length then
          some (k { unit := { e.unit with cnt := e.unit.cnt + BitVec.ofNat 65 x.length }, snk := snk' })
        else some (Enc.finish { e with snk := snk' } (.sinkWriteFailure (.short n)))
      | some (.err er, snk') => some (Enc.finish { e with snk := snk' } (.sinkWriteFailure (.err er)))
      | some (.full size, snk') => some (Enc.finish { e with snk := snk' } (.resourceExhausted size)) := by
    unfold Enc.emit
    rw [Enc.sinkWrite_snk hd]
    simp only [hx, Bool.false_eq_true, if_false]
    cases hans : e.snk.answer x with
    | none => rfl
    | some p => obtain ⟨r, snk'⟩ := p; cases r <;> rfl
  rw [hem] at ht
  unfold Sink.offerAll
  cases hans : e.snk.answer x with
  | none =>
    rw [hans] at ht
    rw [Enc.runOn_none ht]
    exact hnone
  | some p =>
    obtain ⟨r, snk'⟩ := p
    rw [hans] at ht
    have idle : ∀ r, (Enc.finish { e with snk := snk' } r).runOn cfg = Enc.finish { e with snk := snk' } r :=
      fun r => Enc.runOn_none (Enc.transact_idle rfl)
    cases r with
    | wrote n =>
      dsimp only at ht ⊢
      split at ht
      · rename_i hn
        rw [if_pos hn, Enc.runOn_transact h ht]
        exact hdone snk'
      · rename_i hn
        rw [if_neg hn, Enc.runOn_transact h ht, idle]
        exact hfail _ _
    | err er =>
      dsimp only at ht ⊢
      rw [Enc.runOn_transact h ht, idle]
      exact hfail _ _
    | full size =>
      dsimp only at ht ⊢
      rw [Enc.runOn_transact h ht, idle]
      exact hfail _ _

/-- The phase `ph` with `c` counted, and the rest of `u`. -/
def EncUnit.at (u : EncUnit) (ph : EncPhase) (c : Count) : EncUnit := { u with phase := ph, cnt := c }

theorem Enc.finish_idle_runOn {cfg : Config} (e : Enc) (r : Result) : (e.finish r).runOn cfg = e.finish r :=
  Enc.runOn_none (Enc.transact_idle rfl)

theorem Enc.frame_pay {cfg : Config} {e : Enc} (h : e.Inv cfg) (hb : e.unit.busy = true) (hp : e.unit.phase = .wPay)
    (hd : e.unit.dst = .snk) :
    Enc.Ends e.unit (1 + BitVec.ofNat 65 (mEnc e.unit.payload.length) + BitVec.ofNat 65 e.unit.payload.length)
      (Sink.offerAll (if e.unit.payload.isEmpty && !cfg.zeroLenWrite then [] else [e.unit.payload]) e.snk)
      (e.runOn cfg) := by
  have ht : e.transact cfg = e.emit cfg e.unit.payload Enc.frameDone := by
    simp [Enc.transact, hb, hp, Enc.emitPay]
  have hc : e.unit.cnt = 1 + BitVec.ofNat 65 (mEnc e.unit.payload.length) := by simpa [hp] using h.count hb
  split
  · rename_i hx
    have hpe : e.unit.payload = [] := by simp at hx; exact hx.1
    have ht' : e.transact cfg = some e.frameDone := by rw [ht]; simp [Enc.emit, hx]
    rw [Enc.runOn_transact h ht', Enc.frameDone_snk hd, Enc.finish_idle_runOn, ← hc, show e.unit.payload.length = 0 by simp [hpe],
      show e.unit.cnt + BitVec.ofNat 65 0 = e.unit.cnt by simp]
    exact ⟨e.unit.phase, rfl⟩
  · rename_i hx
    refine Enc.offer_step h ht (by simpa using hx) hd ⟨e.unit.phase, e.unit.cnt, by simp [hp], rfl⟩
      (fun r k => ⟨e.unit.phase, e.unit.cnt, rfl⟩) (fun k => ?_)
    rw [Enc.frameDone_snk, Enc.finish_idle_runOn, ← hc]
    · exact ⟨e.unit.phase, rfl⟩
    · exact hd

theorem Enc.frame_len {cfg : Config} {e : Enc} (h : e.Inv cfg) (hb : e.unit.busy = true) (hp : e.unit.phase = .wLen)
    (hd : e.unit.dst = .snk) (hl : e.unit.payload.length < 2 ^ 64) :
    Enc.Ends e.unit (1 + BitVec.ofNat 65 (mEnc e.unit.payload.length) + BitVec.ofNat 65 e.unit.payload.length)
      (Sink.offerAll (leBytes e.unit.payload.length (mEnc e.unit.payload.length) ::
        (if e.unit.payload.isEmpty && !cfg.zeroLenWrite then [] else [e.unit.payload])) e.snk)
      (e.runOn cfg) := by
  have hm : e.unit.m.toNat = mEnc e.unit.payload.length := by rw [h.width hb, toNat_mEnc_nibble]
  have hs : e.unit.s.toNat = e.unit.payload.length := by
    rw [h.size hb, BitVec.toNat_ofNat]; exact Nat.mod_eq_of_lt hl
  have ht : e.transact cfg = e.emit cfg (leBytes e.unit.payload.length (mEnc e.unit.payload.length))
      (fun e => { e with unit := { e.unit with phase := .wPay } }) := by
    simp [Enc.transact, hb, hp, Enc.emitLen, hs, hm]
  have hne : (leBytes e.unit.payload.length (mEnc e.unit.payload.length)).isEmpty = false := by
    have := mEnc_pos e.unit.payload.length
    have hl := leBytes_length e.unit.payload.length (mEnc e.unit.payload.length)
    cases hx : leBytes e.unit.payload.length (mEnc e.unit.payload.length) with
    | nil => rw [hx] at hl; simp at hl; omega
    | cons => rfl
  have hc : e.unit.cnt = 1 := by simpa [hp] using h.count hb
  refine Enc.offer_step h ht (by simp [hne]) hd ⟨e.unit.phase, e.unit.cnt, by simp [hp], rfl⟩
    (fun r k => ⟨e.unit.phase, e.unit.cnt, rfl⟩) (fun k => ?_)
  have hinv : Enc.Inv cfg ⟨e.unit.at .wPay (e.unit.cnt + BitVec.ofNat 65
      (leBytes e.unit.payload.length (mEnc e.unit.payload.length)).length), k⟩ :=
    { busy_phase := by simp [hb, EncUnit.at]
      busy_clean := h.busy_clean
      poison_result := h.poison_result
      size := h.size
      width := h.width
      count := fun _ => by simp [hc, EncUnit.at]
      inner_list := h.inner_list
      ibuf_cap := h.ibuf_cap }
  exact Enc.frame_pay hinv hb rfl hd

/-- From phase W_TYPE, ENC offers the writes of the frame to the bound sink, and ends as they do. -/
theorem Enc.frame_type {cfg : Config} {e : Enc} (h : e.Inv cfg) (hb : e.unit.busy = true) (hp : e.unit.phase = .wType)
    (hd : e.unit.dst = .snk) (hl : e.unit.payload.length < 2 ^ 64) :
    Enc.Ends e.unit (1 + BitVec.ofNat 65 (mEnc e.unit.payload.length) + BitVec.ofNat 65 e.unit.payload.length)
      (Sink.offerAll (frameWrites cfg e.unit.payload) e.snk) (e.runOn cfg) := by
  have ht : e.transact cfg = e.emit cfg [encTypeByte (BitVec.ofNat 4 (mEnc e.unit.payload.length))]
      (fun e => { e with unit := { e.unit with phase := .wLen } }) := by
    simp [Enc.transact, hb, hp, Enc.emitType, h.width hb]
  have hc : e.unit.cnt = 0 := by simpa [hp] using h.count hb
  refine Enc.offer_step h ht (by simp) hd ⟨e.unit.phase, e.unit.cnt, by simp [hp], rfl⟩
    (fun r k => ⟨e.unit.phase, e.unit.cnt, rfl⟩) (fun k => ?_)
  have hinv : Enc.Inv cfg ⟨e.unit.at .wLen (e.unit.cnt + BitVec.ofNat 65 1), k⟩ :=
    { busy_phase := by simp [hb, EncUnit.at]
      busy_clean := h.busy_clean
      poison_result := h.poison_result
      size := h.size
      width := h.width
      count := fun _ => by simp [hc, EncUnit.at]
      inner_list := h.inner_list
      ibuf_cap := h.ibuf_cap }
  exact Enc.frame_len hinv hb rfl hd hl

/-! ### One frame into `IBUF_E` (R52, R120) -/

/-- One emission into `IBUF_E`. -/
theorem Enc.emit_ibuf {cfg : Config} {e : Enc} {x : List Byte} {k : Enc → Enc} (hd : e.unit.dst = .ibuf)
    (hx : (x.isEmpty && !cfg.zeroLenWrite) = false) :
    e.emit cfg x k =
      if passes cfg.ibufCap (e.unit.ibuf.length + x.length) then
        some (e.finish (.resourceExhausted (e.unit.ibuf.length + x.length)))
      else
        some (k { e with unit := { e.unit with
          ibuf := e.unit.ibuf ++ x, cnt := e.unit.cnt + BitVec.ofNat 65 x.length } }) := by
  unfold Enc.emit
  rw [Enc.sinkWrite_ibuf hd]
  simp only [hx, Bool.false_eq_true, if_false]
  by_cases hp : passes cfg.ibufCap (e.unit.ibuf.length + x.length) = true
  · rw [if_pos hp, if_pos hp]
  · rw [if_neg hp, if_neg hp]; simp only [if_true]

/-- How the inner frame of `p` ends: it is in `IBUF_E` and the next cycle begins, or the buffer is full. -/
def Enc.InnerEnds (cfg : Config) (u : EncUnit) (snk : Sink) (ws : List (List Byte)) (e : Enc) : Prop :=
  match firstPast cfg.ibufCap u.ibuf.length ws with
  | some n => ∃ ph c ib, e = Enc.finish { unit := { u with phase := ph, cnt := c, ibuf := ib }, snk := snk } (.resourceExhausted n)
  | none => ∃ ph c, e = (Enc.nextFrame
      { unit := { u with phase := ph, cnt := c, ibuf := u.ibuf ++ ws.flatten }, snk := snk }).runOn cfg

theorem Enc.inner_pay {cfg : Config} {e : Enc} (h : e.Inv cfg) (hb : e.unit.busy = true) (hp : e.unit.phase = .wPay)
    (hd : e.unit.dst = .ibuf) :
    Enc.InnerEnds cfg e.unit e.snk (if e.unit.payload.isEmpty && !cfg.zeroLenWrite then [] else [e.unit.payload])
      (e.runOn cfg) := by
  have ht : e.transact cfg = e.emit cfg e.unit.payload Enc.frameDone := by
    simp [Enc.transact, hb, hp, Enc.emitPay]
  split
  · rename_i hx
    have ht' : e.transact cfg = some e.frameDone := by rw [ht]; simp [Enc.emit, hx]
    rw [Enc.runOn_transact h ht', Enc.frameDone_ibuf hd]
    exact ⟨e.unit.phase, e.unit.cnt, by rw [List.flatten_nil, List.append_nil]⟩
  · rename_i hx
    rw [Enc.emit_ibuf hd (by simpa using hx)] at ht
    unfold Enc.InnerEnds firstPast
    split at ht
    · rename_i hpast
      rw [if_pos hpast, Enc.runOn_transact h ht, Enc.finish_idle_runOn]
      exact ⟨e.unit.phase, e.unit.cnt, e.unit.ibuf, rfl⟩
    · rename_i hpast
      rw [if_neg hpast, Enc.runOn_transact h ht]
      simp only [firstPast]
      refine ⟨e.unit.phase, e.unit.cnt + BitVec.ofNat 65 e.unit.payload.length, ?_⟩
      rw [Enc.frameDone_ibuf, List.flatten_singleton]
      exact hd

/-- One emission of an inner frame that is not the last. -/
theorem Enc.inner_step {cfg : Config} {e : Enc} {x : List Byte} {xs : List (List Byte)} {ph : EncPhase}
    (h : e.Inv cfg) (ht : e.transact cfg = e.emit cfg x (fun e => { e with unit := { e.unit with phase := ph } }))
    (hx : x.isEmpty = false) (hd : e.unit.dst = .ibuf)
    (hdone : passes cfg.ibufCap (e.unit.ibuf.length + x.length) = false →
      Enc.InnerEnds cfg { e.unit with phase := ph, ibuf := e.unit.ibuf ++ x, cnt := e.unit.cnt + BitVec.ofNat 65 x.length }
        e.snk xs
        (Enc.runOn cfg { e with unit := { e.unit with
          phase := ph, ibuf := e.unit.ibuf ++ x, cnt := e.unit.cnt + BitVec.ofNat 65 x.length } })) :
    Enc.InnerEnds cfg e.unit e.snk (x :: xs) (e.runOn cfg) := by
  rw [Enc.emit_ibuf hd (by simp [hx])] at ht
  unfold Enc.InnerEnds firstPast
  split at ht
  · rename_i hpast
    rw [if_pos hpast, Enc.runOn_transact h ht, Enc.finish_idle_runOn]
    exact ⟨e.unit.phase, e.unit.cnt, e.unit.ibuf, rfl⟩
  · rename_i hpast
    rw [if_neg hpast, Enc.runOn_transact h ht]
    have := hdone (by simpa using hpast)
    unfold Enc.InnerEnds at this
    simp only [List.length_append] at this
    revert this
    cases firstPast cfg.ibufCap (e.unit.ibuf.length + x.length) xs with
    | some n =>
      dsimp only
      rintro ⟨ph', c, ib, he⟩
      exact ⟨ph', c, ib, he⟩
    | none =>
      dsimp only
      rintro ⟨ph', c, he⟩
      exact ⟨ph', c, by simpa using he⟩

theorem Enc.inner_inv {cfg : Config} {e : Enc} (h : e.Inv cfg) (hb : e.unit.busy = true) (x : List Byte) (ph : EncPhase)
    (c : Count)
    (hc : c = match ph with
      | .wPay => 1 + BitVec.ofNat 65 (mEnc e.unit.payload.length)
      | .wLen => 1
      | _ => 0)
    (hph : ph ≠ .idle) (hcap : passes cfg.ibufCap (e.unit.ibuf.length + x.length) = false) :
    Enc.Inv cfg { e with unit := { e.unit with phase := ph, ibuf := e.unit.ibuf ++ x, cnt := c } } where
  busy_phase := by simp [hb, hph]
  busy_clean := h.busy_clean
  poison_result := h.poison_result
  size := h.size
  width := h.width
  count := fun _ => hc
  inner_list := h.inner_list
  ibuf_cap := by simpa using hcap

theorem Enc.inner_len {cfg : Config} {e : Enc} (h : e.Inv cfg) (hb : e.unit.busy = true) (hp : e.unit.phase = .wLen)
    (hd : e.unit.dst = .ibuf) (hl : e.unit.payload.length < 2 ^ 64) :
    Enc.InnerEnds cfg e.unit e.snk (leBytes e.unit.payload.length (mEnc e.unit.payload.length) ::
        (if e.unit.payload.isEmpty && !cfg.zeroLenWrite then [] else [e.unit.payload])) (e.runOn cfg) := by
  have hm : e.unit.m.toNat = mEnc e.unit.payload.length := by rw [h.width hb, toNat_mEnc_nibble]
  have hs : e.unit.s.toNat = e.unit.payload.length := by
    rw [h.size hb, BitVec.toNat_ofNat]; exact Nat.mod_eq_of_lt hl
  have ht : e.transact cfg = e.emit cfg (leBytes e.unit.payload.length (mEnc e.unit.payload.length))
      (fun e => { e with unit := { e.unit with phase := .wPay } }) := by
    simp [Enc.transact, hb, hp, Enc.emitLen, hs, hm]
  have hne : (leBytes e.unit.payload.length (mEnc e.unit.payload.length)).isEmpty = false := by
    have := mEnc_pos e.unit.payload.length
    have hl := leBytes_length e.unit.payload.length (mEnc e.unit.payload.length)
    cases hx : leBytes e.unit.payload.length (mEnc e.unit.payload.length) with
    | nil => rw [hx] at hl; simp at hl; omega
    | cons => rfl
  have hc : e.unit.cnt = 1 := by simpa [hp] using h.count hb
  refine Enc.inner_step h ht hne hd (fun hcap => ?_)
  have hinv := Enc.inner_inv h hb _ .wPay (e.unit.cnt + BitVec.ofNat 65
    (leBytes e.unit.payload.length (mEnc e.unit.payload.length)).length) (by simp [hc]) (by simp) hcap
  exact Enc.inner_pay hinv hb rfl hd

theorem Enc.inner_type {cfg : Config} {e : Enc} (h : e.Inv cfg) (hb : e.unit.busy = true) (hp : e.unit.phase = .wType)
    (hd : e.unit.dst = .ibuf) (hl : e.unit.payload.length < 2 ^ 64) :
    Enc.InnerEnds cfg e.unit e.snk (frameWrites cfg e.unit.payload) (e.runOn cfg) := by
  have ht : e.transact cfg = e.emit cfg [encTypeByte (BitVec.ofNat 4 (mEnc e.unit.payload.length))]
      (fun e => { e with unit := { e.unit with phase := .wLen } }) := by
    simp [Enc.transact, hb, hp, Enc.emitType, h.width hb]
  have hc : e.unit.cnt = 0 := by simpa [hp] using h.count hb
  refine Enc.inner_step h ht rfl hd (fun hcap => ?_)
  have hinv := Enc.inner_inv h hb _ .wLen (e.unit.cnt + BitVec.ofNat 65 1) (by simp [hc]) (by simp) hcap
  exact Enc.inner_len hinv hb rfl hd hl

/-! ### The cycles of ENCODE_LIST (R122) -/

theorem frameWrites_flatten (cfg : Config) (p : List Byte) : (frameWrites cfg p).flatten = frame p := by
  unfold frameWrites frame
  split
  · rename_i hx
    simp at hx
    simp [hx.1]
  · simp

theorem innerWrites_flatten (cfg : Config) (l : List (List Byte)) : (innerWrites cfg l).flatten = frameAll l := by
  induction l with
  | nil => rfl
  | cons p l ih => simp [innerWrites, frameAll, frameWrites_flatten, ih]

theorem firstPast_append (cap : Option Nat) (len : Nat) (ws ws' : List (List Byte)) :
    firstPast cap len (ws ++ ws') =
      match firstPast cap len ws with
      | some n => some n
      | none => firstPast cap (len + ws.flatten.length) ws' := by
  induction ws generalizing len with
  | nil => simp [firstPast]
  | cons x ws ih =>
    simp only [List.cons_append, firstPast, List.flatten_cons, List.length_append]
    split
    · rfl
    · rw [ih, Nat.add_assoc]

theorem firstPast_none {cap : Option Nat} {len : Nat} {ws : List (List Byte)} (hc : passes cap len = false)
    (h : firstPast cap len ws = none) : passes cap (len + ws.flatten.length) = false := by
  induction ws generalizing len with
  | nil => simpa using hc
  | cons x ws ih =>
    simp only [firstPast] at h
    split at h
    · simp at h
    · rename_i hx
      simpa [Nat.add_assoc] using ih (by simpa using hx) h

/-- Two states of the unit in one ENCODE_LIST: only working registers and `IBUF_E` differ. -/
structure EncUnit.SameOp (u v : EncUnit) : Prop where
  op : v.op = u.op
  busy : v.busy = u.busy
  poison : v.poison = u.poison
  result : v.result = u.result
  items : v.items = u.items
  out : v.out = u.out

/-- ENCODE_LIST from the start of a cycle, with `rest` still to be framed: either `IBUF_E` is full, and nothing has reached the
sink, or the outer frame is offered to it (R119, R123). -/
theorem Enc.list_runOn {cfg : Config} (rest : List (List Byte)) {e : Enc} (h : e.Rest cfg) (hb : e.unit.busy = true)
    (ho : e.unit.op = .encodeList) (hi : e.unit.items.drop e.unit.idx = rest) (hf : ∀ p ∈ rest, p.length < 2 ^ 64) :
    match firstPast cfg.ibufCap e.unit.ibuf.length (innerWrites cfg rest) with
    | some n => ∃ u, e.unit.SameOp u ∧ e.nextFrame.runOn cfg = Enc.finish ⟨u, e.snk⟩ (.resourceExhausted n)
    | none => (e.unit.ibuf ++ frameAll rest).length < 2 ^ 64 →
      ∃ u, e.unit.SameOp u ∧
        Enc.Ends u
          (1 + BitVec.ofNat 65 (mEnc (e.unit.ibuf ++ frameAll rest).length) +
            BitVec.ofNat 65 (e.unit.ibuf ++ frameAll rest).length)
          (Sink.offerAll (frameWrites cfg (e.unit.ibuf ++ frameAll rest)) e.snk) (e.nextFrame.runOn cfg) := by
  induction rest generalizing e with
  | nil =>
    simp only [innerWrites, firstPast, frameAll, List.append_nil]
    intro hl
    have hinv := Enc.nextFrame_inv h hb ho
    have hn : e.nextFrame = Enc.startFrame { e with unit := { e.unit with dst := .snk } } e.unit.ibuf := by
      unfold Enc.nextFrame; rw [hi]
    rw [hn] at hinv ⊢
    have hend := Enc.frame_type hinv (by simpa using hb) rfl rfl (by rw [Enc.startFrame_payload]; exact hl)
    rw [Enc.startFrame_payload, Enc.startFrame_snk] at hend
    refine ⟨_, ?_, hend⟩
    exact ⟨rfl, rfl, rfl, rfl, rfl, rfl⟩
  | cons p rest ih =>
    have hinv := Enc.nextFrame_inv h hb ho
    have hn : e.nextFrame =
        Enc.startFrame { e with unit := { e.unit with idx := e.unit.idx + 1, dst := .ibuf } } p := by
      unfold Enc.nextFrame; rw [hi]
    have hdrop : e.unit.items.drop (e.unit.idx + 1) = rest := by
      rw [← List.drop_drop, hi]; rfl
    rw [hn] at hinv ⊢
    have hinner := Enc.inner_type hinv (by simpa using hb) rfl rfl
      (by rw [Enc.startFrame_payload]; exact hf p (by simp))
    simp only [innerWrites]
    rw [firstPast_append]
    unfold Enc.InnerEnds at hinner
    simp only [Enc.startFrame_payload, Enc.startFrame_ibuf, Enc.startFrame_snk] at hinner
    revert hinner
    cases hfp : firstPast cfg.ibufCap e.unit.ibuf.length (frameWrites cfg p) with
    | some n =>
      dsimp only
      rintro ⟨ph, c, ib, he⟩
      refine ⟨_, ?_, he⟩
      exact ⟨rfl, rfl, rfl, rfl, rfl, rfl⟩
    | none =>
      dsimp only
      rintro ⟨ph, c, he⟩
      rw [frameWrites_flatten] at he ⊢
      have hcap : passes cfg.ibufCap (e.unit.ibuf ++ frame p).length = false := by
        have := firstPast_none h.cap hfp
        rw [frameWrites_flatten] at this
        simpa using this
      have := @ih ⟨{ (Enc.startFrame { e with unit := { e.unit with idx := e.unit.idx + 1, dst := .ibuf } } p).unit with
          phase := ph, cnt := c, ibuf := e.unit.ibuf ++ frame p }, e.snk⟩ ⟨h.clean, h.last, hcap⟩ hb ho hdrop
          (fun q hq => hf q (by simp [hq]))
      dsimp only at this
      rw [show e.unit.ibuf.length + (frame p).length = (e.unit.ibuf ++ frame p).length by simp]
      rw [he]
      revert this
      cases firstPast cfg.ibufCap (e.unit.ibuf ++ frame p).length (innerWrites cfg rest) with
      | some n =>
        dsimp only
        rintro ⟨u, hu, hend⟩
        exact ⟨u, ⟨hu.op, hu.busy, hu.poison, hu.result, hu.items, hu.out⟩, hend⟩
      | none =>
        dsimp only
        intro hgo hl
        simp only [frameAll, ← List.append_assoc] at hl ⊢
        obtain ⟨u, hu, hend⟩ := hgo hl
        exact ⟨u, ⟨hu.op, hu.busy, hu.poison, hu.result, hu.items, hu.out⟩, hend⟩

theorem framedLength_eq (l : List (List Byte)) : framedLength l = (frameAll l).length := by
  induction l with
  | nil => rfl
  | cons p l ih => simp [framedLength, frameAll, ih]

/-- The byte count of a frame is exact in 65 bits (R72, R92). -/
theorem count_frame (p : List Byte) :
    1 + BitVec.ofNat 65 (mEnc p.length) + BitVec.ofNat 65 p.length = BitVec.ofNat 65 (frame p).length := by
  rw [frame_length, BitVec.ofNat_add, BitVec.ofNat_add]; rfl

end Sys2Proof.Machine
end

