-- ==== Sys2Proof/Laws/Progress.lean ====
section
/-! SUPPORT. Every transaction of DEC brings its operation nearer the end (70_reset_and_hazards.md R190), so a run of DEC goes on
until its result or until a request is not answered. -/

namespace Sys2Proof.Machine

/-! ### What holds the bytes still to come -/

theorem Dec.work_busy {d : Dec} (h : d.unit.busy = true) : d.work = 1 + d.fuel := by
  simp [Dec.work, Dec.fuel, h]; omega

theorem Dec.work_le (d : Dec) : d.work ≤ 1 + d.fuel := by
  unfold Dec.work Dec.fuel; split <;> omega

theorem Dec.work_idle {d : Dec} (h : d.unit.busy = false) : d.work = 0 := by
  simp [Dec.work, h]

@[simp] theorem Dec.finish_fuel (d : Dec) (r : Result) : (d.finish r).fuel = d.fuel := rfl
@[simp] theorem Dec.enterType_fuel (d : Dec) : d.enterType.fuel = d.fuel := rfl
@[simp] theorem Dec.enterPay_fuel (d : Dec) : d.enterPay.fuel = d.fuel := rfl
@[simp] theorem Dec.outerDone_fuel (d : Dec) : d.outerDone.fuel = d.fuel := rfl
@[simp] theorem Dec.innerDone_fuel (d : Dec) (p : List Byte) : (d.innerDone p).fuel = d.fuel := rfl
@[simp] theorem Dec.listDone_fuel (d : Dec) : d.listDone.fuel = d.fuel := rfl
@[simp] theorem Dec.finishReadInto_fuel (d : Dec) : d.finishReadInto.fuel = d.fuel := rfl

theorem Dec.fail_idle (d : Dec) (r : Result) : (d.fail r).unit.busy = false := by
  unfold Dec.fail; split
  · rfl
  · split <;> rfl

@[simp] theorem Dec.fail_fuel (d : Dec) (r : Result) : (d.fail r).fuel = d.fuel := by
  unfold Dec.fail; split
  · rfl
  · split <;> rfl

@[simp] theorem Dec.payDone_fuel (d : Dec) : d.payDone.fuel = d.fuel := by
  unfold Dec.payDone; split <;> (try split) <;> rfl

@[simp] theorem Dec.afterSize_fuel (cfg : Config) (d : Dec) : (d.afterSize cfg).fuel = d.fuel := by
  unfold Dec.afterSize; split <;> (try split) <;> (try split)
  all_goals simp

@[simp] theorem Dec.sizeKnown_fuel (cfg : Config) (d : Dec) : (d.sizeKnown cfg).fuel = d.fuel := by
  simp only [Dec.sizeKnown, Dec.afterSize_fuel]; rfl

@[simp] theorem Dec.takeType_fuel (cfg : Config) (d : Dec) (t : Byte) : (d.takeType cfg t).fuel = d.fuel := by
  unfold Dec.takeType; split
  · simp only [Dec.takeWidthZero, Dec.sizeKnown_fuel]; rfl
  · split
    · rfl
    · simp only [Dec.takeBadWidth, Dec.fail_fuel]; rfl

@[simp] theorem Dec.takeLen_fuel (cfg : Config) (d : Dec) (b : List Byte) : (d.takeLen cfg b).fuel = d.fuel := by
  unfold Dec.takeLen; dsimp only; split
  · rfl
  · simp only [Dec.sizeKnown_fuel]; rfl

theorem Dec.store_fuel_le (d : Dec) (b : List Byte) : (d.store b).fuel ≤ d.fuel + b.length := by
  cases ho : d.unit.op <;> cases hs : d.unit.sel <;> simp [Dec.store, Dec.fuel, ho, hs] <;> omega

theorem Dec.store_fuel (d : Dec) (b : List Byte) (h : d.unit.sel = .ibuf ∨ d.unit.op = .readInto) :
    (d.store b).fuel = d.fuel := by
  cases ho : d.unit.op <;> cases hs : d.unit.sel <;> simp_all [Dec.store, Dec.fuel]

theorem Dec.takePay_fuel (d : Dec) (b : List Byte) : (d.takePay b).fuel = (d.store b).fuel := by
  unfold Dec.takePay; split
  · rfl
  · simp

/-! ### Every transaction is progress -/

theorem Dec.ReadFrom.busy {d d' : Dec} (h : d.ReadFrom d') : d'.unit.busy = d.unit.busy := by rw [h.unit]
theorem Dec.ReadFrom.sel {d d' : Dec} (h : d.ReadFrom d') : d'.unit.sel = d.unit.sel := by rw [h.unit]
theorem Dec.ReadFrom.op {d d' : Dec} (h : d.ReadFrom d') : d'.unit.op = d.unit.op := by rw [h.unit]

/-- A request for payload is never for zero bytes (R23). -/
theorem Dec.payRequest_pos {cfg : Config} {d : Dec} (h : d.Inv cfg) (hp : d.unit.phase = .pay) : 1 ≤ d.unit.payRequest := by
  have hlt := (h.pay_range hp).1
  unfold DecUnit.payRequest
  split
  · rename_i ho
    have := h.buf_room hp ho
    omega
  · omega

theorem Dec.eosInType_idle (d : Dec) : d.eosInType.unit.busy = false := by
  unfold Dec.eosInType; split <;> rfl

theorem Dec.errInOver_idle (d : Dec) (e : EnvError) : (d.errInOver e).unit.busy = false := by
  unfold Dec.errInOver; dsimp only; split
  · rfl
  · exact Dec.fail_idle _ _

/-- Every transaction uses up a chunking choice, takes a byte, or ends the operation (R190). -/
theorem Dec.transact_work {cfg : Config} {d d' : Dec} (h : d.Inv cfg) (ht : d.transact cfg = some d') :
    d'.work < d.work := by
  unfold Dec.transact at ht
  split at ht
  · rename_i hb
    rw [Dec.work_busy hb]
    have ended : ∀ {x : Dec}, x.unit.busy = false → x.work < 1 + d.fuel := fun hx => by rw [Dec.work_idle hx]; omega
    split at ht
    · simp at ht
    · unfold Dec.tickType at ht
      split at ht
      · simp at ht
      · rename_i d1 hr
        obtain rfl := Option.some.inj ht
        have := (Dec.srcRead_data hr).2.2.2.1 (by omega)
        have := Dec.work_le d1
        omega
      · rename_i t _ d1 hr
        obtain rfl := Option.some.inj ht
        have := (Dec.srcRead_data hr).2.2.2.1 (by omega)
        have hw := Dec.work_le (d1.takeType cfg t)
        rw [Dec.takeType_fuel] at hw
        omega
      · obtain rfl := Option.some.inj ht; exact ended (Dec.eosInType_idle _)
      · obtain rfl := Option.some.inj ht; exact ended (Dec.fail_idle _ _)
    · rename_i hp
      have := (h.len_range hp).2.2
      unfold Dec.tickLen at ht
      split at ht
      · simp at ht
      · rename_i b d1 hr
        obtain rfl := Option.some.inj ht
        have := (Dec.srcRead_data hr).2.2.2.1 (by omega)
        have hw := Dec.work_le (d1.takeLen cfg b)
        rw [Dec.takeLen_fuel] at hw
        omega
      · obtain rfl := Option.some.inj ht; exact ended (Dec.fail_idle _ _)
      · obtain rfl := Option.some.inj ht; exact ended (Dec.fail_idle _ _)
    · rename_i hp
      have hpos := Dec.payRequest_pos h hp
      unfold Dec.tickPay at ht
      split at ht
      · simp at ht
      · rename_i b d1 hr
        obtain rfl := Option.some.inj ht
        obtain ⟨hrf, -, -, h1, h2⟩ := Dec.srcRead_data hr
        have hw := Dec.work_le (d1.takePay b)
        rw [Dec.takePay_fuel] at hw
        cases hs : d.unit.sel with
        | src =>
          have := h2 hpos hs
          have := Dec.store_fuel_le d1 b
          omega
        | ibuf =>
          have := h1 hpos
          rw [Dec.store_fuel d1 b (.inl (by rw [hrf.sel, hs]))] at hw
          omega
      · obtain rfl := Option.some.inj ht; exact ended (Dec.fail_idle _ _)
      · obtain rfl := Option.some.inj ht; exact ended (Dec.fail_idle _ _)
    · rename_i hp
      have ho := (h.over_range hp).1
      unfold Dec.tickOver at ht
      split at ht
      · obtain rfl := Option.some.inj ht; exact ended rfl
      · rename_i hroom
        obtain ⟨ds, tk, he⟩ := d.draw_eq
        revert ht
        generalize d.draw = p at *
        obtain ⟨go, d1⟩ := p
        dsimp only at *
        subst he
        intro ht
        split at ht
        · split at ht
          · simp at ht
          · rename_i b d2 hr
            obtain rfl := Option.some.inj ht
            obtain ⟨hrf, -, -, h1, -⟩ := Dec.srcRead_data hr
            have hlt := h1 (by dsimp only; omega)
            have hw := Dec.work_le (d2.store b)
            rw [Dec.store_fuel d2 b (.inr (by rw [hrf.op]; exact ho))] at hw
            exact lt_of_le_of_lt hw (by simpa [Dec.fuel] using hlt)
          · obtain rfl := Option.some.inj ht; exact ended rfl
          · obtain rfl := Option.some.inj ht; exact ended (Dec.errInOver_idle _ _)
        · obtain rfl := Option.some.inj ht; exact ended rfl
  · simp at ht

/-- A run with enough fuel goes on until nothing more can be done. -/
theorem Dec.run_quiet {cfg : Config} (k : Nat) {d : Dec} (h : d.Inv cfg) (hk : d.work ≤ k) :
    (Dec.run cfg k d).transact cfg = none := by
  induction k generalizing d with
  | zero =>
    have : d.unit.busy = false := by
      by_contra hb
      rw [Dec.work_busy (by simpa using hb)] at hk
      omega
    simp [Dec.run, Dec.transact, this]
  | succ k ih =>
    unfold Dec.run
    split
    · rename_i ht
      have := Dec.transact_work h ht
      exact ih (Dec.transact_inv h ht) (by omega)
    · rename_i ht; exact ht

theorem Dec.runOn_quiet {cfg : Config} {d : Dec} (h : d.Inv cfg) : (d.runOn cfg).transact cfg = none :=
  Dec.run_quiet _ h le_rfl

theorem Dec.runOn_inv {cfg : Config} {d : Dec} (h : d.Inv cfg) : (d.runOn cfg).Inv cfg := Dec.run_inv _ h

/-- What every transaction keeps, the whole run keeps. -/
theorem Dec.run_induct {cfg : Config} {P : Dec → Prop} (hstep : ∀ d d', P d → d.transact cfg = some d' → P d') (k : Nat)
    {d : Dec} (h : P d) : P (Dec.run cfg k d) := by
  induction k generalizing d with
  | zero => exact h
  | succ k ih =>
    unfold Dec.run
    split
    · rename_i ht; exact ih (hstep _ _ h ht)
    · exact h

/-- A busy unit that can do nothing more waits for its bound source. -/
theorem Dec.transact_none {cfg : Config} {d : Dec} (h : d.Inv cfg) (hb : d.unit.busy = true)
    (ht : d.transact cfg = none) :
    d.unit.sel = .src ∧
      ((d.src.rem = [] ∧ d.src.fin = .never) ∨ (d.src.rem ≠ [] ∧ d.src.cuts = [] ∧ d.src.later ≠ .prompt)) := by
  unfold Dec.transact at ht
  rw [if_pos hb] at ht
  split at ht
  · rename_i hp; exact absurd hp (h.busy_phase.mp hb)
  · unfold Dec.tickType at ht
    split at ht <;> simp at ht
    rename_i hr; exact Dec.srcRead_none hr
  · unfold Dec.tickLen at ht
    split at ht <;> simp at ht
    rename_i hr; exact Dec.srcRead_none hr
  · unfold Dec.tickPay at ht
    split at ht <;> simp at ht
    rename_i hr; exact Dec.srcRead_none hr
  · unfold Dec.tickOver at ht
    split at ht
    · simp at ht
    · obtain ⟨ds, tk, he⟩ := d.draw_eq
      revert ht
      generalize d.draw = p at *
      obtain ⟨go, d1⟩ := p
      dsimp only at *
      subst he
      intro ht
      split at ht
      · split at ht <;> simp at ht
        rename_i hr
        simpa using Dec.srcRead_none hr
      · simp at ht

end Sys2Proof.Machine
end

