-- ==== Sys2Proof/Laws/Reading.lean ====
section
/-! SUPPORT. What DEC makes of the stream in front of it, one frame at a time (41_decoder.md R97 to R112): wherever a
transaction leaves a unit in the middle of a frame, the bytes it has taken of that frame and the bytes still to come are
together the stream the frame began at; and where a frame ends, it ends as the pure parse of that stream says. -/

namespace Sys2Proof.Machine

/-! ### The pure parse -/

theorem parsePrefix_short {fin : SrcEnd} {t : Byte} {f : List Byte} (h8 : (typeLo t).toNat ≤ 8)
    (hf : f.length < (typeLo t).toNat) : parsePrefix fin (t :: f) = atEnd fin (.truncated .len) := by
  unfold parsePrefix
  dsimp only
  rw [if_neg (by omega), if_pos hf]

theorem parsePrefix_whole {fin : SrcEnd} {t : Byte} {f y : List Byte} (h8 : (typeLo t).toNat ≤ 8)
    (hf : f.length = (typeLo t).toNat) : parsePrefix fin (t :: (f ++ y)) = .value (t, leValue f) y := by
  unfold parsePrefix
  dsimp only
  rw [if_neg (by omega), if_neg (by simp; omega), ← hf]
  simp

theorem parsePrefix_bad {fin : SrcEnd} {t : Byte} {y : List Byte} (h : 8 < (typeLo t).toNat) :
    parsePrefix fin (t :: y) = .stop (.badWidth t) y := by
  unfold parsePrefix
  dsimp only
  rw [if_pos h]

theorem prefixFlags_short {t : Byte} {f : List Byte} (h8 : (typeLo t).toNat ≤ 8) (hf : f.length < (typeLo t).toNat) :
    prefixFlags (t :: f) = Chk.clear := by
  unfold prefixFlags
  dsimp only
  rw [if_neg (by omega), if_pos hf]

theorem prefixFlags_whole {t : Byte} {f y : List Byte} (h8 : (typeLo t).toNat ≤ 8) (hf : f.length = (typeLo t).toNat) :
    prefixFlags (t :: (f ++ y)) = check t (leValue f) := by
  unfold prefixFlags
  dsimp only
  rw [if_neg (by omega), if_neg (by simp; omega), ← hf]
  simp

theorem prefixFlags_bad {t : Byte} {y : List Byte} (h : 8 < (typeLo t).toNat) : prefixFlags (t :: y) = checkT t := by
  unfold prefixFlags
  dsimp only
  rw [if_pos h]

/-- A parse that stops in the prefix stops the whole frame. -/
theorem parseFrame_stop {cap : Option Nat} {fin : SrcEnd} {x rest : List Byte} {r : Result}
    (h : parsePrefix fin x = .stop r rest) : parseFrame cap fin x = .stop r rest := by
  unfold parseFrame; rw [h]

theorem parseFrame_value {cap : Option Nat} {fin : SrcEnd} {x y : List Byte} {t : Byte} {s : Nat}
    (h : parsePrefix fin x = .value (t, s) y) :
    parseFrame cap fin x =
      if passes cap s then .stop (.resourceExhausted s) y
      else if y.length < s then atEnd fin (.truncated .payload)
      else .value (y.take s) (y.drop s) := by
  unfold parseFrame; rw [h]

/-! ### In the middle of a frame -/

/-- The payload bytes delivered so far (R18, R23). -/
def Dec.got (d : Dec) : List Byte :=
  match d.unit.op with
  | .readInto => d.unit.buf.take d.unit.n.toNat
  | .decodeList =>
    match d.unit.sel with
    | .src => d.unit.ibuf
    | .ibuf => d.unit.pay
  | _ => d.unit.pay

/-- The bound on the payload DEC reads (R106, R126, R127), which READ_INTO does not have. -/
def DecUnit.cap (cfg : Config) (u : DecUnit) : Option Nat :=
  match u.op with
  | .readInto => none
  | _ => u.bound cfg

/-- DEC stands in the middle of the frame at the front of `x`. -/
def Dec.At (cfg : Config) (x : List Byte) (d : Dec) : Prop :=
  match d.unit.phase with
  | .idle => False
  | .type => d.stream = x
  | .len => ∃ f : List Byte, f.length = d.unit.n.toNat ∧ d.unit.lb = writeLb (Vector.replicate 8 0) 0 f ∧
      d.unit.chk = Chk.clear ∧ x = d.unit.t :: (f ++ d.stream)
  | .pay => ∃ f : List Byte, f.length = (typeLo d.unit.t).toNat ∧ (typeLo d.unit.t).toNat ≤ 8 ∧
      d.unit.s.toNat = leValue f ∧ d.unit.chk = check d.unit.t (leValue f) ∧
      passes (d.unit.cap cfg) d.unit.s.toNat = false ∧ x = d.unit.t :: (f ++ (d.got ++ d.stream))
  | .over => False

/-- What a frame that began at `d0` has left alone. -/
structure Dec.Rel (d0 d : Dec) : Prop where
  op : d.unit.op = d0.unit.op
  sel : d.unit.sel = d0.unit.sel
  busy : d.unit.busy = d0.unit.busy
  poison : d.unit.poison = d0.unit.poison
  result : d.unit.result = d0.unit.result
  items : d.unit.items = d0.unit.items
  flags : d.unit.flags = d0.unit.flags
  out : d.unit.out = d0.unit.out
  fin : d.src.fin = d0.src.fin
  later : d.src.later = d0.src.later
  draws : d.draws = d0.draws
  tick : d.tick = d0.tick
  room : d.unit.buf.length = d0.unit.buf.length
  buf : d.unit.phase ≠ .pay ∨ d.unit.op ≠ .readInto → d.unit.buf = d0.unit.buf
  ibuf : d.unit.op ≠ .decodeList → d.unit.ibuf = d0.unit.ibuf
  src : d.unit.sel = .ibuf → d.src = d0.src

theorem Dec.Rel.refl (d : Dec) : d.Rel d :=
  ⟨rfl, rfl, rfl, rfl, rfl, rfl, rfl, rfl, rfl, rfl, rfl, rfl, rfl, fun _ => rfl, fun _ => rfl, fun _ => rfl⟩

/-- What stays the same through a request, or a register write that is none of these. -/
theorem Dec.Rel.read {d0 d d' : Dec} (h : d0.Rel d) (hr : d.ReadFrom d') (hp : d.unit.op ≠ .decodeList → d.unit.sel = .src) :
    d0.Rel d' where
  op := hr.regs.2.2.2.2.2.2.2.2.2.2.2.1.trans h.op
  sel := hr.sel.trans h.sel
  busy := hr.busy.trans h.busy
  poison := by rw [hr.unit]; exact h.poison
  result := by rw [hr.unit]; exact h.result
  items := by rw [hr.unit]; exact h.items
  flags := by rw [hr.unit]; exact h.flags
  out := by rw [hr.unit]; exact h.out
  fin := hr.fin.trans h.fin
  later := hr.later.trans h.later
  draws := hr.draws.trans h.draws
  tick := hr.tick.trans h.tick
  room := by rw [hr.unit]; exact h.room
  buf := by rw [hr.unit]; exact h.buf
  ibuf := fun ho => by
    have ho' : d.unit.op ≠ .decodeList := by rw [hr.op] at ho; exact ho
    rw [hr.ibuf (hp ho')]; exact h.ibuf ho'
  src := fun hs => by
    have hs' : d.unit.sel = .ibuf := by rw [hr.sel] at hs; exact hs
    rw [hr.src hs']; exact h.src hs'

theorem Dec.Rel.streamEnd {d0 d : Dec} (h : d0.Rel d) : d.streamEnd = d0.streamEnd := by
  unfold Dec.streamEnd
  rw [h.sel, h.fin]

/-- How the frame at the front of `x`, which began at `d0`, ends. -/
inductive Dec.FrameEnd (cfg : Config) (x : List Byte) (d0 : Dec) : Dec → Prop
  /-- The stream ends before the frame begins. -/
  | clean (d1 : Dec) (rel : d0.Rel d1) (hx : x = []) (fin : d0.streamEnd = .eos) (chk : d1.unit.chk = Chk.clear)
      (str : d1.stream = []) (ph : d1.unit.phase = .type) : FrameEnd cfg x d0 d1.eosInType
  /-- The parse stops. -/
  | stop (d1 : Dec) (r : Result) (rel : d0.Rel d1) (chk : d1.unit.chk = prefixFlags x)
      (peek : d0.unit.op = .peekSize → parsePrefix d0.streamEnd x = .stop r d1.stream)
      (whole : d0.unit.op ≠ .peekSize → parseFrame (d0.unit.cap cfg) d0.streamEnd x = .stop r d1.stream)
      (early : d1.unit.phase ≠ .pay → d0.unit.op = .readInto → parsePrefix d0.streamEnd x = .stop r d1.stream)
      (late : d1.unit.phase = .pay → d0.unit.op = .readInto →
        (∃ t s y, parsePrefix d0.streamEnd x = .value (t, s) y ∧ s ≤ d0.unit.buf.length) ∧
          (r = .truncated .payload ∨ ∃ e, r = .sourceError e))
      (ne : r ≠ .cleanEos) (cont : d1.unit.phase ≠ .over) : FrameEnd cfg x d0 (d1.fail r)
  /-- PEEK_SIZE has the size. -/
  | size (d1 : Dec) (rel : d0.Rel d1) (chk : d1.unit.chk = prefixFlags x) (op : d0.unit.op = .peekSize)
      (value : parsePrefix d0.streamEnd x = .value (d1.unit.t, d1.unit.s.toNat) d1.stream) :
      FrameEnd cfg x d0 (d1.finish (.ok (.size d1.unit.s)))
  /-- READ_INTO's buffer is too small. -/
  | small (d1 : Dec) (rel : d0.Rel d1) (chk : d1.unit.chk = prefixFlags x) (op : d0.unit.op = .readInto)
      (value : parsePrefix d0.streamEnd x = .value (d1.unit.t, d1.unit.s.toNat) d1.stream)
      (room : d0.unit.buf.length < d1.unit.s.toNat) (ph : d1.unit.phase ≠ .pay ∧ d1.unit.phase ≠ .over) :
      FrameEnd cfg x d0 (d1.fail (.insufficientBuffer d1.unit.s (BitVec.ofNat 64 d0.unit.buf.length)))
  /-- The payload is complete. -/
  | pay (d1 : Dec) (rel : d0.Rel d1) (chk : d1.unit.chk = prefixFlags x) (op : d0.unit.op ≠ .peekSize)
      (value : parsePrefix d0.streamEnd x = .value (d1.unit.t, d1.unit.s.toNat) (d1.got ++ d1.stream))
      (exact : d0.unit.op ≠ .readInto → d1.got.length = d1.unit.s.toNat)
      (enough : d1.unit.s.toNat ≤ d1.got.length) (count : d1.got.length = d1.unit.n.toNat)
      (bound : passes (d0.unit.cap cfg) d1.unit.s.toNat = false)
      (room : d0.unit.op = .readInto → d1.unit.s.toNat ≤ d0.unit.buf.length ∧ d1.unit.n.toNat ≤ d0.unit.buf.length)
      (phase : d1.unit.phase = .pay) : FrameEnd cfg x d0 d1.payDone

/-- Inside a frame still, or at its end. -/
def Dec.Goes (cfg : Config) (x : List Byte) (d0 d' : Dec) : Prop := (d'.At cfg x ∧ d0.Rel d') ∨ Dec.FrameEnd cfg x d0 d'

theorem Dec.stream_congr {d d' : Dec} (h1 : d'.unit.sel = d.unit.sel) (h2 : d'.unit.ibuf = d.unit.ibuf) (h3 : d'.src = d.src) :
    d'.stream = d.stream := by
  unfold Dec.stream; rw [h1, h2, h3]

theorem Dec.got_enterPay {d : Dec} (hn : d.unit.n = 0) (ho : d.unit.op = .decodeList → d.unit.sel = .src → d.unit.ibuf = []) :
    d.enterPay.got = [] := by
  unfold Dec.got
  simp only [Dec.enterPay_op, Dec.enterPay_sel, Dec.enterPay_ibuf, Dec.enterPay_n, Dec.enterPay_buf, Dec.enterPay_pay]
  split
  · simp [hn]
  · rename_i h
    split
    · rename_i h'; exact ho h h'
    · rfl
  · rfl

theorem Dec.Rel.enterPay {d0 d : Dec} (h : d0.Rel d) (hp : d.unit.phase ≠ .pay) : d0.Rel d.enterPay where
  op := h.op
  sel := h.sel
  busy := h.busy
  poison := h.poison
  result := h.result
  items := h.items
  flags := h.flags
  out := h.out
  fin := h.fin
  later := h.later
  draws := h.draws
  tick := h.tick
  room := h.room
  buf := fun _ => h.buf (.inl hp)
  ibuf := h.ibuf
  src := h.src

/-- The size is in and stands in the registers. -/
theorem Dec.afterSize_goes {cfg : Config} {x f : List Byte} {d0 d : Dec} (rel : d0.Rel d) (hp : d.unit.phase ≠ .pay)
    (hp' : d.unit.phase ≠ .over)
    (hn : d.unit.n = 0) (hi : d.unit.op = .decodeList → d.unit.sel = .src → d.unit.ibuf = [])
    (h8 : (typeLo d.unit.t).toNat ≤ 8) (hf : f.length = (typeLo d.unit.t).toNat) (hs : d.unit.s.toNat = leValue f)
    (hc : d.unit.chk = check d.unit.t (leValue f)) (hx : x = d.unit.t :: (f ++ d.stream)) :
    Dec.Goes cfg x d0 (d.afterSize cfg) := by
  have hpar : ∀ fin, parsePrefix fin x = .value (d.unit.t, d.unit.s.toNat) d.stream := fun fin => by
    rw [hx, hs]; exact parsePrefix_whole h8 hf
  have hflags : d.unit.chk = prefixFlags x := by rw [hx, hc, prefixFlags_whole h8 hf]
  have hgot := Dec.got_enterPay hn hi
  have hstr : d.enterPay.stream = d.stream := Dec.stream_congr rfl rfl rfl
  have hop := rel.op
  have hstop : ∀ (ho : d.unit.op ≠ .peekSize) (ho' : d.unit.op ≠ .readInto),
      passes (d.unit.bound cfg) d.unit.s.toNat = true →
      Dec.Goes cfg x d0 (d.fail (.resourceExhausted d.unit.s.toNat)) := fun ho ho' hb => by
    refine .inr (.stop d _ rel hflags (fun h => absurd (hop.trans h) ho) (fun _ => ?_)
      (fun _ h => absurd (hop.trans h) ho') (fun h => absurd h hp) (by simp) hp')
    have : d0.unit.cap cfg = d.unit.bound cfg := by
      unfold DecUnit.cap
      have : d0.unit.bound cfg = d.unit.bound cfg := by unfold DecUnit.bound; rw [rel.op, rel.sel]
      split
      · rename_i h; exact absurd (hop.trans h) ho'
      · exact this
    rw [parseFrame_value (hpar _), this, if_pos hb]
  have hin : ∀ (ho : d.unit.op ≠ .peekSize), passes (d.unit.cap cfg) d.unit.s.toNat = false →
      Dec.Goes cfg x d0 d.enterPay := fun _ hcap => by
    refine .inl ⟨?_, rel.enterPay hp⟩
    unfold Dec.At
    simp only [Dec.enterPay_phase]
    exact ⟨f, hf, h8, hs, hc, hcap, by rw [hgot, hstr, List.nil_append]; exact hx⟩
  have hpay : ∀ (ho : d.unit.op ≠ .peekSize), d.unit.s = 0 →
      (d.unit.op = .readInto → d.unit.s.toNat ≤ d0.unit.buf.length) →
      Dec.Goes cfg x d0 d.enterPay.payDone := fun ho h0 hroom => by
    refine .inr (.pay d.enterPay (rel.enterPay hp) (by simpa using hflags) (fun h => ho (hop.trans h)) ?_ ?_ ?_ ?_ ?_ ?_ rfl)
    · rw [hgot, hstr, List.nil_append]; exact hpar _
    · intro _; simp [hgot, h0]
    · simp [hgot, h0]
    · simp [hgot, hn]
    · simp [h0]
    · intro h; exact ⟨hroom (hop.trans h), by simp [hn]⟩
  unfold Dec.afterSize
  split
  · rename_i ho
    exact .inr (.size d rel hflags (hop.symm.trans ho) (hpar _))
  · rename_i ho
    split
    · exact hstop (by simp [ho]) (by simp [ho]) ‹_›
    · rename_i hb
      split
      · exact hpay (by simp [ho]) ‹_› (by simp [ho])
      · exact hin (by simp [ho]) (by unfold DecUnit.cap; split <;> simp_all)
  · rename_i ho
    split
    · rename_i hr
      have := Dec.FrameEnd.small (cfg := cfg) (x := x) d rel hflags (hop.symm.trans ho) (hpar _)
        (by rw [← rel.room]; exact hr) ⟨hp, hp'⟩
      rw [← rel.room] at this
      exact .inr this
    · rename_i hr
      split
      · exact hpay (by simp [ho]) ‹_› (fun _ => by rw [← rel.room]; omega)
      · exact hin (by simp [ho]) (by unfold DecUnit.cap; split <;> simp_all)
  · rename_i ho
    split
    · exact hstop (by simp [ho]) (by simp [ho]) ‹_›
    · rename_i hb
      split
      · exact hpay (by simp [ho]) ‹_› (by simp [ho])
      · exact hin (by simp [ho]) (by unfold DecUnit.cap; split <;> simp_all)

theorem Dec.sizeKnown_goes {cfg : Config} {x f : List Byte} {d0 d : Dec} (rel : d0.Rel d) (hp : d.unit.phase ≠ .pay)
    (hp' : d.unit.phase ≠ .over)
    (hi : d.unit.op = .decodeList → d.unit.sel = .src → d.unit.ibuf = [])
    (h8 : (typeLo d.unit.t).toNat ≤ 8) (hf : f.length = (typeLo d.unit.t).toNat)
    (hlb : d.unit.lb = writeLb (Vector.replicate 8 0) 0 f) (hx : x = d.unit.t :: (f ++ d.stream)) :
    Dec.Goes cfg x d0 (d.sizeKnown cfg) := by
  have hv : leValue d.unit.lb.toList = leValue f := by rw [hlb]; exact leValue_writeLb_zero f (by omega)
  refine Dec.afterSize_goes (f := f) ?_ hp hp' rfl hi h8 hf ?_ ?_ hx
  · exact ⟨rel.op, rel.sel, rel.busy, rel.poison, rel.result, rel.items, rel.flags, rel.out, rel.fin, rel.later, rel.draws,
      rel.tick, rel.room, rel.buf, rel.ibuf, rel.src⟩
  · show (BitVec.ofNat 64 (leValue d.unit.lb.toList)).toNat = _
    rw [toNat_leValue_lb, hv]
  · show check _ (leValue d.unit.lb.toList) = _
    rw [hv]

theorem Dec.takeType_goes {cfg : Config} {x : List Byte} {d0 d : Dec} (rel : d0.Rel d) (hp : d.unit.phase = .type)
    (hi : d.unit.op = .decodeList → d.unit.sel = .src → d.unit.ibuf = [])
    (hlb : d.unit.lb = Vector.replicate 8 0) (hc : d.unit.chk = Chk.clear) (t : Byte) (hx : x = t :: d.stream) :
    Dec.Goes cfg x d0 (d.takeType cfg t) := by
  have hrel : d0.Rel (d.latchType t) :=
    ⟨rel.op, rel.sel, rel.busy, rel.poison, rel.result, rel.items, rel.flags, rel.out, rel.fin, rel.later, rel.draws,
      rel.tick, rel.room, rel.buf, rel.ibuf, rel.src⟩
  unfold Dec.takeType
  split
  · rename_i h0
    exact Dec.sizeKnown_goes (f := []) hrel (by simp [hp]) (by simp [hp]) hi (by show (typeLo t).toNat ≤ 8; omega)
      (by show 0 = (typeLo t).toNat; omega) hlb hx
  · split
    · refine .inl ⟨?_, ?_⟩
      · unfold Dec.At
        simp only [Dec.takeWidth_phase]
        exact ⟨[], by simp, hlb, hc, hx⟩
      · exact ⟨rel.op, rel.sel, rel.busy, rel.poison, rel.result, rel.items, rel.flags, rel.out, rel.fin, rel.later, rel.draws,
          rel.tick, rel.room, fun _ => rel.buf (.inl (by simp [hp])), rel.ibuf, rel.src⟩
    · rename_i h8
      have hbad : 8 < (typeLo t).toNat := by omega
      unfold Dec.takeBadWidth
      refine .inr (.stop _ _ ?_ ?_ (fun _ => ?_) (fun _ => ?_) (fun _ _ => ?_) ?_ (by simp) (by simp [hp]))
      · exact ⟨rel.op, rel.sel, rel.busy, rel.poison, rel.result, rel.items, rel.flags, rel.out, rel.fin, rel.later, rel.draws,
          rel.tick, rel.room, rel.buf, rel.ibuf, rel.src⟩
      · rw [hx, prefixFlags_bad hbad]
      · rw [hx]; exact parsePrefix_bad hbad
      · rw [hx]; exact parseFrame_stop (parsePrefix_bad hbad)
      · rw [hx]; exact parsePrefix_bad hbad
      · intro h; simp [hp] at h

theorem Dec.takeLen_goes {cfg : Config} {x f : List Byte} {d0 d : Dec} (rel : d0.Rel d) (hp : d.unit.phase = .len)
    (hi : d.unit.op = .decodeList → d.unit.sel = .src → d.unit.ibuf = [])
    (hm : d.unit.m = typeLo d.unit.t) (h8 : d.unit.m.toNat ≤ 8)
    (hf : f.length = d.unit.n.toNat) (hlb : d.unit.lb = writeLb (Vector.replicate 8 0) 0 f) (hc : d.unit.chk = Chk.clear)
    (b : List Byte) (hb : f.length + b.length ≤ d.unit.m.toNat) (hx : x = d.unit.t :: (f ++ (b ++ d.stream))) :
    Dec.Goes cfg x d0 (d.takeLen cfg b) := by
  have hadv : (d.unit.advance b).toNat = d.unit.n.toNat + b.length :=
    DecUnit.toNat_advance (by omega)
  have hlb' : writeLb d.unit.lb d.unit.n.toNat b = writeLb (Vector.replicate 8 0) 0 (f ++ b) := by
    rw [writeLb_append, hlb, hf, Nat.zero_add]
  unfold Dec.takeLen
  dsimp only
  have hrel : d0.Rel { d with unit := { d.unit with lb := writeLb d.unit.lb d.unit.n.toNat b, n := d.unit.advance b } } :=
    ⟨rel.op, rel.sel, rel.busy, rel.poison, rel.result, rel.items, rel.flags, rel.out, rel.fin, rel.later, rel.draws,
      rel.tick, rel.room, rel.buf, rel.ibuf, rel.src⟩
  split
  · refine .inl ⟨?_, hrel⟩
    unfold Dec.At
    dsimp only
    rw [hp]
    dsimp only
    exact ⟨f ++ b, by rw [hadv]; simp [hf], hlb', hc, by rw [hx, List.append_assoc]; rfl⟩
  · rename_i hge
    rw [hadv] at hge
    exact Dec.sizeKnown_goes (f := f ++ b) hrel (by simp [hp]) (by simp [hp]) hi (by rw [← hm]; exact h8)
      (by rw [← hm]; simp; omega) hlb' (by rw [hx, List.append_assoc]; rfl)

theorem take_written {α : Type} (l b : List α) (n : Nat) (h : n + b.length ≤ l.length) :
    (l.take n ++ b ++ l.drop (n + b.length)).take (n + b.length) = l.take n ++ b := by
  rw [List.take_append_of_le_length (by simp; omega)]
  apply List.take_of_length_le
  simp

/-- The bytes that arrive join those that came before, whatever their home. -/
theorem Dec.got_store {d : Dec} {b : List Byte} (hadv : (d.unit.advance b).toNat = d.unit.n.toNat + b.length)
    (hroom : d.unit.op = .readInto → d.unit.n.toNat + b.length ≤ d.unit.buf.length) :
    (d.store b).got = d.got ++ b := by
  unfold Dec.got
  simp only [Dec.store_op, Dec.store_sel, Dec.store_n]
  cases ho : d.unit.op with
  | readInto =>
    dsimp only
    rw [(Dec.store_readInto d b ho).1, hadv]
    exact take_written _ _ _ (hroom ho)
  | decodeList =>
    dsimp only
    cases hs : d.unit.sel with
    | src => exact (Dec.store_outer d b ho hs).1
    | ibuf => exact (Dec.store_pay d b (by simp [ho]) (fun _ => hs)).1
  | peekSize => exact (Dec.store_pay d b (by simp [ho]) (by simp [ho])).1
  | readBytes => exact (Dec.store_pay d b (by simp [ho]) (by simp [ho])).1

theorem Dec.stream_store {d : Dec} {b : List Byte} (h : d.unit.sel = .ibuf → d.unit.op = .decodeList) :
    (d.store b).stream = d.stream := by
  unfold Dec.stream
  simp only [Dec.store_sel, Dec.store_src]
  cases hs : d.unit.sel with
  | src => rfl
  | ibuf => exact (Dec.store_pay d b (by simp [h hs]) (fun _ => hs)).2.2

theorem Dec.Rel.store {d0 d : Dec} (h : d0.Rel d) (hp : d.unit.phase = .pay) (b : List Byte)
    (hroom : d.unit.op = .readInto → d.unit.n.toNat + b.length ≤ d.unit.buf.length) : d0.Rel (d.store b) where
  op := by simpa using h.op
  sel := by simpa using h.sel
  busy := by simpa using h.busy
  poison := by simpa using h.poison
  result := by simpa using h.result
  items := by simpa using h.items
  flags := by simpa using h.flags
  out := by simpa using h.out
  fin := by simpa using h.fin
  later := by simpa using h.later
  draws := by simpa using h.draws
  tick := by simpa using h.tick
  room := by
    by_cases ho : d.unit.op = .readInto
    · rw [(Dec.store_readInto d b ho).1, writeBuf_length _ _ _ (hroom ho)]; exact h.room
    · cases hs : d.unit.sel with
      | src =>
        by_cases ho' : d.unit.op = .decodeList
        · rw [(Dec.store_outer d b ho' hs).2.1]; exact h.room
        · rw [(Dec.store_pay d b ho (fun hh => absurd hh ho')).2.1]; exact h.room
      | ibuf => rw [(Dec.store_pay d b ho (fun _ => hs)).2.1]; exact h.room
  buf := by
    simp only [Dec.store_phase, Dec.store_op]
    rintro (hh | ho)
    · exact absurd hp hh
    · cases hs : d.unit.sel with
      | src =>
        by_cases ho' : d.unit.op = .decodeList
        · rw [(Dec.store_outer d b ho' hs).2.1]; exact h.buf (.inr ho)
        · rw [(Dec.store_pay d b ho (fun hh => absurd hh ho')).2.1]; exact h.buf (.inr ho)
      | ibuf => rw [(Dec.store_pay d b ho (fun _ => hs)).2.1]; exact h.buf (.inr ho)
  ibuf := by
    simp only [Dec.store_op]
    intro ho
    by_cases ho' : d.unit.op = .readInto
    · rw [(Dec.store_readInto d b ho').2.1]; exact h.ibuf ho
    · rw [(Dec.store_pay d b ho' (fun hh => absurd hh ho)).2.2]; exact h.ibuf ho
  src := by simpa using h.src

theorem DecUnit.cap_congr {cfg : Config} {u v : DecUnit} (ho : v.op = u.op) (hs : v.sel = u.sel) : v.cap cfg = u.cap cfg := by
  unfold DecUnit.cap DecUnit.bound; rw [ho, hs]

theorem Dec.takePay_goes {cfg : Config} {x f : List Byte} {d0 d : Dec} (h : d.Inv cfg) (hb : d.unit.busy = true)
    (rel : d0.Rel d) (hp : d.unit.phase = .pay)
    (hf : f.length = (typeLo d.unit.t).toNat) (h8 : (typeLo d.unit.t).toNat ≤ 8) (hs : d.unit.s.toNat = leValue f)
    (hc : d.unit.chk = check d.unit.t (leValue f)) (hcap : passes (d.unit.cap cfg) d.unit.s.toNat = false)
    (hgot : d.got.length = d.unit.n.toNat)
    {b : List Byte} (hlen : b.length ≤ d.unit.payRequest)
    (hx : x = d.unit.t :: (f ++ (d.got ++ (b ++ d.stream)))) : Dec.Goes cfg x d0 (d.takePay b) := by
  obtain ⟨hadv, hri, hother⟩ := Dec.pay_fits h hb hp hlen
  have hrel := rel.store hp b hri
  have hg := Dec.got_store hadv hri
  have hst : (d.store b).stream = d.stream := Dec.stream_store (h.inner_list hb)
  have hcap' : (d.store b).unit.cap cfg = d.unit.cap cfg := DecUnit.cap_congr (by simp) (by simp)
  have hx' : x = d.unit.t :: (f ++ ((d.store b).got ++ (d.store b).stream)) := by
    rw [hx, hg, hst, List.append_assoc]
  unfold Dec.takePay
  split
  · refine .inl ⟨?_, hrel⟩
    unfold Dec.At
    simp only [Dec.store_phase, hp, Dec.store_t, Dec.store_s, Dec.store_chk]
    exact ⟨f, hf, h8, hs, hc, by rw [hcap']; exact hcap, hx'⟩
  · rename_i hge
    simp only [Dec.store_n, Dec.store_s, hadv] at hge
    have hop := rel.op
    have hglen : (d.store b).got.length = d.unit.n.toNat + b.length := by rw [hg, List.length_append, hgot]
    refine .inr (.pay (d.store b) hrel ?_ ?_ ?_ ?_ ?_ ?_ ?_ ?_ (by simpa using hp))
    · simp only [Dec.store_chk]; rw [hc, hx, prefixFlags_whole h8 hf]
    · rw [← hop]; exact (h.pay_range hp).2
    · rw [hx', Dec.store_t, Dec.store_s, hs]; exact parsePrefix_whole h8 hf
    · intro ho
      have := hother (by rw [hop]; exact ho)
      rw [hglen, Dec.store_s]; omega
    · rw [hglen, Dec.store_s]; omega
    · rw [hglen, Dec.store_n, hadv]
    · rw [Dec.store_s, ← DecUnit.cap_congr hop rel.sel]; exact hcap
    · intro ho
      have ho' : d.unit.op = .readInto := hop.trans ho
      have h1 := h.buf_room hp ho'
      have h2 := hri ho'
      rw [← rel.room]
      simp only [Dec.store_s, Dec.store_n, hadv]
      exact ⟨h1, h2⟩

theorem Dec.got_length {cfg : Config} {d : Dec} (h : d.Inv cfg) (hp : d.unit.phase = .pay) :
    d.got.length = d.unit.n.toNat := by
  have hlt := h.pay_range hp
  unfold Dec.got
  split
  · rename_i ho
    have := h.buf_room hp ho
    simp; omega
  · rename_i ho
    split
    · exact (h.outer_count hp ho ‹_›).1
    · exact h.inner_count hp ho ‹_›
  · rename_i h1 h2
    cases ho : d.unit.op with
    | readInto => exact absurd ho h1
    | decodeList => exact absurd ho h2
    | peekSize => exact absurd ho hlt.2
    | readBytes => exact h.pay_count hp ho

theorem Dec.ReadFrom.got {d d' : Dec} (h : d.ReadFrom d') (hsel : d.unit.op = .decodeList → d.unit.sel = .src →
    d'.unit.ibuf = d.unit.ibuf) : d'.got = d.got := by
  unfold Dec.got
  have hr := h.regs
  rw [hr.2.2.2.2.2.2.2.2.2.2.2.1, hr.2.2.2.2.2.2.1, hr.2.2.2.2.2.1, hr.2.2.2.2.2.2.2.2.2.2.2.2.1,
    hr.2.2.2.2.2.2.2.2.2.2.2.2.2.1]
  cases ho : d.unit.op <;> cases hs : d.unit.sel <;> simp_all

/-- One transaction inside a frame. -/
theorem Dec.transact_goes {cfg : Config} {x : List Byte} {d0 d d' : Dec} (h : d.Inv cfg) (hat : d.At cfg x) (rel : d0.Rel d)
    (ht : d.transact cfg = some d') : Dec.Goes cfg x d0 d' := by
  unfold Dec.transact at ht
  split at ht
  · rename_i hb
    have hsrc : d.unit.op ≠ .decodeList → d.unit.sel = .src := fun ho => by
      cases hs : d.unit.sel with
      | src => rfl
      | ibuf => exact absurd (h.inner_list hb hs) ho
    have hout : ∀ {d1 : Dec}, d.ReadFrom d1 → d.unit.phase ≠ .pay → d1.unit.op = .decodeList → d1.unit.sel = .src →
        d1.unit.ibuf = [] := fun hr hp ho hs => by
      rw [hr.op] at ho; rw [hr.sel] at hs
      rw [hr.ibuf hs]; exact h.outer_empty hb ho hs hp
    have hop := rel.op
    split at ht
    · simp at ht
    · -- TYPE
      rename_i hp
      obtain ⟨hlb, hn, hc⟩ := h.type_clear hp
      have hx : d.stream = x := by unfold Dec.At at hat; rw [hp] at hat; exact hat
      unfold Dec.tickType at ht
      split at ht
      · simp at ht
      · rename_i d1 hr
        obtain rfl := Option.some.inj ht
        obtain ⟨hrf, hst, -⟩ := Dec.srcRead_data hr
        refine .inl ⟨?_, rel.read hrf hsrc⟩
        unfold Dec.At
        rw [hrf.regs.1, hp]
        dsimp only
        rw [← hx, hst, List.nil_append]
      · rename_i t bs d1 hr
        obtain rfl := Option.some.inj ht
        obtain ⟨hrf, hst, hlen, -⟩ := Dec.srcRead_data hr
        have hbs : bs = [] := by
          simp only [List.length_cons] at hlen
          exact List.eq_nil_of_length_eq_zero (by omega)
        have hreg := hrf.regs
        refine Dec.takeType_goes (rel.read hrf hsrc) (by rw [hreg.1, hp]) (hout hrf (by simp [hp]))
          (by rw [hreg.2.2.2.1, hlb]) (by rw [hreg.2.2.2.2.2.2.2.2.2.2.1, hc]) t ?_
        rw [← hx, hst, hbs]; rfl
      · rename_i d1 hr
        obtain rfl := Option.some.inj ht
        obtain ⟨hrf, h1, h2, h3, h4, h5⟩ := Dec.srcRead_eos hr
        exact .inr (.clean d1 (rel.read hrf hsrc) (hx.symm.trans h1) (rel.streamEnd ▸ h3) (by rw [h5, hc]) h2
          (by rw [h5, hp]))
      · rename_i e d1 hr
        obtain rfl := Option.some.inj ht
        obtain ⟨hrf, h0, h1, h2, h3, h5⟩ := Dec.srcRead_err hr
        have hx0 : x = [] := hx.symm.trans h1
        have hpar : parsePrefix d0.streamEnd x = .stop (.sourceError e) d1.stream := by
          rw [← rel.streamEnd, h3, hx0, h2]; rfl
        exact .inr (.stop d1 _ (rel.read hrf hsrc) (by rw [h5, hc, hx0]; rfl) (fun _ => hpar) (fun _ => parseFrame_stop hpar)
          (fun _ _ => hpar) (fun hh => by rw [h5, hp] at hh; cases hh) (by simp) (by rw [h5, hp]; simp))
    · -- LEN
      rename_i hp
      obtain ⟨hm, h8, hlt⟩ := h.len_range hp
      have hat' := hat
      unfold Dec.At at hat'
      rw [hp] at hat'
      obtain ⟨f, hf, hlb, hc, hx⟩ := hat'
      unfold Dec.tickLen at ht
      split at ht
      · simp at ht
      · rename_i b d1 hr
        obtain rfl := Option.some.inj ht
        obtain ⟨hrf, hst, hlen, -⟩ := Dec.srcRead_data hr
        have hreg := hrf.regs
        refine Dec.takeLen_goes (f := f) (rel.read hrf hsrc) (by rw [hreg.1, hp]) (hout hrf (by simp [hp]))
          (by rw [hreg.2.2.1, hreg.2.1, hm]) (by rw [hreg.2.2.1]; exact h8) (by rw [hreg.2.2.2.2.2.1]; exact hf)
          (by rw [hreg.2.2.2.1, hlb]) (by rw [hreg.2.2.2.2.2.2.2.2.2.2.1, hc]) b (by rw [hreg.2.2.1]; omega) ?_
        rw [hx, hst, hreg.2.1]
      · rename_i d1 hr
        obtain rfl := Option.some.inj ht
        obtain ⟨hrf, h1, h2, h3, h4, h5⟩ := Dec.srcRead_eos hr
        have hx' : x = d.unit.t :: f := by rw [hx, h1, List.append_nil]
        have hpar : parsePrefix d0.streamEnd x = .stop (.truncated .len) d1.stream := by
          rw [hx', parsePrefix_short (by rw [← hm]; exact h8) (by rw [← hm]; omega), ← rel.streamEnd, h3, h2]; rfl
        exact .inr (.stop d1 _ (rel.read hrf hsrc)
          (by rw [h5, hc, hx', prefixFlags_short (by rw [← hm]; exact h8) (by rw [← hm]; omega)]) (fun _ => hpar)
          (fun _ => parseFrame_stop hpar) (fun _ _ => hpar) (fun hh => by rw [h5, hp] at hh; cases hh) (by simp)
          (by rw [h5, hp]; simp))
      · rename_i e d1 hr
        obtain rfl := Option.some.inj ht
        obtain ⟨hrf, h0, h1, h2, h3, h5⟩ := Dec.srcRead_err hr
        have hx' : x = d.unit.t :: f := by rw [hx, h1, List.append_nil]
        have hpar : parsePrefix d0.streamEnd x = .stop (.sourceError e) d1.stream := by
          rw [hx', parsePrefix_short (by rw [← hm]; exact h8) (by rw [← hm]; omega), ← rel.streamEnd, h3, h2]; rfl
        exact .inr (.stop d1 _ (rel.read hrf hsrc)
          (by rw [h5, hc, hx', prefixFlags_short (by rw [← hm]; exact h8) (by rw [← hm]; omega)]) (fun _ => hpar)
          (fun _ => parseFrame_stop hpar) (fun _ _ => hpar) (fun hh => by rw [h5, hp] at hh; cases hh) (by simp)
          (by rw [h5, hp]; simp))
    · -- PAY
      rename_i hp
      have hat' := hat
      unfold Dec.At at hat'
      rw [hp] at hat'
      obtain ⟨f, hf, h8, hs, hc, hcap, hx⟩ := hat'
      have hglen := Dec.got_length h hp
      have hlt := (h.pay_range hp).1
      have hpar : parsePrefix d0.streamEnd x = .value (d.unit.t, d.unit.s.toNat) (d.got ++ d.stream) := by
        rw [hx, hs]; exact parsePrefix_whole h8 hf
      have hcap0 : d0.unit.cap cfg = d.unit.cap cfg := DecUnit.cap_congr hop.symm rel.sel.symm
      have hroom : d0.unit.op = .readInto → d.unit.s.toNat ≤ d0.unit.buf.length := fun ho => by
        rw [← rel.room]; exact h.buf_room hp (hop.trans ho)
      unfold Dec.tickPay at ht
      split at ht
      · simp at ht
      · rename_i b d1 hr
        obtain rfl := Option.some.inj ht
        obtain ⟨hrf, hst, hlen, -⟩ := Dec.srcRead_data hr
        have hreg := hrf.regs
        have hg : d1.got = d.got := hrf.got (fun _ hs => hrf.ibuf hs)
        refine Dec.takePay_goes (f := f) (Dec.srcRead_data_inv hr h) (by rw [hrf.busy]; exact hb) (rel.read hrf hsrc)
          (by rw [hreg.1, hp]) (by rw [hreg.2.1]; exact hf) (by rw [hreg.2.1]; exact h8) (by rw [hreg.2.2.2.2.1]; exact hs)
          (by rw [hreg.2.2.2.2.2.2.2.2.2.2.1, hreg.2.1, hc])
          (by rw [hreg.2.2.2.2.1, DecUnit.cap_congr hrf.op hrf.sel]; exact hcap)
          (by rw [hg, hreg.2.2.2.2.2.1]; exact hglen) ?_ ?_
        · rw [hrf.unit]; exact hlen
        · rw [hx, hst, hreg.2.1, hg]
      · rename_i d1 hr
        obtain rfl := Option.some.inj ht
        obtain ⟨hrf, h1, h2, h3, h4, h5⟩ := Dec.srcRead_eos hr
        refine .inr (.stop d1 _ (rel.read hrf hsrc) ?_ (fun ho => absurd (hop.trans ho) (h.pay_range hp).2) (fun _ => ?_)
          (fun hh => absurd (by rw [h5, hp]) hh) (fun _ ho => ⟨⟨_, _, _, hpar, hroom ho⟩, .inl rfl⟩) (by simp)
          (by rw [h5, hp]; simp))
        · rw [h5, hc, hx, prefixFlags_whole h8 hf]
        · rw [parseFrame_value hpar, hcap0, hcap, if_neg (by simp), if_pos (by simp [h1]; omega), ← rel.streamEnd, h3, h2]
          rfl
      · rename_i e d1 hr
        obtain rfl := Option.some.inj ht
        obtain ⟨hrf, h0, h1, h2, h3, h5⟩ := Dec.srcRead_err hr
        refine .inr (.stop d1 _ (rel.read hrf hsrc) ?_ (fun ho => absurd (hop.trans ho) (h.pay_range hp).2) (fun _ => ?_)
          (fun hh => absurd (by rw [h5, hp]) hh) (fun _ ho => ⟨⟨_, _, _, hpar, hroom ho⟩, .inr ⟨e, rfl⟩⟩) (by simp)
          (by rw [h5, hp]; simp))
        · rw [h5, hc, hx, prefixFlags_whole h8 hf]
        · rw [parseFrame_value hpar, hcap0, hcap, if_neg (by simp), if_pos (by simp [h1]; omega), ← rel.streamEnd, h3, h2]
          rfl
    · -- OVER
      rename_i hp
      unfold Dec.At at hat
      rw [hp] at hat
      exact absurd hat id
  · simp at ht

end Sys2Proof.Machine
end

