-- ==== Sys2Proof/Laws/Operations.lean ====
section
/-! SUPPORT. What a whole run of DEC delivers, said once for each operation in terms of the pure parse (41_decoder.md R98,
42_listcodec.md R125): the lemmas a proof about a command cites instead of unfolding its run. -/

namespace Sys2Proof.Machine

/-! ### Runs -/

theorem Dec.transact_idle {cfg : Config} {d : Dec} (h : d.unit.busy = false) : d.transact cfg = none := by
  simp [Dec.transact, h]

theorem Dec.run_of_quiet {cfg : Config} (k : Nat) {d : Dec} (h : d.transact cfg = none) : Dec.run cfg k d = d := by
  cases k with
  | zero => rfl
  | succ k => simp [Dec.run, h]

theorem Dec.run_add {cfg : Config} (j k : Nat) (d : Dec) : Dec.run cfg (j + k) d = Dec.run cfg k (Dec.run cfg j d) := by
  induction j generalizing d with
  | zero => simp [Dec.run]
  | succ j ih =>
    rw [Nat.succ_add]
    simp only [Dec.run]
    split
    · exact ih _
    · rename_i ht; rw [Dec.run_of_quiet k ht]

/-- The run of a unit that can go on is the run of what it becomes. -/
theorem Dec.runOn_transact {cfg : Config} {d d' : Dec} (h : d.Inv cfg) (ht : d.transact cfg = some d') :
    d.runOn cfg = d'.runOn cfg := by
  have hw := Dec.transact_work h ht
  obtain ⟨j, hj⟩ : ∃ j, d.work = (d'.work + j) + 1 := ⟨d.work - d'.work - 1, by omega⟩
  unfold Dec.runOn
  rw [hj]
  simp only [Dec.run, ht]
  rw [Dec.run_add, Dec.run_of_quiet j (Dec.run_quiet _ (Dec.transact_inv h ht) le_rfl)]

theorem Dec.runOn_none {cfg : Config} {d : Dec} (ht : d.transact cfg = none) : d.runOn cfg = d :=
  Dec.run_of_quiet _ ht

theorem Dec.runOn_idle {cfg : Config} {d : Dec} (h : d.unit.busy = false) : d.runOn cfg = d :=
  Dec.runOn_none (Dec.transact_idle h)

/-- A frame is run to its end, or until a request is not answered. -/
theorem Dec.runOn_frame {cfg : Config} {x : List Byte} {d0 : Dec} (k : Nat) {d : Dec} (hk : d.work ≤ k) (h : d.Inv cfg)
    (hat : d.At cfg x) (rel : d0.Rel d) :
    ((d.runOn cfg).At cfg x ∧ d0.Rel (d.runOn cfg) ∧ (d.runOn cfg).transact cfg = none) ∨
      ∃ d1, Dec.FrameEnd cfg x d0 d1 ∧ d1.Inv cfg ∧ d1.work < d.work ∧ d.runOn cfg = d1.runOn cfg := by
  induction k generalizing d with
  | zero =>
    have hq : d.transact cfg = none := Dec.run_quiet 0 h hk
    exact .inl (by rw [Dec.runOn_none hq]; exact ⟨hat, rel, hq⟩)
  | succ k ih =>
    cases ht : d.transact cfg with
    | none => exact .inl (by rw [Dec.runOn_none ht]; exact ⟨hat, rel, ht⟩)
    | some d' =>
      have hw := Dec.transact_work h ht
      have hinv := Dec.transact_inv h ht
      rw [Dec.runOn_transact h ht]
      rcases Dec.transact_goes h hat rel ht with ⟨hat', rel'⟩ | hend
      · rcases ih (by omega) hinv hat' rel' with hl | ⟨d1, h1, h2, h3, h4⟩
        · exact .inl hl
        · exact .inr ⟨d1, h1, h2, by omega, h4⟩
      · exact .inr ⟨d', hend, hinv, hw, rfl⟩

/-! ### Ends -/

/-- The operation that began at `d0` has ended with `r` and the flags `c`, the bound source standing at `rest`, and has left
alone what is none of its business. -/
structure Dec.Ended (d0 d : Dec) (r : Result) (c : Chk) (rest : List Byte) : Prop where
  ends : d0.unit.endedWith d.unit d0.unit.op r c
  rem : d.src.rem = rest
  fin : d.src.fin = d0.src.fin
  later : d.src.later = d0.src.later
  room : d.unit.buf.length = d0.unit.buf.length
  list : d0.unit.op ≠ .decodeList → d.unit.items = d0.unit.items ∧ d.unit.flags = d0.unit.flags ∧ d.unit.ibuf = d0.unit.ibuf
  into : d0.unit.op ≠ .readInto → d.unit.buf = d0.unit.buf ∧ d.draws = d0.draws ∧ d.tick = d0.tick

/-- The operation that began at `d0` waits for its bound source. -/
structure Dec.Waits (d0 d : Dec) : Prop where
  waits : d0.unit.waitsIn d.unit d0.unit.op
  silent : (d.src.rem = [] ∧ d.src.fin = .never) ∨ (d.src.rem ≠ [] ∧ d.src.cuts = [] ∧ d.src.later ≠ .prompt)
  fin : d.src.fin = d0.src.fin
  later : d.src.later = d0.src.later
  room : d.unit.buf.length = d0.unit.buf.length
  list : d0.unit.op ≠ .decodeList → d.unit.items = d0.unit.items ∧ d.unit.flags = d0.unit.flags ∧ d.unit.ibuf = d0.unit.ibuf
  into : d0.unit.op ≠ .readInto → d.unit.buf = d0.unit.buf ∧ d.draws = d0.draws ∧ d.tick = d0.tick

theorem Dec.finish_ended {d0 d : Dec} (rel : d0.Rel d) (hp : d0.unit.poison = false) (hsel : d0.unit.sel = .src)
    (r : Result) :
    d0.Ended (d.finish r) r d.unit.chk d.stream where
  ends := by
    refine ⟨rfl, rfl, rfl, ?_, rfl, ?_⟩
    · simp [rel.poison, hp]
    · simp [rel.out, rel.op]
  rem := by simp [Dec.stream, rel.sel, hsel]
  fin := rel.fin
  later := rel.later
  room := rel.room
  list := fun ho => ⟨rel.items, rel.flags, rel.ibuf (by rw [rel.op]; exact ho)⟩
  into := fun ho => ⟨rel.buf (.inr (by rw [rel.op]; exact ho)), rel.draws, rel.tick⟩

theorem Dec.waits_of_quiet {cfg : Config} {d0 d : Dec} {x : List Byte} (rel : d0.Rel d) (h : d.Inv cfg)
    (hb : d0.unit.busy = true) (hat : d.At cfg x) (ht : d.transact cfg = none) : d0.Waits d where
  waits := by
    refine ⟨?_, rel.busy.trans hb, rel.op, rel.result, rel.poison, rel.out⟩
    intro hp
    unfold Dec.At at hat
    rw [hp] at hat
    exact hat
  silent := (Dec.transact_none h (rel.busy.trans hb) ht).2
  fin := rel.fin
  later := rel.later
  room := rel.room
  list := fun ho => ⟨rel.items, rel.flags, rel.ibuf (by rw [rel.op]; exact ho)⟩
  into := fun ho => ⟨rel.buf (.inr (by rw [rel.op]; exact ho)), rel.draws, rel.tick⟩

theorem Dec.fail_plain {d : Dec} {r : Result} (hi : d.unit.inner = false) (hs : d.unit.bufHandedOut = false) :
    d.fail r = d.finish r := by
  simp [Dec.fail, hi, hs]

theorem DecUnit.inner_src {u : DecUnit} (h : u.sel = .src) : u.inner = false := by
  simp [DecUnit.inner, h]

theorem DecUnit.bufHandedOut_other {u : DecUnit} (h : u.op ≠ .readInto) : u.bufHandedOut = false := by
  simp [DecUnit.bufHandedOut, h]

/-! ### A command begins -/

theorem Dec.accept_mid {cfg : Config} {d : Dec} (h : d.Inv cfg) (hp : d.unit.poison = false) (op : DecOp)
    (ho : op ≠ .readInto) (ho' : op ≠ .decodeList) : (d.accept op).Inv cfg := by
  apply Dec.enterType_inv
  exact {
    clean := hp
    last := fun hr => by simpa [hp] using h.poison_result.mpr hr
    chk := h.chk_order
    flags := h.flags_order
    cap := h.ibuf_cap
    busy := rfl
    buf := fun hh => absurd hh ho
    inner := fun hh => by simp at hh
    outer := fun hh => absurd hh ho' }

theorem Dec.acceptReadInto_inv {cfg : Config} {d : Dec} (h : d.Inv cfg) (hp : d.unit.poison = false) {buf : List Byte}
    (hb : buf.length < 2 ^ 64) : (d.acceptReadInto buf).Inv cfg := by
  have : d.acceptReadInto buf =
      Dec.enterType { d with unit := { d.unit with op := .readInto, busy := true, sel := .src, buf := buf } } := rfl
  rw [this]
  apply Dec.enterType_inv
  exact {
    clean := hp
    last := fun hr => by simpa [hp] using h.poison_result.mpr hr
    chk := h.chk_order
    flags := h.flags_order
    cap := h.ibuf_cap
    busy := rfl
    buf := fun _ => hb
    inner := fun hh => by simp at hh
    outer := fun hh => by simp at hh }

theorem Dec.acceptDecodeList_inv {cfg : Config} {d : Dec} (h : d.Inv cfg) (hp : d.unit.poison = false) :
    d.acceptDecodeList.Inv cfg := by
  have : d.acceptDecodeList =
      Dec.enterType { d with unit := { d.unit with
        op := .decodeList, busy := true, sel := .src, ibuf := [], items := [], flags := Chk.clear } } := rfl
  rw [this]
  apply Dec.enterType_inv
  exact {
    clean := hp
    last := fun hr => by simpa [hp] using h.poison_result.mpr hr
    chk := h.chk_order
    flags := by simp [Chk.clear]
    cap := by simp
    busy := rfl
    buf := fun hh => by simp at hh
    inner := fun _ => rfl
    outer := fun _ _ => rfl }

/-! ### PEEK_SIZE (R103) and READ_BYTES (R105) -/

/-- Where the operation ends if its source answers: the value `f` makes of the reading, or the failure. -/
def Dec.EndsAs {α : Type} (d0 d : Dec) (c : Chk) (f : α → Value) (rd : Reading α) : Prop :=
  match rd with
  | .value v rest => d0.Ended d (.ok (f v)) c rest
  | .stop r rest => d0.Ended d r c rest
  | .hang => False

theorem Dec.peek_runOn {cfg : Config} {d0 : Dec} (h : d0.Inv cfg) (hb : d0.unit.busy = true) (hp : d0.unit.phase = .type)
    (ho : d0.unit.op = .peekSize) (hsel : d0.unit.sel = .src) :
    d0.Waits (d0.runOn cfg) ∨
      d0.EndsAs (d0.runOn cfg) (prefixFlags d0.src.rem) (fun v : Byte × Nat => Value.size (BitVec.ofNat 64 v.2))
        (parsePrefix d0.src.fin d0.src.rem) := by
  have hstr : d0.stream = d0.src.rem := by simp [Dec.stream, hsel]
  have hfin : d0.streamEnd = d0.src.fin := by simp [Dec.streamEnd, hsel]
  have hat : d0.At cfg d0.src.rem := by unfold Dec.At; rw [hp]; exact hstr
  have hpo := h.busy_clean hb
  rcases Dec.runOn_frame _ le_rfl h hat (Dec.Rel.refl d0) with ⟨h1, h2, h3⟩ | ⟨d1, hend, -, -, hrun⟩
  · exact .inl (Dec.waits_of_quiet h2 (Dec.runOn_inv h) hb h1 h3)
  · right
    rw [hrun]
    cases hend with
    | clean d1 rel hx hf hc hs hph =>
      have hi : d1.unit.inner = false := DecUnit.inner_src (rel.sel.trans hsel)
      have he : d1.eosInType = d1.finish .cleanEos := by simp [Dec.eosInType, hi]
      rw [he, Dec.runOn_idle rfl]
      have := Dec.finish_ended rel hpo hsel .cleanEos
      rw [hs, hc] at this
      rw [hx, ← hfin, hf]
      exact this
    | stop d1 r rel hc hpk _ _ _ _ _ =>
      rw [Dec.fail_plain (DecUnit.inner_src (rel.sel.trans hsel)) (DecUnit.bufHandedOut_other (by rw [rel.op]; simp [ho])),
        Dec.runOn_idle rfl]
      have hpk := hpk ho
      rw [hfin] at hpk
      rw [hpk, ← hc]
      exact Dec.finish_ended rel hpo hsel r
    | size d1 rel hc _ hv =>
      rw [Dec.runOn_idle rfl]
      rw [hfin] at hv
      rw [hv, ← hc]
      have := Dec.finish_ended rel hpo hsel (.ok (.size d1.unit.s))
      simpa [Dec.EndsAs] using this
    | small d1 _ _ ho' => rw [ho] at ho'; cases ho'
    | pay d1 _ _ ho' => exact absurd ho ho'

theorem Dec.readBytes_runOn {cfg : Config} {d0 : Dec} (h : d0.Inv cfg) (hb : d0.unit.busy = true)
    (hp : d0.unit.phase = .type) (ho : d0.unit.op = .readBytes) (hsel : d0.unit.sel = .src) :
    d0.Waits (d0.runOn cfg) ∨
      d0.EndsAs (d0.runOn cfg) (prefixFlags d0.src.rem) Value.payload (parseFrame cfg.maxAlloc d0.src.fin d0.src.rem) := by
  have hstr : d0.stream = d0.src.rem := by simp [Dec.stream, hsel]
  have hfin : d0.streamEnd = d0.src.fin := by simp [Dec.streamEnd, hsel]
  have hat : d0.At cfg d0.src.rem := by unfold Dec.At; rw [hp]; exact hstr
  have hpo := h.busy_clean hb
  have hcap : d0.unit.cap cfg = cfg.maxAlloc := by simp [DecUnit.cap, DecUnit.bound, ho]
  rcases Dec.runOn_frame _ le_rfl h hat (Dec.Rel.refl d0) with ⟨h1, h2, h3⟩ | ⟨d1, hend, -, -, hrun⟩
  · exact .inl (Dec.waits_of_quiet h2 (Dec.runOn_inv h) hb h1 h3)
  · right
    rw [hrun]
    cases hend with
    | clean d1 rel hx hf hc hs hph =>
      have hi : d1.unit.inner = false := DecUnit.inner_src (rel.sel.trans hsel)
      have he : d1.eosInType = d1.finish .cleanEos := by simp [Dec.eosInType, hi]
      rw [he, Dec.runOn_idle rfl]
      have := Dec.finish_ended rel hpo hsel .cleanEos
      rw [hs, hc] at this
      rw [hx, ← hfin, hf]
      exact this
    | stop d1 r rel hc _ hw _ _ _ _ =>
      rw [Dec.fail_plain (DecUnit.inner_src (rel.sel.trans hsel)) (DecUnit.bufHandedOut_other (by rw [rel.op]; simp [ho])),
        Dec.runOn_idle rfl]
      have hw := hw (by simp [ho])
      rw [hfin, hcap] at hw
      rw [hw, ← hc]
      exact Dec.finish_ended rel hpo hsel r
    | size d1 _ _ ho' => rw [ho] at ho'; cases ho'
    | small d1 _ _ ho' => rw [ho] at ho'; cases ho'
    | pay d1 rel hc _ hv hex hen hcnt hbd _ _ =>
      have hop : d1.unit.op = .readBytes := rel.op.trans ho
      have hd : d1.payDone = d1.finish (.ok (.payload d1.unit.pay)) := by simp [Dec.payDone, hop]
      have hg : d1.got = d1.unit.pay := by simp [Dec.got, hop]
      have hex := hex (by simp [ho])
      rw [hd, Dec.runOn_idle rfl]
      rw [hfin] at hv
      rw [hcap] at hbd
      rw [parseFrame_value hv, hbd, if_neg (by simp), if_neg (by simp [hex]), ← hex, List.take_left, List.drop_left, hg, ← hc]
      exact Dec.finish_ended rel hpo hsel _

/-! ### DECODE_LIST (R125 to R131) -/

/-- What the inner loop leaves of a unit that began it at `d`: the result `r` and the flags `c` are delivered, and the bound
source is as it was. -/
structure Dec.InnerEnded (d d' : Dec) (r : Result) (c : Chk) : Prop where
  ends : d.unit.endedWith d'.unit .decodeList r c
  src : d'.src = d.src
  buf : d'.unit.buf = d.unit.buf
  draws : d'.draws = d.draws
  tick : d'.tick = d.tick

/-- The inner frames, from the start of one of them (R127 to R129). -/
theorem Dec.inner_runOn {cfg : Config} (k : Nat) {d : Dec} (h : d.Inv cfg) (hb : d.unit.busy = true)
    (hp : d.unit.phase = .type) (ho : d.unit.op = .decodeList) (hsel : d.unit.sel = .ibuf)
    (hk : d.unit.ibuf.length < k) :
    match framesFuel cfg.maxAlloc k d.unit.ibuf with
    | .ok ps => d.InnerEnded (d.runOn cfg) (.ok (.items (d.unit.items ++ ps)))
        (d.unit.flags.or (framesFlagsFuel cfg.maxAlloc k d.unit.ibuf))
    | .error r => d.InnerEnded (d.runOn cfg) r (d.unit.flags.or (framesFlagsFuel cfg.maxAlloc k d.unit.ibuf)) := by
  induction k generalizing d with
  | zero => omega
  | succ k ih =>
    have hstr : d.stream = d.unit.ibuf := by simp [Dec.stream, hsel]
    have hfin : d.streamEnd = .eos := by simp [Dec.streamEnd, hsel]
    have hat : d.At cfg d.unit.ibuf := by unfold Dec.At; rw [hp]; exact hstr
    have hcap : d.unit.cap cfg = cfg.maxAlloc := by simp [DecUnit.cap, DecUnit.bound, ho, hsel]
    have hpo := h.busy_clean hb
    rcases Dec.runOn_frame _ le_rfl h hat (Dec.Rel.refl d) with ⟨h1, h2, h3⟩ | ⟨d1, hend, hinv, -, hrun⟩
    · have := (Dec.transact_none (Dec.runOn_inv h) (h2.busy.trans hb) h3).1
      rw [h2.sel, hsel] at this
      cases this
    · rw [hrun]
      cases hend with
      | clean d1 rel hx hf hc hs hph =>
        have hi : d1.unit.inner = true := by simp [DecUnit.inner, rel.op, rel.sel, ho, hsel]
        have he : d1.eosInType = d1.listDone := by simp [Dec.eosInType, hi]
        rw [he, Dec.runOn_idle rfl, hx]
        simp only [framesFuel, framesFlagsFuel, parseFrame, parsePrefix, atEnd, prefixFlags, List.append_nil, Chk.or_clear]
        have hdone : d1.listDone.unit.chk = d.unit.flags := by
          show d1.unit.flags.or d1.unit.chk = _
          rw [hc, Chk.or_clear, rel.flags]
        refine ⟨⟨rfl, rfl, rfl, ?_, hdone, ?_⟩, rel.src (rel.sel.trans hsel), rel.buf (.inr (by rw [rel.op, ho]; simp)),
          rel.draws, rel.tick⟩
        · show (d1.unit.poison || false) = false
          rw [rel.poison, hpo]; rfl
        · show d1.unit.out ++ [⟨d1.unit.op, .ok (.items d1.unit.items), d1.unit.flags.or d1.unit.chk⟩] = _
          rw [rel.out, rel.op, rel.items, ho, hc, Chk.or_clear, rel.flags]
      | stop d1 r rel hc _ hw _ _ hne _ =>
        have hi : d1.unit.inner = true := by simp [DecUnit.inner, rel.op, rel.sel, ho, hsel]
        have hw := hw (by simp [ho])
        rw [hfin, hcap] at hw
        rw [Dec.runOn_idle (Dec.fail_idle _ _)]
        have hfr : framesFuel cfg.maxAlloc (k + 1) d.unit.ibuf = .error r := by
          unfold framesFuel
          rw [hw]
          cases r <;> simp_all
        have hfl : framesFlagsFuel cfg.maxAlloc (k + 1) d.unit.ibuf = prefixFlags d.unit.ibuf := by
          unfold framesFlagsFuel
          rw [hw]
        rw [hfr, hfl]
        have hfail : d1.fail r =
            Dec.finish { d1 with unit := { d1.unit with chk := d1.unit.flags.or d1.unit.chk, items := [] } } r := by
          simp [Dec.fail, hi]
        rw [hfail]
        refine ⟨⟨rfl, rfl, rfl, ?_, ?_, ?_⟩, rel.src (rel.sel.trans hsel), rel.buf (.inr (by rw [rel.op, ho]; simp)),
          rel.draws, rel.tick⟩
        · show (d1.unit.poison || r.poisons) = r.poisons
          rw [rel.poison, hpo]; rfl
        · show d1.unit.flags.or d1.unit.chk = _
          rw [rel.flags, hc]
        · show d1.unit.out ++ [⟨d1.unit.op, r, d1.unit.flags.or d1.unit.chk⟩] = _
          rw [rel.out, rel.op, ho, rel.flags, hc]
      | size d1 _ _ ho' => rw [ho] at ho'; cases ho'
      | small d1 _ _ ho' => rw [ho] at ho'; cases ho'
      | pay d1 rel hc _ hv hex hen hcnt hbd _ _ =>
        have hop : d1.unit.op = .decodeList := rel.op.trans ho
        have hs1 : d1.unit.sel = .ibuf := rel.sel.trans hsel
        have hd : d1.payDone = d1.innerDone d1.unit.pay := by simp [Dec.payDone, hop, hs1]
        have hg : d1.got = d1.unit.pay := by simp [Dec.got, hop, hs1]
        have hst : d1.stream = d1.unit.ibuf := by simp [Dec.stream, hs1]
        have hex := hex (by simp [ho])
        rw [hfin] at hv
        rw [hcap] at hbd
        have hpf : parseFrame cfg.maxAlloc .eos d.unit.ibuf = .value d1.unit.pay d1.unit.ibuf := by
          rw [parseFrame_value hv, hbd, if_neg (by simp), if_neg (by simp [hex]), ← hex, List.take_left, List.drop_left,
            hg, hst]
        have hshort : d1.unit.ibuf.length < k := by
          have : d.unit.ibuf ≠ [] := by
            intro h0; rw [h0] at hv; simp [parsePrefix, atEnd] at hv
          have hlt : d1.unit.ibuf.length < d.unit.ibuf.length := by
            revert hv
            cases hx : d.unit.ibuf with
            | nil => exact absurd hx this
            | cons t y =>
              simp only [parsePrefix]
              split
              · simp
              · split
                · simp [atEnd]
                · intro hv
                  simp only [Reading.value.injEq] at hv
                  have := congrArg List.length hv.2
                  rw [List.length_drop, List.length_append, hst] at this
                  simp only [List.length_cons]
                  omega
          omega
        rw [hd] at hinv ⊢
        have hrec := ih (d := d1.innerDone d1.unit.pay) hinv (rel.busy.trans hb) rfl hop hs1 hshort
        rw [Dec.innerDone_ibuf, Dec.innerDone_items, Dec.innerDone_flags] at hrec
        have hfr : framesFuel cfg.maxAlloc (k + 1) d.unit.ibuf =
            match framesFuel cfg.maxAlloc k d1.unit.ibuf with
            | .ok ps => .ok (d1.unit.pay :: ps)
            | .error r => .error r := by
          rw [framesFuel]
          rw [hpf] <;> (dsimp only; cases framesFuel cfg.maxAlloc k d1.unit.ibuf <;> rfl)
        have hfl : framesFlagsFuel cfg.maxAlloc (k + 1) d.unit.ibuf =
            (prefixFlags d.unit.ibuf).or (framesFlagsFuel cfg.maxAlloc k d1.unit.ibuf) := by
          rw [framesFlagsFuel]; rw [hpf]
        rw [hfr, hfl]
        rw [rel.flags, hc, Chk.or_assoc, rel.items] at hrec
        have lift : ∀ {r c}, (d1.innerDone d1.unit.pay).InnerEnded ((d1.innerDone d1.unit.pay).runOn cfg) r c →
            d.InnerEnded ((d1.innerDone d1.unit.pay).runOn cfg) r c := fun {r c} hh =>
          ⟨⟨hh.ends.1, hh.ends.2.1, hh.ends.2.2.1, hh.ends.2.2.2.1, hh.ends.2.2.2.2.1,
            hh.ends.2.2.2.2.2.trans (by rw [Dec.innerDone_out, rel.out])⟩,
            hh.src.trans (rel.src hs1), hh.buf.trans (rel.buf (.inr (by rw [hop]; simp))), hh.draws.trans rel.draws,
            hh.tick.trans rel.tick⟩
        revert hrec
        cases framesFuel cfg.maxAlloc k d1.unit.ibuf with
        | ok ps =>
          dsimp only
          intro hrec
          rw [List.append_assoc] at hrec
          exact lift hrec
        | error r =>
          dsimp only
          intro hrec
          exact lift hrec

/-- A whole DECODE_LIST. -/
theorem Dec.decodeList_runOn {cfg : Config} {d0 : Dec} (h : d0.Inv cfg) (hb : d0.unit.busy = true)
    (hp : d0.unit.phase = .type) (ho : d0.unit.op = .decodeList) (hsel : d0.unit.sel = .src) :
    d0.Waits (d0.runOn cfg) ∨
      d0.EndsAs (d0.runOn cfg) (decodeListFlags cfg d0.src.fin d0.src.rem) Value.items
        (decodeListOf cfg d0.src.fin d0.src.rem) := by
  have hstr : d0.stream = d0.src.rem := by simp [Dec.stream, hsel]
  have hfin : d0.streamEnd = d0.src.fin := by simp [Dec.streamEnd, hsel]
  have hat : d0.At cfg d0.src.rem := by unfold Dec.At; rw [hp]; exact hstr
  have hpo := h.busy_clean hb
  have hcap : d0.unit.cap cfg = cfg.ibufCap := by simp [DecUnit.cap, DecUnit.bound, ho, hsel]
  rcases Dec.runOn_frame _ le_rfl h hat (Dec.Rel.refl d0) with ⟨h1, h2, h3⟩ | ⟨d1, hend, hinv, -, hrun⟩
  · exact .inl (Dec.waits_of_quiet h2 (Dec.runOn_inv h) hb h1 h3)
  · right
    rw [hrun]
    cases hend with
    | clean d1 rel hx hf hc hs hph =>
      have hi : d1.unit.inner = false := DecUnit.inner_src (rel.sel.trans hsel)
      have he : d1.eosInType = d1.finish .cleanEos := by simp [Dec.eosInType, hi]
      rw [he, Dec.runOn_idle rfl]
      have := Dec.finish_ended rel hpo hsel .cleanEos
      rw [hs, hc] at this
      rw [hx, ← hfin, hf]
      exact this
    | stop d1 r rel hc _ hw _ _ _ _ =>
      rw [Dec.fail_plain (DecUnit.inner_src (rel.sel.trans hsel)) (DecUnit.bufHandedOut_other (by rw [rel.op]; simp [ho])),
        Dec.runOn_idle rfl]
      have hw := hw (by simp [ho])
      rw [hfin, hcap] at hw
      unfold decodeListOf decodeListFlags
      rw [hw]
      dsimp only
      rw [← hc]
      exact Dec.finish_ended rel hpo hsel r
    | size d1 _ _ ho' => rw [ho] at ho'; cases ho'
    | small d1 _ _ ho' => rw [ho] at ho'; cases ho'
    | pay d1 rel hc _ hv hex hen hcnt hbd _ _ =>
      have hop : d1.unit.op = .decodeList := rel.op.trans ho
      have hs1 : d1.unit.sel = .src := rel.sel.trans hsel
      have hd : d1.payDone = d1.outerDone := by simp [Dec.payDone, hop, hs1]
      have hg : d1.got = d1.unit.ibuf := by simp [Dec.got, hop, hs1]
      have hex := hex (by simp [ho])
      rw [hfin] at hv
      rw [hcap] at hbd
      have hpf : parseFrame cfg.ibufCap d0.src.fin d0.src.rem = .value d1.unit.ibuf d1.stream := by
        rw [parseFrame_value hv, hbd, if_neg (by simp), if_neg (by simp [hex]), ← hex, List.take_left, List.drop_left, hg]
      have hst1 : d1.src.rem = d1.stream := by simp [Dec.stream, hs1]
      rw [hd] at hinv ⊢
      have hrec := Dec.inner_runOn (d1.outerDone.unit.ibuf.length + 1) hinv (rel.busy.trans hb) rfl hop rfl
        (Nat.lt_succ_self _)
      rw [Dec.outerDone_ibuf, Dec.outerDone_items, Dec.outerDone_flags, hc] at hrec
      have lift : ∀ {r c}, d1.outerDone.InnerEnded (d1.outerDone.runOn cfg) r c →
          d0.Ended (d1.outerDone.runOn cfg) r c d1.stream := fun {r c} hh =>
        { ends := by
            rw [ho]
            exact ⟨hh.ends.1, hh.ends.2.1, hh.ends.2.2.1, hh.ends.2.2.2.1, hh.ends.2.2.2.2.1,
              hh.ends.2.2.2.2.2.trans (by rw [Dec.outerDone_out, rel.out])⟩
          rem := by rw [hh.src]; exact hst1
          fin := by rw [hh.src]; exact rel.fin
          later := by rw [hh.src]; exact rel.later
          room := by rw [hh.buf]; exact rel.room
          list := fun hn => absurd ho hn
          into := fun hn => ⟨hh.buf.trans (rel.buf (.inr (by rw [rel.op]; exact hn))), hh.draws.trans rel.draws,
            hh.tick.trans rel.tick⟩ }
      unfold decodeListOf decodeListFlags frames framesFlags
      rw [hpf]
      dsimp only
      revert hrec
      cases framesFuel cfg.maxAlloc (d1.unit.ibuf.length + 1) d1.unit.ibuf with
      | ok ps => exact fun hrec => lift hrec
      | error r => exact fun hrec => lift hrec

/-! ### READ_INTO (R108 to R115) -/

/-- READ_INTO, begun at `d0`, past the frame's own bytes: `y` is all that follows the prefix in the stream. -/
structure Dec.AtOver (x y : List Byte) (s : Nat) (d0 d : Dec) : Prop where
  phase : d.unit.phase = .over
  op0 : d0.unit.op = .readInto
  op : d.unit.op = .readInto
  sel0 : d0.unit.sel = .src
  sel : d.unit.sel = .src
  busy : d.unit.busy = true
  poison0 : d0.unit.poison = false
  poison : d.unit.poison = false
  result : d.unit.result = d0.unit.result
  items : d.unit.items = d0.unit.items
  flags : d.unit.flags = d0.unit.flags
  ibuf : d.unit.ibuf = d0.unit.ibuf
  out : d.unit.out = d0.unit.out
  fin : d.src.fin = d0.src.fin
  later : d.src.later = d0.src.later
  room : d.unit.buf.length = d0.unit.buf.length
  chk : d.unit.chk = prefixFlags x
  bytes : y = d.unit.buf.take d.unit.n.toNat ++ d.src.rem
  low : s ≤ d.unit.n.toNat
  high : d.unit.n.toNat ≤ d.unit.buf.length

/-- Only the draws and what has been read of the source differ. -/
theorem Dec.AtOver.read {x y : List Byte} {s : Nat} {d0 d d' : Dec} (h : Dec.AtOver x y s d0 d) (hu : d'.unit = d.unit)
    (hr : d'.src.rem = d.src.rem) (hf : d'.src.fin = d.src.fin) (hl : d'.src.later = d.src.later) :
    Dec.AtOver x y s d0 d' where
  phase := hu ▸ h.phase
  op0 := h.op0
  op := hu ▸ h.op
  sel0 := h.sel0
  sel := hu ▸ h.sel
  busy := hu ▸ h.busy
  poison0 := h.poison0
  poison := hu ▸ h.poison
  result := hu ▸ h.result
  items := hu ▸ h.items
  flags := hu ▸ h.flags
  ibuf := hu ▸ h.ibuf
  out := hu ▸ h.out
  fin := hf.trans h.fin
  later := hl.trans h.later
  room := hu ▸ h.room
  chk := hu ▸ h.chk
  bytes := by rw [hu, hr]; exact h.bytes
  low := hu ▸ h.low
  high := hu ▸ h.high

/-- How READ_INTO ends once the owed bytes are in: with a count it chose, or on a source error past the frame (R112 to R114). -/
def Dec.OverEnds (x y : List Byte) (s : Nat) (d0 d : Dec) : Prop :=
  (∃ n : Nat, s ≤ n ∧ n ≤ d0.unit.buf.length ∧ n ≤ y.length ∧
      d0.Ended d (.ok (.filled (BitVec.ofNat 64 n))) (prefixFlags x) (y.drop n) ∧ d.unit.buf.take n = y.take n) ∨
    ∃ e, d0.src.fin = .err e ∧ y.length < d0.unit.buf.length ∧ d0.Ended d (.sourceError e) (prefixFlags x) []

theorem freeBytes_length (tick k : Nat) : (freeBytes tick k).length = k := by simp [freeBytes]

theorem Dec.finishReadInto_ends {x y : List Byte} {s : Nat} {d0 d : Dec} (h : Dec.AtOver x y s d0 d)  :
    Dec.OverEnds x y s d0 d.finishReadInto := by
  have hb := h.high
  have hlen : y.length = d.unit.n.toNat + d.src.rem.length := by
    rw [h.bytes]; simp; omega
  have htake : (d.unit.buf.take d.unit.n.toNat).length = d.unit.n.toNat := by simp; omega
  refine .inl ⟨d.unit.n.toNat, h.low, by rw [← h.room]; exact hb, by omega, ?_, ?_⟩
  · exact {
      ends := by
        rw [h.op0]
        refine ⟨rfl, rfl, rfl, ?_, h.chk, ?_⟩
        · show (d.unit.poison || false) = false
          rw [h.poison]; rfl
        · show d.unit.out ++ [⟨d.unit.op, .ok (.filled d.unit.n), d.unit.chk⟩] = _
          rw [h.out, h.op, h.chk]; simp
      rem := by
        show d.src.rem = _
        rw [h.bytes]
        conv_rhs => rw [← htake]
        simp
      fin := h.fin
      later := h.later
      room := by
        show (d.unit.buf.take _ ++ freeBytes _ _).length = _
        rw [List.length_append, freeBytes_length, ← h.room, htake]; omega
      list := fun _ => ⟨h.items, h.flags, h.ibuf⟩
      into := fun hn => absurd h.op0 hn }
  · show (d.unit.buf.take d.unit.n.toNat ++ freeBytes _ _).take d.unit.n.toNat = _
    rw [h.bytes]
    conv_lhs => rw [← htake]
    conv_rhs => rw [← htake]
    simp

theorem Dec.over_fail_ends {x y : List Byte} {s : Nat} {d0 d : Dec} {e : EnvError} (h : Dec.AtOver x y s d0 d)
    (hr : d.src.rem = []) (hf : d.src.fin = .err e) (hlt : d.unit.n.toNat < d.unit.buf.length) :
    Dec.OverEnds x y s d0 (d.fail (.sourceError e)) := by
  have hi : d.unit.inner = false := DecUnit.inner_src h.sel
  have hs : d.unit.bufHandedOut = true := by simp [DecUnit.bufHandedOut, h.op, h.phase]
  have hfail : d.fail (.sourceError e) = d.spoilBuf.finish (.sourceError e) := by simp [Dec.fail, hi, hs]
  rw [hfail]
  refine .inr ⟨e, by rw [← h.fin]; exact hf, ?_, ?_⟩
  · rw [h.bytes, hr, ← h.room]; simp; omega
  · exact {
      ends := by
        rw [h.op0]
        refine ⟨rfl, rfl, rfl, ?_, h.chk, ?_⟩
        · show (d.unit.poison || true) = true
          rw [h.poison]; rfl
        · show d.unit.out ++ [⟨d.unit.op, .sourceError e, d.unit.chk⟩] = _
          rw [h.out, h.op, h.chk]
      rem := hr
      fin := h.fin
      later := h.later
      room := by show (freeBytes _ _).length = _; rw [freeBytes_length]; exact h.room
      list := fun _ => ⟨h.items, h.flags, h.ibuf⟩
      into := fun hn => absurd h.op0 hn }

/-- One transaction past the frame. -/
theorem Dec.over_transact {cfg : Config} {x y : List Byte} {s : Nat} {d0 d d' : Dec} (h : Dec.AtOver x y s d0 d)
    (hinv : d.Inv cfg) (ht : d.transact cfg = some d') : Dec.AtOver x y s d0 d' ∨ Dec.OverEnds x y s d0 d' := by
  have htick : d.transact cfg = d.tickOver := by simp [Dec.transact, h.busy, h.phase]
  rw [htick] at ht
  unfold Dec.tickOver at ht
  split at ht
  · obtain rfl := Option.some.inj ht
    exact .inr (Dec.finishReadInto_ends h)
  · rename_i hroom
    obtain ⟨ds, tk, he⟩ := d.draw_eq
    revert ht
    generalize d.draw = p at *
    obtain ⟨go, d1⟩ := p
    dsimp only at *
    have h1 : Dec.AtOver x y s d0 d1 := h.read (by rw [he]) (by rw [he]) (by rw [he]) (by rw [he])
    intro ht
    split at ht
    · split at ht
      · simp at ht
      · rename_i b d2 hr
        obtain rfl := Option.some.inj ht
        obtain ⟨hrf, hst, hlen, -⟩ := Dec.srcRead_data hr
        have hstr : d1.stream = d1.src.rem := by simp [Dec.stream, h1.sel]
        have hstr2 : d2.stream = d2.src.rem := by simp [Dec.stream, hrf.sel, h1.sel]
        have hsz := hinv.buf_size h.busy h.op
        have hu : d1.unit = d.unit := by rw [he]
        have hn2 : d2.unit.n = d1.unit.n := by rw [hrf.unit]
        have hb2 : d2.unit.buf = d1.unit.buf := by rw [hrf.unit]
        have ho2 : d2.unit.op = .readInto := hrf.op.trans h1.op
        have hadv : (d2.unit.advance b).toNat = d1.unit.n.toNat + b.length := by
          rw [DecUnit.toNat_advance (by rw [hn2]; rw [hu] at hlen ⊢; omega), hn2]
        have hbuf : (d2.store b).unit.buf = writeBuf d1.unit.buf d1.unit.n.toNat b := by
          rw [(Dec.store_readInto d2 b ho2).1, hn2, hb2]
        have hfit : d1.unit.n.toNat + b.length ≤ d1.unit.buf.length := by rw [hu] at hlen ⊢; omega
        left
        exact {
          phase := by rw [Dec.store_phase, hrf.unit]; exact h1.phase
          op0 := h.op0
          op := by rw [Dec.store_op]; exact ho2
          sel0 := h.sel0
          sel := by rw [Dec.store_sel, hrf.sel]; exact h1.sel
          busy := by rw [Dec.store_busy, hrf.busy]; exact h1.busy
          poison0 := h.poison0
          poison := by rw [Dec.store_poison, hrf.unit]; exact h1.poison
          result := by rw [Dec.store_result, hrf.unit]; exact h1.result
          items := by rw [Dec.store_items, hrf.unit]; exact h1.items
          flags := by rw [Dec.store_flags, hrf.unit]; exact h1.flags
          ibuf := by rw [(Dec.store_readInto d2 b ho2).2.1, hrf.ibuf h1.sel]; exact h1.ibuf
          out := by rw [Dec.store_out, hrf.unit]; exact h1.out
          fin := by rw [Dec.store_src, hrf.fin]; exact h1.fin
          later := by rw [Dec.store_src, hrf.later]; exact h1.later
          room := by rw [hbuf, writeBuf_length _ _ _ hfit]; exact h1.room
          chk := by rw [Dec.store_chk, hrf.unit]; exact h1.chk
          bytes := by
            rw [Dec.store_n, hadv, hbuf, Dec.store_src]
            unfold writeBuf
            rw [take_written _ _ _ hfit, h1.bytes, ← hstr, hst, hstr2, List.append_assoc]
          low := by rw [Dec.store_n, hadv]; have := h1.low; omega
          high := by rw [Dec.store_n, hadv, hbuf, writeBuf_length _ _ _ hfit]; exact hfit }
      · rename_i d2 hr
        obtain rfl := Option.some.inj ht
        obtain ⟨hrf, g1, g2, g3, g4, g5⟩ := Dec.srcRead_eos hr
        exact .inr (Dec.finishReadInto_ends (h1.read g5 g4 hrf.fin hrf.later))
      · rename_i e d2 hr
        obtain rfl := Option.some.inj ht
        obtain ⟨hrf, g0, g1, g2, g3, g5⟩ := Dec.srcRead_err hr
        have hstr : d1.stream = d1.src.rem := by simp [Dec.stream, h1.sel]
        have hstr2 : d2.stream = d2.src.rem := by simp [Dec.stream, hrf.sel, h1.sel]
        have h2 : Dec.AtOver x y s d0 d2 :=
          h1.read g5 (by rw [← hstr, ← hstr2, g1, g2]) hrf.fin hrf.later
        obtain ⟨ds', tk', he'⟩ := d2.draw_eq
        unfold Dec.errInOver
        revert he'
        generalize d2.draw = q
        obtain ⟨stop, d3⟩ := q
        dsimp only
        intro he'
        have h3 : Dec.AtOver x y s d0 d3 := h2.read (by rw [he']) (by rw [he']) (by rw [he']) (by rw [he'])
        right
        split
        · exact Dec.finishReadInto_ends h3
        · refine Dec.over_fail_ends h3 ?_ ?_ ?_
          · rw [he']; show d2.src.rem = []; rw [← hstr2]; exact g2
          · rw [he']
            show d2.src.fin = _
            rw [hrf.fin]
            simpa [Dec.streamEnd, h1.sel] using g3
          · rw [he']
            show d2.unit.n.toNat < d2.unit.buf.length
            rw [g5, he]
            show d.unit.n.toNat < d.unit.buf.length
            omega
    · obtain rfl := Option.some.inj ht
      exact .inr (Dec.finishReadInto_ends h1)

theorem Dec.OverEnds.idle {x y : List Byte} {s : Nat} {d0 d : Dec} (h : Dec.OverEnds x y s d0 d) : d.unit.busy = false := by
  rcases h with ⟨n, -, -, -, h, -⟩ | ⟨e, -, -, h⟩
  · exact h.ends.2.1
  · exact h.ends.2.1

theorem Dec.over_runOn {cfg : Config} {x y : List Byte} {s : Nat} {d0 : Dec} (k : Nat) {d : Dec} (hk : d.work ≤ k)
    (h : Dec.AtOver x y s d0 d) (hinv : d.Inv cfg) :
    d0.Waits (d.runOn cfg) ∨ Dec.OverEnds x y s d0 (d.runOn cfg) := by
  induction k generalizing d with
  | zero =>
    have := Dec.work_busy h.busy
    omega
  | succ k ih =>
    cases ht : d.transact cfg with
    | none =>
      left
      rw [Dec.runOn_none ht]
      exact {
        waits := ⟨by rw [h.phase]; simp, h.busy, h.op.trans h.op0.symm, h.result, h.poison.trans h.poison0.symm, h.out⟩
        silent := (Dec.transact_none hinv h.busy ht).2
        fin := h.fin
        later := h.later
        room := h.room
        list := fun _ => ⟨h.items, h.flags, h.ibuf⟩
        into := fun hn => absurd h.op0 hn }
    | some d' =>
      have hw := Dec.transact_work hinv ht
      have hinv' := Dec.transact_inv hinv ht
      rw [Dec.runOn_transact hinv ht]
      rcases Dec.over_transact h hinv ht with h1 | h1
      · exact ih (by omega) h1 hinv'
      · rw [Dec.runOn_idle h1.idle]; exact .inr h1

/-- How a whole READ_INTO ends, by what stands in the stream. -/
def Dec.IntoEnds (d0 d : Dec) : Prop :=
  match parsePrefix d0.src.fin d0.src.rem with
  | .hang => False
  | .stop r rest =>
    d0.Ended d r (prefixFlags d0.src.rem) rest ∧ d.unit.buf = d0.unit.buf
  | .value (_, s) y =>
    if d0.unit.buf.length < s then
      d0.Ended d (.insufficientBuffer (BitVec.ofNat 64 s) (BitVec.ofNat 64 d0.unit.buf.length)) (prefixFlags d0.src.rem) y ∧
        d.unit.buf = d0.unit.buf
    else if y.length < s then
      match (atEnd d0.src.fin (.truncated .payload) : Reading Unit) with
      | .stop r rest => d0.Ended d r (prefixFlags d0.src.rem) rest
      | _ => False
    else Dec.OverEnds d0.src.rem y s d0 d

theorem Dec.readInto_runOn {cfg : Config} {d0 : Dec} (h : d0.Inv cfg) (hb : d0.unit.busy = true)
    (hp : d0.unit.phase = .type) (ho : d0.unit.op = .readInto) (hsel : d0.unit.sel = .src) :
    d0.Waits (d0.runOn cfg) ∨ d0.IntoEnds (d0.runOn cfg) := by
  have hstr : d0.stream = d0.src.rem := by simp [Dec.stream, hsel]
  have hfin : d0.streamEnd = d0.src.fin := by simp [Dec.streamEnd, hsel]
  have hat : d0.At cfg d0.src.rem := by unfold Dec.At; rw [hp]; exact hstr
  have hpo := h.busy_clean hb
  have hcap : d0.unit.cap cfg = none := by simp [DecUnit.cap, ho]
  rcases Dec.runOn_frame _ le_rfl h hat (Dec.Rel.refl d0) with ⟨h1, h2, h3⟩ | ⟨d1, hend, hinv, -, hrun⟩
  · exact .inl (Dec.waits_of_quiet h2 (Dec.runOn_inv h) hb h1 h3)
  · rw [hrun]
    cases hend with
    | clean d1 rel hx hf hc hs hph =>
      right
      have hi : d1.unit.inner = false := DecUnit.inner_src (rel.sel.trans hsel)
      have he : d1.eosInType = d1.finish .cleanEos := by simp [Dec.eosInType, hi]
      rw [he, Dec.runOn_idle rfl]
      have := Dec.finish_ended rel hpo hsel .cleanEos
      rw [hs, hc] at this
      unfold Dec.IntoEnds
      rw [hx, ← hfin, hf]
      exact ⟨this, rel.buf (.inl (by rw [hph]; simp))⟩
    | stop d1 r rel hc _ hw hearly hlate hne hov =>
      right
      rw [Dec.runOn_idle (Dec.fail_idle _ _)]
      have hi : d1.unit.inner = false := DecUnit.inner_src (rel.sel.trans hsel)
      have hop : d1.unit.op = .readInto := rel.op.trans ho
      have hend : d0.Ended (d1.fail r) r (prefixFlags d0.src.rem) d1.stream := by
        rw [← hc]
        by_cases hs : d1.unit.bufHandedOut = true
        · have hfail : d1.fail r = d1.spoilBuf.finish r := by simp [Dec.fail, hi, hs]
          rw [hfail]
          have hf := Dec.finish_ended rel hpo hsel r
          exact {
            ends := hf.ends
            rem := hf.rem
            fin := hf.fin
            later := hf.later
            room := by show (freeBytes _ _).length = _; rw [freeBytes_length]; exact rel.room
            list := hf.list
            into := fun hn => absurd ho hn }
        · rw [Dec.fail_plain hi (by simpa using hs)]
          exact Dec.finish_ended rel hpo hsel r
      unfold Dec.IntoEnds
      by_cases hph : d1.unit.phase = .pay
      · obtain ⟨⟨t, s, y, hv, hroom⟩, hr⟩ := hlate hph ho
        have hw := hw (by simp [ho])
        rw [hfin] at hv hw
        rw [hcap, parseFrame_value hv] at hw
        rw [hv]
        dsimp only
        rw [if_neg (by omega)]
        simp only [passes_none, Bool.false_eq_true, if_false] at hw
        split at hw
        · rename_i hlt
          rw [if_pos hlt]
          cases hf : d0.src.fin with
          | eos =>
            rw [hf] at hw
            simp only [atEnd, Reading.stop.injEq] at hw
            simp only [atEnd]
            rw [hw.1, hw.2]; exact hend
          | err e =>
            rw [hf] at hw
            simp only [atEnd, Reading.stop.injEq] at hw
            simp only [atEnd]
            rw [hw.1, hw.2]; exact hend
          | never => rw [hf] at hw; simp [atEnd] at hw
        · cases hw
      · have hearly := hearly hph ho
        rw [hfin] at hearly
        rw [hearly]
        refine ⟨hend, ?_⟩
        have hs : d1.unit.bufHandedOut = false := by simp [DecUnit.bufHandedOut, hph, hov]
        rw [Dec.fail_plain hi hs]
        exact rel.buf (.inl hph)
    | size d1 _ _ ho' => rw [ho] at ho'; cases ho'
    | small d1 rel hc _ hv hroom hph =>
      right
      rw [Dec.runOn_idle (Dec.fail_idle _ _)]
      have hi : d1.unit.inner = false := DecUnit.inner_src (rel.sel.trans hsel)
      have hs : d1.unit.bufHandedOut = false := by simp [DecUnit.bufHandedOut, hph.1, hph.2]
      rw [Dec.fail_plain hi hs]
      rw [hfin] at hv
      unfold Dec.IntoEnds
      rw [hv]
      dsimp only
      rw [if_pos hroom, ← hc]
      have := Dec.finish_ended rel hpo hsel (.insufficientBuffer d1.unit.s (BitVec.ofNat 64 d0.unit.buf.length))
      refine ⟨by simpa using this, rel.buf (.inl hph.1)⟩
    | pay d1 rel hc _ hv hex hen hcnt hbd hroom hph =>
      have hop : d1.unit.op = .readInto := rel.op.trans ho
      have hs1 : d1.unit.sel = .src := rel.sel.trans hsel
      have hd : d1.payDone = { d1 with unit := { d1.unit with phase := .over } } := by simp [Dec.payDone, hop]
      have hg : d1.got = d1.unit.buf.take d1.unit.n.toNat := by simp [Dec.got, hop]
      have hst : d1.stream = d1.src.rem := by simp [Dec.stream, hs1]
      obtain ⟨hr1, hr2⟩ := hroom ho
      rw [hfin] at hv
      rw [hd] at hinv ⊢
      have hover : Dec.AtOver d0.src.rem (d1.got ++ d1.stream) d1.unit.s.toNat d0
          { d1 with unit := { d1.unit with phase := .over } } :=
        { phase := rfl
          op0 := ho
          op := hop
          sel0 := hsel
          sel := hs1
          busy := rel.busy.trans hb
          poison0 := hpo
          poison := rel.poison.trans hpo
          result := rel.result
          items := rel.items
          flags := rel.flags
          ibuf := rel.ibuf (by rw [hop]; simp)
          out := rel.out
          fin := rel.fin
          later := rel.later
          room := rel.room
          chk := hc
          bytes := by rw [hg, hst]
          low := by rw [hcnt] at hen; exact hen
          high := by show d1.unit.n.toNat ≤ d1.unit.buf.length; rw [rel.room]; exact hr2 }
      rcases Dec.over_runOn _ le_rfl hover hinv with hw | hends
      · exact .inl hw
      · right
        unfold Dec.IntoEnds
        rw [hv]
        dsimp only
        rw [if_neg (by omega), if_neg (by rw [List.length_append]; omega)]
        exact hends

end Sys2Proof.Machine
end

