-- ==== Sys2Proof/Laws/Machine.lean ====
section
/-! SUPPORT. The instructions and the step as a whole: what a command, a type byte and a move lead to when they answer
with a next state, each said once, and that the invariant of the machine is kept by each. -/

namespace Sys2Proof.Machine

/-! ### Commands -/

/-- A command goes on exactly when its unit is free and clean and its operand is within the contract (R169). -/
theorem admitted_next {b p o : Bool} {s t : State} (h : admitted b p o s = .next t) : b = false ∧ p = false ∧ o = true ∧ t = s := by
  cases b <;> cases p <;> cases o <;> simp_all [admitted]

theorem admitted_free {b p o : Bool} {s : State} (hb : b = false) (hp : p = false) (ho : o = true) : admitted b p o s = .next s := by
  subst hb hp ho; rfl

theorem Enc.Inv.clean_result {cfg : Config} {e : Enc} (h : e.Inv cfg) (hp : e.unit.poison = false) : e.unit.result = 0 := by
  have := h.poison_result
  simp_all

theorem Enc.acceptEncode_inv {cfg : Config} {e : Enc} (h : e.Inv cfg) (hp : e.unit.poison = false) (p : List Byte) :
    (e.acceptEncode p).Inv cfg :=
  Enc.startFrame_inv (e := { e with unit := { e.unit with op := .encode, busy := true, dst := .snk } })
    ⟨hp, h.clean_result hp, h.ibuf_cap⟩ rfl (by simp) p

theorem Enc.acceptEncodeList_rest {cfg : Config} {e : Enc} (h : e.Inv cfg) (hp : e.unit.poison = false)
    (l : List (List Byte)) :
    Enc.Rest cfg
      { e with unit := { e.unit with op := .encodeList, busy := true, ibuf := [], items := l, idx := 0 } } :=
  ⟨hp, h.clean_result hp, passes_zero _⟩

theorem Enc.acceptEncodeList_inv {cfg : Config} {e : Enc} (h : e.Inv cfg) (hp : e.unit.poison = false)
    (l : List (List Byte)) : (e.acceptEncodeList l).Inv cfg :=
  Enc.nextFrame_inv (Enc.acceptEncodeList_rest h hp l) rfl rfl

/-! ### Type bytes -/

theorem Dec.Inv.type_mid {cfg : Config} {d : Dec} (h : d.Inv cfg) (ht : d.unit.typeDue = true) : d.Mid cfg := by
  simp [DecUnit.typeDue] at ht
  exact h.mid ht.1 (by simp [ht.2])

theorem takeTypeRow_next {k : Dec → Dec} {s t : State} (h : takeTypeRow k s = .next t) :
    s.dec.unit.typeDue = true ∧ t = { s with dec := k s.dec } := by
  unfold takeTypeRow at h
  split at h
  · cases h; exact ⟨‹_›, rfl⟩
  · cases h

/-- A type byte ENC emits is its transaction of phase W_TYPE (R24, R89). -/
theorem Enc.emitType_due {cfg : Config} {e : Enc} {m : Nibble} (h : e.unit.typeDue m = true) :
    e.emitType cfg (encTypeByte m) = e.transact cfg := by
  simp [EncUnit.typeDue] at h
  simp [Enc.transact, h]

theorem emitTypeRow_next {m : Nibble} {s t : State} (h : emitTypeRow m s = .next t) :
    s.enc.unit.typeDue m = true ∧ t = { s with enc := (s.enc.transact s.cfg).getD s.enc } := by
  unfold emitTypeRow at h
  split at h
  · rename_i ht
    rw [Enc.emitType_due ht] at h
    refine ⟨ht, ?_⟩
    split at h <;> · cases h; simp [*]
  · cases h

/-- A type byte DEC awaits has, through its row, the effect the phase machine gives it (R23, R75). -/
theorem exec_decodeTypeDec {s : State} (h : s.dec.unit.typeDue = true) (t : Byte) :
    exec (decodeTypeDec t) s = .next { s with dec := s.dec.takeType s.cfg t } := by
  obtain ⟨hi, lo, rfl⟩ : ∃ hi lo, t = typeByte hi lo := ⟨typeHi t, typeLo t, by revert t; decide⟩
  have hc : lo.toNat < 16 := lo.isLt
  have : ∀ k : Fin 16, lo = BitVec.ofFin k →
      exec (decodeTypeDec (typeByte hi lo)) s = .next { s with dec := s.dec.takeType s.cfg (typeByte hi lo) } := by
    intro k hk
    subst hk
    fin_cases k <;>
      simp [decodeTypeDec, typeLo_typeByte, typeHi_typeByte, exec, execDecWidth0, execDecWidth1, execDecWidth2, execDecWidth3,
        execDecWidth4, execDecWidth5, execDecWidth6, execDecWidth7, execDecWidth8, execDecWidth9, execDecWidth10to11,
        execDecWidth12to15, takeTypeRow, h, Dec.takeType]
  exact this lo.toFin rfl

/-! ### Turns -/

/-- What a fetched thing comes to. -/
def Fetched.outcome (f : Fetched) : Host.Outcome State Fault Refusal :=
  match f with
  | .run i s => exec i s
  | .went s => .next s
  | .fault f => .fault f
  | .refuse r => .refused r

theorem step_eq (s : State) : step s = (fetch s).outcome := by
  unfold step Fetched.outcome
  split <;> simp_all

theorem Dec.srcRead_typeDue {d d' : Dec} {n : Nat} {b : List Byte} (h : d.srcRead n = some (.data b, d')) :
    d'.unit.typeDue = d.unit.typeDue := by
  have := (Dec.srcRead_data h).1.regs
  simp [DecUnit.typeDue, this]

/-- A turn that finds an answer is that transaction (R23). -/
theorem Dec.turn_some {cfg : Config} {d d' : Dec} (h : d.transact cfg = some d') : d.turn cfg = some d' := by
  simp [Dec.turn, h]

/-- A turn is a transaction, or an answer of a source that starves DEC (R60). -/
theorem Dec.turn_cases {cfg : Config} {d d' : Dec} (h : d.turn cfg = some d') :
    d.transact cfg = some d' ∨
      d.transact cfg = none ∧ d.src.starves = true ∧ Dec.transact cfg { d with src := d.src.starve } = some d' := by
  unfold Dec.turn at h
  cases ht : d.transact cfg with
  | some e => rw [ht] at h; exact .inl h
  | none =>
    rw [ht] at h
    cases hs : d.src.starves with
    | false => simp [hs] at h
    | true => exact .inr ⟨rfl, rfl, by simpa [hs] using h⟩

/-- Without an answer, and without a source that starves it, DEC has no turn. -/
theorem Dec.turn_none {cfg : Config} {d : Dec} (h : d.transact cfg = none) (hs : d.src.starves = false) : d.turn cfg = none := by
  simp [Dec.turn, h, hs]

/-- An idle DEC has no turn. -/
theorem Dec.turn_idle {cfg : Config} {d : Dec} (h : d.unit.busy = false) : d.turn cfg = none := by
  simp [Dec.turn, Dec.transact, h]

/-- A source starves DEC when it has bytes left, no choice listed, and gives no bytes from here on. -/
theorem Source.starves_iff {src : Source} : src.starves = true ↔ src.rem ≠ [] ∧ src.cuts = [] ∧ src.later = .empty := by
  simp [Source.starves, and_assoc]

/-- The answer of a source that starves DEC: no bytes, and nothing changes but the record of requests (R40, R60). -/
theorem Source.starve_answer {src : Source} (h : src.starves = true) (n : Nat) :
    src.starve.answer n = some (.data [], { src with asked := src.asked ++ [n] }) := by
  obtain ⟨hr, hc, -⟩ := Source.starves_iff.mp h
  obtain ⟨x, xs, hx⟩ := List.exists_cons_of_ne_nil hr
  cases src
  simp_all [Source.starve, Source.answer, Source.handOver]

/-- A turn of DEC is one transaction of its phase machine, a type byte that arrives included (R23). -/
theorem decTurn_outcome (s : State) :
    (decTurn s).outcome = .next { s with dec := (s.dec.turn s.cfg).getD s.dec } := by
  unfold decTurn Dec.arrivingType
  by_cases ht : s.dec.unit.typeDue = true
  · have hp : s.dec.unit.busy = true ∧ s.dec.unit.phase = .type := by simpa [DecUnit.typeDue] using ht
    simp only [ht, if_true]
    rcases hr : s.dec.srcRead 1 with _ | ⟨_ | _ | _, d⟩
    · cases s.dec.turn s.cfg <;> simp [Fetched.outcome]
    · rename_i b
      cases b with
      | nil => cases s.dec.turn s.cfg <;> simp [Fetched.outcome]
      | cons t ts =>
        have := exec_decodeTypeDec (s := { s with dec := d }) (by simpa using (Dec.srcRead_typeDue hr).trans ht) t
        have htr : s.dec.transact s.cfg = some (d.takeType s.cfg t) := by simp [Dec.transact, hp, Dec.tickType, hr]
        simp [Dec.turn_some htr, Fetched.outcome, this]
    all_goals cases s.dec.turn s.cfg <;> simp [Fetched.outcome]
  · simp only [ht]
    cases s.dec.turn s.cfg <;> simp [Fetched.outcome]

/-- ENC emits no type byte but the four of its rows (R64). -/
theorem decodeTypeEnc_encTypeByte {m : Nibble} {i : Instr} (h : decodeTypeEnc (encTypeByte m) = some i) (s : State) :
    exec i s = emitTypeRow m s := by
  have : ∀ m : Nibble, decodeTypeEnc (encTypeByte m) =
      if m = 1 then some .typeF1 else if m = 2 then some .typeF2 else if m = 4 then some .typeF4
      else if m = 8 then some .typeF8 else none := by decide
  rw [this] at h
  split at h
  · cases h; subst m; rfl
  · split at h
    · cases h; subst m; rfl
    · split at h
      · cases h; subst m; rfl
      · split at h
        · cases h; subst m; rfl
        · cases h

theorem Enc.emitTypeRow_due {s : State} (hb : s.enc.unit.busy = true ∧ s.enc.unit.phase = .wType) :
    emitTypeRow s.enc.unit.m s = .next { s with enc := (s.enc.transact s.cfg).getD s.enc } := by
  have hd : s.enc.unit.typeDue s.enc.unit.m = true := by simp [EncUnit.typeDue, hb]
  simp only [emitTypeRow, hd, if_true, Enc.emitType_due hd]
  cases s.enc.transact s.cfg <;> simp

/-- A turn of ENC that goes on is one transaction of its phase machine, the type byte it emits included (R24). -/
theorem encTurn_next {s t : State} (h : (encTurn s).outcome = .next t) :
    t = { s with enc := (s.enc.transact s.cfg).getD s.enc } := by
  unfold encTurn at h
  split at h
  · rename_i hb
    split at h
    · rename_i i hi
      rw [Fetched.outcome, decodeTypeEnc_encTypeByte hi, Enc.emitTypeRow_due hb] at h
      cases h; rfl
    · cases h
  · split at h <;> · cases h; simp [*]

/-- Under the invariant a turn of ENC always goes on. -/
theorem encTurn_outcome {s : State} (h : s.enc.Inv s.cfg) :
    (encTurn s).outcome = .next { s with enc := (s.enc.transact s.cfg).getD s.enc } := by
  unfold encTurn
  split
  · rename_i hb
    have hm := h.width hb.1
    have : ∃ i, decodeTypeEnc (encTypeByte s.enc.unit.m) = some i := by
      rcases mEnc_cases s.enc.unit.payload.length with h1 | h1 | h1 | h1 <;> rw [h1] at hm <;> rw [hm]
      · exact ⟨.typeF1, by decide⟩
      · exact ⟨.typeF2, by decide⟩
      · exact ⟨.typeF4, by decide⟩
      · exact ⟨.typeF8, by decide⟩
    obtain ⟨i, hi⟩ := this
    simp only [hi, Fetched.outcome, decodeTypeEnc_encTypeByte hi, Enc.emitTypeRow_due hb]
  · cases s.enc.transact s.cfg <;> simp [Fetched.outcome]

/-! ### Steps -/

theorem beginCommand_outcome (s : State) (op : OpCode) (o : Operands) :
    (s.beginCommand op o).outcome = acceptOnly op { s with cmd := o } := by
  unfold State.beginCommand
  split <;> simp_all [Fetched.outcome]

/-- What accepting a command and no more leads to. -/
theorem acceptOnly_next {op : OpCode} {s t : State} (h : acceptOnly op s = .next t) :
    (s.enc.unit.busy = false ∧ s.enc.unit.poison = false ∧
      ((op = 1 ∧ s.cmd.encodeOk = true ∧ t = { s with enc := s.enc.acceptEncode s.cmd.payload }) ∨
        (op = 2 ∧ s.cmd.encodeListOk s.cfg = true ∧ t = { s with enc := s.enc.acceptEncodeList s.cmd.items }))) ∨
    (s.dec.unit.busy = false ∧ s.dec.unit.poison = false ∧
      ((op = 4 ∧ t = { s with dec := s.dec.accept .peekSize }) ∨ (op = 5 ∧ t = { s with dec := s.dec.accept .readBytes }) ∨
        (op = 6 ∧ s.cmd.readIntoOk = true ∧ t = { s with dec := s.dec.acceptReadInto s.cmd.buf }) ∨
        (op = 7 ∧ t = { s with dec := s.dec.acceptDecodeList }))) := by
  have key : ∀ n, op.toNat = n → op = BitVec.ofNat 3 n := by
    intro n hn; rw [← hn]; simp
  unfold acceptOnly at h
  split at h
  · obtain ⟨h1, h2, h3, rfl⟩ := admitted_next h
    exact .inl ⟨h1, h2, .inl ⟨key _ ‹_›, h3, rfl⟩⟩
  · obtain ⟨h1, h2, h3, rfl⟩ := admitted_next h
    exact .inl ⟨h1, h2, .inr ⟨key _ ‹_›, h3, rfl⟩⟩
  · obtain ⟨h1, h2, h3, rfl⟩ := admitted_next h
    exact .inr ⟨h1, h2, .inl ⟨key _ ‹_›, rfl⟩⟩
  · obtain ⟨h1, h2, h3, rfl⟩ := admitted_next h
    exact .inr ⟨h1, h2, .inr (.inl ⟨key _ ‹_›, rfl⟩)⟩
  · obtain ⟨h1, h2, h3, rfl⟩ := admitted_next h
    exact .inr ⟨h1, h2, .inr (.inr (.inl ⟨key _ ‹_›, h3, rfl⟩))⟩
  · obtain ⟨h1, h2, h3, rfl⟩ := admitted_next h
    exact .inr ⟨h1, h2, .inr (.inr (.inr ⟨key _ ‹_›, rfl⟩))⟩
  · cases h

/-- A command only accepted keeps the invariant. -/
theorem acceptOnly_inv {op : OpCode} {s t : State} (h : s.Inv) (ha : acceptOnly op s = .next t) : t.Inv := by
  rcases acceptOnly_next ha with
    ⟨-, hp, ⟨-, -, rfl⟩ | ⟨-, -, rfl⟩⟩ | ⟨-, hp, ⟨-, rfl⟩ | ⟨-, rfl⟩ | ⟨-, ho, rfl⟩ | ⟨-, rfl⟩⟩
  · exact ⟨Enc.acceptEncode_inv h.enc hp _, h.dec⟩
  · exact ⟨Enc.acceptEncodeList_inv h.enc hp _, h.dec⟩
  · exact ⟨h.enc, Dec.accept_mid h.dec hp _ (by simp) (by simp)⟩
  · exact ⟨h.enc, Dec.accept_mid h.dec hp _ (by simp) (by simp)⟩
  · exact ⟨h.enc, Dec.acceptReadInto_inv h.dec hp (by simpa [Operands.readIntoOk, fits64] using ho)⟩
  · exact ⟨h.enc, Dec.acceptDecodeList_inv h.dec hp⟩

/-- All that a step which goes on can be: a command, a command only accepted, a reset, a draw,
answers of the environment, a turn of DEC, a turn of ENC. -/
theorem step_next {s t : State} (h : step s = .next t) :
    (∃ op o ms, s.moves = .command op o :: ms ∧ exec (decodeCmd op) { s with moves := ms, cmd := o } = .next t) ∨
    (∃ op o ms, s.moves = .begin op o :: ms ∧ acceptOnly op { s with moves := ms, cmd := o } = .next t) ∨
    (∃ source sink ms, s.moves = .reset source sink :: ms ∧ t = State.resetBlock { s with moves := ms } source sink) ∨
    (∃ k ms, s.moves = .draw k :: ms ∧ s.dec.unit.busy = false ∧
      t = { s with moves := ms, dec := { s.dec with src := { s.dec.src with rem := s.dec.src.rem.drop k } } }) ∨
    (∃ cuts later ms, s.moves = .sourceAnswers cuts later :: ms ∧
      t = { s with moves := ms, dec := { s.dec with
        src := { s.dec.src with cuts := s.dec.src.cuts ++ cuts, later := later } } }) ∨
    (∃ answers later ms, s.moves = .sinkAnswers answers later :: ms ∧
      t = { s with moves := ms, enc := { s.enc with
        snk := { s.enc.snk with answers := s.enc.snk.answers ++ answers, later := later } } }) ∨
    (∃ ms, (s.moves = .turn .dec :: ms ∨ s.moves = [] ∧ ms = []) ∧
      t = { s with moves := ms, dec := (s.dec.turn s.cfg).getD s.dec }) ∨
    ∃ ms, (s.moves = .turn .enc :: ms ∨ s.moves = [] ∧ ms = []) ∧
      t = { s with moves := ms, enc := (s.enc.transact s.cfg).getD s.enc } := by
  rw [step_eq] at h
  unfold fetch at h
  split at h
  · rename_i m ms hm
    cases m with
    | command op o => exact .inl ⟨op, o, ms, hm, h⟩
    | begin op o => exact .inr (.inl ⟨op, o, ms, hm, (beginCommand_outcome { s with moves := ms } op o).symm.trans h⟩)
    | reset source sink => cases h; exact .inr (.inr (.inl ⟨source, sink, ms, hm, rfl⟩))
    | draw k =>
      simp only [hostMove, State.hostDraw] at h
      split at h
      · cases h
      · rename_i hb
        cases h
        exact .inr (.inr (.inr (.inl ⟨k, ms, hm, by simpa using hb, rfl⟩)))
    | sourceAnswers cuts later => cases h; exact .inr (.inr (.inr (.inr (.inl ⟨cuts, later, ms, hm, rfl⟩))))
    | sinkAnswers answers later => cases h; exact .inr (.inr (.inr (.inr (.inr (.inl ⟨answers, later, ms, hm, rfl⟩)))))
    | turn side =>
      cases side with
      | dec =>
        rw [hostMove, decTurn_outcome] at h
        cases h
        exact .inr (.inr (.inr (.inr (.inr (.inr (.inl ⟨ms, .inl hm, rfl⟩))))))
      | enc =>
        rw [hostMove] at h
        exact .inr (.inr (.inr (.inr (.inr (.inr (.inr ⟨ms, .inl hm, encTurn_next h⟩))))))
  · rename_i hm
    split at h
    · rw [decTurn_outcome] at h
      cases h
      exact .inr (.inr (.inr (.inr (.inr (.inr (.inl ⟨[], .inr ⟨hm, rfl⟩, by rw [← hm]⟩))))))
    · split at h
      · refine .inr (.inr (.inr (.inr (.inr (.inr (.inr ⟨[], .inr ⟨hm, rfl⟩, ?_⟩))))))
        rw [encTurn_next h, ← hm]
      · rw [decTurn_outcome] at h
        cases h
        exact .inr (.inr (.inr (.inr (.inr (.inr (.inl ⟨[], .inr ⟨hm, rfl⟩, by rw [← hm]⟩))))))

/-- A step with no move to come. -/
theorem step_alone {s : State} (h : s.Inv) (hm : s.moves = []) :
    step s = .next
      (match s.dec.transact s.cfg, s.enc.transact s.cfg with
      | some d, _ => { s with dec := d }
      | none, some e => { s with enc := e }
      | none, none => { s with dec := (s.dec.turn s.cfg).getD s.dec }) := by
  rw [step_eq]
  unfold fetch
  simp only [hm]
  cases hd : s.dec.transact s.cfg with
  | some d => simp [decTurn_outcome, Dec.turn_some hd, hm]
  | none =>
    cases he : s.enc.transact s.cfg with
    | some e => simp [encTurn_outcome h.enc, he, hm]
    | none => simp [decTurn_outcome, hm]

/-! ### The streams -/

theorem Source.consumed.refl (a : Source) : a.consumed a := ⟨rfl, rfl, List.suffix_refl _, List.suffix_refl _, List.prefix_refl _⟩

theorem Source.consumed.trans {a b c : Source} (h : a.consumed b) (h' : b.consumed c) : a.consumed c :=
  ⟨h'.fin.trans h.fin, h'.later.trans h.later, h'.rem.trans h.rem, h'.cuts.trans h.cuts, h.asked.trans h'.asked⟩

theorem Sink.grown.refl (a : Sink) : a.grown a := ⟨rfl, List.prefix_refl _, List.suffix_refl _, List.prefix_refl _⟩

theorem Sink.grown.trans {a b c : Sink} (h : a.grown b) (h' : b.grown c) : a.grown c :=
  ⟨h'.later.trans h.later, h.acc.trans h'.acc, h'.answers.trans h.answers, h.offered.trans h'.offered⟩

theorem Source.answer_consumed {src src' : Source} {n : Nat} {r : SrcReply} (h : src.answer n = some (r, src')) :
    src.consumed src' := by
  unfold Source.answer at h
  split at h
  · split at h <;> cases h <;>
      exact ⟨rfl, rfl, List.suffix_refl _, List.suffix_refl _, List.prefix_append _ _⟩
  · split at h
    · rename_i hc
      cases h
      exact ⟨rfl, rfl, List.drop_suffix _ _, by simp [hc, List.suffix_cons], List.prefix_append _ _⟩
    · rename_i hc
      split at h <;> cases h
      exact ⟨rfl, rfl, List.drop_suffix _ _, by simp [hc], List.prefix_append _ _⟩

theorem Sink.answer_grown {snk snk' : Sink} {x : List Byte} {r : SinkReply} (h : snk.answer x = some (r, snk')) :
    snk.grown snk' := by
  unfold Sink.answer at h
  split at h
  · rename_i hc
    cases h
    exact ⟨rfl, List.prefix_append _ _, by simp [hc, List.suffix_cons], List.prefix_append _ _⟩
  · rename_i hc
    cases h
    exact ⟨rfl, List.prefix_append _ _, by simp [hc, List.suffix_cons], List.prefix_append _ _⟩
  · rename_i hc
    split at h <;> cases h
    exact ⟨rfl, List.prefix_append _ _, by simp [hc], List.prefix_append _ _⟩

theorem Dec.srcRead_consumed {d d' : Dec} {n : Nat} {r : SrcReply} (h : d.srcRead n = some (r, d')) :
    d.src.consumed d'.src := by
  unfold Dec.srcRead at h
  split at h
  · split at h <;> cases h
    exact Source.answer_consumed ‹_›
  · cases h; exact Source.consumed.refl _

theorem Dec.fail_src (d : Dec) (r : Result) : (d.fail r).src = d.src := by
  unfold Dec.fail
  split
  · rfl
  · split <;> rfl

theorem Dec.payDone_src (d : Dec) : d.payDone.src = d.src := by
  unfold Dec.payDone
  split <;> try rfl
  split <;> rfl

theorem Dec.afterSize_src (cfg : Config) (d : Dec) : (d.afterSize cfg).src = d.src := by
  unfold Dec.afterSize
  split <;> try rfl
  all_goals
    split
    · exact Dec.fail_src _ _
    · split
      · exact Dec.payDone_src _
      · rfl

theorem Dec.takeType_src (cfg : Config) (d : Dec) (t : Byte) : (d.takeType cfg t).src = d.src := by
  unfold Dec.takeType
  split
  · exact Dec.afterSize_src _ _
  · split
    · rfl
    · exact Dec.fail_src _ _

theorem Dec.takeLen_src (cfg : Config) (d : Dec) (b : List Byte) : (d.takeLen cfg b).src = d.src := by
  unfold Dec.takeLen
  dsimp only
  split
  · rfl
  · exact Dec.afterSize_src _ _

theorem Dec.takePay_src (d : Dec) (b : List Byte) : (d.takePay b).src = d.src := by
  unfold Dec.takePay
  split
  · exact (Dec.store_regs _ _).2.2.2.2.2.2.2.2.2.2.2.2.2.2.1
  · exact (Dec.payDone_src _).trans (Dec.store_regs _ _).2.2.2.2.2.2.2.2.2.2.2.2.2.2.1

theorem Dec.eosInType_src (d : Dec) : d.eosInType.src = d.src := by
  unfold Dec.eosInType
  split <;> rfl

theorem Dec.draw_src (d : Dec) : d.draw.2.src = d.src := by
  obtain ⟨ds, tk, h⟩ := Dec.draw_eq d
  rw [h]

theorem Dec.errInOver_src (d : Dec) (e : EnvError) : (d.errInOver e).src = d.src := by
  unfold Dec.errInOver
  dsimp only
  split
  · exact Dec.draw_src _
  · exact (Dec.fail_src _ _).trans (Dec.draw_src _)

/-- A transaction of DEC only goes forward in its source (R42, R47). -/
theorem Dec.transact_consumed {cfg : Config} {d d' : Dec} (ht : d.transact cfg = some d') : d.src.consumed d'.src := by
  unfold Dec.transact at ht
  split at ht
  · split at ht
    · cases ht
    · unfold Dec.tickType at ht
      split at ht <;> cases ht <;> rename_i hr
      · exact Dec.srcRead_consumed hr
      · rw [Dec.takeType_src]; exact Dec.srcRead_consumed hr
      · rw [Dec.eosInType_src]; exact Dec.srcRead_consumed hr
      · rw [Dec.fail_src]; exact Dec.srcRead_consumed hr
    · unfold Dec.tickLen at ht
      split at ht <;> cases ht <;> rename_i hr
      · rw [Dec.takeLen_src]; exact Dec.srcRead_consumed hr
      · rw [Dec.fail_src]; exact Dec.srcRead_consumed hr
      · rw [Dec.fail_src]; exact Dec.srcRead_consumed hr
    · unfold Dec.tickPay at ht
      split at ht <;> cases ht <;> rename_i hr
      · rw [Dec.takePay_src]; exact Dec.srcRead_consumed hr
      · rw [Dec.fail_src]; exact Dec.srcRead_consumed hr
      · rw [Dec.fail_src]; exact Dec.srcRead_consumed hr
    · unfold Dec.tickOver at ht
      dsimp only at ht
      split at ht
      · cases ht; exact Source.consumed.refl _
      · split at ht
        · split at ht <;> cases ht <;> rename_i hr
          all_goals
            have hc := Dec.srcRead_consumed hr
            rw [Dec.draw_src] at hc
          · rw [(Dec.store_regs _ _).2.2.2.2.2.2.2.2.2.2.2.2.2.2.1]; exact hc
          · exact hc
          · rw [Dec.errInOver_src]; exact hc
        · cases ht
          show d.src.consumed d.draw.2.src
          rw [Dec.draw_src]; exact Source.consumed.refl _
  · cases ht

/-- A turn of DEC takes bytes from the front of its source and asks for more, and nothing else. -/
theorem Dec.turn_src {cfg : Config} {d d' : Dec} (ht : d.turn cfg = some d') :
    d'.src.fin = d.src.fin ∧ d'.src.later = d.src.later ∧ d'.src.rem <:+ d.src.rem ∧ d.src.asked <+: d'.src.asked := by
  rcases Dec.turn_cases ht with h | ⟨-, -, h⟩
  · have := Dec.transact_consumed h
    exact ⟨this.fin, this.later, this.rem, this.asked⟩
  · have := Dec.transact_consumed h
    exact ⟨this.fin, this.later, this.rem, this.asked⟩

theorem Dec.runOn_consumed {cfg : Config} (d : Dec) : d.src.consumed (d.runOn cfg).src :=
  Dec.run_induct (P := fun x => d.src.consumed x.src) (fun _ _ hp ht => hp.trans (Dec.transact_consumed ht)) _
    (Source.consumed.refl _)

theorem Enc.sinkWrite_grown {cfg : Config} {e e' : Enc} {x : List Byte} {r : SinkReply}
    (h : e.sinkWrite cfg x = some (r, e')) : e.snk.grown e'.snk := by
  unfold Enc.sinkWrite at h
  split at h
  · split at h <;> cases h
    exact Sink.answer_grown ‹_›
  · split at h <;> cases h <;> exact Sink.grown.refl _

theorem Enc.emit_grown {cfg : Config} {e e' : Enc} {x : List Byte} {k : Enc → Enc} (hk : ∀ e, (k e).snk = e.snk)
    (h : e.emit cfg x k = some e') : e.snk.grown e'.snk := by
  unfold Enc.emit at h
  split at h
  · cases h; rw [hk]; exact Sink.grown.refl _
  · split at h
    · cases h
    · rename_i hw
      split at h <;> cases h
      · rw [hk]; exact (Enc.sinkWrite_grown hw : e.snk.grown _)
      · exact (Enc.sinkWrite_grown hw : e.snk.grown _)
    · rename_i hw
      cases h; exact (Enc.sinkWrite_grown hw : e.snk.grown _)
    · rename_i hw
      cases h; exact (Enc.sinkWrite_grown hw : e.snk.grown _)

theorem Enc.nextFrame_snk (e : Enc) : e.nextFrame.snk = e.snk := by
  unfold Enc.nextFrame
  split <;> rfl

theorem Enc.frameDone_sink (e : Enc) : e.frameDone.snk = e.snk := by
  unfold Enc.frameDone
  split
  · exact Enc.nextFrame_snk _
  · rfl

/-- A transaction of ENC only adds to its sink (R44, R45). -/
theorem Enc.transact_grown {cfg : Config} {e e' : Enc} (ht : e.transact cfg = some e') : e.snk.grown e'.snk := by
  unfold Enc.transact at ht
  split at ht
  · split at ht
    · cases ht
    · unfold Enc.emitType at ht
      refine Enc.emit_grown ?_ ht
      exact fun _ => rfl
    · unfold Enc.emitLen at ht
      refine Enc.emit_grown ?_ ht
      exact fun _ => rfl
    · exact Enc.emit_grown Enc.frameDone_sink ht
  · cases ht

theorem Enc.runOn_grown {cfg : Config} (e : Enc) : e.snk.grown (e.runOn cfg).snk :=
  Enc.run_induct (P := fun x => e.snk.grown x.snk) (fun _ _ hp ht => hp.trans (Enc.transact_grown ht)) _
    (Sink.grown.refl _)

/-! ### The invariant -/

theorem Enc.initial_inv (cfg : Config) (snk : Sink) (out : List EncDelivery) :
    Enc.Inv cfg ⟨{ EncUnit.initial with out := out }, snk⟩ := by
  constructor <;> simp [EncUnit.initial]

theorem Dec.initial_inv (cfg : Config) (src : Source) (draws : List Bool) (tick : Nat) (out : List Delivery) (buf : List Byte) :
    Dec.Inv cfg ⟨{ DecUnit.initial with out := out, buf := buf }, src, draws, tick⟩ := by
  constructor <;> simp [DecUnit.initial, Chk.clear]

/-- The invariant does not speak of the source, the draws or the counter. -/
theorem Dec.inv_src {cfg : Config} {d : Dec} (h : d.Inv cfg) (src : Source) : Dec.Inv cfg { d with src := src } :=
  ⟨h.busy_phase, h.busy_clean, h.poison_result, h.chk_order, h.flags_order, h.type_clear, h.len_range, h.pay_range, h.over_range,
    h.buf_size, h.buf_room, h.pay_count, h.outer_count, h.inner_count, h.inner_list, h.outer_empty, h.ibuf_cap⟩

/-- A turn of DEC keeps the invariant. -/
theorem Dec.turn_inv {cfg : Config} {d d' : Dec} (h : d.Inv cfg) (ht : d.turn cfg = some d') : d'.Inv cfg := by
  rcases Dec.turn_cases ht with h' | ⟨-, -, h'⟩
  · exact Dec.transact_inv h h'
  · exact Dec.transact_inv (Dec.inv_src h _) h'

/-- The answer DEC gets from a source that starves it. -/
theorem Dec.starve_srcRead {d : Dec} (hsel : d.unit.sel = .src) (hs : d.src.starves = true) (n : Nat) :
    Dec.srcRead { d with src := d.src.starve } n = some (.data [], { d with src := { d.src with asked := d.src.asked ++ [n] } }) := by
  simp [Dec.srcRead, hsel, Source.starve_answer hs]

/-- No payload bytes, nothing stored. -/
theorem Dec.store_nil (d : Dec) : d.store [] = d := by
  cases ho : d.unit.op <;> cases hs : d.unit.sel <;> simp [Dec.store, DecUnit.advance, writeBuf, ho, hs] <;>
    rw [← ho, ← hs]

/-- No length bytes, nothing latched (R23). -/
theorem Dec.takeLen_nil {cfg : Config} {d : Dec} (h : d.unit.n.toNat < d.unit.m.toNat) : d.takeLen cfg [] = d := by
  simp [Dec.takeLen, DecUnit.advance, writeLb, h]

/-- No payload bytes, nothing changed (R23). -/
theorem Dec.takePay_nil {d : Dec} (h : d.unit.n.toNat < d.unit.s.toNat) : d.takePay [] = d := by
  simp [Dec.takePay, Dec.store_nil, h]

/-- A DEC that awaits its source and is starved is answered with no bytes, and stays where it is (R60). -/
theorem Dec.starved_turn {cfg : Config} {d : Dec} (h : d.Inv cfg) (hb : d.unit.busy = true) (ht : d.transact cfg = none)
    (hs : d.src.starves = true) :
    ∃ d' n, d.turn cfg = some d' ∧ d'.unit = d.unit ∧ 1 ≤ n ∧ d'.src = { d.src with asked := d.src.asked ++ [n] } ∧
      (d.unit.phase ≠ .over → d'.draws = d.draws ∧ d'.tick = d.tick) := by
  have hsel := (Dec.transact_none h hb ht).1
  have hr := Dec.starve_srcRead hsel hs
  have htr : d.turn cfg = Dec.transact cfg { d with src := d.src.starve } := by simp [Dec.turn, ht, hs]
  rw [htr]
  have mk : ∀ n, 1 ≤ n → Dec.transact cfg { d with src := d.src.starve } =
        some { d with src := { d.src with asked := d.src.asked ++ [n] } } →
      ∃ d' n, Dec.transact cfg { d with src := d.src.starve } = some d' ∧ d'.unit = d.unit ∧ 1 ≤ n ∧
        d'.src = { d.src with asked := d.src.asked ++ [n] } ∧
        (d.unit.phase ≠ .over → d'.draws = d.draws ∧ d'.tick = d.tick) :=
    fun n hn hd => ⟨_, n, hd, rfl, hn, rfl, fun _ => ⟨rfl, rfl⟩⟩
  rcases hp : d.unit.phase with _ | _ | _ | _ | _
  · exact absurd hp (h.busy_phase.mp hb)
  · rw [← hp]; exact mk 1 le_rfl (by simp [Dec.transact, hb, hp, Dec.tickType, hr])
  · obtain ⟨-, -, hn⟩ := h.len_range hp
    rw [← hp]
    refine mk (d.unit.m.toNat - d.unit.n.toNat) (by omega) ?_
    simp [Dec.transact, hb, hp, Dec.tickLen, hr, Dec.takeLen_nil, hn]
  · obtain ⟨hn, -⟩ := h.pay_range hp
    rw [← hp]
    refine mk d.unit.payRequest ?_ ?_
    · unfold DecUnit.payRequest
      split
      · rename_i ho
        have := h.buf_room hp ho
        omega
      · omega
    · simp [Dec.transact, hb, hp, Dec.tickPay, hr, Dec.takePay_nil, hn]
  · have hov : d.transact cfg = d.tickOver := by simp [Dec.transact, hb, hp]
    rw [hov] at ht
    have hov : Dec.transact cfg { d with src := d.src.starve } = Dec.tickOver { d with src := d.src.starve } := by
      simp [Dec.transact, hb, hp]
    rw [hov]
    have hdr : Dec.draw { d with src := d.src.starve } = (d.draw.1, { d.draw.2 with src := d.src.starve }) := by
      unfold Dec.draw; dsimp only; split <;> rfl
    obtain ⟨ds, tk, he⟩ := d.draw_eq
    unfold Dec.tickOver at ht ⊢
    rw [hdr]
    dsimp only at ht ⊢
    split at ht
    · simp at ht
    · rename_i hlt
      rw [if_neg hlt]
      split at ht
      · rename_i hgo
        rw [if_pos hgo, he]
        have hr2 := Dec.starve_srcRead (d := { d with draws := ds, tick := tk }) hsel hs (d.unit.buf.length - d.unit.n.toNat)
        dsimp only at hr2 ⊢
        rw [hr2]
        dsimp only
        exact ⟨_, d.unit.buf.length - d.unit.n.toNat, rfl, by rw [Dec.store_nil], by omega, by rw [Dec.store_nil],
          fun hh => absurd rfl hh⟩
      · simp at ht

/-- An instruction of DEC leaves a DEC that keeps the invariant, and changes nothing else. -/
theorem Dec.exec_inv {i : Instr} {s t : State} (h : s.dec.Inv s.cfg) (hw : i.wf = true) (hs : sideOf i = some .dec)
    (he : exec i s = .next t) : t.dec.Inv s.cfg ∧ t = { s with dec := t.dec } := by
  have row : ∀ {k : Dec → Dec}, takeTypeRow k s = .next t → (s.dec.Mid s.cfg → (k s.dec).Inv s.cfg) →
      t.dec.Inv s.cfg ∧ t = { s with dec := t.dec } := by
    intro k hk hk'
    obtain ⟨hd, rfl⟩ := takeTypeRow_next hk
    exact ⟨hk' (h.type_mid hd), rfl⟩
  cases i <;> simp only [exec, sideOf] at he hs
  case peekSize =>
    obtain ⟨-, hp, -, rfl⟩ := admitted_next he
    exact ⟨Dec.runOn_inv (Dec.accept_mid h hp _ (by simp) (by simp)), rfl⟩
  case readBytes =>
    obtain ⟨-, hp, -, rfl⟩ := admitted_next he
    exact ⟨Dec.runOn_inv (Dec.accept_mid h hp _ (by simp) (by simp)), rfl⟩
  case readInto =>
    obtain ⟨-, hp, ho, rfl⟩ := admitted_next he
    exact ⟨Dec.runOn_inv (Dec.acceptReadInto_inv h hp (by simpa [Operands.readIntoOk, fits64] using ho)), rfl⟩
  case decodeList =>
    obtain ⟨-, hp, -, rfl⟩ := admitted_next he
    exact ⟨Dec.runOn_inv (Dec.acceptDecodeList_inv h hp), rfl⟩
  case decWidth0 hi => exact row he fun hm => Dec.takeWidthZero_inv hm _
  case decWidth9 hi => exact row he fun hm => Dec.takeBadWidth_inv hm _
  case decWidth10to11 hi m => exact row he fun hm => Dec.takeBadWidth_inv hm _
  case decWidth12to15 hi m => exact row he fun hm => Dec.takeBadWidth_inv hm _
  all_goals first
    | cases hs; done
    | exact row he fun hm => Dec.takeWidth_inv hm _ (by simp [typeLo_typeByte]) (by simp [typeLo_typeByte])

/-- An instruction of ENC leaves an ENC that keeps the invariant, and changes nothing else. -/
theorem Enc.exec_inv {i : Instr} {s t : State} (h : s.enc.Inv s.cfg) (hs : sideOf i = some .enc)
    (he : exec i s = .next t) : t.enc.Inv s.cfg ∧ t = { s with enc := t.enc } := by
  have row : ∀ {m : Nibble}, emitTypeRow m s = .next t → t.enc.Inv s.cfg ∧ t = { s with enc := t.enc } := by
    intro m hk
    obtain ⟨-, rfl⟩ := emitTypeRow_next hk
    refine ⟨?_, rfl⟩
    cases ht : s.enc.transact s.cfg with
    | none => simpa using h
    | some e => simpa using Enc.transact_inv h ht
  cases i <;> simp only [exec, sideOf] at he hs
  case encode =>
    obtain ⟨-, hp, -, rfl⟩ := admitted_next he
    exact ⟨Enc.runOn_inv (Enc.acceptEncode_inv h hp _), rfl⟩
  case encodeList =>
    obtain ⟨-, hp, -, rfl⟩ := admitted_next he
    exact ⟨Enc.runOn_inv (Enc.acceptEncodeList_inv h hp _), rfl⟩
  all_goals first
    | cases hs; done
    | exact row he

theorem exec_side {i : Instr} {s t : State} (he : exec i s = .next t) : sideOf i = some .dec ∨ sideOf i = some .enc := by
  cases i <;> simp_all [sideOf, exec, execReserved000, execReserved011]

/-! ### The requests of DEC -/

/-- The size of the request DEC makes in the phase it is in (R23, R47, R111). -/
def DecUnit.wants (u : DecUnit) : Nat :=
  match u.phase with
  | .idle => 0
  | .type => 1
  | .len => u.m.toNat - u.n.toNat
  | .pay => u.payRequest
  | .over => u.buf.length - u.n.toNat

/-- An answered request is recorded. -/
theorem Source.answer_asked {src src' : Source} {n : Nat} {r : SrcReply} (h : src.answer n = some (r, src')) :
    src'.asked = src.asked ++ [n] := by
  unfold Source.answer at h
  split at h
  · split at h <;> cases h <;> rfl
  · split at h
    · cases h; rfl
    · split at h <;> cases h; rfl

/-- An answered request of the bound source is recorded. -/
theorem Dec.srcRead_asked {d d' : Dec} {n : Nat} {r : SrcReply} (h : d.srcRead n = some (r, d')) :
    d'.src.asked = d.src.asked ++ (if d.unit.sel = .src then [n] else []) := by
  unfold Dec.srcRead at h
  split at h
  · rename_i hs
    split at h <;> cases h
    rename_i ha
    simpa [hs] using Source.answer_asked ha
  · rename_i hs
    cases h; simp [hs]

/-- Outside phase OVER a busy DEC wants at least one byte. -/
theorem Dec.inv_wants {cfg : Config} {d : Dec} (h : d.Inv cfg) (hb : d.unit.busy = true) (hp : d.unit.phase ≠ .over) :
    1 ≤ d.unit.wants := by
  unfold DecUnit.wants
  split
  · rename_i hi; exact absurd hi (h.busy_phase.mp hb)
  · exact le_rfl
  · rename_i hi; have := (h.len_range hi).2.2; omega
  · rename_i hi
    have := (h.pay_range hi).1
    unfold DecUnit.payRequest
    split
    · rename_i ho; have := h.buf_room hi ho; omega
    · omega
  · contradiction

theorem Dec.finishReadInto_src (d : Dec) : d.finishReadInto.src = d.src := rfl

/-- A transaction of DEC makes one request of the bound source, of the size of its phase and never for nothing; none while it reads
`IBUF_D`, and in phase OVER perhaps none (R23). -/
theorem Dec.transact_asked {cfg : Config} {d d' : Dec} (h : d.Inv cfg) (ht : d.transact cfg = some d') :
    (1 ≤ d.unit.wants ∧ d'.src.asked = d.src.asked ++ (if d.unit.sel = .src then [d.unit.wants] else [])) ∨
      d.unit.phase = .over ∧ d'.src.asked = d.src.asked := by
  unfold Dec.transact at ht
  split at ht
  · rename_i hb
    have hpos := fun hp => Dec.inv_wants h hb hp
    split at ht <;> rename_i hp
    · cases ht
    · refine .inl ⟨hpos (by simp [hp]), ?_⟩
      have hw : d.unit.wants = 1 := by simp [DecUnit.wants, hp]
      rw [hw]
      unfold Dec.tickType at ht
      split at ht <;> cases ht <;> rename_i hr <;>
        (try simp only [Dec.takeType_src, Dec.eosInType_src, Dec.fail_src]) <;> exact Dec.srcRead_asked hr
    · refine .inl ⟨hpos (by simp [hp]), ?_⟩
      have hw : d.unit.wants = d.unit.m.toNat - d.unit.n.toNat := by simp [DecUnit.wants, hp]
      rw [hw]
      unfold Dec.tickLen at ht
      split at ht <;> cases ht <;> rename_i hr <;> simp only [Dec.takeLen_src, Dec.fail_src] <;> exact Dec.srcRead_asked hr
    · refine .inl ⟨hpos (by simp [hp]), ?_⟩
      have hw : d.unit.wants = d.unit.payRequest := by simp [DecUnit.wants, hp]
      rw [hw]
      unfold Dec.tickPay at ht
      split at ht <;> cases ht <;> rename_i hr <;> simp only [Dec.takePay_src, Dec.fail_src] <;> exact Dec.srcRead_asked hr
    · have hw : d.unit.wants = d.unit.buf.length - d.unit.n.toNat := by simp [DecUnit.wants, hp]
      rw [hw]
      obtain ⟨ds, tk, he⟩ := d.draw_eq
      unfold Dec.tickOver at ht
      dsimp only at ht
      split at ht
      · cases ht; exact .inr ⟨hp, rfl⟩
      · split at ht
        · refine .inl ⟨by omega, ?_⟩
          rw [he] at ht
          split at ht <;> cases ht <;> rename_i hr <;>
            (try simp only [Dec.store_src, Dec.errInOver_src, Dec.finishReadInto_src]) <;>
            exact Dec.srcRead_asked (d := { d with draws := ds, tick := tk }) hr
        · cases ht
          exact .inr ⟨hp, congrArg Source.asked (Dec.draw_src d)⟩
  · cases ht

/-- A turn of DEC makes at most one request, as one transaction does. -/
theorem Dec.turn_asked {cfg : Config} {d d' : Dec} (h : d.Inv cfg) (ht : d.turn cfg = some d') :
    (1 ≤ d.unit.wants ∧ d'.src.asked = d.src.asked ++ (if d.unit.sel = .src then [d.unit.wants] else [])) ∨
      d.unit.phase = .over ∧ d'.src.asked = d.src.asked := by
  rcases Dec.turn_cases ht with h' | ⟨-, -, h'⟩
  · exact Dec.transact_asked h h'
  · exact Dec.transact_asked (d := { d with src := d.src.starve }) (Dec.inv_src h _) h'

/-- The requests recorded at `b` are those at `a` and further ones, none of them for no bytes (R23, R48). -/
def Source.asksOn (a b : Source) : Prop := ∃ new, b.asked = a.asked ++ new ∧ ∀ n ∈ new, 1 ≤ n

theorem Source.asksOn.refl (a : Source) : a.asksOn a := ⟨[], by simp, by simp⟩

theorem Source.asksOn.trans {a b c : Source} (h : a.asksOn b) (h' : b.asksOn c) : a.asksOn c := by
  obtain ⟨x, hx, hx'⟩ := h
  obtain ⟨y, hy, hy'⟩ := h'
  refine ⟨x ++ y, by rw [hy, hx, List.append_assoc], fun n hn => ?_⟩
  rcases List.mem_append.mp hn with hn | hn
  · exact hx' n hn
  · exact hy' n hn

theorem Dec.turn_asksOn {cfg : Config} {d d' : Dec} (h : d.Inv cfg) (ht : d.turn cfg = some d') : d.src.asksOn d'.src := by
  rcases Dec.turn_asked h ht with ⟨h1, h2⟩ | ⟨-, h2⟩
  · refine ⟨_, h2, fun n hn => ?_⟩
    split at hn <;> simp_all
  · exact ⟨[], by rw [h2, List.append_nil], by simp⟩

/-- No run of DEC makes a request for no bytes. -/
theorem Dec.runOn_asksOn {cfg : Config} {d : Dec} (h : d.Inv cfg) : d.src.asksOn (d.runOn cfg).src :=
  (Dec.run_induct (P := fun x => x.Inv cfg ∧ d.src.asksOn x.src)
    (fun _ _ hp ht => ⟨Dec.transact_inv hp.1 ht, hp.2.trans (Dec.turn_asksOn hp.1 (Dec.turn_some ht))⟩) _
    ⟨h, Source.asksOn.refl _⟩).2

/-- No instruction makes a request for no bytes. -/
theorem exec_asksOn {i : Instr} {s t : State} (h : s.Inv) (he : exec i s = .next t) : s.dec.src.asksOn t.dec.src := by
  cases i <;> simp only [exec] at he
  case peekSize =>
    obtain ⟨-, hp, -, rfl⟩ := admitted_next he
    exact Dec.runOn_asksOn (d := s.dec.accept .peekSize) (Dec.accept_mid h.dec hp _ (by simp) (by simp))
  case readBytes =>
    obtain ⟨-, hp, -, rfl⟩ := admitted_next he
    exact Dec.runOn_asksOn (d := s.dec.accept .readBytes) (Dec.accept_mid h.dec hp _ (by simp) (by simp))
  case readInto =>
    obtain ⟨-, hp, ho, rfl⟩ := admitted_next he
    exact Dec.runOn_asksOn (d := s.dec.acceptReadInto s.cmd.buf)
      (Dec.acceptReadInto_inv h.dec hp (by simpa [Operands.readIntoOk, fits64] using ho))
  case decodeList =>
    obtain ⟨-, hp, -, rfl⟩ := admitted_next he
    exact Dec.runOn_asksOn (d := s.dec.acceptDecodeList) (Dec.acceptDecodeList_inv h.dec hp)
  case reserved000 => cases he
  case reserved011 => cases he
  case encode => obtain ⟨-, hp, -, rfl⟩ := admitted_next he; exact Source.asksOn.refl _
  case encodeList => obtain ⟨-, hp, -, rfl⟩ := admitted_next he; exact Source.asksOn.refl _
  case decWidth0 hi =>
    obtain ⟨hd, rfl⟩ := takeTypeRow_next he
    exact ⟨[], by simp [Dec.takeWidthZero, Dec.sizeKnown, Dec.afterSize_src], by simp⟩
  case typeF1 => obtain ⟨-, rfl⟩ := emitTypeRow_next he; exact Source.asksOn.refl _
  case typeF2 => obtain ⟨-, rfl⟩ := emitTypeRow_next he; exact Source.asksOn.refl _
  case typeF4 => obtain ⟨-, rfl⟩ := emitTypeRow_next he; exact Source.asksOn.refl _
  case typeF8 => obtain ⟨-, rfl⟩ := emitTypeRow_next he; exact Source.asksOn.refl _
  all_goals
    obtain ⟨hd, rfl⟩ := takeTypeRow_next he
    exact ⟨[], by simp [Dec.takeBadWidth, Dec.fail_src], by simp⟩

end Sys2Proof.Machine
end

