-- ==== Sys2Proof/Laws/PerInstr.lean ====
section
/-! SUPPORT. One lemma per constructor of Instr: the family RoundTrip says of an instruction that its own word, in its own format,
is read back as it, with every operand, and that what follows the word is left. -/

namespace Sys2Proof.Laws.RoundTrip

/-- A well-formed instruction is read back from its word, whatever follows it. -/
def Statement (i : Instr) : Prop :=
  i.wf = true → ∀ rest : List Byte, decode i.format (Sys2Proof.encode i ++ rest) = .ok (i, rest)

theorem encode : Statement .encode := fun _ _ => rfl

theorem encodeList : Statement .encodeList := fun _ _ => rfl

theorem peekSize : Statement .peekSize := fun _ _ => rfl

theorem readBytes : Statement .readBytes := fun _ _ => rfl

theorem readInto : Statement .readInto := fun _ _ => rfl

theorem decodeList : Statement .decodeList := fun _ _ => rfl

theorem reserved000 : Statement .reserved000 := fun _ _ => rfl

theorem reserved011 : Statement .reserved011 := fun _ _ => rfl

theorem typeF1 : Statement .typeF1 := fun _ _ => rfl

theorem typeF2 : Statement .typeF2 := fun _ _ => rfl

theorem typeF4 : Statement .typeF4 := fun _ _ => rfl

theorem typeF8 : Statement .typeF8 := fun _ _ => rfl

theorem decWidth0 (hi : Nibble) : Statement (.decWidth0 hi) := fun _ rest => by
  simp [Sys2Proof.encode, Instr.format, decode, decodeTypeDec]

theorem decWidth1 (hi : Nibble) : Statement (.decWidth1 hi) := fun _ rest => by
  simp [Sys2Proof.encode, Instr.format, decode, decodeTypeDec]

theorem decWidth2 (hi : Nibble) : Statement (.decWidth2 hi) := fun _ rest => by
  simp [Sys2Proof.encode, Instr.format, decode, decodeTypeDec]

theorem decWidth3 (hi : Nibble) : Statement (.decWidth3 hi) := fun _ rest => by
  simp [Sys2Proof.encode, Instr.format, decode, decodeTypeDec]

theorem decWidth4 (hi : Nibble) : Statement (.decWidth4 hi) := fun _ rest => by
  simp [Sys2Proof.encode, Instr.format, decode, decodeTypeDec]

theorem decWidth5 (hi : Nibble) : Statement (.decWidth5 hi) := fun _ rest => by
  simp [Sys2Proof.encode, Instr.format, decode, decodeTypeDec]

theorem decWidth6 (hi : Nibble) : Statement (.decWidth6 hi) := fun _ rest => by
  simp [Sys2Proof.encode, Instr.format, decode, decodeTypeDec]

theorem decWidth7 (hi : Nibble) : Statement (.decWidth7 hi) := fun _ rest => by
  simp [Sys2Proof.encode, Instr.format, decode, decodeTypeDec]

theorem decWidth8 (hi : Nibble) : Statement (.decWidth8 hi) := fun _ rest => by
  simp [Sys2Proof.encode, Instr.format, decode, decodeTypeDec]

theorem decWidth9 (hi : Nibble) : Statement (.decWidth9 hi) := fun _ rest => by
  simp [Sys2Proof.encode, Instr.format, decode, decodeTypeDec]

theorem decWidth10to11 (hi m : Nibble) : Statement (.decWidth10to11 hi m) := fun h rest => by
  simp only [Instr.wf, Bool.or_eq_true, beq_iff_eq] at h
  rcases h with rfl | rfl <;>
    simp [Sys2Proof.encode, Instr.format, decode, decodeTypeDec]

theorem decWidth12to15 (hi m : Nibble) : Statement (.decWidth12to15 hi m) := fun h rest => by
  have key : ∀ m : Nibble, 12 ≤ m.toNat → m = 12 ∨ m = 13 ∨ m = 14 ∨ m = 15 := by decide
  rcases key m (by simpa [Instr.wf] using h) with rfl | rfl | rfl | rfl <;>
    simp [Sys2Proof.encode, Instr.format, decode, decodeTypeDec]

end Sys2Proof.Laws.RoundTrip
end

