-- ==== Sys2Proof/Tests/Slice0.lean ====
section
/-! SUPPORT. This model's own tests. Every expected value is the spec's: the tables of 30_encoding.md (R64, R75, R78), the vectors of
95_test_vectors.md (named at each test). The last part gives, for every obligation with hypotheses, a state and operands that meet
all of them. -/

namespace Sys2Proof.Tests

open Sys2Proof.Machine

/-! ### WellFormed: what it refuses -/

theorem test_wf_10_11_low : Instr.wf (.decWidth10to11 0xF 9) = false := by decide
theorem test_wf_10_11_high : Instr.wf (.decWidth10to11 0xF 12) = false := by decide
theorem test_wf_12_15_low : Instr.wf (.decWidth12to15 0xF 11) = false := by decide
theorem test_wf_10_11 : Instr.wf (.decWidth10to11 0x0 10) = true ∧ Instr.wf (.decWidth10to11 0xF 11) = true := by decide
theorem test_wf_12_15 : Instr.wf (.decWidth12to15 0xF 12) = true ∧ Instr.wf (.decWidth12to15 0xF 15) = true := by decide

/-! ### Words, written out from the tables of R64, R75, R78 and R79 -/

theorem test_word_encode : decode .cmd [0x01#8] = .ok (.encode, []) := by decide
theorem test_word_encodeList : decode .cmd [0x02#8] = .ok (.encodeList, []) := by decide
theorem test_word_peekSize : decode .cmd [0x04#8] = .ok (.peekSize, []) := by decide
theorem test_word_readBytes : decode .cmd [0x05#8] = .ok (.readBytes, []) := by decide
theorem test_word_readInto : decode .cmd [0x06#8] = .ok (.readInto, []) := by decide
theorem test_word_decodeList : decode .cmd [0x07#8] = .ok (.decodeList, []) := by decide
theorem test_word_reserved000 : decode .cmd [0x00#8] = .ok (.reserved000, []) := by decide
theorem test_word_reserved011 : decode .cmd [0x03#8] = .ok (.reserved011, []) := by decide
theorem test_word_four_bits : decode .cmd [0x08#8] = .error .notACommandCode := by decide
theorem test_word_none : decode .cmd [] = .error .noWord := by decide
theorem test_word_typeF1 : decode .typeEnc [0xF1#8] = .ok (.typeF1, []) := by decide
theorem test_word_typeF2 : decode .typeEnc [0xF2#8] = .ok (.typeF2, []) := by decide
theorem test_word_typeF4 : decode .typeEnc [0xF4#8] = .ok (.typeF4, []) := by decide
theorem test_word_typeF8 : decode .typeEnc [0xF8#8] = .ok (.typeF8, []) := by decide
theorem test_word_typeF3 : decode .typeEnc [0xF3#8] = .error .notAnEncoderTypeByte := by decide
theorem test_word_typeE1 : decode .typeEnc [0xE1#8] = .error .notAnEncoderTypeByte := by decide
theorem test_word_decWidth0 : decode .typeDec [0x30#8] = .ok (.decWidth0 0x3#4, []) := by decide
theorem test_word_decWidth1 : decode .typeDec [0xA1#8, 0x02#8] = .ok (.decWidth1 0xA#4, [0x02#8]) := by decide
theorem test_word_decWidth2 : decode .typeDec [0x02#8] = .ok (.decWidth2 0x0#4, []) := by decide
theorem test_word_decWidth3 : decode .typeDec [0xF3#8] = .ok (.decWidth3 0xF#4, []) := by decide
theorem test_word_decWidth4 : decode .typeDec [0x74#8] = .ok (.decWidth4 0x7#4, []) := by decide
theorem test_word_decWidth5 : decode .typeDec [0xF5#8] = .ok (.decWidth5 0xF#4, []) := by decide
theorem test_word_decWidth6 : decode .typeDec [0x86#8] = .ok (.decWidth6 0x8#4, []) := by decide
theorem test_word_decWidth7 : decode .typeDec [0xF7#8] = .ok (.decWidth7 0xF#4, []) := by decide
theorem test_word_decWidth8 : decode .typeDec [0x18#8] = .ok (.decWidth8 0x1#4, []) := by decide
theorem test_word_decWidth9 : decode .typeDec [0xF9#8] = .ok (.decWidth9 0xF#4, []) := by decide
theorem test_word_decWidth10 : decode .typeDec [0xFA#8] = .ok (.decWidth10to11 0xF#4 10#4, []) := by decide
theorem test_word_decWidth11 : decode .typeDec [0x5B#8] = .ok (.decWidth10to11 0x5#4 11#4, []) := by decide
theorem test_word_decWidth12 : decode .typeDec [0x3C#8] = .ok (.decWidth12to15 0x3#4 12#4, []) := by decide
theorem test_word_decWidth15 : decode .typeDec [0xFF#8] = .ok (.decWidth12to15 0xF#4 15#4, []) := by decide

/-- No two rows of one format cover one word (R83). -/
theorem test_rows_apart (b : Byte) :
    (cmdRows.filter (·.covers b)).length = 1 ∧ (typeEncRows.filter (·.covers b)).length ≤ 1 ∧
      (typeDecRows.filter (·.covers b)).length = 1 := by
  revert b; decide

/-- The decoder reads the row that covers the word. -/
theorem test_rows_decoded (b : Byte) :
    (typeDecRows.filter (·.covers b)).map (·.mnemonic) = [(decodeTypeDec b).mnemonic] ∧
      (typeEncRows.filter (·.covers b)).map (·.mnemonic) = ((decodeTypeEnc b).map Instr.mnemonic).toList ∧
      (cmdRows.filter (·.covers b)).map (·.mnemonic) = [(decodeCmd (b.truncate 3)).mnemonic] := by
  revert b; decide

/-- A table word read bare, in each of its three formats. -/
theorem test_table_words :
    decodeTableWord 3 0x6 = some .readInto ∧ decodeTableWord 8 0xF8 = some .typeF8 ∧
      decodeTableWord 8 0x0C = some (.decWidth12to15 0 12) ∧ decodeTableWord 8 0x100 = none := by decide

/-! ### The helpers of the tests -/

/-- The machine after reset, its source holding `b`. -/
def srcOf (b : List Byte) : State :=
  { State.reset with dec := { State.reset.dec with src := { Source.initial with rem := b } } }

/-- The state an outcome goes on with. -/
def after (o : Host.Outcome State Fault Refusal) : Option State :=
  match o with
  | .next s => some s
  | _ => none

/-- What DEC shows after an instruction: its results, its status word, what is left of its source. -/
def decShows (o : Host.Outcome State Fault Refusal) : Option (List Result × BitVec 16 × List Byte) :=
  (after o).map (fun s => (s.dec.unit.out.map (·.result), s.dec.unit.stat, s.dec.src.rem))

/-- What ENC shows after an instruction: its results, its status word, what its sink holds. -/
def encShows (o : Host.Outcome State Fault Refusal) : Option (List Result × BitVec 16 × List Byte) :=
  (after o).map (fun s => (s.enc.unit.out.map (·.result), s.enc.unit.stat, s.enc.snk.acc))

/-- The machine after reset with operands at the command port and a sink that will give these answers. -/
def cmdOf (o : Operands) (answers : List SinkChoice) : State :=
  { State.reset with
    cmd := o
    enc := { State.reset.enc with snk := { Sink.initial with answers := answers } } }

def payloadOf (p : List Byte) : Operands := { Operands.none with payload := p }

def itemsOf (l : List (List Byte)) : Operands := { Operands.none with items := l }

/-! ### The functions (B1) -/

theorem test_mEnc : [0, 255, 256, 65535, 65536, 16777216, 4294967295, 4294967296].map mEnc = [1, 1, 2, 2, 4, 4, 4, 8] := by
  decide
theorem test_leBytes : leBytes 70000 4 = [0x70, 0x11, 0x01, 0x00] ∧ leBytes 0x1234 1 = [0x34] ∧ leBytes 5 0 = [] := by decide
theorem test_leValue : leValue [0x02, 0x01] = 258 ∧ leValue [0x01, 0x02, 0x03] = 197121 ∧ leValue [] = 0 := by decide

/-- The ten values CHECK can produce (B10), here of the prefixes `F1`, `01`, `F0`, `00`, `F2 02 00`, `A4 10`, `F3`. -/
theorem test_check :
    (check 0xF1 2).bits = 0x00 ∧ (check 0x01 2).bits = 0x01 ∧ (check 0xF0 0).bits = 0x02 ∧ (check 0x00 0).bits = 0x03 ∧
      (check 0xF2 2).bits = 0x10 ∧ (check 0xA4 16).bits = 0x11 ∧ (check 0xF3 65536).bits = 0x18 ∧
      (checkT 0xF9).bits = 0x04 ∧ (checkT 0x3C).bits = 0x05 := by decide

/-! ### ENCODE (S1, B2, B3) -/

theorem test_encode : encShows (exec .encode (cmdOf (payloadOf [0xAA, 0xBB]) [])) =
    some ([.ok (.count 4)], 0x0000, [0xF1, 0x02, 0xAA, 0xBB]) := by decide
theorem test_encode_short : encShows (exec .encode (cmdOf (payloadOf [0xAA, 0xBB, 0xCC]) [.wrote 1, .wrote 1, .wrote 2])) =
    some ([.sinkWriteFailure (.short 2)], 0x000E, [0xF1, 0x03, 0xAA, 0xBB]) := by decide

/-! ### ENCODE_LIST (S5, B8) -/

theorem test_encodeList : encShows (exec .encodeList (cmdOf (itemsOf [[0x15, 0xFF], [0x20], [0x30], [0x40]]) [])) =
    some ([.ok (.count 15)], 0x0000,
      [0xF1, 0x0D, 0xF1, 0x02, 0x15, 0xFF, 0xF1, 0x01, 0x20, 0xF1, 0x01, 0x30, 0xF1, 0x01, 0x40]) := by decide
theorem test_encodeList_cap :
    encShows (exec .encodeList
      { cmdOf (itemsOf [[0x01, 0x02, 0x03], [0x04, 0x05, 0x06]]) [] with cfg := { Config.initial with ibufCap := some 8 } }) =
    some ([.resourceExhausted 10], 0x001A, []) := by decide

/-! ### PEEK_SIZE (B4) -/

theorem test_peekSize : decShows (exec .peekSize (srcOf [0xF2, 0xC4, 0x09, 0x55])) =
    some ([.ok (.size 2500)], 0x0000, [0x55]) := by decide
theorem test_peekSize_short : decShows (exec .peekSize (srcOf [0xF8, 1, 0, 0, 0, 0, 0, 0])) =
    some ([.truncated .len], 0x000A, []) := by decide

/-! ### READ_BYTES (B5, B6) -/

theorem test_readBytes : decShows (exec .readBytes (srcOf [0xF4, 0x03, 0, 0, 0, 0x01, 0x02, 0x03, 0xF1, 0x00])) =
    some ([.ok (.payload [0x01, 0x02, 0x03])], 0x0200, [0xF1, 0x00]) := by decide
/-- The third row of B6: empty responses and pieces. -/
theorem test_readBytes_pieces :
    decShows (exec .readBytes
      { State.reset with dec := { State.reset.dec with
        src := { Source.initial with rem := [0xF2, 0x03, 0x00, 0xAA, 0xBB, 0xCC], cuts := [0, 1, 0, 2, 2, 0, 1] } } }) =
    some ([.ok (.payload [0xAA, 0xBB, 0xCC])], 0x0200, []) := by decide

/-! ### READ_INTO (B7) -/

theorem test_readInto_exact :
    (after (exec .readInto { srcOf [0xF1, 0x02, 0xAA, 0xBB, 0xF1] with cmd := { Operands.none with buf := [0, 0] } })).map
      (fun s => (s.dec.unit.out.map (·.result), s.dec.unit.buf, s.dec.src.rem)) =
    some ([.ok (.filled 2)], [0xAA, 0xBB], [0xF1]) := by decide
/-- A buffer that is too small, and a source error in the prefix: the buffer is untouched (D16 f). -/
theorem test_readInto_small :
    (after (exec .readInto { srcOf [0xF1, 0x02, 0xAA] with cmd := { Operands.none with buf := [0x77] } })).map
      (fun s => (s.dec.unit.out.map (·.result), s.dec.unit.buf, s.dec.src.rem)) =
    some ([.insufficientBuffer 2 1], [0x77], [0xAA]) ∧
    (after (exec .readInto { cmdOf { Operands.none with buf := [0x77] } [] with dec := { State.reset.dec with
      src := { Source.initial with rem := [0xF1], fin := .err ⟨5⟩ } } })).map
      (fun s => (s.dec.unit.out.map (·.result), s.dec.unit.buf)) = some ([.sourceError ⟨5⟩], [0x77]) := by decide

/-! ### DECODE_LIST (B9) -/

theorem test_decodeList : decShows (exec .decodeList (srcOf [0xF1, 0x05, 0xF1, 0x01, 0xAA, 0xF1, 0x00, 0x99])) =
    some ([.ok (.items [[0xAA], []])], 0x0000, [0x99]) := by decide
theorem test_decodeList_inner : decShows (exec .decodeList (srcOf [0xF1, 0x04, 0xF1, 0x01, 0xAA, 0xF9])) =
    some ([.badWidth 0xF9], 0x009E, []) := by decide

/-! ### The reserved codes (B11) -/

theorem test_reserved000 : exec .reserved000 State.reset = .refused .reservedCommand := rfl
theorem test_reserved011 : exec .reserved011 State.reset = .refused .reservedCommand := rfl

/-! ### The type bytes of ENC (R89) -/

/-- ENC before the type byte of a payload of width `m`. -/
def emitting (m : Nibble) : State :=
  { State.reset with enc := { State.reset.enc with unit := { EncUnit.initial with busy := true, phase := .wType, m := m } } }

theorem test_typeF1 : (after (exec .typeF1 (emitting 1))).map (fun s => (s.enc.unit.phase, s.enc.unit.cnt, s.enc.snk.acc)) =
    some (.wLen, 1, [0xF1]) := by decide
theorem test_typeF2 : (after (exec .typeF2 (emitting 2))).map (fun s => (s.enc.unit.phase, s.enc.unit.cnt, s.enc.snk.acc)) =
    some (.wLen, 1, [0xF2]) := by decide
theorem test_typeF4 : (after (exec .typeF4 (emitting 4))).map (fun s => (s.enc.unit.phase, s.enc.unit.cnt, s.enc.snk.acc)) =
    some (.wLen, 1, [0xF4]) := by decide
theorem test_typeF8 : (after (exec .typeF8 (emitting 8))).map (fun s => (s.enc.unit.phase, s.enc.unit.cnt, s.enc.snk.acc)) =
    some (.wLen, 1, [0xF8]) := by decide

/-! ### The type bytes DEC takes (B5) -/

/-- DEC in READ_BYTES, awaiting a type byte. -/
def awaiting : State := { State.reset with dec := State.reset.dec.accept .readBytes }

/-- What is latched: the phase, the type byte, the width. -/
def latchShows (o : Host.Outcome State Fault Refusal) : Option (DecPhase × Byte × Nibble) :=
  (after o).map (fun s => (s.dec.unit.phase, s.dec.unit.t, s.dec.unit.m))

theorem test_decWidth0 : decShows (exec (.decWidth0 0x0) awaiting) = some ([.ok (.payload [])], 0x0060, []) := by decide
theorem test_decWidth1 : latchShows (exec (.decWidth1 0xA) awaiting) = some (.len, 0xA1, 1) := by decide
theorem test_decWidth2 : latchShows (exec (.decWidth2 0xF) awaiting) = some (.len, 0xF2, 2) := by decide
theorem test_decWidth3 : latchShows (exec (.decWidth3 0xF) awaiting) = some (.len, 0xF3, 3) := by decide
theorem test_decWidth4 : latchShows (exec (.decWidth4 0xF) awaiting) = some (.len, 0xF4, 4) := by decide
theorem test_decWidth5 : latchShows (exec (.decWidth5 0xF) awaiting) = some (.len, 0xF5, 5) := by decide
theorem test_decWidth6 : latchShows (exec (.decWidth6 0xF) awaiting) = some (.len, 0xF6, 6) := by decide
theorem test_decWidth7 : latchShows (exec (.decWidth7 0xF) awaiting) = some (.len, 0xF7, 7) := by decide
theorem test_decWidth8 : latchShows (exec (.decWidth8 0xF) awaiting) = some (.len, 0xF8, 8) := by decide
theorem test_decWidth9 : decShows (exec (.decWidth9 0xF) awaiting) = some ([.badWidth 0xF9], 0x009E, []) := by decide
theorem test_decWidth11 : decShows (exec (.decWidth10to11 0xF 11) awaiting) = some ([.badWidth 0xFB], 0x009E, []) := by decide
theorem test_decWidth15 : decShows (exec (.decWidth12to15 0x0 15) awaiting) = some ([.badWidth 0x0F], 0x00BE, []) := by decide

/-! ### A word placed after reset is the next thing that runs -/

theorem test_place_cmd : decShows (step (State.reset.withFetchWord 3 0x4)) = some ([.cleanEos], 0x0004, []) := by decide
theorem test_place_enc : encShows (step (State.reset.withFetchWord 8 0xF2)) = some ([], 0x0001, [0xF2]) := by decide
theorem test_place_dec : latchShows (step (State.reset.withFetchWord 8 0x38)) = some (.len, 0x38, 8) := by decide

/-! ### Witnesses: states and operands that meet the hypotheses of the obligations -/

/-- The invariant holds of the two idle units whatever the streams, the parameters, the operands and the moves are. -/
theorem free_inv (snk : Sink) (src : Source) (draws : List Bool) (tick : Nat) (cfg : Config) (cmd : Operands) (moves : List Move) :
    State.Inv ⟨⟨EncUnit.initial, snk⟩, ⟨DecUnit.initial, src, draws, tick⟩, cfg, cmd, moves⟩ :=
  ⟨Enc.initial_inv cfg snk [], Dec.initial_inv cfg src draws tick [] []⟩

/-- The machine after reset, with these moves to come. -/
def movesOf (ms : List Move) : State := { State.reset with moves := ms }

theorem movesOf_inv (ms : List Move) : (movesOf ms).Inv := free_inv _ _ _ _ _ _ _

theorem srcOf_inv (b : List Byte) : (srcOf b).Inv := free_inv _ _ _ _ _ _ _

theorem cmdOf_inv (o : Operands) (as : List SinkChoice) : (cmdOf o as).Inv := free_inv _ _ _ _ _ _ _

theorem witness_StepKeepsInv : State.reset.Inv ∧ step State.reset = .next State.reset := ⟨movesOf_inv [], rfl⟩

theorem witness_DecodeOfEncode : Instr.wf (.decWidth12to15 0x3 15) = true ∧ Instr.wf .typeF8 = true ∧ Instr.wf .encode = true := by
  decide

theorem witness_EncodeOfDecode :
    decode .typeDec [0xFF#8, 0x01#8] = .ok (.decWidth12to15 0xF 15, [0x01#8]) ∧
      decode .cmd [0x07#8] = .ok (.decodeList, []) ∧ decode .typeEnc [0xF8#8] = .ok (.typeF8, []) := by decide

/-- The ends of the four ranges. -/
theorem witness_WidthFunction :
    (255 : Nat) < 2 ^ 8 ∧ (2 ^ 8 : Nat) ≤ 256 ∧ (65535 : Nat) < 2 ^ 16 ∧ (2 ^ 16 : Nat) ≤ 65536 ∧
      (4294967295 : Nat) < 2 ^ 32 ∧ (2 ^ 32 : Nat) ≤ 4294967296 ∧ (4294967296 : Nat) < 2 ^ 64 := by decide

theorem witness_FieldLaws :
    (8 : Nat) ≤ 8 ∧ (18446744073709551615 : Nat) < 2 ^ (8 * 8) ∧ [0x02#8, 0x01#8].length ≤ 8 ∧
      ([0x02#8].length + [0x00#8, 0x00#8].length ≤ 8 ∧ ∀ b ∈ [0x00#8, 0x00#8], b = 0#8) ∧ (255 : Nat) ≤ 256 := by decide

theorem witness_LengthField : [0xAA#8, 0xBB#8].length < 2 ^ 64 ∧ (0 : Nat) < mEnc [0xAA#8, 0xBB#8].length := by decide

theorem witness_ParseOfFrame : ([] : List Byte).length < 2 ^ 64 ∧ [0xAA#8].length < 2 ^ 64 := by decide

theorem witness_EncoderTypeBytes : ∃ p : List Byte, p.length < 2 ^ 64 ∧ (frame p).head? = some 0xF1#8 := ⟨[0xAA], by decide, by decide⟩

theorem witness_CheckFlags : (0xF8#8).toNat % 16 ≤ 8 ∧ 8 < (0xF9#8).toNat % 16 := by decide

theorem witness_CanonicalPrefix : [0x02#8].length = (typeLo 0xF1).toNat ∧ [0x02#8].length ≤ 8 ∧
    ([] : List Byte).length = (typeLo 0xF0).toNat := by decide

theorem witness_EncodeOffersItsFrame :
    (cmdOf (payloadOf [0xAA, 0xBB]) [.wrote 0]).enc.Inv Config.initial ∧
      (cmdOf (payloadOf [0xAA, 0xBB]) [.wrote 0]).enc.unit.busy = false ∧
      (cmdOf (payloadOf [0xAA, 0xBB]) [.wrote 0]).enc.unit.poison = false ∧
      (cmdOf (payloadOf [0xAA, 0xBB]) [.wrote 0]).cmd.payload.length < 2 ^ 64 :=
  ⟨(cmdOf_inv _ _).enc, rfl, rfl, by decide⟩

theorem takesAll_prompt (ws : List (List Byte)) (snk : Sink) (h : snk.answers = []) (hp : snk.later = .prompt) :
    Sink.takesAll ws snk := by
  induction ws generalizing snk with
  | nil => trivial
  | cons x xs ih =>
    exact ⟨{ snk with acc := snk.acc ++ x, answers := [], offered := snk.offered ++ [x] }, by simp [Sink.answer, h, hp],
      ih _ rfl hp⟩

theorem witness_EncodeSucceeds :
    (cmdOf (payloadOf [0xAA, 0xBB]) []).enc.Inv Config.initial ∧ (cmdOf (payloadOf [0xAA, 0xBB]) []).enc.unit.busy = false ∧
      (cmdOf (payloadOf [0xAA, 0xBB]) []).enc.unit.poison = false ∧
      (cmdOf (payloadOf [0xAA, 0xBB]) []).cmd.payload.length < 2 ^ 64 ∧
      Sink.takesAll (frameWrites Config.initial [0xAA, 0xBB]) (cmdOf (payloadOf [0xAA, 0xBB]) []).enc.snk :=
  ⟨(cmdOf_inv _ _).enc, rfl, rfl, by decide, takesAll_prompt _ _ rfl rfl⟩

/-- The six clauses: each answers list, with its bound at the edge. -/
theorem witness_EncodeFailures (e : EnvError) :
    (cmdOf (payloadOf [0xAA]) [.wrote 0]).enc.snk.answers = [.wrote 0] ∧
      (cmdOf (payloadOf [0xAA]) [.err e 1]).enc.snk.answers = [.err e 1] ∧
      (0 < mEnc [0xAA#8].length ∧ (cmdOf (payloadOf [0xAA]) [.wrote 1, .wrote 0]).enc.snk.answers = [.wrote 1, .wrote 0]) ∧
      (cmdOf (payloadOf [0xAA]) [.wrote 1, .err e 0]).enc.snk.answers = [.wrote 1, .err e 0] ∧
      (0 < [0xAA#8].length ∧
        (cmdOf (payloadOf [0xAA]) [.wrote 1, .wrote 1, .wrote 0]).enc.snk.answers =
          [.wrote 1, .wrote (mEnc [0xAA#8].length), .wrote 0]) ∧
      ([0xAA#8] ≠ [] ∧
        (cmdOf (payloadOf [0xAA]) [.wrote 1, .wrote 1, .err e 1]).enc.snk.answers =
          [.wrote 1, .wrote (mEnc [0xAA#8].length), .err e 1]) :=
  ⟨rfl, rfl, ⟨by decide, rfl⟩, rfl, ⟨by decide, rfl⟩, ⟨by decide, rfl⟩⟩

/-- Both ways: nothing stands in the way of the list, and `IBUF_CAP` does. -/
theorem witness_EncodeListOffersItsFrame :
    (cmdOf (itemsOf [[0x15, 0xFF], [0x20]]) []).cmd.encodeListOk Config.initial = true ∧
      firstPast none 0 (innerWrites Config.initial [[0x15, 0xFF], [0x20]]) = none ∧
      (itemsOf [[0x15, 0xFF]]).encodeListOk { Config.initial with ibufCap := some 1 } = true ∧
      firstPast (some 1) 0 (innerWrites Config.initial [[0x15, 0xFF]]) = some 2 := by decide

/-- A list whose inner frames fill `IBUF_E` exactly. -/
def listOperand : State :=
  { cmdOf (itemsOf [[0x15, 0xFF], []]) [] with cfg := { Config.initial with ibufCap := some 6 } }

theorem witness_EncodeListSucceeds :
    listOperand.enc.Inv listOperand.cfg ∧ listOperand.enc.unit.busy = false ∧ listOperand.enc.unit.poison = false ∧
      (∀ p ∈ listOperand.cmd.items, p.length < 2 ^ 64) ∧
      ((listOperand.cmd.items.map (fun p => 1 + mEnc p.length + p.length)).sum < 2 ^ 64) ∧
      passes listOperand.cfg.ibufCap (listOperand.cmd.items.map (fun p => 1 + mEnc p.length + p.length)).sum = false ∧
      Sink.takesAll (frameWrites listOperand.cfg (listOperand.cmd.items.map frame).flatten) listOperand.enc.snk :=
  ⟨Enc.initial_inv _ _ [], rfl, rfl, by decide, by decide, by decide, takesAll_prompt _ _ rfl rfl⟩

/-- The hypotheses of PeekSizeMeaning, ReadBytesMeaning, ReadIntoMeaning and DecodeListMeaning, at a stream that holds a frame. -/
theorem witness_DecCommands :
    (srcOf [0xF1, 0x02, 0xAA, 0xBB]).dec.Inv Config.initial ∧ (srcOf [0xF1, 0x02, 0xAA, 0xBB]).dec.unit.busy = false ∧
      (srcOf [0xF1, 0x02, 0xAA, 0xBB]).dec.unit.poison = false ∧ (srcOf [0xF1, 0x02, 0xAA, 0xBB]).cmd.buf.length < 2 ^ 64 ∧
      (srcOf [0xF1, 0x02, 0xAA, 0xBB]).dec.src.answersAll :=
  ⟨(srcOf_inv _).dec, rfl, rfl, by decide, by decide, rfl⟩

/-- A source holding `b`, and a caller buffer `buf` at the command port. -/
def intoOf (b buf : List Byte) : State := { srcOf b with cmd := { Operands.none with buf := buf } }

theorem intoOf_inv (b buf : List Byte) : (intoOf b buf).Inv := free_inv _ _ _ _ _ _ _

/-- `F1 02 F1 00` with a buffer of exactly the size: all the hypotheses together, and the four readings. -/
def nestedInto : State := intoOf [0xF1, 0x02, 0xF1, 0x00] [0, 0]

theorem witness_DecOperationsSucceed :
    nestedInto.dec.Inv nestedInto.cfg ∧ nestedInto.dec.unit.busy = false ∧ nestedInto.dec.unit.poison = false ∧
      nestedInto.dec.src.answersAll ∧
      parsePrefix nestedInto.dec.src.fin nestedInto.dec.src.rem = .value (0xF1#8, 2) [0xF1#8, 0x00#8] ∧
      parseFrame nestedInto.cfg.maxAlloc nestedInto.dec.src.fin nestedInto.dec.src.rem = .value [0xF1#8, 0x00#8] [] ∧
      nestedInto.cmd.buf.length < 2 ^ 64 ∧ 2 ≤ nestedInto.cmd.buf.length ∧ nestedInto.dec.src.fin = .eos ∧
      decodeListOf nestedInto.cfg nestedInto.dec.src.fin nestedInto.dec.src.rem = .value [[]] [] :=
  ⟨(intoOf_inv _ _).dec, rfl, rfl, ⟨by decide, rfl⟩, by decide, by decide, by decide, by decide, rfl, by decide⟩

/-- The least and the greatest count of a buffer of 4 bytes over `F1 02 AA BB F1 01 41` (B7). -/
theorem witness_ReadIntoEveryCount :
    (intoOf [0xF1, 0x02, 0xAA, 0xBB, 0xF1, 0x01, 0x41] [0, 0, 0, 0]).dec.Inv Config.initial ∧
      (intoOf [0xF1, 0x02, 0xAA, 0xBB, 0xF1, 0x01, 0x41] [0, 0, 0, 0]).dec.unit.busy = false ∧
      (intoOf [0xF1, 0x02, 0xAA, 0xBB, 0xF1, 0x01, 0x41] [0, 0, 0, 0]).dec.unit.poison = false ∧
      parsePrefix .eos (intoOf [0xF1, 0x02, 0xAA, 0xBB, 0xF1, 0x01, 0x41] [0, 0, 0, 0]).dec.src.rem =
        .value (0xF1#8, 2) [0xAA#8, 0xBB#8, 0xF1#8, 0x01#8, 0x41#8] ∧
      2 ≤ 4 ∧ 4 ≤ min [0x00#8, 0x00#8, 0x00#8, 0x00#8].length [0xAA#8, 0xBB#8, 0xF1#8, 0x01#8, 0x41#8].length :=
  ⟨(intoOf_inv _ _).dec, rfl, rfl, by decide, by decide, by decide⟩

/-- One byte too few, with the stream too short as well, and exactly enough. -/
theorem witness_BufferCheckFirst :
    (intoOf [0xF1, 0x02, 0xAA] [0]).dec.Inv Config.initial ∧ (intoOf [0xF1, 0x02, 0xAA] [0]).dec.unit.busy = false ∧
      (intoOf [0xF1, 0x02, 0xAA] [0]).dec.unit.poison = false ∧ (intoOf [0xF1, 0x02, 0xAA] [0]).cmd.buf.length < 2 ^ 64 ∧
      (intoOf [0xF1, 0x02, 0xAA] [0]).dec.src.answersAll ∧
      (parsePrefix .eos (intoOf [0xF1, 0x02, 0xAA] [0]).dec.src.rem = .value (0xF1#8, 2) [0xAA#8] ∧
        (intoOf [0xF1, 0x02, 0xAA] [0]).cmd.buf.length < 2) ∧
      (parsePrefix .eos (intoOf [0xF1, 0x01, 0xAA] [0]).dec.src.rem = .value (0xF1#8, 1) [0xAA#8] ∧
        (intoOf [0xF1, 0x01, 0xAA] [0]).cmd.buf.length = 1 ∧ 1 ≤ [0xAA#8].length) :=
  ⟨(intoOf_inv _ _).dec, rfl, rfl, by decide, ⟨by decide, rfl⟩, ⟨by decide, by decide⟩, by decide, by decide, by decide⟩

theorem witness_BadWidthAtOnce :
    (srcOf [0xF9, 0x00]).dec.src.cuts = [] ∧ (srcOf [0xF9, 0x00]).dec.src.later = .prompt ∧
      (srcOf [0xF9, 0x00]).dec.src.rem = [0xF9, 0x00] ∧ 8 < (typeLo 0xF9).toNat ∧ 8 < (typeLo 0xFF).toNat ∧
      (srcOf [0xF9, 0x00]).dec.Inv Config.initial := ⟨rfl, rfl, rfl, by decide, by decide, (srcOf_inv _).dec⟩

/-- Two ways of cutting one stream up, and both operations end. -/
theorem witness_ChunkingDoesNotMatter :
    ((after (exec .readBytes (srcOf [0xF1, 0x01, 0x41]))).map (·.dec.unit.busy) = some false) ∧
      ((after (exec .readBytes { srcOf [0xF1, 0x01, 0x41] with dec := { (srcOf [0xF1, 0x01, 0x41]).dec with
        src := { (srcOf [0xF1, 0x01, 0x41]).dec.src with cuts := [0, 1, 0], later := .prompt } } })).map (·.dec.unit.busy) =
        some false) := by decide

theorem awaiting_inv : awaiting.dec.Inv awaiting.cfg :=
  Dec.accept_mid (movesOf_inv []).dec rfl .readBytes (by decide) (by decide)

/-- The hypotheses of WidthIsLatched and of WidthZero. -/
theorem witness_TypeByteDue : awaiting.dec.Inv awaiting.cfg ∧ awaiting.dec.unit.typeDue = true := ⟨awaiting_inv, rfl⟩

/-- The widths at the ends of the three rows; a state that meets the rest is that of witness_TypeByteDue. -/
theorem witness_BadWidthRows :
    9 ≤ (9 : Nibble).toNat ∧ (10 : Nibble).toNat ≤ 11 ∧ (11 : Nibble).toNat ≤ 11 ∧ 12 ≤ (12 : Nibble).toNat ∧
      12 ≤ (15 : Nibble).toNat := by decide

/-- The three clauses: the sink, room in `IBUF_E`, no room in `IBUF_E`. -/
theorem witness_TypeByteEmitted :
    (emitting 2).enc.unit.poison = false ∧ (emitting 2).enc.unit.typeDue 2 = true ∧ (emitting 2).enc.unit.dst = .snk ∧
      ((State.reset.enc.acceptEncodeList [[]]).unit.typeDue 1 = true ∧ (State.reset.enc.acceptEncodeList [[]]).unit.dst = .ibuf ∧
        passes (some 1) ((State.reset.enc.acceptEncodeList [[]]).unit.ibuf.length + 1) = false ∧
        passes (some 0) ((State.reset.enc.acceptEncodeList [[]]).unit.ibuf.length + 1) = true) := by decide

theorem witness_WidthDue :
    (State.reset.enc.acceptEncode [0xAA]).Inv Config.initial ∧ (State.reset.enc.acceptEncode [0xAA]).unit.busy = true ∧
      (State.reset.enc.acceptEncode [0xAA]).unit.phase = .wType :=
  ⟨Enc.acceptEncode_inv (movesOf_inv []).enc rfl _, rfl, rfl⟩

theorem witness_TypeByteNotDue :
    State.reset.dec.unit.typeDue = false ∧ Instr.format (.decWidth9 0xF) = .typeDec ∧ State.reset.enc.unit.typeDue 1 = false := by
  decide

/-- A payload, an item and a buffer of `2^64` bytes. -/
theorem witness_RefusedCommands :
    awaiting.dec.unit.busy = true ∧ (emitting 1).enc.unit.busy = true ∧
      (∃ p : List Byte, 2 ^ 64 ≤ p.length ∧ 2 ^ 64 ≤ ([p].map (fun p => 1 + mEnc p.length + p.length)).sum) :=
  ⟨rfl, rfl, List.replicate (2 ^ 64) 0, by rw [List.length_replicate], by
    simp only [List.map_cons, List.map_nil, List.sum_cons, List.sum_nil, List.length_replicate]; omega⟩

/-- A unit that has failed. -/
theorem witness_poisoned :
    ((after (exec .readBytes (srcOf [0xF9]))).map (fun s => (s.dec.unit.busy, s.dec.unit.poison)) = some (false, true)) ∧
      ((after (exec .encode (cmdOf (payloadOf [0xAA]) [.wrote 0]))).map (fun s => (s.enc.unit.busy, s.enc.unit.poison)) =
        some (false, true)) := by decide

theorem witness_ReservedCodes :
    (movesOf [.command 0b000 Operands.none]).moves = [.command 0b000 Operands.none] ∧
      step (movesOf [.command 0b011 Operands.none]) = .refused .reservedCommand := ⟨rfl, rfl⟩

theorem witness_OnlyAllowedKinds :
    (movesOf [.command 0b101 Operands.none]).Inv ∧ (movesOf [.command 0b101 Operands.none]).deliveriesAllowed ∧
      (after (step (movesOf [.command 0b101 Operands.none]))).isSome = true :=
  ⟨movesOf_inv _, by simp [State.deliveriesAllowed, movesOf, State.reset, EncUnit.initial, DecUnit.initial], by decide⟩

theorem witness_ResultDelivered :
    decShows (step (movesOf [.command 0b101 Operands.none])) = some ([.cleanEos], 0x0004, []) := by decide

theorem witness_NeverExhausted : (movesOf []).Inv ∧ (movesOf []).cfg.maxAlloc = none ∧ (movesOf []).cfg.ibufCap = none :=
  ⟨movesOf_inv _, rfl, rfl⟩

/-- A reset that binds nothing, and one that binds a new source. -/
theorem witness_ResetKeepsStreams :
    (movesOf [.reset none none]).moves = [.reset none none] ∧
      (after (step (movesOf [.reset (some { Source.initial with rem := [0xF0] }) none]))).map (·.dec.src.rem) = some [0xF0] :=
  ⟨rfl, by decide⟩

/-- A poisoned unit and a step that is no reset. -/
theorem witness_ResetClearsPoison :
    (movesOf [.reset none none]).moves = [.reset none none] ∧
      ∃ s t : State, s.dec.unit.poison = true ∧ s.resetsNext = false ∧ step s = .next t :=
  ⟨rfl, { State.reset with dec := { State.reset.dec with unit := { DecUnit.initial with poison := true } } }, _, rfl, rfl, rfl⟩

theorem witness_UnitsIndependent :
    (after (exec .peekSize State.reset)).isSome = true ∧ (after (exec .encode State.reset)).isSome = true := by decide

theorem witness_StreamsMoveForward : (srcOf [0xF1]).resetsNext = false ∧ step (srcOf [0xF1]) = .next (srcOf [0xF1]) := ⟨rfl, rfl⟩

/-- Working registers with other contents than after reset. -/
theorem witness_DeadRegisters :
    DecUnit.sameLive DecUnit.initial { DecUnit.initial with t := 0x77, s := 5, n := 3, pay := [0x01] } ∧
      Dec.Inv Config.initial
        { State.reset.dec with unit := { DecUnit.initial with t := 0x77, s := 5, n := 3, pay := [0x01] } } ∧
      EncUnit.sameLive EncUnit.initial { EncUnit.initial with s := 9, m := 4, payload := [0x01] } ∧
      Enc.Inv Config.initial { State.reset.enc with unit := { EncUnit.initial with s := 9, m := 4, payload := [0x01] } } := by
  refine ⟨⟨rfl, rfl, rfl, rfl, rfl, rfl, rfl⟩, ?_, ⟨rfl, rfl, rfl, rfl, rfl⟩, ?_⟩
  · constructor <;> simp [DecUnit.initial, Chk.clear]
  · constructor <;> simp [EncUnit.initial]

theorem witness_StepRunsCommand :
    (movesOf [.command 0b110 Operands.none]).moves = [.command 0b110 Operands.none] ∧
      decode .cmd [BitVec.zeroExtend 8 (0b110 : OpCode)] = .ok (.readInto, []) := ⟨rfl, by decide⟩

/-- A command only accepted leaves its unit busy with nothing asked of its stream; a reserved code is refused. -/
theorem witness_CommandAccepted :
    (movesOf [.begin 0b101 Operands.none]).moves = [.begin 0b101 Operands.none] ∧
      (after (step (movesOf [.begin 0b101 Operands.none]))).map
        (fun t => (t.dec.unit.busy, t.dec.unit.op, t.dec.unit.phase, t.dec.src.asked)) = some (true, .readBytes, .type, []) ∧
      (after (step (movesOf [.begin 0b010 (itemsOf [[0xAA]])]))).map
        (fun t => (t.enc.unit.busy, t.enc.unit.dst, t.enc.unit.m)) = some (true, .ibuf, 1) ∧
      step (movesOf [.begin 0b011 Operands.none]) = .refused .reservedCommand := ⟨rfl, by decide, by decide, rfl⟩

/-- DEC awaits a type byte and its source hands over `A1`. -/
def arriving : State := { awaiting with dec := { awaiting.dec with src := { Source.initial with rem := [0xA1, 0x02] } } }

theorem witness_StepRunsTypeByteOfDec :
    arriving.dec.unit.typeDue = true ∧ (arriving.dec.srcRead 1).map (·.1) = some (.data [0xA1]) ∧
      decode .typeDec [0xA1] = .ok (.decWidth1 0xA, []) ∧ arriving.moves = [] := ⟨rfl, rfl, by decide, rfl⟩

theorem witness_StepRunsTypeByteOfEnc :
    (emitting 4).enc.unit.busy = true ∧ (emitting 4).enc.unit.phase = .wType ∧
      decode .typeEnc [0xF0#8 ||| BitVec.zeroExtend 8 (emitting 4).enc.unit.m] = .ok (.typeF4, []) ∧ (emitting 4).moves = [] ∧
      (emitting 4).dec.transact (emitting 4).cfg = none ∧ (emitting 4).dec.src.starves = false :=
  ⟨rfl, rfl, by decide, rfl, rfl, rfl⟩

theorem witness_StepOfOtherMoves :
    (movesOf [.draw 2]).moves = [.draw 2] ∧ (movesOf [.draw 2]).dec.unit.busy = false ∧
      step { awaiting with moves := [.draw 2] } = .fault .exclusiveUseBroken := ⟨rfl, rfl, rfl⟩

/-- DEC in PEEK_SIZE, its source answering with no bytes for ever (R60). -/
def starved : State :=
  { State.reset with
    dec := { State.reset.dec with src := { Source.initial with rem := [0xA1], later := .empty } }.accept .peekSize }

theorem starved_inv : starved.Inv :=
  have h : State.Inv _ := free_inv Sink.initial { Source.initial with rem := [0xA1], later := .empty } [] 0 Config.initial
    Operands.none []
  ⟨h.enc, Dec.accept_mid h.dec rfl .peekSize (by decide) (by decide)⟩

/-- The clauses: an answer, none, one of a source that starves DEC. -/
theorem witness_TurnIsOneTransaction :
    (movesOf [.turn .dec, .turn .enc]).Inv ∧ starved.Inv ∧ starved.dec.transact starved.cfg = none ∧
      starved.dec.src.starves = true ∧ (arriving.dec.transact arriving.cfg).isSome = true :=
  ⟨movesOf_inv _, starved_inv, rfl, rfl, by decide⟩

/-- A request answered with no bytes leaves DEC in its phase, and the next one is the same (R23, R60). -/
theorem test_starved :
    (after (step starved)).map (fun t => (t.dec.unit == starved.dec.unit, t.dec.src.rem, t.dec.src.asked)) =
      some (true, [0xA1], [1]) := by decide

/-- One request of phase TYPE; none in a run of DEC that is idle. -/
theorem witness_RequestSizes :
    starved.Inv ∧ starved.dec.unit.busy = true ∧ starved.dec.unit.sel = .src ∧ (starved.dec.turn starved.cfg).isSome = true ∧
      (movesOf [.turn .dec]).dec.unit.busy = false ∧
      (after (exec .peekSize (srcOf [0xF2, 0xC4, 0x09]))).map (·.dec.src.asked) = some [1, 2] :=
  ⟨starved_inv, rfl, rfl, by decide, rfl, by decide⟩

theorem witness_CommandIsItsTransactions :
    (srcOf [0xF1, 0x00]).Inv ∧ (srcOf [0xF1, 0x00]).moves = [] ∧
      (after (exec .peekSize (srcOf [0xF1, 0x00]))).isSome = true ∧ (after (exec .encodeList (srcOf [0xF1, 0x00]))).isSome = true :=
  ⟨srcOf_inv _, rfl, by decide, by decide⟩

theorem arriving_inv : arriving.Inv :=
  ⟨(movesOf_inv []).enc,
    Dec.accept_mid (d := { State.reset.dec with src := { Source.initial with rem := [0xA1, 0x02] } })
      (free_inv Sink.initial { Source.initial with rem := [0xA1, 0x02] } [] 0 Config.initial Operands.none []).dec rfl
      .readBytes (by decide) (by decide)⟩

/-- The clauses: a unit that can go on, none that can, a source that starves DEC. -/
theorem witness_StepsMakeProgress :
    (arriving.Inv ∧ arriving.moves = [] ∧ (arriving.dec.transact arriving.cfg).isSome = true) ∧
      (State.reset.Inv ∧ State.reset.dec.unit.busy = false ∧ State.reset.enc.transact State.reset.cfg = none) ∧
      starved.moves = [] ∧ starved.enc.transact starved.cfg = none ∧ starved.dec.unit.busy = true :=
  ⟨⟨arriving_inv, rfl, by decide⟩, ⟨movesOf_inv [], rfl, rfl⟩, rfl, rfl, rfl⟩

/-- Both units in the middle of an operation, their streams silent. -/
def blocked : State :=
  { State.reset with
    enc := { State.reset.enc with snk := { Sink.initial with later := .silent } }.acceptEncode [0xAA]
    dec := { State.reset.dec with src := { Source.initial with rem := [0xA1], later := .silent } }.accept .peekSize }

theorem blocked_inv : blocked.Inv :=
  have h : State.Inv _ := free_inv { Sink.initial with later := .silent } { Source.initial with rem := [0xA1], later := .silent }
    [] 0 Config.initial Operands.none []
  ⟨Enc.acceptEncode_inv h.enc rfl _, Dec.accept_mid h.dec rfl .peekSize (by decide) (by decide)⟩

theorem witness_BlockedOnlyBySilence :
    blocked.Inv ∧ blocked.dec.unit.busy = true ∧ blocked.dec.turn blocked.cfg = none ∧ blocked.enc.unit.busy = true ∧
      blocked.enc.transact blocked.cfg = none ∧ (starved.dec.turn starved.cfg).isSome = true :=
  ⟨blocked_inv, rfl, rfl, rfl, rfl, by decide⟩

theorem witness_OperationsEnd :
    (srcOf [0xF1, 0x00]).Inv ∧ (srcOf [0xF1, 0x00]).dec.src.answersAll ∧ (srcOf [0xF1, 0x00]).enc.snk.later = .prompt ∧
      (srcOf [0xF1, 0x00]).cmd.encodeListOk Config.initial = true :=
  ⟨srcOf_inv _, ⟨by decide, rfl⟩, rfl, by decide⟩

/-- Two frames, the longer of exactly `MAX_ALLOC` bytes, and the moves that read them and the end. -/
def twoFrames : State :=
  { srcOf [0xF1, 0x01, 0xAA, 0xF1, 0x00] with
    cfg := { Config.initial with maxAlloc := some 1 }
    moves := List.replicate 3 (.command 0b101#3 Operands.none) }

theorem witness_StreamingConcatenation :
    twoFrames.Inv ∧ twoFrames.dec.unit.busy = false ∧ twoFrames.dec.unit.poison = false ∧
      twoFrames.dec.src.rem = ([[0xAA#8], []].map frame).flatten ∧ twoFrames.dec.src.fin = .eos ∧
      twoFrames.dec.src.later = .prompt ∧
      (∀ p ∈ [[0xAA#8], []], p.length < 2 ^ 64 ∧ passes twoFrames.cfg.maxAlloc p.length = false) ∧
      twoFrames.moves = List.replicate ([[0xAA#8], []].length + 1) (.command 0b101#3 Operands.none) :=
  ⟨free_inv _ _ _ _ _ _ _, rfl, rfl, by decide, rfl, rfl, by decide, rfl⟩

/-- A list frame of exactly `IBUF_CAP` bytes with an item of exactly `MAX_ALLOC` bytes, and a byte after it. -/
def listStream : State :=
  { srcOf [0xF1, 0x05, 0xF1, 0x01, 0xAA, 0xF1, 0x00, 0x99] with
    cfg := { Config.initial with maxAlloc := some 1, ibufCap := some 5 } }

theorem witness_ListRoundTrip :
    listStream.Inv ∧ listStream.dec.unit.busy = false ∧ listStream.dec.unit.poison = false ∧ listStream.dec.src.answersAll ∧
      listStream.dec.src.rem = listFrame [[0xAA#8], []] ++ [0x99#8] ∧ (frameAll [[0xAA#8], []]).length < 2 ^ 64 ∧
      passes listStream.cfg.ibufCap (frameAll [[0xAA#8], []]).length = false ∧
      (∀ p ∈ [[0xAA#8], []], passes listStream.cfg.maxAlloc p.length = false) :=
  ⟨free_inv _ _ _ _ _ _ _, rfl, rfl, ⟨by decide, rfl⟩, by decide, by decide, by decide, by decide⟩

/-- Program G6, run (a). -/
def peekStream : State :=
  { srcOf [0xF1, 0x02, 0xF1, 0x00, 0xF1, 0x01, 0x41] with
    moves := [.command 0b100#3 Operands.none, .draw 2, .command 0b101#3 Operands.none] }

theorem witness_PeekThenDraw :
    peekStream.Inv ∧ peekStream.dec.unit.busy = false ∧ peekStream.dec.unit.poison = false ∧ peekStream.dec.src.answersAll ∧
      [0xF1#8, 0x00#8].length < 2 ^ 64 ∧ [0x41#8].length < 2 ^ 64 ∧ passes peekStream.cfg.maxAlloc [0x41#8].length = false ∧
      peekStream.dec.src.rem = frame [0xF1#8, 0x00#8] ++ frame [0x41#8] ++ [] ∧
      peekStream.moves =
        [.command 0b100#3 Operands.none, .draw [0xF1#8, 0x00#8].length, .command 0b101#3 Operands.none] :=
  ⟨free_inv _ _ _ _ _ _ _, rfl, rfl, ⟨by decide, rfl⟩, by decide, by decide, by decide, by decide, rfl⟩

end Sys2Proof.Tests
end

namespace Sys2Proof.Machine

/-- Settles O1 (R34). `State.reset` takes its units from `EncUnit.initial` and `DecUnit.initial`, whose fields are the values of
R34's table, so each clause holds by evaluating one field; the dead registers of that table appear in none. -/
theorem resetState : Obligations.ResetState :=
  ⟨rfl, rfl, -- PHASE
    rfl, rfl, -- BUSY
    rfl, rfl, -- POISON
    rfl, rfl, -- RESULT
    rfl, -- CHK
    rfl, rfl⟩ -- IBUF_E, IBUF_D

end Sys2Proof.Machine

namespace Sys2Proof.Machine

/-! ### The width function, range by range (R70) -/

theorem mEnc_eq_one {s : Nat} (h : s < 2 ^ 8) : mEnc s = 1 := if_pos h

theorem mEnc_eq_two {s : Nat} (hlo : 2 ^ 8 ≤ s) (hhi : s < 2 ^ 16) : mEnc s = 2 := by
  unfold mEnc
  rw [if_neg (by omega), if_pos hhi]

theorem mEnc_eq_four {s : Nat} (hlo : 2 ^ 16 ≤ s) (hhi : s < 2 ^ 32) : mEnc s = 4 := by
  unfold mEnc
  rw [if_neg (by omega), if_neg (by omega), if_pos hhi]

theorem mEnc_eq_eight {s : Nat} (hlo : 2 ^ 32 ≤ s) : mEnc s = 8 := by
  unfold mEnc
  rw [if_neg (by omega), if_neg (by omega), if_neg (by omega)]

/-- The loop stops at a width that holds `s`. -/
theorem mEncLoop_of_lt {s m : Nat} (h : s < 2 ^ (8 * m)) (fuel : Nat) : mEncLoop s fuel m = m := by
  cases fuel with
  | zero => rfl
  | succ fuel => exact if_neg fun hc => hc.2 (Nat.shiftRight_eq_zero s _ h)

/-- The loop stops at 8, the greatest width. -/
theorem mEncLoop_eight (s fuel : Nat) : mEncLoop s fuel 8 = 8 := by
  cases fuel with
  | zero => rfl
  | succ fuel => exact if_neg fun hc => absurd hc.1 (Nat.lt_irrefl 8)

/-- The loop doubles a width below 8 that does not hold `s`. -/
theorem mEncLoop_of_le {s m : Nat} (hm : m < 8) (h : 2 ^ (8 * m) ≤ s) (fuel : Nat) :
    mEncLoop s (fuel + 1) m = mEncLoop s fuel (2 * m) := by
  have hne : s >>> (8 * m) ≠ 0 := by
    rw [Nat.shiftRight_eq_div_pow]
    exact (Nat.div_pos h (Nat.two_pow_pos _)).ne'
  exact if_pos ⟨hm, hne⟩

theorem mEncLoop_eq_mEnc (s : Nat) : mEncLoop s 4 1 = mEnc s := by
  rcases lt_or_ge s (2 ^ 8) with h8 | h8
  · rw [mEncLoop_of_lt h8, mEnc_eq_one h8]
  rw [mEncLoop_of_le (by decide) h8]
  rcases lt_or_ge s (2 ^ 16) with h16 | h16
  · rw [mEncLoop_of_lt h16, mEnc_eq_two h8 h16]
  rw [mEncLoop_of_le (by decide) h16]
  rcases lt_or_ge s (2 ^ 32) with h32 | h32
  · rw [mEncLoop_of_lt h32, mEnc_eq_four h16 h32]
  · rw [mEncLoop_of_le (by decide) h32, mEncLoop_eight, mEnc_eq_eight h32]

/-- Settles O8 (R70): the ranges are the branches of `mEnc`, and in each of them the loop doubles up to that width and stops. -/
theorem widthFunction : Obligations.WidthFunction :=
  fun s _ => ⟨mEnc_eq_one, mEnc_eq_two, mEnc_eq_four, mEnc_eq_eight, mEncLoop_eq_mEnc s⟩

/-! ### The laws of the length field (R66, R71) -/

theorem leValue_leBytes {v m : Nat} (h : v < 2 ^ (8 * m)) : leValue (leBytes v m) = v := by
  rw [leValue_leBytes_mod, Nat.mod_eq_of_lt]
  rwa [pow_mul] at h

theorem leValue_append_zeros (x : List Byte) (k : Nat) : leValue (x ++ List.replicate k 0#8) = leValue x := by
  rw [leValue_append, leValue_zeros, Nat.mul_zero, Nat.add_zero]

/-- Byte `i` of a field is bits `8i+7` to `8i` of its value. -/
theorem leBytes_getElem? {m i : Nat} (v : Nat) (h : i < m) :
    (leBytes v m)[i]? = some (BitVec.ofNat 8 (v >>> (8 * i) % 256)) := by
  induction m generalizing v i with
  | zero => omega
  | succ m ih =>
    cases i with
    | zero => simp [leBytes, ← BitVec.toNat_inj]
    | succ i =>
      have hshift : v >>> (8 * (i + 1)) = (v / 256) >>> (8 * i) := by
        rw [Nat.mul_succ, Nat.add_comm, Nat.shiftRight_add, Nat.shiftRight_eq_div_pow v 8]
      rw [hshift]
      exact ih (v / 256) (by omega)

/-- Settles O9 (R71): each law is that of the field functions; (c) and (e) are those of the width function. -/
theorem fieldLaws : Obligations.FieldLaws := by
  refine ⟨fun v m _ hv => leValue_leBytes hv, fun x _ => leBytes_leValue_length x,
    fun s hs => ⟨?_, leValue_leBytes_mEnc hs⟩, fun x z _ hz => ?_, fun s s' => mEnc_mono⟩
  · rw [pow_mul]
    exact lt_pow_mEnc hs
  · rw [List.eq_replicate_of_mem hz]
    exact leValue_append_zeros x z.length

/-- Settles O10 (R66): the field is `leBytes` of the size, whose bytes and value are known. -/
theorem lengthField : Obligations.LengthField := by
  intro p hp
  constructor
  · intro i hi
    have hin : i < (leBytes p.length (mEnc p.length)).length := by rwa [leBytes_length]
    rw [frame, Nat.add_comm, List.getElem?_cons_succ, List.getElem?_append_left hin]
    exact leBytes_getElem? _ hi
  · have hfield : ((frame p).drop 1).take (mEnc p.length) = leBytes p.length (mEnc p.length) :=
      List.take_left' (leBytes_length _ _)
    rw [hfield, leValue_append_zeros, leValue_leBytes_mEnc hp]

/-! ### The type byte of a frame (R64) -/

/-- `encTypeByte` widens the 4-bit width register; R64 says `0xF0 | m` of the width as a number. -/
theorem encTypeByte_mEnc (s : Nat) : encTypeByte (BitVec.ofNat 4 (mEnc s)) = 0xF0#8 ||| BitVec.ofNat 8 (mEnc s) := by
  rcases mEnc_cases s with h | h | h | h <;> rw [h] <;> rfl

theorem frame_head? (p : List Byte) : (frame p).head? = some (0xF0#8 ||| BitVec.ofNat 8 (mEnc p.length)) :=
  congrArg some (encTypeByte_mEnc p.length)

/-- A payload of each size below `2^64` gives the type byte of that size's width. -/
theorem exists_frame_head? {s m : Nat} (hs : s < 2 ^ 64) (hm : mEnc s = m) :
    ∃ p : List Byte, p.length < 2 ^ 64 ∧ (frame p).head? = some (0xF0#8 ||| BitVec.ofNat 8 m) := by
  refine ⟨List.replicate s 0#8, ?_, ?_⟩
  · rwa [List.length_replicate]
  · rw [frame_head?, List.length_replicate, hm]

/-- Settles O7 (R64): the widths are 1, 2, 4 and 8, and a payload at the foot of each range of R70 has each of them. -/
theorem encoderTypeBytes : Obligations.EncoderTypeBytes := by
  refine ⟨frame_head?, fun b => ⟨?_, ?_⟩⟩
  · rintro ⟨p, -, hp⟩
    rw [frame_head?, Option.some_inj] at hp
    subst hp
    rcases mEnc_cases p.length with h | h | h | h <;> rw [h] <;> decide
  · rintro (rfl | rfl | rfl | rfl)
    · exact exists_frame_head? (s := 0) (m := 1) (by decide) (mEnc_eq_one (by decide))
    · exact exists_frame_head? (s := 2 ^ 8) (m := 2) (by decide) (mEnc_eq_two (by decide) (by decide))
    · exact exists_frame_head? (s := 2 ^ 16) (m := 4) (by decide) (mEnc_eq_four (by decide) (by decide))
    · exact exists_frame_head? (s := 2 ^ 32) (m := 8) (by decide) (mEnc_eq_eight (by decide))

/-! ### One frame parsed (R84, R85, R98) -/

theorem parse1_nil : parse1 [] = .stop .cleanEos [] := rfl

theorem parse1_bad {t : Byte} {y : List Byte} (h : 8 < (typeLo t).toNat) : parse1 (t :: y) = .stop (.badWidth t) y :=
  parseFrame_stop (parsePrefix_bad h)

theorem parse1_short {t : Byte} {f : List Byte} (h8 : (typeLo t).toNat ≤ 8) (hf : f.length < (typeLo t).toNat) :
    parse1 (t :: f) = .stop (.truncated .len) [] :=
  parseFrame_stop (parsePrefix_short h8 hf)

/-- Type byte and length field are whole: the size decides between the payload and its truncation. -/
theorem parse1_whole {t : Byte} {f y : List Byte} (h8 : (typeLo t).toNat ≤ 8) (hf : f.length = (typeLo t).toNat) :
    parse1 (t :: (f ++ y)) =
      if y.length < leValue f then .stop (.truncated .payload) [] else .value (y.take (leValue f)) (y.drop (leValue f)) :=
  parseFrame_value (parsePrefix_whole h8 hf)

/-- The width a type byte carries for a size is the number `mEnc` gives, under any upper nibble. -/
theorem typeLo_typeByte_mEnc (hi : Nibble) (s : Nat) : (typeLo (typeByte hi (BitVec.ofNat 4 (mEnc s)))).toNat = mEnc s := by
  rw [typeLo_typeByte, toNat_mEnc_nibble]

/-- A type byte, the length field it announces, and a payload of that length are read as that payload. -/
theorem parse1_split {t : Byte} {f p : List Byte} (rest : List Byte) (h8 : (typeLo t).toNat ≤ 8)
    (hf : f.length = (typeLo t).toNat) (hp : leValue f = p.length) : parse1 (t :: (f ++ (p ++ rest))) = .value p rest := by
  rw [parse1_whole h8 hf, hp, if_neg (by simp), List.take_left, List.drop_left]

/-- The bytes of `frame p` with any upper nibble in the type byte are read as `frame p` is (R65). -/
theorem parse1_of_typeByte (hi : Nibble) {p : List Byte} (rest : List Byte) (hp : p.length < 2 ^ 64) :
    parse1 (typeByte hi (BitVec.ofNat 4 (mEnc p.length)) :: (leBytes p.length (mEnc p.length) ++ (p ++ rest))) =
      .value p rest := by
  have hlo := typeLo_typeByte_mEnc hi p.length
  exact parse1_split rest (hlo.trans_le (mEnc_le _)) (by rw [leBytes_length, hlo]) (leValue_leBytes_mEnc hp)

theorem frame_append (p rest : List Byte) :
    frame p ++ rest =
      typeByte 0xF#4 (BitVec.ofNat 4 (mEnc p.length)) :: (leBytes p.length (mEnc p.length) ++ (p ++ rest)) := by
  rw [frame, encTypeByte_eq, List.cons_append, List.append_assoc]

theorem parse1_frame {p : List Byte} (rest : List Byte) (hp : p.length < 2 ^ 64) :
    parse1 (frame p ++ rest) = .value p rest := by
  rw [frame_append]
  exact parse1_of_typeByte 0xF#4 rest hp

/-- CHECK finds nothing in the encoder's own type byte of a size (R137). -/
theorem check_typeByte_mEnc (s : Nat) : check (typeByte 0xF#4 (BitVec.ofNat 4 (mEnc s))) s = Chk.clear := by
  unfold check
  rw [typeLo_typeByte_mEnc, typeHi_typeByte]
  rcases mEnc_cases s with h | h | h | h <;> rw [h] <;> rfl

theorem prefixFlags_frame {p : List Byte} (rest : List Byte) (hp : p.length < 2 ^ 64) :
    prefixFlags (frame p ++ rest) = Chk.clear := by
  have hlo := typeLo_typeByte_mEnc 0xF#4 p.length
  rw [frame_append, prefixFlags_whole (hlo.trans_le (mEnc_le _)) (by rw [leBytes_length, hlo]), leValue_leBytes_mEnc hp]
  exact check_typeByte_mEnc _

/-- Settles O11 (R85). The frame is the split its own bytes announce; for the converse, the same bytes with upper nibble 0 in the
type byte are another sequence with the same reading. -/
theorem parseOfFrame : Obligations.ParseOfFrame := by
  refine ⟨fun p rest hp => ⟨parse1_frame rest hp, prefixFlags_frame rest hp, frame_length p⟩, fun p rest hp => ?_⟩
  refine ⟨typeByte 0 (BitVec.ofNat 4 (mEnc p.length)) :: (leBytes p.length (mEnc p.length) ++ (p ++ rest)), ?_,
    parse1_of_typeByte 0 rest hp⟩
  rw [frame_append]
  intro heq
  have hhi := congrArg typeHi (List.cons.inj heq).1
  rw [typeHi_typeByte, typeHi_typeByte] at hhi
  exact absurd hhi (by decide)

/-- Settles O12 (R84): the cases are those of the parse, no byte, a width above 8, too few length bytes, too few payload bytes, and
a whole frame. -/
theorem parseSplits : Obligations.ParseSplits := by
  intro x
  cases x with
  | nil =>
    rw [parse1_nil]
    exact ⟨List.suffix_rfl, .inl ⟨rfl, rfl⟩⟩
  | cons t y =>
    by_cases hbad : 8 < (typeLo t).toNat
    · rw [parse1_bad hbad]
      exact ⟨List.suffix_cons t y, .inr (.inr ⟨t, rfl, hbad, rfl⟩)⟩
    have h8 : (typeLo t).toNat ≤ 8 := Nat.le_of_not_lt hbad
    by_cases hshort : y.length < (typeLo t).toNat
    · rw [parse1_short h8 hshort]
      exact ⟨List.nil_suffix, .inr (.inl ⟨List.cons_ne_nil t y, .inl rfl, rfl⟩)⟩
    obtain ⟨f, z, rfl, hf⟩ : ∃ f z, y = f ++ z ∧ f.length = (typeLo t).toNat :=
      ⟨_, _, (List.take_append_drop (typeLo t).toNat y).symm, List.length_take_of_le (Nat.le_of_not_lt hshort)⟩
    rw [parse1_whole h8 hf]
    by_cases hz : z.length < leValue f
    · rw [if_pos hz]
      exact ⟨List.nil_suffix, .inr (.inl ⟨List.cons_ne_nil t _, .inr rfl, rfl⟩)⟩
    · rw [if_neg hz]
      refine ⟨t, f, hf, hf ▸ h8, (List.length_take_of_le (Nat.le_of_not_lt hz)).symm, ?_⟩
      rw [List.append_assoc, List.take_append_drop, List.cons_append]

/-! ### A failure of DEC before the payload (R77, R101, R158) -/

/-- What a failure leaves alone while READ_INTO has handed out no room: the source, the draws, the latched type byte and size,
and the buffers of the host and of the list. -/
structure Dec.FailKeeps (d e : Dec) : Prop where
  src : e.src = d.src
  draws : e.draws = d.draws
  tick : e.tick = d.tick
  t : e.unit.t = d.unit.t
  m : e.unit.m = d.unit.m
  s : e.unit.s = d.unit.s
  buf : e.unit.buf = d.unit.buf
  ibuf : e.unit.ibuf = d.unit.ibuf

theorem Dec.fail_keeps {d : Dec} (h : d.unit.bufHandedOut = false) (r : Result) : d.FailKeeps (d.fail r) := by
  unfold Dec.fail
  rw [h]
  split <;> constructor <;> rfl

/-- A failure ends the operation with its own flags, or-ed to those of the list in an inner frame (R131, R160). -/
theorem Dec.fail_endedWith {d : Dec} (h : d.unit.bufHandedOut = false) (hp : d.unit.poison = false) (r : Result) :
    d.unit.endedWith (d.fail r).unit d.unit.op r (if d.unit.inner then d.unit.flags.or d.unit.chk else d.unit.chk) := by
  unfold Dec.fail
  rw [h]
  split <;> exact ⟨rfl, rfl, rfl, by simp [hp], rfl, rfl⟩

theorem DecUnit.endedWith.poison_eq {u v : DecUnit} {op : DecOp} {r : Result} {c : Chk} (h : u.endedWith v op r c) :
    v.poison = r.poisons := by
  obtain ⟨-, -, -, hpoison, -, -⟩ := h
  exact hpoison

theorem DecUnit.bufHandedOut_type {u : DecUnit} (h : u.phase = .type) : u.bufHandedOut = false := by
  simp [DecUnit.bufHandedOut, h]

theorem checkT_typeByte (hi m : Nibble) : checkT (typeByte hi m) = ⟨hi != 0xF#4, false, true, false, false⟩ := by
  simp [checkT]

/-- The latched type byte of a width above 8, with its flags, before the failure it leads to. -/
def Dec.latchBadWidth (d : Dec) (t : Byte) : Dec :=
  { d.latchType t with unit := { (d.latchType t).unit with chk := checkT t } }

theorem Dec.takeBadWidth_eq (d : Dec) (t : Byte) : d.takeBadWidth t = (d.latchBadWidth t).fail (.badWidth t) := rfl

/-- Each of the three rows of width 9 to 15 ends a parse that awaits a type byte with BAD_WIDTH. -/
theorem exec_badWidth {i : Instr} {hi m : Nibble} {s : State} (hdue : s.dec.unit.typeDue = true)
    (hrow : i = .decWidth9 hi ∧ m = 9 ∨ i = .decWidth10to11 hi m ∨ i = .decWidth12to15 hi m) :
    exec i s = .next { s with dec := s.dec.takeBadWidth (typeByte hi m) } := by
  rcases hrow with ⟨rfl, rfl⟩ | rfl | rfl <;> exact if_pos hdue

/-- Settles O31 (R77, R101): the row is the failure of a unit that has latched the byte and CHECK_T's flags; such a unit
stands in phase TYPE, so no buffer has been handed out. -/
theorem badWidthRows : Obligations.BadWidthRows := by
  intro i hi m s hinv hdue _ hrow
  obtain ⟨hbusy, hphase⟩ : s.dec.unit.busy = true ∧ s.dec.unit.phase = .type := by simpa [DecUnit.typeDue] using hdue
  have hbuf : (s.dec.latchBadWidth (typeByte hi m)).unit.bufHandedOut = false := DecUnit.bufHandedOut_type hphase
  have hclean : (s.dec.latchBadWidth (typeByte hi m)).unit.poison = false := hinv.busy_clean hbusy
  have keeps := Dec.fail_keeps hbuf (.badWidth (typeByte hi m))
  have ended := Dec.fail_endedWith hbuf hclean (.badWidth (typeByte hi m))
  rw [← Dec.takeBadWidth_eq] at keeps ended
  refine ⟨_, exec_badWidth hdue (hrow.imp_right (Or.imp And.left And.left)), rfl, keeps.src, keeps.draws, keeps.tick, keeps.s,
    keeps.buf, keeps.ibuf, keeps.t, keeps.m.trans (typeLo_typeByte hi m), ended.poison_eq, ?_⟩
  rw [← checkT_typeByte]
  exact ended

/-! ### The reserved codes (R79) -/

/-- A command presented runs its decoded instruction, with its operands at the command port (R78). -/
theorem step_command {s : State} {op : OpCode} {o : Operands} {ms : List Move} (h : s.moves = .command op o :: ms) :
    step s = exec (decodeCmd op) { s with moves := ms, cmd := o } := by
  unfold step fetch
  rw [h]
  rfl

theorem exec_reserved000 (s : State) : exec .reserved000 s = .refused .reservedCommand := rfl

theorem exec_reserved011 (s : State) : exec .reserved011 s = .refused .reservedCommand := rfl

/-- Settles O36 (R79): codes 000 and 011 decode to the reserved instructions, whose arms refuse at every state. -/
theorem reservedCodes : Obligations.ReservedCodes :=
  ⟨fun s => ⟨exec_reserved000 s, exec_reserved011 s⟩,
    fun _ _ _ =>
      ⟨fun h => (step_command h).trans (exec_reserved000 _), fun h => (step_command h).trans (exec_reserved011 _)⟩⟩

end Sys2Proof.Machine

namespace Sys2Proof.Machine

/-! ### A command or a row of ENC that ends (R160) -/

/-- An instruction that took `s` to `t` has ended the operation `op` of ENC with `r`: nothing but ENC and its sink changed, the
buffers of ENCODE_LIST are kept, and the sink is now `snk`. -/
def State.encEnded (s t : State) (op : EncOp) (r : Result) (snk : Sink) : Prop :=
  s.onlyEnc t ∧ s.enc.listKept t.enc ∧ t.enc.snk = snk ∧ s.enc.unit.endedWith t.enc.unit op r

/-- A unit that has delivered nothing since `s` and is clean ends its operation by `Enc.finish`. -/
theorem State.encEnded_finish {s : State} {e : Enc} (hlist : s.enc.listKept e) (hclean : e.unit.poison = false)
    (hout : e.unit.out = s.enc.unit.out) (r : Result) :
    s.encEnded { s with enc := e.finish r } e.unit.op r e.snk :=
  ⟨rfl, hlist, rfl, rfl, rfl, rfl, by simp [hclean], by simp [hout]⟩

/-! ### The type byte due (R88) -/

/-- Settles O33 (R88): the row due is that of the register `M`, which the invariant ties to the width of the payload's size. -/
theorem widthDue : Obligations.WidthDue := by
  intro s m hinv hbusy hphase
  have hdue : s.enc.unit.typeDue m = true ↔ s.enc.unit.m = m := by simp [EncUnit.typeDue, hbusy, hphase]
  rw [hdue, hinv.width hbusy, ← BitVec.toNat_inj, toNat_mEnc_nibble]
  exact eq_comm

/-! ### One write of ENC to the bound sink (R50), by the sink's answer -/

theorem Enc.emit_snk_none {cfg : Config} {e : Enc} {x : List Byte} (k : Enc → Enc) (hd : e.unit.dst = .snk)
    (hx : x.isEmpty = false) (h : e.snk.answer x = none) : e.emit cfg x k = none := by
  simp [Enc.emit, Enc.sinkWrite_snk hd, hx, h]

theorem Enc.emit_snk_wrote {cfg : Config} {e : Enc} {x : List Byte} {n : Nat} {snk : Sink} (k : Enc → Enc)
    (hd : e.unit.dst = .snk) (hx : x.isEmpty = false) (h : e.snk.answer x = some (.wrote n, snk)) :
    e.emit cfg x k =
      if n = x.length then some (k ⟨{ e.unit with cnt := e.unit.cnt + BitVec.ofNat 65 x.length }, snk⟩)
      else some (Enc.finish ⟨e.unit, snk⟩ (.sinkWriteFailure (.short n))) := by
  simp [Enc.emit, Enc.sinkWrite_snk hd, hx, h]

theorem Enc.emit_snk_err {cfg : Config} {e : Enc} {x : List Byte} {er : EnvError} {snk : Sink} (k : Enc → Enc)
    (hd : e.unit.dst = .snk) (hx : x.isEmpty = false) (h : e.snk.answer x = some (.err er, snk)) :
    e.emit cfg x k = some (Enc.finish ⟨e.unit, snk⟩ (.sinkWriteFailure (.err er))) := by
  simp [Enc.emit, Enc.sinkWrite_snk hd, hx, h]

/-- Only `IBUF_E` answers a write by being full (R43, R52). -/
theorem Sink.answer_ne_full {snk snk' : Sink} {x : List Byte} (n : Nat) : snk.answer x ≠ some (.full n, snk') := by
  unfold Sink.answer
  split
  · simp
  · simp
  · split <;> simp

/-! ### The rows of format TYPE_ENC (R64, R89) -/

theorem exec_typeRow {i : Instr} {m : Nibble} (s : State)
    (hrow : (i, m) ∈ [(Instr.typeF1, (1 : Nibble)), (.typeF2, 2), (.typeF4, 4), (.typeF8, 8)]) :
    exec i s = emitTypeRow m s := by
  simp only [List.mem_cons, Prod.mk.injEq, List.not_mem_nil, or_false] at hrow
  rcases hrow with ⟨rfl, rfl⟩ | ⟨rfl, rfl⟩ | ⟨rfl, rfl⟩ | ⟨rfl, rfl⟩ <;> rfl

/-- The row that is due emits its byte, or leaves ENC as it is while the sink does not answer (R60). -/
theorem emitTypeRow_of_due {m : Nibble} {s : State} (hdue : s.enc.unit.typeDue m = true) :
    emitTypeRow m s = .next { s with enc := (s.enc.emitType s.cfg (encTypeByte m)).getD s.enc } := by
  rw [emitTypeRow, if_pos hdue]
  cases s.enc.emitType s.cfg (encTypeByte m) <;> rfl

/-- Settles O32 (R89, R52): the row is one write of one byte, and the cases are the answers of the destination to it. -/
theorem typeByteEmitted : Obligations.TypeByteEmitted := by
  intro i m s hrow hclean hdue
  have hexec : exec i s = .next { s with enc := (s.enc.emitType s.cfg (encTypeByte m)).getD s.enc } :=
    (exec_typeRow s hrow).trans (emitTypeRow_of_due hdue)
  have hended (snk : Sink) (r : Result) :
      s.encEnded { s with enc := Enc.finish ⟨s.enc.unit, snk⟩ r } s.enc.unit.op r snk :=
    State.encEnded_finish (e := ⟨s.enc.unit, snk⟩) ⟨rfl, rfl, rfl⟩ hclean rfl r
  unfold Enc.emitType at hexec
  refine ⟨fun hd => ?_, fun hd hroom => ?_, fun hd hpast => ?_⟩
  · have hbyte : 0xF0#8 ||| m.zeroExtend 8 = encTypeByte m := rfl
    rw [hbyte]
    cases hans : s.enc.snk.answer [encTypeByte m] with
    | none =>
      rw [Enc.emit_snk_none _ hd rfl hans] at hexec
      exact hexec
    | some p =>
      obtain ⟨reply, snk⟩ := p
      cases reply with
      | wrote k =>
        rw [Enc.emit_snk_wrote _ hd rfl hans, List.length_singleton] at hexec
        dsimp only
        by_cases hk : k = 1
        · rwa [if_pos hk] at hexec ⊢
        · rw [if_neg hk] at hexec ⊢
          exact ⟨_, hexec, hended snk _⟩
      | err e =>
        rw [Enc.emit_snk_err _ hd rfl hans] at hexec
        exact ⟨_, hexec, hended snk _⟩
      | full n => exact absurd hans (Sink.answer_ne_full n)
  · rwa [Enc.emit_ibuf hd rfl, List.length_singleton, hroom] at hexec
  · rw [Enc.emit_ibuf hd rfl, List.length_singleton, hpast] at hexec
    exact ⟨_, hexec, hended s.enc.snk _⟩

/-! ### What a sink has accepted of a sequence of writes (R43, R44) -/

/-- The sink after it has answered the offer of `x` by accepting its first `k` bytes, with `as` still to come. -/
def Sink.took (snk : Sink) (x : List Byte) (k : Nat) (as : List SinkChoice) : Sink :=
  { snk with acc := snk.acc ++ x.take k, answers := as, offered := snk.offered ++ [x] }

/-- The answer `a` to a write of `x` fails it with the cause `c`, after `k` bytes. -/
inductive SinkChoice.FailsAs (x : List Byte) : SinkChoice → WriteFailure → Nat → Prop where
  | short {k : Nat} (h : k < x.length) : FailsAs x (.wrote k) (.short k) k
  | err (e : EnvError) (j : Nat) : FailsAs x (.err e j) (.err e) (min j x.length)

theorem Sink.answer_wrote {snk : Sink} {x : List Byte} {k : Nat} {as : List SinkChoice} (h : snk.answers = .wrote k :: as)
    (hk : k ≤ x.length) : snk.answer x = some (.wrote k, snk.took x k as) := by
  simp [Sink.answer, h, Sink.took, Nat.min_eq_left hk]

theorem Sink.answer_err {snk : Sink} {x : List Byte} {e : EnvError} {j : Nat} {as : List SinkChoice}
    (h : snk.answers = .err e j :: as) : snk.answer x = some (.err e, snk.took x (min j x.length) as) := by
  simp [Sink.answer, h, Sink.took]

theorem Sink.answer_full {snk snk' : Sink} {x : List Byte} (h : snk.answer x = some (.wrote x.length, snk')) :
    snk'.acc = snk.acc ++ x ∧ snk'.offered = snk.offered ++ [x] := by
  unfold Sink.answer at h
  split at h
  · simp only [Option.some.injEq, Prod.mk.injEq, SinkReply.wrote.injEq] at h
    obtain ⟨hk, rfl⟩ := h
    exact ⟨by rw [hk, List.take_length], rfl⟩
  · simp at h
  · split at h
    · simp only [Option.some.injEq, Prod.mk.injEq, true_and] at h
      subst h
      exact ⟨rfl, rfl⟩
    · simp at h

theorem Sink.offerAll_of_takesAll {ws : List (List Byte)} {snk : Sink} (h : Sink.takesAll ws snk) :
    ∃ snk', Sink.offerAll ws snk = (.done, snk') ∧ snk'.acc = snk.acc ++ ws.flatten ∧ snk'.offered = snk.offered ++ ws := by
  induction ws generalizing snk with
  | nil => exact ⟨snk, rfl, by simp, by simp⟩
  | cons x xs ih =>
    obtain ⟨snk₁, hans, hrest⟩ := h
    obtain ⟨hacc₁, hoff₁⟩ := Sink.answer_full hans
    obtain ⟨snk', hall, hacc, hoff⟩ := ih hrest
    refine ⟨snk', ?_, by simp [hacc, hacc₁], by simp [hoff, hoff₁]⟩
    simpa [Sink.offerAll, hans] using hall

/-- The writes `xs` after a failed one are not offered (R93). -/
theorem Sink.offerAll_failsAs {snk : Sink} {x : List Byte} {a : SinkChoice} {as : List SinkChoice} {c : WriteFailure} {k : Nat}
    (h : snk.answers = a :: as) (hfail : a.FailsAs x c k) (xs : List (List Byte)) :
    Sink.offerAll (x :: xs) snk = (.failed (.sinkWriteFailure c), snk.took x k as) := by
  cases hfail with
  | short hk => simp [Sink.offerAll, Sink.answer_wrote h hk.le, hk.ne]
  | err e j => simp [Sink.offerAll, Sink.answer_err h]

/-- The writes `ws` are answered in full and the next one, `x`, fails: the sink has accepted `ws` and `k` bytes of `x`, and has been
offered nothing after `x` (R93). -/
theorem Sink.offerAll_failsAfter {ws xs : List (List Byte)} {x : List Byte} {snk : Sink} {a : SinkChoice} {as : List SinkChoice}
    {c : WriteFailure} {k : Nat} (h : snk.answers = ws.map (fun w => .wrote w.length) ++ a :: as) (hfail : a.FailsAs x c k) :
    ∃ snk', Sink.offerAll (ws ++ x :: xs) snk = (.failed (.sinkWriteFailure c), snk') ∧
      snk'.acc = snk.acc ++ ws.flatten ++ x.take k ∧ snk'.offered = snk.offered ++ (ws ++ [x]) := by
  induction ws generalizing snk with
  | nil => exact ⟨_, Sink.offerAll_failsAs h hfail xs, by simp [Sink.took], rfl⟩
  | cons w ws ih =>
    obtain ⟨snk', hall, hacc, hoff⟩ := ih (snk := snk.took w w.length (ws.map (fun w => .wrote w.length) ++ a :: as)) rfl
    refine ⟨snk', ?_, by simp [hacc, Sink.took], by simp [hoff, Sink.took]⟩
    simpa [Sink.offerAll, Sink.answer_wrote h le_rfl] using hall

/-! ### ENCODE run to its result (R86 to R93) -/

/-- What ENCODE needs to be admitted (R169), at a state of the invariant. -/
structure State.EncodeReady (s : State) : Prop where
  inv : s.enc.Inv s.cfg
  free : s.enc.unit.busy = false
  clean : s.enc.unit.poison = false
  fits : s.cmd.payload.length < 2 ^ 64

theorem State.EncodeReady.exec_eq {s : State} (h : s.EncodeReady) :
    exec .encode s = .next { s with enc := (s.enc.acceptEncode s.cmd.payload).runOn s.cfg } :=
  admitted_free h.free h.clean (decide_eq_true h.fits)

/-- ENCODE ends as the offer of its writes does. -/
theorem State.EncodeReady.ends {s : State} (h : s.EncodeReady) :
    Enc.Ends (s.enc.acceptEncode s.cmd.payload).unit (BitVec.ofNat 65 (frame s.cmd.payload).length)
      (Sink.offerAll (frameWrites s.cfg s.cmd.payload) s.enc.snk) ((s.enc.acceptEncode s.cmd.payload).runOn s.cfg) := by
  rw [← count_frame]
  exact Enc.frame_type (Enc.acceptEncode_inv h.inv h.clean _) rfl rfl rfl h.fits

/-- An accepted ENCODE that has moved only its phase and `CNT`, and its sink, ends by `Enc.finish`. -/
theorem State.encEnded_encode {s : State} (h : s.EncodeReady) (ph : EncPhase) (c : Count) (snk : Sink) (r : Result) :
    s.encEnded { s with enc := Enc.finish ⟨(s.enc.acceptEncode s.cmd.payload).unit.at ph c, snk⟩ r } .encode r snk :=
  State.encEnded_finish (e := ⟨(s.enc.acceptEncode s.cmd.payload).unit.at ph c, snk⟩) ⟨rfl, rfl, rfl⟩ h.clean rfl r

theorem State.EncodeReady.exec_done {s : State} {snk : Sink} (h : s.EncodeReady)
    (hall : Sink.offerAll (frameWrites s.cfg s.cmd.payload) s.enc.snk = (.done, snk)) :
    ∃ t, exec .encode s = .next t ∧
      s.encEnded t .encode (.ok (.count (BitVec.ofNat 65 (frame s.cmd.payload).length))) snk := by
  have hends := h.ends
  rw [hall] at hends
  obtain ⟨ph, he⟩ := hends
  rw [h.exec_eq, he]
  exact ⟨_, rfl, State.encEnded_encode h ph _ snk _⟩

theorem State.EncodeReady.exec_failed {s : State} {snk : Sink} {r : Result} (h : s.EncodeReady)
    (hall : Sink.offerAll (frameWrites s.cfg s.cmd.payload) s.enc.snk = (.failed r, snk)) :
    ∃ t, exec .encode s = .next t ∧ s.encEnded t .encode r snk := by
  have hends := h.ends
  rw [hall] at hends
  obtain ⟨ph, c, he⟩ := hends
  rw [h.exec_eq, he]
  exact ⟨_, rfl, State.encEnded_encode h ph c snk r⟩

/-- The count of a frame fits 65 bits (R72). -/
theorem toNat_count_frame {p : List Byte} (hp : p.length < 2 ^ 64) :
    (BitVec.ofNat 65 (frame p).length).toNat = (frame p).length := by
  have hm := mEnc_le p.length
  rw [BitVec.toNat_ofNat, Nat.mod_eq_of_lt]
  rw [frame_length]
  omega

/-- Settles O16 (R92): the offer of the writes is done, so ENCODE ends with the length of the frame, which is what its writes
come to. -/
theorem encodeSucceeds : Obligations.EncodeSucceeds := by
  intro s hinv hfree hclean hfits htakes
  have hready : s.EncodeReady := ⟨hinv, hfree, hclean, hfits⟩
  obtain ⟨snk, hall, hacc, hoff⟩ := Sink.offerAll_of_takesAll htakes
  obtain ⟨t, hexec, honly, hlist, rfl, hended⟩ := hready.exec_done hall
  have hcount := toNat_count_frame hfits
  refine ⟨t, _, hexec, honly, hlist, hended, hcount.trans (frame_length _), ?_, hcount, ?_, hoff⟩
  · rw [hcount, ← List.length_flatten, frameWrites_flatten]
  · rw [hacc, frameWrites_flatten]

/-! ### ENCODE that fails (R93) -/

/-- A poisoned unit that is idle refuses before it looks at the operand (R169). -/
theorem admitted_poisoned {b p o : Bool} {s : State} (hb : b = false) (hp : p = true) :
    admitted b p o s = .refused .unitPoisoned := by
  subst hb hp; rfl

/-- A poisoned ENC refuses both its commands, whatever their operands (R27). -/
theorem exec_enc_poisoned {t : State} (hb : t.enc.unit.busy = false) (hp : t.enc.unit.poison = true) (o : Operands) :
    exec .encode { t with cmd := o } = .refused .unitPoisoned ∧
      exec .encodeList { t with cmd := o } = .refused .unitPoisoned :=
  ⟨admitted_poisoned hb hp, admitted_poisoned hb hp⟩

/-- The writes `ws` of the frame are answered in full and the next one fails, with the cause `c` and `k` of its bytes accepted:
each row of R93 is this for one place in the frame and one kind of failure. -/
theorem State.EncodeReady.exec_failsAfter {s : State} (h : s.EncodeReady) {ws xs : List (List Byte)} {x : List Byte}
    {a : SinkChoice} {as : List SinkChoice} {c : WriteFailure} {k : Nat}
    (hframe : frameWrites s.cfg s.cmd.payload = ws ++ x :: xs)
    (hans : s.enc.snk.answers = ws.map (fun w => .wrote w.length) ++ a :: as) (hfail : a.FailsAs x c k) :
    ∃ t, exec .encode s = .next t ∧ s.encodeFailed t (ws.length + 1) c ∧
      t.enc.snk.acc = s.enc.snk.acc ++ ws.flatten ++ x.take k := by
  obtain ⟨snk, hall, hacc, hoff⟩ := Sink.offerAll_failsAfter (xs := xs) hans hfail
  rw [← hframe] at hall
  obtain ⟨t, hexec, honly, hlist, rfl, hended⟩ := h.exec_failed hall
  have ⟨_, hbusy, _, hpoison, _⟩ := hended
  have htake : (frameWrites s.cfg s.cmd.payload).take (ws.length + 1) = ws ++ [x] := by
    rw [hframe, List.take_length_add_append, List.take_succ_cons, List.take_zero]
  exact ⟨t, hexec, ⟨honly, hlist, hended, hpoison, by rw [hoff, htake], exec_enc_poisoned hbusy hpoison⟩, hacc⟩

/-- The payload has a write of its own when it is not empty or empty writes are made (R51). -/
theorem frameWrites_payload {cfg : Config} {p : List Byte} (h : p ≠ [] ∨ cfg.zeroLenWrite = true) :
    frameWrites cfg p = [encTypeByte (BitVec.ofNat 4 (mEnc p.length))] :: leBytes p.length (mEnc p.length) :: [p] := by
  have hwrite : (p.isEmpty && !cfg.zeroLenWrite) = false := by
    rcases h with h | h <;> simp [h]
  rw [frameWrites, hwrite]
  rfl

/-- Of a write of one byte none or all is accepted. -/
theorem append_take_singleton (acc : List Byte) (b : Byte) (k : Nat) :
    acc ++ [b].take k = acc ∨ acc ++ [b].take k = acc ++ [b] := by
  cases k with
  | zero => exact .inl (List.append_nil acc)
  | succ k => exact .inr (by rw [List.take_succ_cons, List.take_nil])

/-- Settles O17 (R93): the rows are a short answer and an error at each of the three writes of the frame. -/
theorem encodeFailures : Obligations.EncodeFailures := by
  intro s hinv hfree hclean hfits
  have hready : s.EncodeReady := ⟨hinv, hfree, hclean, hfits⟩
  have hlen : (leBytes s.cmd.payload.length (mEnc s.cmd.payload.length)).length = mEnc s.cmd.payload.length :=
    leBytes_length _ _
  refine ⟨fun as hans => ?_, fun e j as hans => ?_, fun k as hk hans => ?_, fun e j as hans => ?_, fun k as hk hans => ?_,
    fun e j as hp hans => ?_⟩
  · obtain ⟨t, hexec, hfailed, hacc⟩ := hready.exec_failsAfter (ws := []) rfl hans (.short Nat.one_pos)
    exact ⟨t, hexec, hfailed, by simpa using hacc⟩
  · obtain ⟨t, hexec, hfailed, hacc⟩ := hready.exec_failsAfter (ws := []) rfl hans (.err e j)
    rw [List.flatten_nil, List.append_nil] at hacc
    exact ⟨t, hexec, hfailed, hacc ▸ append_take_singleton _ _ _⟩
  · obtain ⟨t, hexec, hfailed, hacc⟩ := hready.exec_failsAfter (ws := [_]) rfl hans (.short (hk.trans_eq hlen.symm))
    exact ⟨t, hexec, hfailed, by rw [hacc, List.flatten_singleton]⟩
  · obtain ⟨t, hexec, hfailed, hacc⟩ := hready.exec_failsAfter (ws := [_]) rfl hans (.err e j)
    exact ⟨t, hexec, hfailed, _, (Nat.min_le_right _ _).trans_eq hlen, by rw [hacc, List.flatten_singleton]⟩
  · have hwrites := frameWrites_payload (cfg := s.cfg) (.inl (List.ne_nil_of_length_pos (Nat.zero_lt_of_lt hk)))
    obtain ⟨t, hexec, hfailed, hacc⟩ := hready.exec_failsAfter (ws := [_, _]) hwrites (by simpa using hans) (.short hk)
    exact ⟨t, hexec, hfailed, by simpa using hacc⟩
  · obtain ⟨t, hexec, hfailed, hacc⟩ :=
      hready.exec_failsAfter (ws := [_, _]) (frameWrites_payload hp) (by simpa using hans) (.err e j)
    exact ⟨t, hexec, hfailed, _, Nat.min_le_right _ _, by simpa using hacc⟩

end Sys2Proof.Machine

namespace Sys2Proof.Machine

/-! ### A DEC command begins (R78, R103, R105, R108, R125) -/

/-- DEC, at `d0` before, has accepted `op` and awaits the type byte of its frame from the bound source. -/
structure Dec.Begun (cfg : Config) (op : DecOp) (d0 d : Dec) : Prop where
  inv : d.Inv cfg
  due : d.unit.typeDue = true
  op_eq : d.unit.op = op
  sel : d.unit.sel = .src
  src : d.src = d0.src
  s : d.unit.s = d0.unit.s
  out : d.unit.out = d0.unit.out

/-- Each DEC command, at an idle and clean unit, accepts its operation and runs on from there. -/
theorem exec_decCommand {s : State} {i : Instr} {op : DecOp} (hinv : s.dec.Inv s.cfg) (hfree : s.dec.unit.busy = false)
    (hclean : s.dec.unit.poison = false) (hfits : s.cmd.buf.length < 2 ^ 64)
    (hrow : (i, op) ∈ [(Instr.peekSize, DecOp.peekSize), (.readBytes, .readBytes), (.readInto, .readInto),
      (.decodeList, .decodeList)]) :
    ∃ d, Dec.Begun s.cfg op s.dec d ∧ exec i s = .next { s with dec := d.runOn s.cfg } := by
  simp only [List.mem_cons, Prod.mk.injEq, List.not_mem_nil, or_false] at hrow
  rcases hrow with ⟨rfl, rfl⟩ | ⟨rfl, rfl⟩ | ⟨rfl, rfl⟩ | ⟨rfl, rfl⟩
  · exact ⟨s.dec.accept .peekSize, ⟨Dec.accept_mid hinv hclean _ nofun nofun, rfl, rfl, rfl, rfl, rfl, rfl⟩,
      admitted_free hfree hclean rfl⟩
  · exact ⟨s.dec.accept .readBytes, ⟨Dec.accept_mid hinv hclean _ nofun nofun, rfl, rfl, rfl, rfl, rfl, rfl⟩,
      admitted_free hfree hclean rfl⟩
  · exact ⟨s.dec.acceptReadInto s.cmd.buf, ⟨Dec.acceptReadInto_inv hinv hclean hfits, rfl, rfl, rfl, rfl, rfl, rfl⟩,
      admitted_free hfree hclean (decide_eq_true hfits)⟩
  · exact ⟨s.dec.acceptDecodeList, ⟨Dec.acceptDecodeList_inv hinv hclean, rfl, rfl, rfl, rfl, rfl, rfl⟩,
      admitted_free hfree hclean rfl⟩

/-! ### The request for a type byte (R99) -/

/-- The bound source after it has answered a request for one byte with its next one, `y` being left. -/
def Source.tookOne (src : Source) (y : List Byte) : Source := { src with rem := y, asked := src.asked ++ [1] }

/-- A source with no choices left that answers at once hands over the one byte asked for. -/
theorem Source.answer_one {src : Source} {b : Byte} {y : List Byte} (hcuts : src.cuts = []) (hlater : src.later = .prompt)
    (hrem : src.rem = b :: y) : src.answer 1 = some (.data [b], src.tookOne y) := by
  obtain ⟨rem, fin, cuts, later, asked⟩ := src
  subst hcuts hlater hrem
  simp [Source.answer, Source.handOver, Source.tookOne]

theorem DecUnit.typeDue_iff {u : DecUnit} : u.typeDue = true ↔ u.busy = true ∧ u.phase = .type := by
  simp [DecUnit.typeDue]

/-- The transaction of a unit that awaits a type byte from the bound source, when the source answers with that byte. -/
theorem Dec.transact_type {cfg : Config} {d : Dec} {src : Source} {t : Byte} (hdue : d.unit.typeDue = true)
    (hsel : d.unit.sel = .src) (hans : d.src.answer 1 = some (.data [t], src)) :
    d.transact cfg = some (Dec.takeType cfg { d with src := src } t) := by
  obtain ⟨hbusy, hphase⟩ := DecUnit.typeDue_iff.mp hdue
  simp [Dec.transact, hbusy, hphase, Dec.tickType, Dec.srcRead, hsel, hans]

/-! ### BAD_WIDTH (R101) -/

theorem Dec.takeType_badWidth {t : Byte} (h : 8 < (typeLo t).toNat) (cfg : Config) (d : Dec) :
    d.takeType cfg t = d.takeBadWidth t := by
  rw [Dec.takeType, if_neg (by omega), if_neg (by omega)]

/-- A width above 8 where a type byte is awaited ends the operation at once and leaves all else alone. -/
theorem Dec.takeBadWidth_ends {d : Dec} (hdue : d.unit.typeDue = true) (hclean : d.unit.poison = false) (t : Byte) :
    (d.latchBadWidth t).FailKeeps (d.takeBadWidth t) ∧
      d.unit.endedWith (d.takeBadWidth t).unit d.unit.op (.badWidth t)
        (if d.unit.inner then d.unit.flags.or (checkT t) else checkT t) :=
  have hbuf : (d.latchBadWidth t).unit.bufHandedOut = false := DecUnit.bufHandedOut_type (DecUnit.typeDue_iff.mp hdue).2
  ⟨Dec.fail_keeps hbuf _, Dec.fail_endedWith hbuf hclean _⟩

/-- The run of an operation that awaits its type byte, and is handed one of width above 8, is that one transaction. -/
theorem Dec.runOn_badWidth {cfg : Config} {d : Dec} {src : Source} {t : Byte} (hinv : d.Inv cfg)
    (hdue : d.unit.typeDue = true) (hsel : d.unit.sel = .src) (hans : d.src.answer 1 = some (.data [t], src))
    (hbad : 8 < (typeLo t).toNat) : d.runOn cfg = Dec.takeBadWidth { d with src := src } t := by
  rw [Dec.runOn_transact hinv (Dec.transact_type hdue hsel hans), Dec.takeType_badWidth hbad]
  exact Dec.runOn_idle (Dec.fail_idle _ _)

/-- Settles O27 (R101): each command begins in phase TYPE, its first transaction takes the type byte, and that one ends it. -/
theorem badWidthAtOnce : Obligations.BadWidthAtOnce := by
  intro s ty y i op hinv hfree hclean hfits hcuts hlater hrem hbad hrow
  obtain ⟨d, begun, hexec⟩ := exec_decCommand hinv hfree hclean hfits hrow
  have hans : d.src.answer 1 = some (.data [ty], s.dec.src.tookOne y) := by
    rw [begun.src]
    exact Source.answer_one hcuts hlater hrem
  rw [Dec.runOn_badWidth begun.inv begun.due begun.sel hans hbad] at hexec
  have hclean' : d.unit.poison = false := begun.inv.busy_clean (DecUnit.typeDue_iff.mp begun.due).1
  obtain ⟨keeps, ended⟩ := Dec.takeBadWidth_ends (d := { d with src := s.dec.src.tookOne y }) begun.due hclean' ty
  refine ⟨_, hexec, ?_, ended.poison_eq, keeps.s.trans begun.s, congrArg Source.rem keeps.src,
    congrArg Source.asked keeps.src⟩
  rw [begun.op_eq, DecUnit.inner_src begun.sel] at ended
  rw [DecUnit.endedWith, ← begun.out]
  exact ended

/-! ### A frame of width 0 (R76, R102) -/

theorem leValue_lb_clear : leValue (Vector.replicate 8 (0 : Byte)).toList = 0 := by decide

theorem check_typeByte_zero (hi : Nibble) (s : Nat) : check (typeByte hi 0) s = ⟨hi != 0xF#4, true, false, false, false⟩ := by
  simp [check]

/-- The latched type byte of width 0, with the size 0 and its flags. -/
def Dec.latchWidthZero (d : Dec) (t : Byte) : Dec :=
  { d.latchType t with unit := { (d.latchType t).unit with s := 0, chk := check t 0 } }

@[simp] theorem Dec.latchWidthZero_op (d : Dec) (t : Byte) : (d.latchWidthZero t).unit.op = d.unit.op := rfl
@[simp] theorem Dec.latchWidthZero_sel (d : Dec) (t : Byte) : (d.latchWidthZero t).unit.sel = d.unit.sel := rfl

theorem Dec.takeWidthZero_eq {d : Dec} (hlb : d.unit.lb = Vector.replicate 8 0) (cfg : Config) (t : Byte) :
    d.takeWidthZero cfg t = (d.latchWidthZero t).afterSize cfg := by
  rw [Dec.takeWidthZero, Dec.sizeKnown, Dec.latchType_lb, hlb, leValue_lb_clear]
  rfl

/-- READ_INTO has its payload and comes to phase OVER (R112). -/
def Dec.enterOver (d : Dec) : Dec := { d with unit := { d.unit with phase := .over } }

/-- A size of 0 passes every bound, and its payload is complete as soon as it is begun (R48). -/
theorem Dec.afterSize_zero {d : Dec} (hs : d.unit.s = 0) (cfg : Config) :
    d.afterSize cfg =
      match d.unit.op with
      | .peekSize => d.finish (.ok (.size 0))
      | .readBytes => d.enterPay.finish (.ok (.payload []))
      | .readInto => d.enterPay.enterOver
      | .decodeList =>
        match d.unit.sel with
        | .src => d.enterPay.outerDone
        | .ibuf => d.enterPay.innerDone [] := by
  cases hop : d.unit.op with
  | peekSize => simp [Dec.afterSize, hop, hs]
  | readBytes => simp [Dec.afterSize, Dec.payDone, hop, hs]
  | readInto => simp [Dec.afterSize, Dec.payDone, Dec.enterOver, hop, hs]
  | decodeList => cases hsel : d.unit.sel <;> simp [Dec.afterSize, Dec.payDone, hop, hsel, hs]

/-- Whatever the operation, a size of 0 moves no byte and leaves the latched registers alone: it keeps what a failure before
the payload keeps. -/
theorem Dec.afterSize_zero_keeps {d : Dec} (hs : d.unit.s = 0) (cfg : Config) : d.FailKeeps (d.afterSize cfg) := by
  rw [Dec.afterSize_zero hs]
  split
  · constructor <;> rfl
  · constructor <;> rfl
  · constructor <;> rfl
  · split <;> constructor <;> rfl

/-- The scratch buffer stays clear when no length byte is read, or is cleared for the next frame. -/
theorem Dec.afterSize_zero_lb {d : Dec} (hs : d.unit.s = 0) (hlb : d.unit.lb = Vector.replicate 8 0) (cfg : Config) :
    (d.afterSize cfg).unit.lb = Vector.replicate 8 0 := by
  rw [Dec.afterSize_zero hs]
  split
  · exact hlb
  · exact hlb
  · exact hlb
  · split <;> rfl

/-- A clean unit that has delivered nothing since `u` ends its operation by `Dec.finish` (R160). -/
theorem Dec.finish_endedWith {u : DecUnit} {d : Dec} {op : DecOp} (hclean : d.unit.poison = false) (hop : d.unit.op = op)
    (hout : d.unit.out = u.out) (r : Result) : u.endedWith (d.finish r).unit op r d.unit.chk :=
  ⟨rfl, rfl, rfl, by simp [hclean], rfl, by simp [hop, hout]⟩

/-- Settles O30 (R102): the row latches the byte with the size 0, and the cases are what each operation does with that size. -/
theorem widthZero : Obligations.WidthZero := by
  intro hi s hinv hdue
  obtain ⟨hbusy, hphase⟩ := DecUnit.typeDue_iff.mp hdue
  have hclean : s.dec.unit.poison = false := hinv.busy_clean hbusy
  obtain ⟨hlb, -, -⟩ := hinv.type_clear hphase
  have hexec : exec (.decWidth0 hi) s =
      .next { s with dec := (s.dec.latchWidthZero (typeByte hi 0)).afterSize s.cfg } := by
    rw [← Dec.takeWidthZero_eq hlb]
    exact if_pos hdue
  have keeps := Dec.afterSize_zero_keeps (d := s.dec.latchWidthZero (typeByte hi 0)) rfl s.cfg
  have hlb' := Dec.afterSize_zero_lb (d := s.dec.latchWidthZero (typeByte hi 0)) rfl hlb s.cfg
  refine ⟨_, hexec, rfl, keeps.src, keeps.draws, keeps.tick, keeps.buf, keeps.ibuf, keeps.s, keeps.t,
    keeps.m.trans (typeLo_typeByte hi 0), hlb', ?_⟩
  rw [Dec.afterSize_zero rfl, ← check_typeByte_zero hi 0, Dec.latchWidthZero_op, Dec.latchWidthZero_sel]
  cases hop : s.dec.unit.op with
  | peekSize => exact Dec.finish_endedWith (d := s.dec.latchWidthZero _) hclean hop rfl _
  | readBytes => exact Dec.finish_endedWith (d := (s.dec.latchWidthZero _).enterPay) hclean hop rfl _
  | readInto => exact ⟨rfl, rfl, rfl, rfl⟩
  | decodeList =>
    cases hsel : s.dec.unit.sel with
    | src => exact ⟨rfl, rfl, rfl, rfl, rfl⟩
    | ibuf => exact ⟨rfl, hsel, rfl, rfl, rfl⟩

end Sys2Proof.Machine

namespace Sys2Proof.Machine

/-! ### The inner frames of a list (R119, R120) -/

theorem flatten_map_frame (l : List (List Byte)) : (l.map frame).flatten = frameAll l := by
  induction l with
  | nil => rfl
  | cons p l ih => rw [List.map_cons, List.flatten_cons, ih, frameAll]

theorem sum_framedLength (l : List (List Byte)) :
    (l.map (fun p => 1 + mEnc p.length + p.length)).sum = framedLength l := by
  induction l with
  | nil => rfl
  | cons p l ih => rw [List.map_cons, List.sum_cons, ih, framedLength]

theorem length_le_length_frameAll (l : List (List Byte)) : l.length ≤ (frameAll l).length := by
  induction l with
  | nil => exact Nat.le_refl 0
  | cons p l ih =>
    rw [List.length_cons, frameAll, List.length_append, frame_length]
    omega

theorem item_length_le_length_frameAll {l : List (List Byte)} {p : List Byte} (h : p ∈ l) :
    p.length ≤ (frameAll l).length := by
  induction l with
  | nil => exact absurd h List.not_mem_nil
  | cons q l ih =>
    rw [frameAll, List.length_append, frame_length]
    rcases List.mem_cons.mp h with rfl | h
    · omega
    · have := ih h
      omega

/-! ### ENCODE_LIST run to its result (R119 to R123) -/

/-- Writes that fit the buffer together each fit it. -/
theorem firstPast_eq_none {cap : Option Nat} {len : Nat} {ws : List (List Byte)}
    (h : passes cap (len + ws.flatten.length) = false) : firstPast cap len ws = none := by
  induction ws generalizing len with
  | nil => rfl
  | cons x ws ih =>
    rw [List.flatten_cons, List.length_append, ← Nat.add_assoc] at h
    rw [firstPast, passes_mono (Nat.le_add_right _ _) h]
    exact ih h

/-- What ENCODE_LIST needs to be admitted (R169) and to fill `IBUF_E` (R123), at a state of the invariant. -/
structure State.EncodeListReady (s : State) : Prop where
  inv : s.enc.Inv s.cfg
  free : s.enc.unit.busy = false
  clean : s.enc.unit.poison = false
  items_fit : ∀ p ∈ s.cmd.items, p.length < 2 ^ 64
  fits : (frameAll s.cmd.items).length < 2 ^ 64
  room : passes s.cfg.ibufCap (frameAll s.cmd.items).length = false

theorem State.EncodeListReady.exec_eq {s : State} (h : s.EncodeListReady) :
    exec .encodeList s = .next { s with enc := (s.enc.acceptEncodeList s.cmd.items).runOn s.cfg } := by
  have hitems : s.cmd.items.all fits64 = true := List.all_eq_true.mpr fun p hp => decide_eq_true (h.items_fit p hp)
  refine admitted_free h.free h.clean ?_
  rw [Operands.encodeListOk, framedLength_eq, hitems, decide_eq_true h.fits]
  rfl

/-- The inner frames go into `IBUF_E` whole, so ENCODE_LIST ends as the offer of the outer frame does (R121). -/
theorem State.EncodeListReady.ends {s : State} (h : s.EncodeListReady) :
    ∃ u : EncUnit, u.op = .encodeList ∧ u.poison = false ∧ u.out = s.enc.unit.out ∧
      Enc.Ends u (BitVec.ofNat 65 (listFrame s.cmd.items).length)
        (Sink.offerAll (frameWrites s.cfg (frameAll s.cmd.items)) s.enc.snk)
        ((s.enc.acceptEncodeList s.cmd.items).runOn s.cfg) := by
  have hfirst : firstPast s.cfg.ibufCap 0 (innerWrites s.cfg s.cmd.items) = none :=
    firstPast_eq_none (by rw [innerWrites_flatten, Nat.zero_add]; exact h.room)
  have hrun := Enc.list_runOn s.cmd.items (Enc.acceptEncodeList_rest h.inv h.clean s.cmd.items) rfl rfl rfl h.items_fit
  simp only [List.length_nil, hfirst, List.nil_append] at hrun
  obtain ⟨u, same, hends⟩ := hrun h.fits
  rw [count_frame] at hends
  exact ⟨u, same.op, same.poison.trans h.clean, same.out, hends⟩

theorem State.EncodeListReady.exec_done {s : State} {snk : Sink} (h : s.EncodeListReady)
    (hall : Sink.offerAll (frameWrites s.cfg (frameAll s.cmd.items)) s.enc.snk = (.done, snk)) :
    ∃ t, exec .encodeList s = .next t ∧ s.onlyEnc t ∧ t.enc.snk = snk ∧
      s.enc.unit.endedWith t.enc.unit .encodeList (.ok (.count (BitVec.ofNat 65 (listFrame s.cmd.items).length))) := by
  obtain ⟨u, hop, hclean, hout, hends⟩ := h.ends
  rw [hall] at hends
  obtain ⟨ph, he⟩ := hends
  rw [h.exec_eq, he]
  exact ⟨_, rfl, rfl, rfl, rfl, rfl, rfl, by simp [hclean], by simp [hop, hout]⟩

/-- Settles O19 (R121): the inner frames fit `IBUF_E`, and the outer frame is the frame of its contents, offered in the writes
of an ordinary frame. -/
theorem encodeListSucceeds : Obligations.EncodeListSucceeds := by
  intro s hinv hfree hclean hitems hfits hroom htakes
  rw [sum_framedLength, framedLength_eq] at hfits hroom
  rw [flatten_map_frame] at htakes ⊢
  have hready : s.EncodeListReady := ⟨hinv, hfree, hclean, hitems, hfits, hroom⟩
  obtain ⟨snk, hall, hacc, hoff⟩ := Sink.offerAll_of_takesAll htakes
  obtain ⟨t, hexec, honly, rfl, hended⟩ := hready.exec_done hall
  exact ⟨t, _, hexec, honly, hended, toNat_count_frame hfits, by rw [hacc, frameWrites_flatten], hoff⟩

/-! ### A frame parsed within a bound, for any source end (R98, R105) -/

theorem parsePrefix_frame (fin : SrcEnd) {p : List Byte} (rest : List Byte) (hp : p.length < 2 ^ 64) :
    parsePrefix fin (frame p ++ rest) =
      .value (typeByte 0xF#4 (BitVec.ofNat 4 (mEnc p.length)), p.length) (p ++ rest) := by
  have hlo := typeLo_typeByte_mEnc 0xF#4 p.length
  rw [frame_append, parsePrefix_whole (hlo.trans_le (mEnc_le _)) (by rw [leBytes_length, hlo]), leValue_leBytes_mEnc hp]

theorem parseFrame_frame {cap : Option Nat} (fin : SrcEnd) {p : List Byte} (rest : List Byte) (hp : p.length < 2 ^ 64)
    (hcap : passes cap p.length = false) : parseFrame cap fin (frame p ++ rest) = .value p rest := by
  rw [parseFrame_value (parsePrefix_frame fin rest hp), hcap, if_neg Bool.false_ne_true, if_neg (by simp), List.take_left,
    List.drop_left]

/-! ### A list frame read back (R125, R131, R133) -/

/-- The frame of an item that fits is one round of the inner loop: the item joins the list (R127) and raises no flag (R131). -/
theorem framesFuel_frame {cap : Option Nat} {p : List Byte} (rest : List Byte) (hp : p.length < 2 ^ 64)
    (hcap : passes cap p.length = false) (k : Nat) :
    framesFuel cap (k + 1) (frame p ++ rest) = (framesFuel cap k rest).map (p :: ·) ∧
      framesFlagsFuel cap (k + 1) (frame p ++ rest) = framesFlagsFuel cap k rest := by
  rw [framesFuel, framesFlagsFuel, parseFrame_frame .eos rest hp hcap, prefixFlags_frame rest hp]
  dsimp only
  exact ⟨by cases framesFuel cap k rest <;> rfl, Chk.clear_or _⟩

theorem framesFuel_frameAll {cap : Option Nat} {l : List (List Byte)} (hfit : ∀ p ∈ l, p.length < 2 ^ 64)
    (hcap : ∀ p ∈ l, passes cap p.length = false) {k : Nat} (hk : l.length < k) :
    framesFuel cap k (frameAll l) = .ok l ∧ framesFlagsFuel cap k (frameAll l) = Chk.clear := by
  induction l generalizing k with
  | nil =>
    obtain ⟨k, rfl⟩ := Nat.exists_eq_add_one_of_ne_zero (Nat.ne_zero_of_lt hk)
    exact ⟨rfl, rfl⟩
  | cons p l ih =>
    obtain ⟨k, rfl⟩ := Nat.exists_eq_add_one_of_ne_zero (Nat.ne_zero_of_lt hk)
    obtain ⟨hp, hfit⟩ := List.forall_mem_cons.mp hfit
    obtain ⟨hpcap, hcap⟩ := List.forall_mem_cons.mp hcap
    obtain ⟨hframes, hflags⟩ := ih hfit hcap (Nat.lt_of_succ_lt_succ hk)
    obtain ⟨hframes', hflags'⟩ := framesFuel_frame (frameAll l) hp hpcap k
    rw [frameAll, hframes', hflags', hframes, hflags]
    exact ⟨rfl, rfl⟩

/-- The pure list decoder inverts the list frame, and no frame of it, outer or inner, raises a flag. -/
theorem decodeListOf_listFrame {cfg : Config} (fin : SrcEnd) {l : List (List Byte)} (rest : List Byte)
    (hfits : (frameAll l).length < 2 ^ 64) (hroom : passes cfg.ibufCap (frameAll l).length = false)
    (hcap : ∀ p ∈ l, passes cfg.maxAlloc p.length = false) :
    decodeListOf cfg fin (listFrame l ++ rest) = .value l rest ∧
      decodeListFlags cfg fin (listFrame l ++ rest) = Chk.clear := by
  have hitems : ∀ p ∈ l, p.length < 2 ^ 64 := fun p hp => (item_length_le_length_frameAll hp).trans_lt hfits
  obtain ⟨hframes, hflags⟩ := framesFuel_frameAll hitems hcap (Nat.lt_succ_of_le (length_le_length_frameAll l))
  rw [decodeListOf, decodeListFlags, listFrame, parseFrame_frame fin rest hfits hroom, prefixFlags_frame rest hfits]
  dsimp only
  rw [frames, framesFlags, hframes, hflags]
  exact ⟨rfl, Chk.clear_or _⟩

/-- An operation does not wait for a source that answers every request (R190). -/
theorem Dec.not_waits {d0 d : Dec} (h : d0.src.answersAll) : ¬ d0.Waits d := by
  intro hw
  obtain ⟨hfin, hlater⟩ := h
  rcases hw.silent with ⟨-, hnever⟩ | ⟨-, -, hpace⟩
  · exact hfin (hw.fin.symm.trans hnever)
  · exact hpace (hw.later.trans hlater)

/-- Settles O58 (R133): DECODE_LIST ends as the pure list decoder does, which inverts the list frame. -/
theorem listRoundTrip : Obligations.ListRoundTrip := by
  refine ⟨rfl, fun s l rest hinv hfree hclean hanswers hrem hfits hroom hcap => ?_⟩
  obtain ⟨hvalue, hflags⟩ := decodeListOf_listFrame s.dec.src.fin rest hfits hroom hcap
  rw [← hrem] at hvalue hflags
  have hrun := Dec.decodeList_runOn (Dec.acceptDecodeList_inv hinv.dec hclean) rfl rfl rfl rfl
  have hended : s.dec.acceptDecodeList.EndsAs (s.dec.acceptDecodeList.runOn s.cfg)
      (decodeListFlags s.cfg s.dec.src.fin s.dec.src.rem) Value.items (decodeListOf s.cfg s.dec.src.fin s.dec.src.rem) :=
    hrun.resolve_left (Dec.not_waits hanswers)
  rw [hvalue, hflags] at hended
  exact ⟨_, admitted_free hfree hclean rfl, hended.ends, hended.rem⟩

end Sys2Proof.Machine

namespace Sys2Proof.Machine

/-! ### The flags of CHECK as numbers (R137 to R142) -/

theorem typeHi_toNat (t : Byte) : (typeHi t).toNat = t.toNat / 16 := by
  have ht := t.isLt
  rw [typeHi, BitVec.extractLsb'_toNat, Nat.shiftRight_eq_div_pow]
  omega

theorem typeLo_toNat (t : Byte) : (typeLo t).toNat = t.toNat % 16 := by
  rw [typeLo, BitVec.extractLsb'_toNat, Nat.shiftRight_zero]

theorem typeHi_bne_iff (t : Byte) : (typeHi t != 0xF#4) = true ↔ t.toNat / 16 ≠ 15 := by
  rw [bne_iff_ne, ← BitVec.toNat_ne_iff_ne, typeHi_toNat]
  rfl

theorem check_nib_iff (t : Byte) (s : Nat) : (check t s).nib = true ↔ t.toNat / 16 ≠ 15 :=
  typeHi_bne_iff t

theorem check_w0_iff (t : Byte) (s : Nat) : (check t s).w0 = true ↔ t.toNat % 16 = 0 := by
  rw [← typeLo_toNat]
  exact beq_iff_eq

theorem check_wnd_iff (t : Byte) (s : Nat) :
    (check t s).wnd = true ↔ t.toNat % 16 = 3 ∨ t.toNat % 16 = 5 ∨ t.toNat % 16 = 6 ∨ t.toNat % 16 = 7 := by
  rw [← typeLo_toNat]
  simp only [check, Bool.or_eq_true, beq_iff_eq, or_assoc]

theorem check_wnm_iff (t : Byte) (s : Nat) :
    (check t s).wnm = true ↔ 1 ≤ t.toNat % 16 ∧ t.toNat % 16 ≤ 8 ∧ t.toNat % 16 ≠ mEnc s := by
  rw [← typeLo_toNat]
  simp only [check, Bool.and_eq_true, decide_eq_true_eq, bne_iff_ne, and_assoc]

/-- Settles O13 (R137): flag by flag, the nibbles of the type byte being its quotient and remainder by 16; what CHECK and CHECK_T
set outright is read off. -/
theorem checkFlags : Obligations.CheckFlags :=
  ⟨fun t s _ => ⟨check_nib_iff t s, check_w0_iff t s, rfl, check_wnd_iff t s, check_wnm_iff t s⟩,
    fun t _ => ⟨typeHi_bne_iff t, rfl, rfl, rfl, rfl⟩⟩

/-! ### The canonical prefix (R143) -/

theorem typeLo_eq_of_mEnc {t : Byte} {s : Nat} (h : (typeLo t).toNat = mEnc s) : typeLo t = BitVec.ofNat 4 (mEnc s) :=
  BitVec.eq_of_toNat_eq (h.trans (toNat_mEnc_nibble s).symm)

theorem typeLo_mem_of_mEnc {t : Byte} {s : Nat} (h : (typeLo t).toNat = mEnc s) : typeLo t ∈ [1#4, 2#4, 4#4, 8#4] := by
  rw [typeLo_eq_of_mEnc h]
  rcases mEnc_cases s with hm | hm | hm | hm <;> rw [hm] <;> decide

/-- A type byte is the encoder's for a size when its two nibbles are. -/
theorem eq_encTypeByte_iff {t : Byte} {s : Nat} :
    t = encTypeByte (BitVec.ofNat 4 (mEnc s)) ↔ typeHi t = 0xF#4 ∧ (typeLo t).toNat = mEnc s := by
  constructor
  · rintro rfl
    rw [typeHi_encTypeByte, typeLo_encTypeByte]
    exact ⟨rfl, toNat_mEnc_nibble s⟩
  · rintro ⟨hhi, hlo⟩
    rw [← typeByte_hi_lo t, encTypeByte_eq, hhi, typeLo_eq_of_mEnc hlo]

theorem check_encTypeByte_mEnc (s : Nat) : check (encTypeByte (BitVec.ofNat 4 (mEnc s))) s = Chk.clear := by
  rw [encTypeByte_eq]
  exact check_typeByte_mEnc s

/-- NIB, W0 and WNM clear leave one nibble above and one width, the encoder's; WND is clear with WNM. -/
theorem check_eq_clear_iff {t : Byte} {s : Nat} (h8 : (typeLo t).toNat ≤ 8) :
    check t s = Chk.clear ↔ typeHi t = 0xF#4 ∧ (typeLo t).toNat = mEnc s := by
  constructor
  · intro hclear
    have hnib : ¬ (check t s).nib = true := by rw [hclear]; decide
    have hw0 : ¬ (check t s).w0 = true := by rw [hclear]; decide
    have hwnm : ¬ (check t s).wnm = true := by rw [hclear]; decide
    rw [check_nib_iff, ← typeHi_toNat, not_not] at hnib
    rw [check_w0_iff, ← typeLo_toNat] at hw0
    rw [check_wnm_iff, ← typeLo_toNat] at hwnm
    exact ⟨BitVec.eq_of_toNat_eq hnib, by omega⟩
  · intro h
    rw [eq_encTypeByte_iff.mpr h]
    exact check_encTypeByte_mEnc s

/-- The length field is fixed by its value and its width, so a prefix is ENCODE's as soon as its type byte is. -/
theorem prefix_eq_encode_iff {t : Byte} {f : List Byte} (hf : f.length = (typeLo t).toNat) :
    t :: f = encTypeByte (BitVec.ofNat 4 (mEnc (leValue f))) :: leBytes (leValue f) (mEnc (leValue f)) ↔
      typeHi t = 0xF#4 ∧ (typeLo t).toNat = mEnc (leValue f) := by
  rw [List.cons_eq_cons, eq_encTypeByte_iff]
  refine and_iff_left_of_imp fun ⟨_, hlo⟩ => ?_
  rw [← hlo, ← hf, leBytes_leValue_length]

/-- Settles O14 (R143): that there is no flag, and that the bytes are ENCODE's, each come to the encoder's two nibbles for the
size; the frame of a payload begins with that type byte and the length field. -/
theorem canonicalPrefix : Obligations.CanonicalPrefix := by
  refine ⟨fun t f hf h8 => ?_, fun p hp => ?_⟩
  · rw [check_eq_clear_iff (hf ▸ h8), prefix_eq_encode_iff hf]
    exact ⟨and_congr_right fun _ => (and_iff_right_of_imp typeLo_mem_of_mEnc).symm, Iff.rfl⟩
  · have hvalue := leValue_leBytes_mEnc hp
    have hlen : (leBytes p.length (mEnc p.length)).length =
        (typeLo (encTypeByte (BitVec.ofNat 4 (mEnc p.length)))).toNat := by
      rw [leBytes_length, typeLo_encTypeByte, toNat_mEnc_nibble]
    refine ⟨encTypeByte (BitVec.ofNat 4 (mEnc p.length)), leBytes p.length (mEnc p.length), hlen,
      (leBytes_length _ _).trans_le (mEnc_le _), hvalue, ?_, rfl⟩
    rw [hvalue]
    exact check_encTypeByte_mEnc p.length

end Sys2Proof.Machine

namespace Sys2Proof.Machine

/-! ### DEC does not clear its own `POISON` (R27, R173)

Only `Dec.finish` writes the bit, and it ors the result's part to it; so each lemma says that a `POISON` of 1 stays. -/

section
variable {cfg : Config} {d d' : Dec}

theorem Dec.srcRead_poison {n : Nat} {r : SrcReply} (h : d.srcRead n = some (r, d')) : d'.unit.poison = d.unit.poison := by
  unfold Dec.srcRead at h
  split at h
  · split at h <;> cases h
    rfl
  · cases h
    rfl

theorem Dec.draw_poison (d : Dec) : d.draw.2.unit.poison = d.unit.poison := by
  obtain ⟨ds, tk, h⟩ := d.draw_eq
  rw [h]

theorem Dec.finish_poisoned (h : d.unit.poison = true) (r : Result) : (d.finish r).unit.poison = true := by
  rw [Dec.finish_poison, h, Bool.true_or]

theorem Dec.fail_poisoned (h : d.unit.poison = true) (r : Result) : (d.fail r).unit.poison = true := by
  unfold Dec.fail
  split
  · exact Dec.finish_poisoned h r
  · split <;> exact Dec.finish_poisoned h r

theorem Dec.finishReadInto_poisoned (h : d.unit.poison = true) : d.finishReadInto.unit.poison = true :=
  Dec.finish_poisoned h _

theorem Dec.eosInType_poisoned (h : d.unit.poison = true) : d.eosInType.unit.poison = true := by
  unfold Dec.eosInType
  split <;> exact Dec.finish_poisoned h _

theorem Dec.payDone_poisoned (h : d.unit.poison = true) : d.payDone.unit.poison = true := by
  unfold Dec.payDone
  split
  · exact h
  · exact Dec.finish_poisoned h _
  · exact h
  · split <;> exact h

theorem Dec.afterSize_poisoned (h : d.unit.poison = true) : (d.afterSize cfg).unit.poison = true := by
  unfold Dec.afterSize
  split
  · exact Dec.finish_poisoned h _
  all_goals
    split
    · exact Dec.fail_poisoned h _
    · split
      · exact Dec.payDone_poisoned h
      · exact h

theorem Dec.takeType_poisoned (h : d.unit.poison = true) (t : Byte) : (d.takeType cfg t).unit.poison = true := by
  unfold Dec.takeType
  split
  · exact Dec.afterSize_poisoned h
  · split
    · exact h
    · exact Dec.fail_poisoned (d := d.latchBadWidth t) h _

theorem Dec.takeLen_poisoned (h : d.unit.poison = true) (b : List Byte) : (d.takeLen cfg b).unit.poison = true := by
  unfold Dec.takeLen
  dsimp only
  split
  · exact h
  · exact Dec.afterSize_poisoned h

theorem Dec.takePay_poisoned (h : d.unit.poison = true) (b : List Byte) : (d.takePay b).unit.poison = true := by
  rw [← Dec.store_poison d b] at h
  unfold Dec.takePay
  split
  · exact h
  · exact Dec.payDone_poisoned h

theorem Dec.errInOver_poisoned (h : d.unit.poison = true) (e : EnvError) : (d.errInOver e).unit.poison = true := by
  rw [← Dec.draw_poison] at h
  unfold Dec.errInOver
  dsimp only
  split
  · exact Dec.finishReadInto_poisoned h
  · exact Dec.fail_poisoned h _

theorem Dec.tickType_poisoned (h : d.unit.poison = true) (ht : d.tickType cfg = some d') : d'.unit.poison = true := by
  unfold Dec.tickType at ht
  split at ht <;> cases ht <;> rename_i hr <;> rw [← Dec.srcRead_poison hr] at h
  · exact h
  · exact Dec.takeType_poisoned h _
  · exact Dec.eosInType_poisoned h
  · exact Dec.fail_poisoned h _

theorem Dec.tickLen_poisoned (h : d.unit.poison = true) (ht : d.tickLen cfg = some d') : d'.unit.poison = true := by
  unfold Dec.tickLen at ht
  split at ht <;> cases ht <;> rename_i hr <;> rw [← Dec.srcRead_poison hr] at h
  · exact Dec.takeLen_poisoned h _
  · exact Dec.fail_poisoned h _
  · exact Dec.fail_poisoned h _

theorem Dec.tickPay_poisoned (h : d.unit.poison = true) (ht : d.tickPay = some d') : d'.unit.poison = true := by
  unfold Dec.tickPay at ht
  split at ht <;> cases ht <;> rename_i hr <;> rw [← Dec.srcRead_poison hr] at h
  · exact Dec.takePay_poisoned h _
  · exact Dec.fail_poisoned h _
  · exact Dec.fail_poisoned h _

theorem Dec.tickOver_poisoned (h : d.unit.poison = true) (ht : d.tickOver = some d') : d'.unit.poison = true := by
  unfold Dec.tickOver at ht
  dsimp only at ht
  split at ht
  · cases ht
    exact Dec.finishReadInto_poisoned h
  · rw [← Dec.draw_poison] at h
    split at ht
    · split at ht <;> cases ht <;> rename_i hr <;> rw [← Dec.srcRead_poison hr] at h
      · rwa [Dec.store_poison]
      · exact Dec.finishReadInto_poisoned h
      · exact Dec.errInOver_poisoned h _
    · cases ht
      exact Dec.finishReadInto_poisoned h

theorem Dec.transact_poisoned (h : d.unit.poison = true) (ht : d.transact cfg = some d') : d'.unit.poison = true := by
  unfold Dec.transact at ht
  split at ht
  · split at ht
    · cases ht
    · exact Dec.tickType_poisoned h ht
    · exact Dec.tickLen_poisoned h ht
    · exact Dec.tickPay_poisoned h ht
    · exact Dec.tickOver_poisoned h ht
  · cases ht

theorem Dec.turn_poisoned (h : d.unit.poison = true) (ht : d.turn cfg = some d') : d'.unit.poison = true := by
  rcases Dec.turn_cases ht with htr | ⟨-, -, htr⟩
  · exact Dec.transact_poisoned h htr
  · exact Dec.transact_poisoned (d := { d with src := d.src.starve }) h htr

end

/-! ### ENC does not clear its own `POISON` (R27, R173) -/

section
variable {cfg : Config} {e e' : Enc}

theorem Enc.nextFrame_poison (e : Enc) : e.nextFrame.unit.poison = e.unit.poison := by
  unfold Enc.nextFrame
  split <;> rfl

theorem Enc.finish_poisoned (h : e.unit.poison = true) (r : Result) : (e.finish r).unit.poison = true := by
  rw [Enc.finish_poison, h, Bool.true_or]

theorem Enc.frameDone_poisoned (h : e.unit.poison = true) : e.frameDone.unit.poison = true := by
  unfold Enc.frameDone
  split
  · rwa [Enc.nextFrame_poison]
  · exact Enc.finish_poisoned h _

theorem Enc.WroteTo.poison (h : e.WroteTo e') : e'.unit.poison = e.unit.poison := by
  rw [h.unit]

theorem Enc.emit_poisoned {x : List Byte} {k : Enc → Enc} (hk : ∀ e, e.unit.poison = true → (k e).unit.poison = true)
    (h : e.unit.poison = true) (he : e.emit cfg x k = some e') : e'.unit.poison = true := by
  rcases Enc.emit_some he with ⟨-, rfl⟩ | ⟨e₁, hw, -, rfl | ⟨r, rfl, -⟩⟩
  · exact hk e h
  · exact hk _ (hw.poison.trans h)
  · exact Enc.finish_poisoned (hw.poison.trans h) r

theorem Enc.transact_poisoned (h : e.unit.poison = true) (ht : e.transact cfg = some e') : e'.unit.poison = true := by
  unfold Enc.transact at ht
  split at ht
  · split at ht
    · cases ht
    · refine Enc.emit_poisoned ?_ h ht
      exact fun _ => id
    · refine Enc.emit_poisoned ?_ h ht
      exact fun _ => id
    · exact Enc.emit_poisoned (fun _ => Enc.frameDone_poisoned) h ht
  · cases ht

end

/-! ### A command finds its unit clean (R27, R169) -/

/-- A command took `s` to `t`: it was admitted, so its unit was clean, and it changed nothing but that unit and its stream. -/
def State.commanded (s t : State) : Prop :=
  s.enc.unit.poison = false ∧ s.onlyEnc t ∨ s.dec.unit.poison = false ∧ s.onlyDec t

theorem exec_decodeCmd_commanded {op : OpCode} {s t : State} (h : exec (decodeCmd op) s = .next t) : s.commanded t := by
  have enc : ∀ {b o : Bool} {e : Enc}, admitted b s.enc.unit.poison o { s with enc := e } = .next t → s.commanded t := by
    intro b o e ha
    obtain ⟨-, hclean, -, rfl⟩ := admitted_next ha
    exact .inl ⟨hclean, rfl⟩
  have dec : ∀ {b o : Bool} {d : Dec}, admitted b s.dec.unit.poison o { s with dec := d } = .next t → s.commanded t := by
    intro b o d ha
    obtain ⟨-, hclean, -, rfl⟩ := admitted_next ha
    exact .inr ⟨hclean, rfl⟩
  unfold decodeCmd at h
  split at h
  · cases h
  · exact enc h
  · exact enc h
  · cases h
  · exact dec h
  · exact dec h
  · exact dec h
  · exact dec h

theorem acceptOnly_commanded {op : OpCode} {s t : State} (h : acceptOnly op s = .next t) : s.commanded t := by
  rcases acceptOnly_next h with ⟨-, hclean, hacc⟩ | ⟨-, hclean, hacc⟩
  · refine .inl ⟨hclean, ?_⟩
    rcases hacc with ⟨-, -, rfl⟩ | ⟨-, -, rfl⟩ <;> rfl
  · refine .inr ⟨hclean, ?_⟩
    rcases hacc with ⟨-, rfl⟩ | ⟨-, rfl⟩ | ⟨-, -, rfl⟩ | ⟨-, rfl⟩ <;> rfl

/-! ### What a step does to `POISON` (R173) -/

/-- A `POISON` of 1 in `s` is 1 in `t`. -/
def State.keepsPoison (s t : State) : Prop :=
  (s.dec.unit.poison = true → t.dec.unit.poison = true) ∧ (s.enc.unit.poison = true → t.enc.unit.poison = true)

theorem State.commanded.keepsPoison {s t : State} (h : s.commanded t) : s.keepsPoison t := by
  rcases h with ⟨hclean, honly⟩ | ⟨hclean, honly⟩ <;> rw [honly]
  · exact ⟨id, fun hp => absurd (hclean.symm.trans hp) Bool.false_ne_true⟩
  · exact ⟨fun hp => absurd (hclean.symm.trans hp) Bool.false_ne_true, id⟩

theorem Dec.turn_getD_poisoned {cfg : Config} {d : Dec} (h : d.unit.poison = true) :
    ((d.turn cfg).getD d).unit.poison = true := by
  cases ht : d.turn cfg with
  | none => exact h
  | some d' => exact Dec.turn_poisoned h ht

theorem Enc.transact_getD_poisoned {cfg : Config} {e : Enc} (h : e.unit.poison = true) :
    ((e.transact cfg).getD e).unit.poison = true := by
  cases ht : e.transact cfg with
  | none => exact h
  | some e' => exact Enc.transact_poisoned h ht

theorem step_keepsPoison {s t : State} (h : step s = .next t) (hreset : s.resetsNext = false) : s.keepsPoison t := by
  rcases step_next h with ⟨_, _, _, -, he⟩ | ⟨_, _, _, -, ha⟩ | ⟨_, _, _, hm, -⟩ | ⟨_, _, -, -, rfl⟩ | ⟨_, _, _, -, rfl⟩ |
    ⟨_, _, _, -, rfl⟩ | ⟨_, -, rfl⟩ | ⟨_, -, rfl⟩
  · exact (exec_decodeCmd_commanded he).keepsPoison
  · exact (acceptOnly_commanded ha).keepsPoison
  · simp [State.resetsNext, hm] at hreset
  · exact ⟨id, id⟩
  · exact ⟨id, id⟩
  · exact ⟨id, id⟩
  · exact ⟨Dec.turn_getD_poisoned, id⟩
  · exact ⟨id, Enc.transact_getD_poisoned⟩

/-- A reset goes on at every state (R173). -/
theorem step_reset {s : State} {source : Option Source} {sink : Option Sink} {ms : List Move}
    (h : s.moves = .reset source sink :: ms) : step s = .next (State.resetBlock { s with moves := ms } source sink) := by
  unfold step fetch
  rw [h]
  rfl

/-- Settles O42 (R173): the units of a reset block are `DecUnit.initial` and `EncUnit.initial` but for the results delivered and
the host's buffer; in any other step a command finds its unit clean, a turn only ors to `POISON`, and the moves of the
environment leave the units alone. -/
theorem resetClearsPoison : Obligations.ResetClearsPoison := by
  refine ⟨fun s source sink ms h => ⟨_, step_reset h, ?_⟩, fun s t => step_keepsPoison⟩
  exact ⟨rfl, rfl, rfl, rfl, rfl, rfl, rfl, rfl, rfl, rfl, rfl⟩

end Sys2Proof.Machine

namespace Sys2Proof.Machine

/-! ### Words and instructions (R64, R75, R78, R83) -/

/-- Every instruction has its round trip, which the model states constructor by constructor. -/
theorem roundTrip : ∀ i : Instr, Laws.RoundTrip.Statement i
  | .encode => Laws.RoundTrip.encode
  | .encodeList => Laws.RoundTrip.encodeList
  | .peekSize => Laws.RoundTrip.peekSize
  | .readBytes => Laws.RoundTrip.readBytes
  | .readInto => Laws.RoundTrip.readInto
  | .decodeList => Laws.RoundTrip.decodeList
  | .reserved000 => Laws.RoundTrip.reserved000
  | .reserved011 => Laws.RoundTrip.reserved011
  | .typeF1 => Laws.RoundTrip.typeF1
  | .typeF2 => Laws.RoundTrip.typeF2
  | .typeF4 => Laws.RoundTrip.typeF4
  | .typeF8 => Laws.RoundTrip.typeF8
  | .decWidth0 hi => Laws.RoundTrip.decWidth0 hi
  | .decWidth1 hi => Laws.RoundTrip.decWidth1 hi
  | .decWidth2 hi => Laws.RoundTrip.decWidth2 hi
  | .decWidth3 hi => Laws.RoundTrip.decWidth3 hi
  | .decWidth4 hi => Laws.RoundTrip.decWidth4 hi
  | .decWidth5 hi => Laws.RoundTrip.decWidth5 hi
  | .decWidth6 hi => Laws.RoundTrip.decWidth6 hi
  | .decWidth7 hi => Laws.RoundTrip.decWidth7 hi
  | .decWidth8 hi => Laws.RoundTrip.decWidth8 hi
  | .decWidth9 hi => Laws.RoundTrip.decWidth9 hi
  | .decWidth10to11 hi m => Laws.RoundTrip.decWidth10to11 hi m
  | .decWidth12to15 hi m => Laws.RoundTrip.decWidth12to15 hi m

/-- Settles O4 (R64, R75, R78): one round trip for each row of the table. -/
theorem decodeOfEncode : Obligations.DecodeOfEncode :=
  fun i rest hwf => roundTrip i hwf rest

/-- `i` is a row of the format `f` whose word is the byte `b`. -/
def IsWord (f : Format) (b : Byte) (i : Instr) : Prop :=
  i.wf = true ∧ i.format = f ∧ encode i = [b]

theorem decodeCmd_isWord {b : Byte} (h : b.toNat < 8) : IsWord .cmd b (decodeCmd (b.truncate 3)) := by
  unfold IsWord
  revert b
  decide

theorem decodeTypeEnc_isWord {b : Byte} {i : Instr} (h : decodeTypeEnc b = some i) : IsWord .typeEnc b i := by
  unfold decodeTypeEnc at h
  split_ifs at h with h1 h2 h4 h8 <;> cases h <;> subst b <;> exact ⟨rfl, rfl, rfl⟩

theorem decodeTypeDec_isWord (b : Byte) : IsWord .typeDec b (decodeTypeDec b) := by
  unfold IsWord
  revert b
  decide

/-- What the decoder reads, it reads from the first byte. -/
theorem decode_isWord {f : Format} {b : Byte} {bytes rest : List Byte} {i : Instr}
    (h : decode f (b :: bytes) = .ok (i, rest)) : bytes = rest ∧ IsWord f b i := by
  cases f with
  | cmd =>
    simp only [decode] at h
    split at h <;> cases h
    exact ⟨rfl, decodeCmd_isWord ‹_›⟩
  | typeEnc =>
    simp only [decode] at h
    split at h <;> cases h
    exact ⟨rfl, decodeTypeEnc_isWord ‹_›⟩
  | typeDec =>
    cases h
    exact ⟨rfl, decodeTypeDec_isWord b⟩

/-- Settles O5 (R64, R75, R78): a word is one byte, and the decoder of each format reads it as the row whose word it is. -/
theorem encodeOfDecode : Obligations.EncodeOfDecode := by
  intro f bytes rest i h
  cases bytes with
  | nil => cases h
  | cons b bytes =>
    obtain ⟨rfl, hwf, hformat, hword⟩ := decode_isWord h
    exact ⟨hwf, hformat, by rw [hword]; rfl⟩

/-- Settles O6 (R64, R75, R78): each word is evaluated. -/
theorem decodeWords : Obligations.DecodeWords := by
  refine ⟨rfl, rfl, rfl, rfl, rfl, rfl, rfl, rfl, rfl, rfl, rfl, rfl⟩

/-! ### Status registers and result codes (R26, R28, R147) -/

theorem Chk.bits_getLsbD (c : Chk) :
    c.bits.getLsbD 0 = c.nib ∧ c.bits.getLsbD 1 = c.w0 ∧ c.bits.getLsbD 2 = c.whi ∧ c.bits.getLsbD 3 = c.wnd ∧
      c.bits.getLsbD 4 = c.wnm := by
  simp only [Chk.bits, BitVec.getLsbD_append, BitVec.getLsbD_ofBool]
  simp

theorem DecUnit.extractLsb'_stat (u : DecUnit) {start len : Nat} (h : start + len ≤ 16) :
    u.stat.extractLsb' start len =
      (u.chk.bits ++ u.result ++ BitVec.ofBool u.poison ++ BitVec.ofBool u.busy).extractLsb' start len :=
  BitVec.extractLsb'_setWidth_of_le h

theorem EncUnit.extractLsb'_stat (u : EncUnit) {start len : Nat} (h : start + len ≤ 16) :
    u.stat.extractLsb' start len =
      (u.result ++ BitVec.ofBool u.poison ++ BitVec.ofBool u.busy).extractLsb' start len :=
  BitVec.extractLsb'_setWidth_of_le h

/-- Settles O37 (R26, R28): each register is its fields side by side from `BUSY` up, widened with zeros; a field above bit 0 is
reached by leaving off the parts below it. -/
theorem statusRegisters : Obligations.StatusRegisters := by
  refine ⟨fun u => ⟨?_, ?_, ?_, ?_, fun k hk => ?_⟩, fun u => ⟨?_, ?_, ?_, fun k hk => ?_⟩, Chk.bits_getLsbD⟩
  · rw [u.extractLsb'_stat (by decide), BitVec.extractLsb'_append_eq_right]
  · rw [u.extractLsb'_stat (by decide), BitVec.extractLsb'_append_eq_of_le (by decide)]
    exact BitVec.extractLsb'_append_eq_right
  · rw [u.extractLsb'_stat (by decide), BitVec.extractLsb'_append_eq_of_le (by decide),
      BitVec.extractLsb'_append_eq_of_le (by decide)]
    exact BitVec.extractLsb'_append_eq_right
  · rw [u.extractLsb'_stat (by decide), BitVec.extractLsb'_append_eq_of_le (by decide),
      BitVec.extractLsb'_append_eq_of_le (by decide)]
    exact BitVec.extractLsb'_append_eq_left
  · rw [DecUnit.stat, BitVec.getLsbD_setWidth, BitVec.getLsbD_of_ge _ k hk, Bool.and_false]
  · rw [u.extractLsb'_stat (by decide), BitVec.extractLsb'_append_eq_right]
  · rw [u.extractLsb'_stat (by decide), BitVec.extractLsb'_append_eq_of_le (by decide)]
    exact BitVec.extractLsb'_append_eq_right
  · rw [u.extractLsb'_stat (by decide), BitVec.extractLsb'_append_eq_of_le (by decide)]
    exact BitVec.extractLsb'_append_eq_left
  · rw [EncUnit.stat, BitVec.getLsbD_setWidth, BitVec.getLsbD_of_ge _ k hk, Bool.and_false]

/-- Settles O38 (R147, R27): the code and the poisoning of each kind are read off. -/
theorem resultCodes : Obligations.ResultCodes := by
  intro r
  cases r <;> exact ⟨rfl, rfl⟩

/-! ### Reset (R34, R173 to R176) -/

/-- Settles O2 (R34): the units of `State.reset` are the initial ones, which keep the invariant with any stream. -/
theorem resetInv : Obligations.ResetInv :=
  ⟨Enc.initial_inv _ _ _, Dec.initial_inv _ _ _ _ _ _⟩

/-- Settles O43 (R175, R176): the step is `State.resetBlock`, which takes a stream it is given and otherwise the one there. -/
theorem resetKeepsStreams : Obligations.ResetKeepsStreams := by
  intro s source sink ms h
  refine ⟨_, step_reset h, ?_, ?_, ?_, ?_, rfl, rfl, rfl, rfl⟩
  · rintro rfl; rfl
  · rintro src rfl; rfl
  · rintro rfl; rfl
  · rintro snk rfl; rfl

/-! ### The rows of the type byte (R75, R99) -/

theorem takeTypeRow_due {k : Dec → Dec} {s : State} (h : s.dec.unit.typeDue = true) :
    takeTypeRow k s = .next { s with dec := k s.dec } := if_pos h

theorem takeTypeRow_not_due {k : Dec → Dec} {s : State} (h : s.dec.unit.typeDue = false) :
    takeTypeRow k s = .refused .typeByteNotDue := if_neg (by simp [h])

/-- Latching a type byte of width `m` is the effect of the rows of width 1 to 8. -/
theorem takeTypeRow_takeWidth (hi m : Nibble) {s : State} (h : s.dec.unit.typeDue = true) :
    takeTypeRow (fun d => d.takeWidth (typeByte hi m)) s = .next (s.latched hi m) := by
  rw [takeTypeRow_due h]
  simp only [Dec.takeWidth, Dec.latchType, typeLo_typeByte, State.latched]

/-- Settles O29 (R75, R99): each of the eight rows latches its own width. -/
theorem widthIsLatched : Obligations.WidthIsLatched :=
  fun hi _ hdue =>
    ⟨takeTypeRow_takeWidth hi 1 hdue, takeTypeRow_takeWidth hi 2 hdue, takeTypeRow_takeWidth hi 3 hdue,
      takeTypeRow_takeWidth hi 4 hdue, takeTypeRow_takeWidth hi 5 hdue, takeTypeRow_takeWidth hi 6 hdue,
      takeTypeRow_takeWidth hi 7 hdue, takeTypeRow_takeWidth hi 8 hdue⟩

/-- What a row of format TYPE_DEC does to a DEC that awaits its byte; the other instructions have no such row. -/
def rowEffect (cfg : Config) : Instr → Dec → Dec
  | .decWidth0 hi => fun d => d.takeWidthZero cfg (typeByte hi 0)
  | .decWidth1 hi => fun d => d.takeWidth (typeByte hi 1)
  | .decWidth2 hi => fun d => d.takeWidth (typeByte hi 2)
  | .decWidth3 hi => fun d => d.takeWidth (typeByte hi 3)
  | .decWidth4 hi => fun d => d.takeWidth (typeByte hi 4)
  | .decWidth5 hi => fun d => d.takeWidth (typeByte hi 5)
  | .decWidth6 hi => fun d => d.takeWidth (typeByte hi 6)
  | .decWidth7 hi => fun d => d.takeWidth (typeByte hi 7)
  | .decWidth8 hi => fun d => d.takeWidth (typeByte hi 8)
  | .decWidth9 hi => fun d => d.takeBadWidth (typeByte hi 9)
  | .decWidth10to11 hi m => fun d => d.takeBadWidth (typeByte hi m)
  | .decWidth12to15 hi m => fun d => d.takeBadWidth (typeByte hi m)
  | _ => id

theorem exec_typeDec {i : Instr} (h : i.format = .typeDec) (s : State) :
    exec i s = takeTypeRow (rowEffect s.cfg i) s := by
  cases i <;> cases h <;> rfl

/-- Settles O34 (the model's reading, assumption log 13): the rows of both formats look first whether their byte is due. -/
theorem typeByteNotDue : Obligations.TypeByteNotDue := by
  intro s
  constructor
  · intro i hformat hdue
    rw [exec_typeDec hformat]
    exact takeTypeRow_not_due hdue
  · intro i m hrow hdue
    rw [exec_typeRow s hrow, emitTypeRow, hdue]
    rfl

/-! ### Refused commands (R169) -/

theorem admitted_busy {b p o : Bool} {s : State} (hb : b = true) : admitted b p o s = .refused .unitBusy := by
  subst hb; rfl

theorem admitted_tooLong {b p o : Bool} {s : State} (hb : b = false) (hp : p = false) (ho : o = false) :
    admitted b p o s = .refused .operandTooLong := by
  subst hb hp ho; rfl

theorem fits64_eq_false {x : List Byte} (h : 2 ^ 64 ≤ x.length) : fits64 x = false :=
  decide_eq_false (Nat.not_lt.mpr h)

/-- A list with an item of `2^64` bytes or more is outside ENCODE_LIST's contract (R123). -/
theorem encodeListOk_of_long_item {cfg : Config} {o : Operands} (h : ∃ p ∈ o.items, 2 ^ 64 ≤ p.length) :
    o.encodeListOk cfg = false := by
  obtain ⟨p, hp, hlen⟩ := h
  have hall : o.items.all fits64 = false := List.all_eq_false.mpr ⟨p, hp, by simp [fits64_eq_false hlen]⟩
  rw [Operands.encodeListOk, hall, Bool.false_and]

/-- So is one whose inner frames total `2^64` bytes or more and fit `IBUF_E` (R123, assumption log 11). -/
theorem encodeListOk_of_long_total {cfg : Config} {o : Operands} (hlen : 2 ^ 64 ≤ framedLength o.items)
    (hroom : passes cfg.ibufCap (framedLength o.items) = false) : o.encodeListOk cfg = false := by
  rw [Operands.encodeListOk, decide_eq_false (Nat.not_lt.mpr hlen), hroom, Bool.or_false, Bool.and_false]

/-- Settles O35 (R169, R123): admission asks in turn for `BUSY`, `POISON` and the operand. -/
theorem refusedCommands : Obligations.RefusedCommands := by
  intro s
  refine ⟨fun hb => ?_, fun hb => ?_, fun hb hp => ?_, fun hb hp => ?_, exec_reserved000 s, exec_reserved011 s,
    fun hb hp => ⟨fun h => ?_, fun h => ?_, fun h hroom => ?_⟩, fun hb hp h => ?_⟩
  · exact ⟨admitted_busy hb, admitted_busy hb⟩
  · exact ⟨admitted_busy hb, admitted_busy hb, admitted_busy hb, admitted_busy hb⟩
  · exact ⟨admitted_poisoned hb hp, admitted_poisoned hb hp⟩
  · exact ⟨admitted_poisoned hb hp, admitted_poisoned hb hp, admitted_poisoned hb hp, admitted_poisoned hb hp⟩
  · exact admitted_tooLong hb hp (fits64_eq_false h)
  · exact admitted_tooLong hb hp (encodeListOk_of_long_item h)
  · rw [sum_framedLength] at h hroom
    exact admitted_tooLong hb hp (encodeListOk_of_long_total h hroom)
  · exact admitted_tooLong hb hp (fits64_eq_false h)

end Sys2Proof.Machine

namespace Sys2Proof.Machine

/-! ### Every step keeps the invariant (R15 to R31) -/

/-- The invariant of ENC does not look at the sink. -/
theorem Enc.inv_snk {cfg : Config} {e : Enc} (h : e.Inv cfg) (snk : Sink) : Enc.Inv cfg { e with snk := snk } :=
  ⟨h.busy_phase, h.busy_clean, h.poison_result, h.size, h.width, h.count, h.inner_list, h.ibuf_cap⟩

theorem exec_inv {i : Instr} {s t : State} (h : s.Inv) (hw : i.wf = true) (he : exec i s = .next t) : t.Inv := by
  rcases exec_side he with hside | hside
  · obtain ⟨hdec, honly⟩ := Dec.exec_inv h.dec hw hside he
    rw [honly]
    exact ⟨h.enc, hdec⟩
  · obtain ⟨henc, honly⟩ := Enc.exec_inv h.enc hside he
    rw [honly]
    exact ⟨henc, h.dec⟩

theorem decodeCmd_wf (op : OpCode) : (decodeCmd op).wf = true := by
  revert op; decide

theorem Dec.turn_getD_inv {cfg : Config} {d : Dec} (h : d.Inv cfg) : Dec.Inv cfg ((d.turn cfg).getD d) := by
  cases ht : d.turn cfg with
  | none => exact h
  | some d' => exact Dec.turn_inv h ht

theorem Enc.transact_getD_inv {cfg : Config} {e : Enc} (h : e.Inv cfg) : Enc.Inv cfg ((e.transact cfg).getD e) := by
  cases ht : e.transact cfg with
  | none => exact h
  | some e' => exact Enc.transact_inv h ht

/-- The moves still to come and the command port are no part of the invariant. -/
theorem State.Inv.port {s : State} (h : s.Inv) (ms : List Move) (o : Operands) :
    State.Inv { s with moves := ms, cmd := o } := ⟨h.enc, h.dec⟩

/-- Settles O3 (R15 to R31): a step is an instruction, an acceptance, a reset, a change of a stream, which the invariant does not
look at, or a turn of one unit. -/
theorem stepKeepsInv : Obligations.StepKeepsInv := by
  intro s t h hstep
  rcases step_next hstep with ⟨op, o, ms, -, he⟩ | ⟨_, o, ms, -, ha⟩ | ⟨_, _, _, -, rfl⟩ | ⟨_, _, -, -, rfl⟩ |
    ⟨_, _, _, -, rfl⟩ | ⟨_, _, _, -, rfl⟩ | ⟨_, -, rfl⟩ | ⟨_, -, rfl⟩
  · exact exec_inv (h.port ms o) (decodeCmd_wf op) he
  · exact acceptOnly_inv (h.port ms o) ha
  · exact ⟨Enc.initial_inv _ _ _, Dec.initial_inv _ _ _ _ _ _⟩
  · exact ⟨h.enc, Dec.inv_src h.dec _⟩
  · exact ⟨h.enc, Dec.inv_src h.dec _⟩
  · exact ⟨Enc.inv_snk h.enc _, h.dec⟩
  · exact ⟨h.enc, Dec.turn_getD_inv h.dec⟩
  · exact ⟨Enc.transact_getD_inv h.enc, h.dec⟩

/-! ### What a transaction of DEC delivers (R156, R160)

Only `Dec.finish` adds to the results delivered. So a transaction that ends the operation is `finish` of a unit in which the
operation and the results delivered are still those it began with, with a result the operation may end in. -/

/-- `d'` is in the middle of the operation `d` is in, with nothing delivered since. -/
structure Dec.GoesOn (d d' : Dec) : Prop where
  op : d'.unit.op = d.unit.op
  out : d'.unit.out = d.unit.out

/-- The bounds of `cfg` let an operation of DEC end with `r`: RESOURCE_EXHAUSTED needs one (R154). -/
def Result.needsBound (cfg : Config) (r : Result) : Prop :=
  ∀ n, r = .resourceExhausted n → cfg.maxAlloc ≠ none ∨ cfg.ibufCap ≠ none

/-- The operation of `d` ends at `d'`, in a way it may end in (R156). -/
def Dec.EndsAt (cfg : Config) (d d' : Dec) : Prop :=
  ∃ d₁ r, d.GoesOn d₁ ∧ d.unit.op.may r = true ∧ r.needsBound cfg ∧ d' = d₁.finish r

/-- What a transaction may do to the results delivered: nothing, or end the operation. -/
def Dec.Delivers (cfg : Config) (d d' : Dec) : Prop := d.GoesOn d' ∨ d.EndsAt cfg d'

theorem DecOp.may_cleanEos (op : DecOp) : op.may .cleanEos = true := by cases op <;> rfl

theorem DecOp.may_truncated_len (op : DecOp) : op.may (.truncated .len) = true := by cases op <;> rfl

theorem DecOp.may_sourceError (op : DecOp) (e : EnvError) : op.may (.sourceError e) = true := by cases op <;> rfl

theorem DecOp.may_badWidth (op : DecOp) (t : Byte) : op.may (.badWidth t) = true := by cases op <;> rfl

/-- PEEK_SIZE reads no payload, so only the others end with a payload cut short (R103, R156). -/
theorem DecOp.may_truncated_payload {op : DecOp} (h : op ≠ .peekSize) : op.may (.truncated .payload) = true := by
  cases op
  · exact absurd rfl h
  all_goals rfl

section
variable {cfg : Config} {d d' d'' : Dec}

theorem Dec.GoesOn.refl (d : Dec) : d.GoesOn d := ⟨rfl, rfl⟩

theorem Dec.GoesOn.trans (h : d.GoesOn d') (h' : d'.GoesOn d'') : d.GoesOn d'' :=
  ⟨h'.op.trans h.op, h'.out.trans h.out⟩

theorem Dec.GoesOn.delivers (h : d.GoesOn d') (h' : d'.Delivers cfg d'') : d.Delivers cfg d'' := by
  rcases h' with h' | ⟨d₁, r, h', hmay, hneeds, rfl⟩
  · exact .inl (h.trans h')
  · exact .inr ⟨d₁, r, h.trans h', h.op ▸ hmay, hneeds, rfl⟩

theorem Dec.GoesOn.finish_delivers {r : Result} (h : d.GoesOn d') (hmay : d.unit.op.may r = true)
    (hneeds : r.needsBound cfg) : d.Delivers cfg (d'.finish r) :=
  .inr ⟨d', r, h, hmay, hneeds, rfl⟩

theorem Dec.finish_delivers {r : Result} (hmay : d.unit.op.may r = true) (hneeds : r.needsBound cfg) :
    d.Delivers cfg (d.finish r) :=
  (Dec.GoesOn.refl d).finish_delivers hmay hneeds

theorem Dec.fail_delivers {r : Result} (hmay : d.unit.op.may r = true) (hneeds : r.needsBound cfg) :
    d.Delivers cfg (d.fail r) := by
  unfold Dec.fail
  split
  · exact Dec.GoesOn.finish_delivers ⟨rfl, rfl⟩ hmay hneeds
  · split <;> exact Dec.GoesOn.finish_delivers ⟨rfl, rfl⟩ hmay hneeds

theorem passes_bound {u : DecUnit} {n : Nat} (h : passes (u.bound cfg) n = true) :
    cfg.maxAlloc ≠ none ∨ cfg.ibufCap ≠ none := by
  unfold DecUnit.bound at h
  split at h
  · exact .inr fun hnone => by simp [hnone] at h
  · exact .inl fun hnone => by simp [hnone] at h

theorem Dec.finishReadInto_delivers (ho : d.unit.op = .readInto) : d.Delivers cfg d.finishReadInto :=
  Dec.GoesOn.finish_delivers (d' := d.spoilBufFrom d.unit.n.toNat) ⟨rfl, rfl⟩ (by rw [ho]; rfl) nofun

theorem Dec.eosInType_delivers : d.Delivers cfg d.eosInType := by
  unfold Dec.eosInType
  split
  · rename_i hinner
    have ho : d.unit.op = .decodeList := by simp_all [DecUnit.inner]
    unfold Dec.listDone
    exact Dec.GoesOn.finish_delivers ⟨rfl, rfl⟩ (by rw [ho]; rfl) nofun
  · exact Dec.finish_delivers (DecOp.may_cleanEos _) nofun

theorem Dec.payDone_delivers : d.Delivers cfg d.payDone := by
  unfold Dec.payDone
  split
  · exact .inl (.refl d)
  · rename_i ho
    exact Dec.finish_delivers (by rw [ho]; rfl) nofun
  · exact .inl ⟨rfl, rfl⟩
  · split <;> exact .inl ⟨rfl, rfl⟩

theorem Dec.enterPay_payDone_delivers : d.Delivers cfg d.enterPay.payDone :=
  Dec.GoesOn.delivers (d' := d.enterPay) ⟨rfl, rfl⟩ Dec.payDone_delivers

theorem Dec.afterSize_delivers : d.Delivers cfg (d.afterSize cfg) := by
  unfold Dec.afterSize
  split <;> rename_i ho
  · exact Dec.finish_delivers (by rw [ho]; rfl) nofun
  · split
    · exact Dec.fail_delivers (by rw [ho]; rfl) fun _ _ => passes_bound ‹_›
    · split
      · exact Dec.enterPay_payDone_delivers
      · exact .inl ⟨rfl, rfl⟩
  · split
    · exact Dec.fail_delivers (by rw [ho]; rfl) nofun
    · split
      · exact Dec.enterPay_payDone_delivers
      · exact .inl ⟨rfl, rfl⟩
  · split
    · exact Dec.fail_delivers (by rw [ho]; rfl) fun _ _ => passes_bound ‹_›
    · split
      · exact Dec.enterPay_payDone_delivers
      · exact .inl ⟨rfl, rfl⟩

theorem Dec.sizeKnown_delivers : d.Delivers cfg (d.sizeKnown cfg) := by
  unfold Dec.sizeKnown
  refine Dec.GoesOn.delivers ?_ Dec.afterSize_delivers
  exact ⟨rfl, rfl⟩

theorem Dec.takeType_delivers (t : Byte) : d.Delivers cfg (d.takeType cfg t) := by
  unfold Dec.takeType
  split
  · exact Dec.GoesOn.delivers (d' := d.latchType t) ⟨rfl, rfl⟩ Dec.sizeKnown_delivers
  · split
    · exact .inl ⟨rfl, rfl⟩
    · exact Dec.GoesOn.delivers (d' := d.latchBadWidth t) ⟨rfl, rfl⟩ (Dec.fail_delivers (DecOp.may_badWidth _ t) nofun)

theorem Dec.takeLen_delivers (b : List Byte) : d.Delivers cfg (d.takeLen cfg b) := by
  unfold Dec.takeLen
  dsimp only
  split
  · exact .inl ⟨rfl, rfl⟩
  · refine Dec.GoesOn.delivers ?_ Dec.sizeKnown_delivers
    exact ⟨rfl, rfl⟩

theorem Dec.store_goesOn (d : Dec) (b : List Byte) : d.GoesOn (d.store b) := ⟨Dec.store_op d b, Dec.store_out d b⟩

theorem Dec.takePay_delivers (b : List Byte) : d.Delivers cfg (d.takePay b) := by
  unfold Dec.takePay
  split
  · exact .inl (Dec.store_goesOn d b)
  · exact (Dec.store_goesOn d b).delivers Dec.payDone_delivers

theorem Dec.draw_goesOn (d : Dec) : d.GoesOn d.draw.2 := by
  obtain ⟨ds, tk, h⟩ := d.draw_eq
  rw [h]
  exact ⟨rfl, rfl⟩

theorem Dec.errInOver_delivers (ho : d.unit.op = .readInto) (e : EnvError) : d.Delivers cfg (d.errInOver e) := by
  have hdraw := d.draw_goesOn
  unfold Dec.errInOver
  dsimp only
  refine hdraw.delivers ?_
  split
  · exact Dec.finishReadInto_delivers (hdraw.op.trans ho)
  · exact Dec.fail_delivers (DecOp.may_sourceError _ _) nofun

theorem Dec.srcRead_goesOn {n : Nat} {r : SrcReply} (h : d.srcRead n = some (r, d')) : d.GoesOn d' := by
  unfold Dec.srcRead at h
  split at h
  · split at h <;> cases h
    exact ⟨rfl, rfl⟩
  · cases h
    exact ⟨rfl, rfl⟩

theorem Dec.tickType_delivers (ht : d.tickType cfg = some d') : d.Delivers cfg d' := by
  unfold Dec.tickType at ht
  split at ht <;> cases ht <;> rename_i hr <;> refine (Dec.srcRead_goesOn hr).delivers ?_
  · exact .inl (.refl _)
  · exact Dec.takeType_delivers _
  · exact Dec.eosInType_delivers
  · exact Dec.fail_delivers (DecOp.may_sourceError _ _) nofun

theorem Dec.tickLen_delivers (ht : d.tickLen cfg = some d') : d.Delivers cfg d' := by
  unfold Dec.tickLen at ht
  split at ht <;> cases ht <;> rename_i hr <;> refine (Dec.srcRead_goesOn hr).delivers ?_
  · exact Dec.takeLen_delivers _
  · exact Dec.fail_delivers (DecOp.may_truncated_len _) nofun
  · exact Dec.fail_delivers (DecOp.may_sourceError _ _) nofun

theorem Dec.tickPay_delivers (hop : d.unit.op ≠ .peekSize) (ht : d.tickPay = some d') : d.Delivers cfg d' := by
  unfold Dec.tickPay at ht
  split at ht <;> cases ht <;> rename_i hr <;> have hread := Dec.srcRead_goesOn hr <;> refine hread.delivers ?_
  · exact Dec.takePay_delivers _
  · exact Dec.fail_delivers (DecOp.may_truncated_payload (hread.op ▸ hop)) nofun
  · exact Dec.fail_delivers (DecOp.may_sourceError _ _) nofun

theorem Dec.tickOver_delivers (hop : d.unit.op = .readInto) (ht : d.tickOver = some d') : d.Delivers cfg d' := by
  have hdraw := d.draw_goesOn
  unfold Dec.tickOver at ht
  dsimp only at ht
  split at ht
  · cases ht
    exact Dec.finishReadInto_delivers hop
  · refine hdraw.delivers ?_
    rw [← hdraw.op] at hop
    split at ht
    · split at ht <;> cases ht <;> rename_i hr <;> have hread := Dec.srcRead_goesOn hr <;> refine hread.delivers ?_ <;>
        rw [← hread.op] at hop
      · exact .inl (Dec.store_goesOn _ _)
      · exact Dec.finishReadInto_delivers hop
      · exact Dec.errInOver_delivers hop _
    · cases ht
      exact Dec.finishReadInto_delivers hop

theorem Dec.transact_delivers (h : d.Inv cfg) (ht : d.transact cfg = some d') : d.Delivers cfg d' := by
  unfold Dec.transact at ht
  split at ht
  · split at ht <;> rename_i hp
    · cases ht
    · exact Dec.tickType_delivers ht
    · exact Dec.tickLen_delivers ht
    · exact Dec.tickPay_delivers (h.pay_range hp).2 ht
    · exact Dec.tickOver_delivers (h.over_range hp).1 ht
  · cases ht

theorem Dec.EndsAt.idle (h : d.EndsAt cfg d') : d'.unit.busy = false := by
  obtain ⟨d₁, r, -, -, -, rfl⟩ := h
  rfl

/-- A unit whose operation has ended makes no further transaction, so a run ends at most one. -/
theorem Dec.runOn_delivers (h : d.Inv cfg) : d.Delivers cfg (d.runOn cfg) := by
  refine (Dec.run_induct (P := fun x => x.Inv cfg ∧ d.Delivers cfg x) ?_ _ ⟨h, .inl (.refl d)⟩).2
  rintro x y ⟨hx, hgo | hend⟩ ht
  · exact ⟨Dec.transact_inv hx ht, hgo.delivers (Dec.transact_delivers hx ht)⟩
  · rw [Dec.transact_idle hend.idle] at ht
    cases ht

theorem Dec.turn_delivers (h : d.Inv cfg) : d.Delivers cfg ((d.turn cfg).getD d) := by
  cases ht : d.turn cfg with
  | none => exact .inl (.refl d)
  | some d' =>
    rcases Dec.turn_cases ht with h' | ⟨-, -, h'⟩
    · exact Dec.transact_delivers h h'
    · exact Dec.GoesOn.delivers (d' := { d with src := d.src.starve }) ⟨rfl, rfl⟩
        (Dec.transact_delivers (Dec.inv_src h _) h')

end

/-! ### What a transaction of ENC delivers (R156, R160) -/

/-- `e'` is in the middle of the operation `e` is in, with nothing delivered since. -/
structure Enc.GoesOn (e e' : Enc) : Prop where
  op : e'.unit.op = e.unit.op
  out : e'.unit.out = e.unit.out

/-- The operation of `e` ends at `e'`, in a way it may end in (R156); RESOURCE_EXHAUSTED needs a bound on `IBUF_E` (R154). -/
def Enc.EndsAt (cfg : Config) (e e' : Enc) : Prop :=
  ∃ e₁ r, e.GoesOn e₁ ∧ e.unit.op.may r = true ∧ r.needsBound cfg ∧ e' = e₁.finish r

/-- What a transaction may do to the results delivered: nothing, or end the operation. -/
def Enc.Delivers (cfg : Config) (e e' : Enc) : Prop := e.GoesOn e' ∨ e.EndsAt cfg e'

section
variable {cfg : Config} {e e' e'' : Enc}

theorem Enc.GoesOn.refl (e : Enc) : e.GoesOn e := ⟨rfl, rfl⟩

theorem Enc.GoesOn.trans (h : e.GoesOn e') (h' : e'.GoesOn e'') : e.GoesOn e'' :=
  ⟨h'.op.trans h.op, h'.out.trans h.out⟩

theorem Enc.GoesOn.delivers (h : e.GoesOn e') (h' : e'.Delivers cfg e'') : e.Delivers cfg e'' := by
  rcases h' with h' | ⟨e₁, r, h', hmay, hneeds, rfl⟩
  · exact .inl (h.trans h')
  · exact .inr ⟨e₁, r, h.trans h', h.op ▸ hmay, hneeds, rfl⟩

theorem Enc.finish_delivers {r : Result} (hmay : e.unit.op.may r = true) (hneeds : r.needsBound cfg) :
    e.Delivers cfg (e.finish r) :=
  .inr ⟨e, r, .refl e, hmay, hneeds, rfl⟩

theorem Enc.nextFrame_goesOn (e : Enc) : e.GoesOn e.nextFrame := by
  unfold Enc.nextFrame
  split <;> exact ⟨rfl, rfl⟩

theorem Enc.frameDone_delivers : e.Delivers cfg e.frameDone := by
  unfold Enc.frameDone
  split
  · exact .inl e.nextFrame_goesOn
  · exact Enc.finish_delivers (by simp [EncOp.may]) nofun

/-- The answer "full" comes only from `IBUF_E`, when the write passes its bound (R52). -/
theorem Enc.sinkWrite_full {x : List Byte} {n : Nat} (h : e.sinkWrite cfg x = some (.full n, e')) :
    e.unit.dst = .ibuf ∧ cfg.ibufCap ≠ none := by
  cases hd : e.unit.dst with
  | snk =>
    rw [Enc.sinkWrite_snk hd, Option.map_eq_some_iff] at h
    obtain ⟨⟨r, snk⟩, hans, heq⟩ := h
    cases heq
    exact absurd hans (Sink.answer_ne_full n)
  | ibuf =>
    rw [Enc.sinkWrite_ibuf hd] at h
    refine ⟨rfl, fun hnone => ?_⟩
    simp [hnone] at h

theorem Enc.sinkWrite_goesOn {x : List Byte} {r : SinkReply} (h : e.sinkWrite cfg x = some (r, e')) : e.GoesOn e' := by
  have hunit := (Enc.sinkWrite_some h).1.unit
  exact ⟨by rw [hunit], by rw [hunit]⟩

theorem Enc.emit_delivers {x : List Byte} {k : Enc → Enc} (hinner : e.unit.dst = .ibuf → e.unit.op = .encodeList)
    (hk : ∀ e : Enc, e.Delivers cfg (k e)) (he : e.emit cfg x k = some e') : e.Delivers cfg e' := by
  unfold Enc.emit at he
  split at he
  · cases he
    exact hk e
  · split at he
    · cases he
    · rename_i hw
      refine (Enc.sinkWrite_goesOn hw).delivers ?_
      split at he <;> cases he
      · refine Enc.GoesOn.delivers ?_ (hk _)
        exact ⟨rfl, rfl⟩
      · exact Enc.finish_delivers (by simp [EncOp.may]) nofun
    · rename_i hw
      cases he
      exact (Enc.sinkWrite_goesOn hw).delivers (Enc.finish_delivers (by simp [EncOp.may]) nofun)
    · rename_i hw
      cases he
      obtain ⟨hd, hcap⟩ := Enc.sinkWrite_full hw
      have hgo := Enc.sinkWrite_goesOn hw
      exact hgo.delivers (Enc.finish_delivers (by simp [hgo.op, hinner hd, EncOp.may]) fun _ _ => .inr hcap)

theorem Enc.transact_delivers (h : e.Inv cfg) (ht : e.transact cfg = some e') : e.Delivers cfg e' := by
  unfold Enc.transact at ht
  split at ht
  · rename_i hb
    split at ht
    · cases ht
    · refine Enc.emit_delivers (h.inner_list hb) ?_ ht
      exact fun _ => .inl ⟨rfl, rfl⟩
    · refine Enc.emit_delivers (h.inner_list hb) ?_ ht
      exact fun _ => .inl ⟨rfl, rfl⟩
    · exact Enc.emit_delivers (h.inner_list hb) (fun _ => Enc.frameDone_delivers) ht
  · cases ht

theorem Enc.EndsAt.idle (h : e.EndsAt cfg e') : e'.unit.busy = false := by
  obtain ⟨e₁, r, -, -, -, rfl⟩ := h
  rfl

theorem Enc.runOn_delivers (h : e.Inv cfg) : e.Delivers cfg (e.runOn cfg) := by
  refine (Enc.run_induct (P := fun x => x.Inv cfg ∧ e.Delivers cfg x) ?_ _ ⟨h, .inl (.refl e)⟩).2
  rintro x y ⟨hx, hgo | hend⟩ ht
  · exact ⟨Enc.transact_inv hx ht, hgo.delivers (Enc.transact_delivers hx ht)⟩
  · rw [Enc.transact_idle hend.idle] at ht
    cases ht

theorem Enc.transact_getD_delivers (h : e.Inv cfg) : e.Delivers cfg ((e.transact cfg).getD e) := by
  cases ht : e.transact cfg with
  | none => exact .inl (.refl e)
  | some e' => exact Enc.transact_delivers h ht

end

/-! ### What a step delivers (R154, R156, R160) -/

/-- At most one result of DEC is new in `d'`, of a kind its operation may end in, and DEC has just ended with it. -/
def Dec.DeliversNew (cfg : Config) (d d' : Dec) : Prop :=
  d'.unit.out = d.unit.out ∨
    ∃ x, d'.unit.out = d.unit.out ++ [x] ∧ x.op.may x.result = true ∧ x.result.needsBound cfg ∧
      d'.unit.phase = .idle ∧ d'.unit.busy = false ∧ d'.unit.result = x.result.code ∧ x.chk = d'.unit.chk

/-- At most one result of ENC is new in `e'`, of a kind its operation may end in, and ENC has just ended with it. -/
def Enc.DeliversNew (cfg : Config) (e e' : Enc) : Prop :=
  e'.unit.out = e.unit.out ∨
    ∃ x, e'.unit.out = e.unit.out ++ [x] ∧ x.op.may x.result = true ∧ x.result.needsBound cfg ∧
      e'.unit.phase = .idle ∧ e'.unit.busy = false ∧ e'.unit.result = x.result.code

theorem Dec.Delivers.new {cfg : Config} {d d' : Dec} (h : d.Delivers cfg d') : d.DeliversNew cfg d' := by
  rcases h with h | ⟨d₁, r, hgo, hmay, hneeds, rfl⟩
  · exact .inl h.out
  · exact .inr ⟨⟨d₁.unit.op, r, d₁.unit.chk⟩, by rw [Dec.finish_out, hgo.out], by rwa [hgo.op], hneeds, rfl, rfl, rfl, rfl⟩

theorem Enc.Delivers.new {cfg : Config} {e e' : Enc} (h : e.Delivers cfg e') : e.DeliversNew cfg e' := by
  rcases h with h | ⟨e₁, r, hgo, hmay, hneeds, rfl⟩
  · exact .inl h.out
  · exact .inr ⟨⟨e₁.unit.op, r⟩, by rw [Enc.finish_out, hgo.out], by rwa [hgo.op], hneeds, rfl, rfl, rfl⟩

/-- What each unit has newly delivered. -/
structure State.DeliversNew (s t : State) : Prop where
  enc : s.enc.DeliversNew s.cfg t.enc
  dec : s.dec.DeliversNew s.cfg t.dec

theorem Enc.acceptEncodeList_out (e : Enc) (l : List (List Byte)) : (e.acceptEncodeList l).unit.out = e.unit.out :=
  (Enc.nextFrame_goesOn _).out

/-- A command run delivers what its run does: accepting it delivers nothing. -/
theorem exec_decodeCmd_delivers {op : OpCode} {s t : State} (hinv : s.Inv) (h : exec (decodeCmd op) s = .next t) :
    s.DeliversNew t := by
  unfold decodeCmd at h
  split at h
  · cases h
  · obtain ⟨-, hclean, -, rfl⟩ := admitted_next h
    exact ⟨(Enc.runOn_delivers (Enc.acceptEncode_inv hinv.enc hclean _)).new, .inl rfl⟩
  · obtain ⟨-, hclean, -, rfl⟩ := admitted_next h
    have hnew := (Enc.runOn_delivers (Enc.acceptEncodeList_inv hinv.enc hclean s.cmd.items)).new
    rw [Enc.DeliversNew, Enc.acceptEncodeList_out] at hnew
    exact ⟨hnew, .inl rfl⟩
  · cases h
  · obtain ⟨-, hclean, -, rfl⟩ := admitted_next h
    exact ⟨.inl rfl, (Dec.runOn_delivers (Dec.accept_mid hinv.dec hclean .peekSize nofun nofun)).new⟩
  · obtain ⟨-, hclean, -, rfl⟩ := admitted_next h
    exact ⟨.inl rfl, (Dec.runOn_delivers (Dec.accept_mid hinv.dec hclean .readBytes nofun nofun)).new⟩
  · obtain ⟨-, hclean, hok, rfl⟩ := admitted_next h
    exact ⟨.inl rfl, (Dec.runOn_delivers (Dec.acceptReadInto_inv hinv.dec hclean (of_decide_eq_true hok))).new⟩
  · obtain ⟨-, hclean, -, rfl⟩ := admitted_next h
    exact ⟨.inl rfl, (Dec.runOn_delivers (Dec.acceptDecodeList_inv hinv.dec hclean)).new⟩

theorem acceptOnly_delivers {op : OpCode} {s t : State} (h : acceptOnly op s = .next t) : s.DeliversNew t := by
  rcases acceptOnly_next h with ⟨-, -, hacc⟩ | ⟨-, -, hacc⟩
  · rcases hacc with ⟨-, -, rfl⟩ | ⟨-, -, rfl⟩
    · exact ⟨.inl rfl, .inl rfl⟩
    · exact ⟨.inl (Enc.acceptEncodeList_out _ _), .inl rfl⟩
  · rcases hacc with ⟨-, rfl⟩ | ⟨-, rfl⟩ | ⟨-, -, rfl⟩ | ⟨-, rfl⟩ <;> exact ⟨.inl rfl, .inl rfl⟩

theorem step_delivers {s t : State} (hinv : s.Inv) (h : step s = .next t) : s.DeliversNew t := by
  rcases step_next h with ⟨_, o, ms, -, he⟩ | ⟨_, o, ms, -, ha⟩ | ⟨_, _, _, -, rfl⟩ | ⟨_, _, -, -, rfl⟩ |
    ⟨_, _, _, -, rfl⟩ | ⟨_, _, _, -, rfl⟩ | ⟨_, -, rfl⟩ | ⟨_, -, rfl⟩
  · obtain ⟨henc, hdec⟩ := exec_decodeCmd_delivers (hinv.port ms o) he
    exact ⟨henc, hdec⟩
  · obtain ⟨henc, hdec⟩ := acceptOnly_delivers ha
    exact ⟨henc, hdec⟩
  · exact ⟨.inl rfl, .inl rfl⟩
  · exact ⟨.inl rfl, .inl rfl⟩
  · exact ⟨.inl rfl, .inl rfl⟩
  · exact ⟨.inl rfl, .inl rfl⟩
  · exact ⟨.inl rfl, (Dec.turn_delivers hinv.dec).new⟩
  · exact ⟨(Enc.transact_getD_delivers hinv.enc).new, .inl rfl⟩

/-- Settles O39 (R156): a step adds at most one result for each unit, of a kind its operation may end in. -/
theorem onlyAllowedKinds : Obligations.OnlyAllowedKinds := by
  rintro s t hinv ⟨henc, hdec⟩ h
  obtain ⟨hnewEnc, hnewDec⟩ := step_delivers hinv h
  constructor
  · rcases hnewEnc with hout | ⟨x, hout, hmay, -⟩ <;> rw [hout]
    · exact henc
    · exact List.forall_mem_append.mpr ⟨henc, List.forall_mem_singleton.mpr hmay⟩
  · rcases hnewDec with hout | ⟨x, hout, hmay, -⟩ <;> rw [hout]
    · exact hdec
    · exact List.forall_mem_append.mpr ⟨hdec, List.forall_mem_singleton.mpr hmay⟩

/-- ENC never ends with CLEAN_EOS (R156). -/
theorem EncOp.code_ne_one {op : EncOp} {r : Result} (h : op.may r = true) : r.code ≠ 1 := by
  cases r with
  | cleanEos => cases op <;> cases h
  | _ => simp [Result.code]

/-- Settles O40 (R160): the unit that delivers has just ended its operation; its `POISON` is what the invariant ties to
`RESULT`. -/
theorem resultDelivered : Obligations.ResultDelivered := by
  intro s t hinv h
  obtain ⟨hnewEnc, hnewDec⟩ := step_delivers hinv h
  have hinv' := stepKeepsInv s t hinv h
  constructor
  · refine hnewDec.imp_right ?_
    rintro ⟨x, hout, -, -, hphase, hbusy, hcode, hchk⟩
    exact ⟨x, hout, hphase, hbusy, hcode, by rw [hinv'.dec.poison_result, hcode], hchk⟩
  · refine hnewEnc.imp_right ?_
    rintro ⟨x, hout, hmay, -, hphase, hbusy, hcode⟩
    refine ⟨x, hout, hphase, hbusy, hcode, ?_⟩
    rw [hinv'.enc.poison_result, hcode]
    exact (and_iff_left (EncOp.code_ne_one hmay)).symm

/-- Settles O41 (R154): a new result of RESOURCE_EXHAUSTED needs a bound. -/
theorem neverExhausted : Obligations.NeverExhausted := by
  intro s t hinv halloc hcap h
  obtain ⟨hnewEnc, hnewDec⟩ := step_delivers hinv h
  have hnone (r : Result) (n : Nat) (hneeds : r.needsBound s.cfg) : r ≠ .resourceExhausted n := fun hr =>
    (hneeds n hr).elim (· halloc) (· hcap)
  constructor
  · intro x n hx hr
    rcases hnewEnc with hout | ⟨y, hout, -, hneeds, -⟩ <;> rw [hout] at hx
    · exact hx
    · refine (List.mem_append.mp hx).resolve_right fun hy => ?_
      rw [List.mem_singleton.mp hy] at hr
      exact hnone _ n hneeds hr
  · intro x n hx hr
    rcases hnewDec with hout | ⟨y, hout, -, hneeds, -⟩ <;> rw [hout] at hx
    · exact hx
    · refine (List.mem_append.mp hx).resolve_right fun hy => ?_
      rw [List.mem_singleton.mp hy] at hr
      exact hnone _ n hneeds hr

end Sys2Proof.Machine

namespace Sys2Proof.Machine

/-! ### A step is the next move (R15, R23, R24) -/

theorem step_move {s : State} {m : Move} {ms : List Move} (h : s.moves = m :: ms) :
    step s = (hostMove m { s with moves := ms }).outcome := by
  rw [step_eq, fetch, h]

theorem decode_opCode (op : OpCode) : decode .cmd [op.zeroExtend 8] = .ok (decodeCmd op, []) := by
  revert op; decide

/-- Settles O47 (R78): the step runs `decodeCmd` of the code, which is what its word decodes to. -/
theorem stepRunsCommand : Obligations.StepRunsCommand := by
  intro s op o ms i hm hdec
  rw [decode_opCode] at hdec
  cases hdec
  exact step_command hm

/-- Settles O51 (R46, R182, R41, R44): each of these moves is the change of a stream it names. -/
theorem stepOfOtherMoves : Obligations.StepOfOtherMoves := by
  intro s ms
  refine ⟨fun k hm hfree => ?_, fun k hm hbusy => ?_, fun cuts later hm => ?_, fun answers later hm => ?_⟩
  · rw [step_move hm, hostMove, State.hostDraw, if_neg (by simp [hfree])]
    rfl
  · rw [step_move hm, hostMove, State.hostDraw, if_pos hbusy]
    rfl
  · rw [step_move hm]
    rfl
  · rw [step_move hm]
    rfl

/-! ### A command only accepted (R23, R24) -/

theorem step_begin {s : State} {op : OpCode} {o : Operands} {ms : List Move} (h : s.moves = .begin op o :: ms) :
    step s = acceptOnly op { s with moves := ms, cmd := o } := by
  rw [step_move h]
  exact beginCommand_outcome { s with moves := ms } op o

/-- A refusal does not look at the state a command would lead to. -/
theorem admitted_refused_iff {b p o : Bool} {s s' : State} {r : Refusal} :
    admitted b p o s = .refused r ↔ admitted b p o s' = .refused r := by
  unfold admitted
  split_ifs <;> simp

theorem opCode_cases (op : OpCode) : op = 0 ∨ op = 1 ∨ op = 2 ∨ op = 3 ∨ op = 4 ∨ op = 5 ∨ op = 6 ∨ op = 7 := by
  revert op; decide

theorem acceptOnly_refused_iff (op : OpCode) (s : State) (r : Refusal) :
    exec (decodeCmd op) s = .refused r ↔ acceptOnly op s = .refused r := by
  rcases opCode_cases op with rfl | rfl | rfl | rfl | rfl | rfl | rfl | rfl
  · exact Iff.rfl
  · exact admitted_refused_iff
  · exact admitted_refused_iff
  · exact Iff.rfl
  · exact admitted_refused_iff
  · exact admitted_refused_iff
  · exact admitted_refused_iff
  · exact admitted_refused_iff

/-- The next cycle of ENCODE_LIST starts a frame, with only `DST` and `IDX` moved. -/
theorem Enc.nextFrame_eq (e : Enc) :
    ∃ dst idx p, e.nextFrame = Enc.startFrame { e with unit := { e.unit with dst := dst, idx := idx } } p := by
  unfold Enc.nextFrame
  split
  · exact ⟨_, _, _, rfl⟩
  · exact ⟨_, _, _, rfl⟩

/-- Settles O48 (R23, R24, R169): admission is that of the command, and the accepted unit is read off, clause by clause. -/
theorem commandAccepted : Obligations.CommandAccepted := by
  intro s op o ms hm
  rw [step_begin hm]
  refine ⟨acceptOnly_refused_iff op _, fun t ht => ?_⟩
  rcases acceptOnly_next ht with ⟨-, -, ⟨rfl, -, rfl⟩ | ⟨rfl, -, rfl⟩⟩ |
    ⟨-, -, ⟨rfl, rfl⟩ | ⟨rfl, rfl⟩ | ⟨rfl, -, rfl⟩ | ⟨rfl, rfl⟩⟩
  · exact ⟨fun _ => ⟨rfl, rfl, rfl, rfl, rfl, rfl, rfl, rfl, rfl, fun _ => ⟨rfl, rfl, rfl⟩, nofun⟩, nofun⟩
  · obtain ⟨dst, idx, p, hstart⟩ := Enc.nextFrame_eq
      { s.enc with unit := { s.enc.unit with op := .encodeList, busy := true, ibuf := [], items := o.items, idx := 0 } }
    have hacc : s.enc.acceptEncodeList o.items = _ := hstart
    rw [hacc]
    exact ⟨fun _ => ⟨rfl, rfl, rfl, rfl, rfl, rfl, rfl, rfl, rfl, nofun, fun _ => ⟨rfl, rfl, rfl⟩⟩, nofun⟩
  · exact ⟨nofun, fun _ =>
      ⟨rfl, rfl, rfl, rfl, rfl, rfl, rfl, rfl, rfl, rfl, fun _ => rfl, nofun, nofun, nofun⟩⟩
  · exact ⟨nofun, fun _ =>
      ⟨rfl, rfl, rfl, rfl, rfl, rfl, rfl, rfl, rfl, rfl, nofun, fun _ => rfl, nofun, nofun⟩⟩
  · exact ⟨nofun, fun _ =>
      ⟨rfl, rfl, rfl, rfl, rfl, rfl, rfl, rfl, rfl, rfl, nofun, nofun, fun _ => ⟨rfl, rfl⟩, nofun⟩⟩
  · exact ⟨nofun, fun _ =>
      ⟨rfl, rfl, rfl, rfl, rfl, rfl, rfl, rfl, rfl, rfl, nofun, nofun, nofun, fun _ => ⟨rfl, rfl⟩⟩⟩

/-! ### A turn (R23, R24) -/

theorem step_turn_dec {s : State} {ms : List Move} (h : s.moves = .turn .dec :: ms) :
    step s = .next { s with moves := ms, dec := (s.dec.turn s.cfg).getD s.dec } := by
  rw [step_move h]
  exact decTurn_outcome { s with moves := ms }

theorem step_turn_enc {s : State} {ms : List Move} (hinv : s.enc.Inv s.cfg) (h : s.moves = .turn .enc :: ms) :
    step s = .next { s with moves := ms, enc := (s.enc.transact s.cfg).getD s.enc } := by
  rw [step_move h]
  exact encTurn_outcome (s := { s with moves := ms }) hinv

/-- Settles O52 (R23, R24, R60): the turn is one transaction, or none, or, against a source that starves DEC, the transaction
with one empty answer listed. -/
theorem turnIsOneTransaction : Obligations.TurnIsOneTransaction := by
  intro s ms hinv
  refine ⟨fun hm => ⟨fun d ht => ?_, fun ht hs => ?_, fun ht hs => ?_⟩, step_turn_enc hinv.enc⟩
  · rw [step_turn_dec hm, Dec.turn_some ht]
    rfl
  · rw [step_turn_dec hm, Dec.turn_none ht hs]
    rfl
  · rw [step_turn_dec hm, Dec.turn, ht]
    dsimp only
    rw [if_pos hs]
    rfl

/-- A type byte that arrives where DEC awaits one is decoded and run (R99). -/
theorem decTurn_run {s : State} {b : Byte} {bs : List Byte} {d : Dec} (hdue : s.dec.unit.typeDue = true)
    (hread : s.dec.srcRead 1 = some (.data (b :: bs), d)) : decTurn s = .run (decodeTypeDec b) { s with dec := d } := by
  rw [decTurn, Dec.arrivingType, if_pos hdue, hread]

/-- DEC has a transaction where the type byte it awaits arrives. -/
theorem Dec.transact_arriving {cfg : Config} {d d' : Dec} {b : Byte} {bs : List Byte} (hdue : d.unit.typeDue = true)
    (hread : d.srcRead 1 = some (.data (b :: bs), d')) : d.transact cfg = some (d'.takeType cfg b) := by
  obtain ⟨hbusy, hphase⟩ := DecUnit.typeDue_iff.mp hdue
  rw [Dec.transact, if_pos hbusy, hphase]
  simp only [Dec.tickType, hread]

/-- Settles O49 (R99): the turn of DEC decodes the byte that arrives, and with no move to come DEC goes first. -/
theorem stepRunsTypeByteOfDec : Obligations.StepRunsTypeByteOfDec := by
  intro s b bs d i hdue hread hdec
  cases hdec
  constructor
  · intro ms hm
    rw [step_move hm, hostMove, decTurn_run (s := { s with moves := ms }) hdue hread]
    rfl
  · intro hm
    rw [step_eq, fetch, hm]
    dsimp only
    rw [if_pos (by rw [Dec.transact_arriving hdue hread]; rfl), decTurn_run hdue hread, hm]
    rfl

/-- The type byte ENC is about to emit is decoded and run (R89). -/
theorem encTurn_run {s : State} {i : Instr} (hbusy : s.enc.unit.busy = true) (hphase : s.enc.unit.phase = .wType)
    (hdec : decodeTypeEnc (encTypeByte s.enc.unit.m) = some i) : encTurn s = .run i s := by
  rw [encTurn, if_pos ⟨hbusy, hphase⟩, hdec]

theorem decode_typeEnc_eq {b : Byte} {i : Instr} (h : decode .typeEnc [b] = .ok (i, [])) : decodeTypeEnc b = some i := by
  simp only [decode] at h
  split at h
  · rename_i hdec
    cases h
    exact hdec
  · cases h

/-- With no transaction of either unit and no source that starves DEC, a step with no move to come changes nothing (R60). -/
theorem decTurn_nothing {s : State} (ht : s.dec.transact s.cfg = none) (hs : s.dec.src.starves = false) :
    (decTurn s).outcome = .next s := by
  rw [decTurn_outcome, Dec.turn_none ht hs]
  rfl

/-- Settles O50 (R89): the turn of ENC decodes the byte it is about to emit; where its sink does not answer, the row leaves the
state as it is, as a step does in which neither unit can go on. -/
theorem stepRunsTypeByteOfEnc : Obligations.StepRunsTypeByteOfEnc := by
  intro s i hbusy hphase hdec
  have hword : decodeTypeEnc (encTypeByte s.enc.unit.m) = some i := decode_typeEnc_eq hdec
  constructor
  · intro ms hm
    rw [step_move hm, hostMove, encTurn_run (s := { s with moves := ms }) hbusy hphase hword]
    rfl
  · intro hm hquiet hgo
    rw [step_eq, fetch, hm]
    dsimp only
    rw [if_neg (by simp [hquiet])]
    cases ht : s.enc.transact s.cfg with
    | some e =>
      rw [if_pos (by rfl), encTurn_run hbusy hphase hword]
      rfl
    | none =>
      have hstarves : s.dec.src.starves = false := hgo.resolve_left (· ht)
      rw [if_neg (by simp), decTurn_nothing hquiet hstarves, decodeTypeEnc_encTypeByte hword,
        Enc.emitTypeRow_due ⟨hbusy, hphase⟩, ht]
      rfl

/-! ### The requests of a turn (R23, R40, R47, R111) -/

theorem DecUnit.payRequest_readInto {u : DecUnit} (h : u.op = .readInto) : u.payRequest = u.buf.length - u.n.toNat := by
  rw [DecUnit.payRequest, h]

theorem DecUnit.payRequest_other {u : DecUnit} (h : u.op ≠ .readInto) : u.payRequest = u.s.toNat - u.n.toNat := by
  unfold DecUnit.payRequest
  split
  · exact absurd ‹_› h
  · rfl

/-- A turn that makes no request of the bound source: an idle DEC's, one that reads `IBUF_D`, or none at all (R18, R47). -/
theorem Dec.turn_getD_asked_none {cfg : Config} {d : Dec} (h : d.Inv cfg)
    (hnone : d.unit.busy = false ∨ d.unit.sel = .ibuf ∨ d.turn cfg = none) :
    ((d.turn cfg).getD d).src.asked = d.src.asked := by
  cases ht : d.turn cfg with
  | none => rfl
  | some d' =>
    rcases hnone with hidle | hsel | hturn
    · rw [Dec.turn_idle hidle] at ht
      cases ht
    · rcases Dec.turn_asked h ht with ⟨-, hasked⟩ | ⟨-, hasked⟩
      · simpa [hsel] using hasked
      · exact hasked
    · rw [hturn] at ht
      cases ht

theorem Dec.turn_getD_asksOn {cfg : Config} {d : Dec} (h : d.Inv cfg) : d.src.asksOn ((d.turn cfg).getD d).src := by
  cases ht : d.turn cfg with
  | none => exact Source.asksOn.refl _
  | some d' => exact Dec.turn_asksOn h ht

theorem acceptOnly_dec_src {op : OpCode} {s t : State} (h : acceptOnly op s = .next t) : t.dec.src = s.dec.src := by
  rcases acceptOnly_next h with ⟨-, -, ⟨-, -, rfl⟩ | ⟨-, -, rfl⟩⟩ |
    ⟨-, -, ⟨-, rfl⟩ | ⟨-, rfl⟩ | ⟨-, -, rfl⟩ | ⟨-, rfl⟩⟩ <;> rfl

/-- No step makes a request for no bytes (R48), but for a reset, which may bind another source. -/
theorem step_asksOn {s t : State} (hinv : s.Inv) (h : step s = .next t) (hreset : s.resetsNext = false) :
    s.dec.src.asksOn t.dec.src := by
  rcases step_next h with ⟨_, o, ms, -, he⟩ | ⟨_, o, ms, -, ha⟩ | ⟨_, _, _, hm, -⟩ | ⟨_, _, -, -, rfl⟩ |
    ⟨_, _, _, -, rfl⟩ | ⟨_, _, _, -, rfl⟩ | ⟨_, -, rfl⟩ | ⟨_, -, rfl⟩
  · have hasks := exec_asksOn (hinv.port ms o) he
    exact hasks
  · rw [acceptOnly_dec_src ha]
    exact Source.asksOn.refl _
  · simp [State.resetsNext, hm] at hreset
  · exact Source.asksOn.refl _
  · exact Source.asksOn.refl _
  · exact Source.asksOn.refl _
  · exact Dec.turn_getD_asksOn hinv.dec
  · exact Source.asksOn.refl _

/-- Settles O60 (R23, R40): the request of a turn is the one DEC wants in its phase. -/
theorem requestSizes : Obligations.RequestSizes := by
  refine ⟨fun s ms hinv hm => ⟨_, step_turn_dec hm, Dec.turn_getD_asked_none hinv.dec, fun hbusy hsel hturn => ?_⟩,
    fun s t => step_asksOn⟩
  obtain ⟨d, ht⟩ := Option.ne_none_iff_exists'.mp hturn
  dsimp only
  rw [ht, Option.getD_some]
  rcases Dec.turn_asked hinv.dec ht with ⟨hpos, hasked⟩ | ⟨hover, hasked⟩
  · rw [if_pos hsel] at hasked
    unfold DecUnit.wants at hpos hasked
    match hp : s.dec.unit.phase with
    | .idle => exact hinv.dec.busy_phase.mp hbusy hp
    | .type => rw [hp] at hasked; exact hasked
    | .len => rw [hp] at hpos hasked; exact ⟨hpos, hasked⟩
    | .pay =>
      rw [hp] at hpos hasked
      dsimp only at hpos hasked ⊢
      by_cases hop : s.dec.unit.op = .readInto
      · rw [DecUnit.payRequest_readInto hop] at hpos hasked
        rw [if_pos hop]
        exact ⟨hpos, hasked⟩
      · rw [DecUnit.payRequest_other hop] at hpos hasked
        rw [if_neg hop]
        exact ⟨hpos, hasked⟩
    | .over => rw [hp] at hpos hasked; exact .inr ⟨hpos, hasked⟩
  · rw [hover]
    exact .inl hasked

/-! ### The streams move forward (R42, R45) -/

/-- The source of `t` holds a suffix of what that of `s` held, and the sink of `t` has accepted more. -/
def State.StreamsForward (s t : State) : Prop := t.dec.src.rem <:+ s.dec.src.rem ∧ s.enc.snk.acc <+: t.enc.snk.acc

theorem State.StreamsForward.of_dec {s t : State} (honly : s.onlyDec t) (h : t.dec.src.rem <:+ s.dec.src.rem) :
    s.StreamsForward t := by
  refine ⟨h, ?_⟩
  rw [honly]

theorem State.StreamsForward.of_enc {s t : State} (honly : s.onlyEnc t) (h : s.enc.snk.acc <+: t.enc.snk.acc) :
    s.StreamsForward t := by
  refine ⟨?_, h⟩
  rw [honly]

theorem Enc.acceptEncodeList_snk (e : Enc) (l : List (List Byte)) : (e.acceptEncodeList l).snk = e.snk :=
  Enc.nextFrame_snk _

/-- A command run moves its own stream only, as its transactions do (R47). -/
theorem exec_decodeCmd_forward {op : OpCode} {s t : State} (h : exec (decodeCmd op) s = .next t) : s.StreamsForward t := by
  unfold decodeCmd at h
  split at h
  · cases h
  · obtain ⟨-, -, -, rfl⟩ := admitted_next h
    exact .of_enc rfl (Enc.runOn_grown (s.enc.acceptEncode s.cmd.payload)).acc
  · obtain ⟨-, -, -, rfl⟩ := admitted_next h
    refine .of_enc rfl ?_
    rw [← Enc.acceptEncodeList_snk s.enc s.cmd.items]
    exact (Enc.runOn_grown _).acc
  · cases h
  · obtain ⟨-, -, -, rfl⟩ := admitted_next h
    exact .of_dec rfl (Dec.runOn_consumed (s.dec.accept .peekSize)).rem
  · obtain ⟨-, -, -, rfl⟩ := admitted_next h
    exact .of_dec rfl (Dec.runOn_consumed (s.dec.accept .readBytes)).rem
  · obtain ⟨-, -, -, rfl⟩ := admitted_next h
    exact .of_dec rfl (Dec.runOn_consumed (s.dec.acceptReadInto s.cmd.buf)).rem
  · obtain ⟨-, -, -, rfl⟩ := admitted_next h
    exact .of_dec rfl (Dec.runOn_consumed s.dec.acceptDecodeList).rem

theorem acceptOnly_enc_snk {op : OpCode} {s t : State} (h : acceptOnly op s = .next t) : t.enc.snk = s.enc.snk := by
  rcases acceptOnly_next h with ⟨-, -, ⟨-, -, rfl⟩ | ⟨-, -, rfl⟩⟩ |
    ⟨-, -, ⟨-, rfl⟩ | ⟨-, rfl⟩ | ⟨-, -, rfl⟩ | ⟨-, rfl⟩⟩
  · rfl
  · exact Enc.acceptEncodeList_snk _ _
  all_goals rfl

theorem Dec.turn_getD_rem (cfg : Config) (d : Dec) : ((d.turn cfg).getD d).src.rem <:+ d.src.rem := by
  cases ht : d.turn cfg with
  | none => exact List.suffix_rfl
  | some d' =>
    obtain ⟨-, -, hrem, -⟩ := Dec.turn_src ht
    exact hrem

theorem Enc.transact_getD_acc (cfg : Config) (e : Enc) : e.snk.acc <+: ((e.transact cfg).getD e).snk.acc := by
  cases ht : e.transact cfg with
  | none => exact List.prefix_rfl
  | some e' => exact (Enc.transact_grown ht).acc

/-- Settles O45 (R42, R45): runs and turns move the streams forward, a draw takes bytes from the front of the source, and the other
moves leave them. -/
theorem streamsMoveForward : Obligations.StreamsMoveForward := by
  intro s t h hreset
  rcases step_next h with ⟨_, o, ms, -, he⟩ | ⟨_, o, ms, -, ha⟩ | ⟨_, _, _, hm, -⟩ | ⟨_, _, -, -, rfl⟩ |
    ⟨_, _, _, -, rfl⟩ | ⟨_, _, _, -, rfl⟩ | ⟨_, -, rfl⟩ | ⟨_, -, rfl⟩
  · have hforward := exec_decodeCmd_forward he
    exact hforward
  · rw [acceptOnly_dec_src ha, acceptOnly_enc_snk ha]
    exact ⟨List.suffix_rfl, List.prefix_rfl⟩
  · simp [State.resetsNext, hm] at hreset
  · exact ⟨List.drop_suffix _ _, List.prefix_rfl⟩
  · exact ⟨List.suffix_rfl, List.prefix_rfl⟩
  · exact ⟨List.suffix_rfl, List.prefix_rfl⟩
  · exact ⟨Dec.turn_getD_rem _ _, List.prefix_rfl⟩
  · exact ⟨List.suffix_rfl, Enc.transact_getD_acc _ _⟩

/-! ### Each unit by itself (R159) -/

theorem exec_dec_independent {i : Instr} {s t : State} (hside : sideOf i = some .dec) (he : exec i s = .next t) :
    t = { s with dec := t.dec } ∧ ∀ e : Enc, exec i { s with enc := e } = .next { t with enc := e } := by
  cases i with
  | peekSize =>
    obtain ⟨hb, hp, ho, rfl⟩ := admitted_next he
    exact ⟨rfl, fun e => admitted_free hb hp ho⟩
  | readBytes =>
    obtain ⟨hb, hp, ho, rfl⟩ := admitted_next he
    exact ⟨rfl, fun e => admitted_free hb hp ho⟩
  | readInto =>
    obtain ⟨hb, hp, ho, rfl⟩ := admitted_next he
    exact ⟨rfl, fun e => admitted_free hb hp ho⟩
  | decodeList =>
    obtain ⟨hb, hp, ho, rfl⟩ := admitted_next he
    exact ⟨rfl, fun e => admitted_free hb hp ho⟩
  | encode | encodeList | reserved000 | reserved011 | typeF1 | typeF2 | typeF4 | typeF8 => cases hside
  | _ =>
    rw [exec_typeDec rfl] at he
    obtain ⟨hdue, rfl⟩ := takeTypeRow_next he
    refine ⟨rfl, fun e => ?_⟩
    rw [exec_typeDec rfl]
    exact takeTypeRow_due hdue

theorem emitTypeRow_independent {m : Nibble} {s t : State} (he : emitTypeRow m s = .next t) :
    t = { s with enc := t.enc } ∧ ∀ d : Dec, emitTypeRow m { s with dec := d } = .next { t with dec := d } := by
  obtain ⟨hdue, rfl⟩ := emitTypeRow_next he
  refine ⟨rfl, fun d => ?_⟩
  rw [emitTypeRow_of_due (s := { s with dec := d }) hdue, Enc.emitType_due hdue]

theorem exec_enc_independent {i : Instr} {s t : State} (hside : sideOf i = some .enc) (he : exec i s = .next t) :
    t = { s with enc := t.enc } ∧ ∀ d : Dec, exec i { s with dec := d } = .next { t with dec := d } := by
  cases i with
  | encode =>
    obtain ⟨hb, hp, ho, rfl⟩ := admitted_next he
    exact ⟨rfl, fun d => admitted_free hb hp ho⟩
  | encodeList =>
    obtain ⟨hb, hp, ho, rfl⟩ := admitted_next he
    exact ⟨rfl, fun d => admitted_free hb hp ho⟩
  | typeF1 => exact emitTypeRow_independent he
  | typeF2 => exact emitTypeRow_independent he
  | typeF4 => exact emitTypeRow_independent he
  | typeF8 => exact emitTypeRow_independent he
  | _ => cases hside

/-- Settles O44 (R159): admission and effect of an instruction speak of its own unit alone. -/
theorem unitsIndependent : Obligations.UnitsIndependent :=
  fun _ _ _ he => ⟨fun hside => exec_dec_independent hside he, fun hside => exec_enc_independent hside he⟩

/-! ### Progress (R60, R190) -/

/-- Settles O54 (R60, R190): with no move to come a step is a transaction, each of which brings its unit nearer the end, or else
the turn of a DEC that has none, which changes nothing unless the source starves it. -/
theorem stepsMakeProgress : Obligations.StepsMakeProgress := by
  intro s hinv hm
  have hstep := step_alone hinv hm
  refine ⟨fun hgo => ?_, fun hdec henc => ⟨fun hstuck => ?_, fun hbusy hstarves => ?_⟩⟩
  · refine ⟨_, hstep, stepKeepsInv s _ hinv hstep, ?_⟩
    cases hdec : s.dec.transact s.cfg with
    | some d => exact ⟨hm, Nat.add_lt_add_right (Dec.transact_work hinv.dec hdec) _⟩
    | none =>
      obtain ⟨e, henc⟩ := Option.ne_none_iff_exists'.mp (hgo.resolve_left (· hdec))
      rw [henc]
      exact ⟨hm, Nat.add_lt_add_left (Enc.transact_work henc) _⟩
  · have hturn : s.dec.turn s.cfg = none := hstuck.elim Dec.turn_idle (Dec.turn_none hdec)
    rw [hstep, hdec, henc, hturn]
    rfl
  · obtain ⟨d, n, hturn, hunit, hn, hsrc, hdraws⟩ := Dec.starved_turn hinv.dec hbusy hdec hstarves
    rw [hdec, henc, hturn] at hstep
    exact ⟨_, n, hstep, rfl, hunit, hn, hsrc, hdraws⟩

/-! ### Blocked units (R60) -/

theorem Sink.answer_none {snk : Sink} {x : List Byte} (h : snk.answer x = none) : snk.unanswered := by
  unfold Sink.answer at h
  split at h
  · cases h
  · cases h
  · rename_i hanswers
    split at h
    · cases h
    · exact ⟨hanswers, ‹_›⟩

/-- A write that is not answered is one to the bound sink: `IBUF_E` answers every write (R52). -/
theorem Enc.emit_none {cfg : Config} {e : Enc} {x : List Byte} {k : Enc → Enc} (h : e.emit cfg x k = none) :
    e.unit.dst = .snk ∧ e.snk.unanswered := by
  unfold Enc.emit at h
  split at h
  · cases h
  · split at h
    · rename_i hw
      cases hd : e.unit.dst with
      | snk =>
        rw [Enc.sinkWrite_snk hd, Option.map_eq_none_iff] at hw
        exact ⟨rfl, Sink.answer_none hw⟩
      | ibuf =>
        rw [Enc.sinkWrite_ibuf hd] at hw
        split at hw <;> cases hw
    · split at h <;> cases h
    · cases h
    · cases h

theorem Enc.transact_none {cfg : Config} {e : Enc} (h : e.Inv cfg) (hb : e.unit.busy = true)
    (ht : e.transact cfg = none) : e.unit.dst = .snk ∧ e.snk.unanswered := by
  rw [Enc.transact, if_pos hb] at ht
  split at ht
  · exact absurd ‹_› (h.busy_phase.mp hb)
  · exact Enc.emit_none ht
  · exact Enc.emit_none ht
  · exact Enc.emit_none ht

/-- A busy DEC with no turn waits for a source in silence: one that starves it would give it a turn. -/
theorem Dec.turn_eq_none {cfg : Config} {d : Dec} (h : d.Inv cfg) (hb : d.unit.busy = true) (ht : d.turn cfg = none) :
    d.unit.sel = .src ∧ d.src.unanswered := by
  have hquiet : d.transact cfg = none := by
    by_contra hgo
    obtain ⟨d', hd'⟩ := Option.ne_none_iff_exists'.mp hgo
    rw [Dec.turn_some hd'] at ht
    cases ht
  obtain ⟨hsel, hend | ⟨hrem, hcuts, hpace⟩⟩ := Dec.transact_none h hb hquiet
  · exact ⟨hsel, .inl hend⟩
  · refine ⟨hsel, .inr ⟨hrem, hcuts, ?_⟩⟩
    cases hlater : d.src.later with
    | prompt => exact absurd hlater hpace
    | silent => rfl
    | empty =>
      obtain ⟨d', n, hturn, -⟩ := Dec.starved_turn h hb hquiet (Source.starves_iff.mpr ⟨hrem, hcuts, hlater⟩)
      rw [hturn] at ht
      cases ht

/-- Settles O55 (R60): a request that is not answered is one of the bound stream. -/
theorem blockedOnlyBySilence : Obligations.BlockedOnlyBySilence := by
  intro s hinv
  refine ⟨Dec.turn_eq_none hinv.dec, fun hbusy hquiet hturn => ?_, Enc.transact_none hinv.enc⟩
  obtain ⟨hsel, -⟩ := Dec.transact_none hinv.dec hbusy hquiet
  obtain ⟨d, ht⟩ := Option.ne_none_iff_exists'.mp hturn
  rcases Dec.turn_cases ht with hgo | ⟨-, hstarves, -⟩
  · rw [hquiet] at hgo
    cases hgo
  · exact ⟨hsel, hstarves⟩

end Sys2Proof.Machine

namespace Sys2Proof.Machine

/-! ### A DEC command run to its end (R97 to R131) -/

/-- What a DEC command needs to be admitted (R169), at a state of the invariant; READ_INTO needs a buffer below `2^64` bytes too. -/
structure State.DecReady (s : State) : Prop where
  inv : s.dec.Inv s.cfg
  free : s.dec.unit.busy = false
  clean : s.dec.unit.poison = false

section
variable {s : State} (h : s.DecReady)
include h

theorem State.DecReady.exec_peekSize :
    exec .peekSize s = .next { s with dec := (s.dec.accept .peekSize).runOn s.cfg } :=
  admitted_free h.free h.clean rfl

theorem State.DecReady.exec_readBytes :
    exec .readBytes s = .next { s with dec := (s.dec.accept .readBytes).runOn s.cfg } :=
  admitted_free h.free h.clean rfl

theorem State.DecReady.exec_readInto (hfits : s.cmd.buf.length < 2 ^ 64) :
    exec .readInto s = .next { s with dec := (s.dec.acceptReadInto s.cmd.buf).runOn s.cfg } :=
  admitted_free h.free h.clean (decide_eq_true hfits)

theorem State.DecReady.exec_decodeList :
    exec .decodeList s = .next { s with dec := s.dec.acceptDecodeList.runOn s.cfg } :=
  admitted_free h.free h.clean rfl

theorem State.DecReady.peekSize_ends :
    (s.dec.accept .peekSize).Waits ((s.dec.accept .peekSize).runOn s.cfg) ∨
      (s.dec.accept .peekSize).EndsAs ((s.dec.accept .peekSize).runOn s.cfg) (prefixFlags s.dec.src.rem)
        (fun v : Byte × Nat => Value.size (BitVec.ofNat 64 v.2)) (parsePrefix s.dec.src.fin s.dec.src.rem) :=
  Dec.peek_runOn (Dec.accept_mid h.inv h.clean _ nofun nofun) rfl rfl rfl rfl

theorem State.DecReady.readBytes_ends :
    (s.dec.accept .readBytes).Waits ((s.dec.accept .readBytes).runOn s.cfg) ∨
      (s.dec.accept .readBytes).EndsAs ((s.dec.accept .readBytes).runOn s.cfg) (prefixFlags s.dec.src.rem)
        Value.payload (parseFrame s.cfg.maxAlloc s.dec.src.fin s.dec.src.rem) :=
  Dec.readBytes_runOn (Dec.accept_mid h.inv h.clean _ nofun nofun) rfl rfl rfl rfl

theorem State.DecReady.readInto_ends (hfits : s.cmd.buf.length < 2 ^ 64) :
    (s.dec.acceptReadInto s.cmd.buf).Waits ((s.dec.acceptReadInto s.cmd.buf).runOn s.cfg) ∨
      (s.dec.acceptReadInto s.cmd.buf).IntoEnds ((s.dec.acceptReadInto s.cmd.buf).runOn s.cfg) :=
  Dec.readInto_runOn (Dec.acceptReadInto_inv h.inv h.clean hfits) rfl rfl rfl rfl

theorem State.DecReady.decodeList_ends :
    s.dec.acceptDecodeList.Waits (s.dec.acceptDecodeList.runOn s.cfg) ∨
      s.dec.acceptDecodeList.EndsAs (s.dec.acceptDecodeList.runOn s.cfg)
        (decodeListFlags s.cfg s.dec.src.fin s.dec.src.rem) Value.items
        (decodeListOf s.cfg s.dec.src.fin s.dec.src.rem) :=
  Dec.decodeList_runOn (Dec.acceptDecodeList_inv h.inv h.clean) rfl rfl rfl rfl

end

/-! ### How an operation that began at an accepted unit came out (R60, R160)

`d0` is the unit as the command was accepted, `d` the one before: they agree in the results delivered, and in `RESULT` and
`POISON`, which is all that the ends of an operation look at. -/

/-- Accepting a command delivers nothing and leaves the status. -/
structure Dec.Accepted (op : DecOp) (d d0 : Dec) : Prop where
  op : d0.unit.op = op
  out : d0.unit.out = d.unit.out
  result : d0.unit.result = d.unit.result
  poison : d0.unit.poison = d.unit.poison
  src : d0.src = d.src

theorem Dec.accepted (d : Dec) (op : DecOp) : Dec.Accepted op d (d.accept op) := ⟨rfl, rfl, rfl, rfl, rfl⟩

theorem Dec.accepted_readInto (d : Dec) (buf : List Byte) : Dec.Accepted .readInto d (d.acceptReadInto buf) :=
  ⟨rfl, rfl, rfl, rfl, rfl⟩

theorem Dec.accepted_decodeList (d : Dec) : Dec.Accepted .decodeList d d.acceptDecodeList := ⟨rfl, rfl, rfl, rfl, rfl⟩

section
variable {op : DecOp} {d d0 e : Dec} {r : Result} {c : Chk} {rest : List Byte}

theorem Dec.Ended.endedWith (hacc : Dec.Accepted op d d0) (h : d0.Ended e r c rest) :
    d.unit.endedWith e.unit op r c := by
  have hends := h.ends
  rw [DecUnit.endedWith, hacc.op, hacc.out] at hends
  exact hends

theorem Dec.Waits.waitsFor (hacc : Dec.Accepted op d d0) (h : d0.Waits e) : d.waitsFor op e := by
  have hwaits := h.waits
  rw [DecUnit.waitsIn, hacc.op, hacc.out, hacc.result, hacc.poison] at hwaits
  exact ⟨hwaits, h.silent⟩

theorem Dec.EndsAs.endedAs {α : Type} {f : α → Value} {rd : Reading α} (hacc : Dec.Accepted op d d0)
    (h : d0.EndsAs e c f rd) : d.endedAs op e c (rd.map f) := by
  cases rd with
  | value v rest => exact ⟨h.endedWith hacc, h.rem⟩
  | stop r rest => exact ⟨h.endedWith hacc, h.rem⟩
  | hang => exact h

/-- An operation that ends as a reading ends with some result. -/
theorem Dec.EndsAs.ended {α : Type} {f : α → Value} {rd : Reading α} (h : d0.EndsAs e c f rd) :
    ∃ r rest, d0.Ended e r c rest := by
  cases rd with
  | value v rest => exact ⟨_, rest, h⟩
  | stop r rest => exact ⟨r, rest, h⟩
  | hang => exact h.elim

/-- Whether it waits or has ended, an operation other than DECODE_LIST has left its registers alone, and one other than READ_INTO
the host's buffer and the draws. -/
theorem Dec.EndsAs.kept {α : Type} {f : α → Value} {rd : Reading α} (h : d0.Waits e ∨ d0.EndsAs e c f rd) :
    (d0.unit.op ≠ .decodeList → d0.listKept e) ∧ (d0.unit.op ≠ .readInto → d0.intoKept e) := by
  rcases h with hwaits | hends
  · exact ⟨hwaits.list, hwaits.into⟩
  · obtain ⟨r, rest, hended⟩ := hends.ended
    exact ⟨hended.list, hended.into⟩

end

/-- Settles O20 (R97 to R103): the run of the accepted unit waits or ends as the prefix parse does. -/
theorem peekSizeMeaning : Obligations.PeekSizeMeaning := by
  intro s hinv hfree hclean
  have hready : s.DecReady := ⟨hinv, hfree, hclean⟩
  have hacc := s.dec.accepted .peekSize
  obtain ⟨hlist, hinto⟩ := Dec.EndsAs.kept hready.peekSize_ends
  refine ⟨_, hready.exec_peekSize, rfl, Dec.runOn_consumed (s.dec.accept .peekSize), hlist nofun, hinto nofun, ?_⟩
  exact hready.peekSize_ends.imp (Dec.Waits.waitsFor hacc) (Dec.EndsAs.endedAs hacc)

/-- Settles O21 (R105 to R107): the run of the accepted unit waits or ends as the frame parse within `MAX_ALLOC` does. -/
theorem readBytesMeaning : Obligations.ReadBytesMeaning := by
  intro s hinv hfree hclean
  have hready : s.DecReady := ⟨hinv, hfree, hclean⟩
  have hacc := s.dec.accepted .readBytes
  obtain ⟨hlist, hinto⟩ := Dec.EndsAs.kept hready.readBytes_ends
  refine ⟨_, hready.exec_readBytes, rfl, Dec.runOn_consumed (s.dec.accept .readBytes), hlist nofun, hinto nofun, ?_⟩
  exact hready.readBytes_ends.imp (Dec.Waits.waitsFor hacc) (Dec.EndsAs.endedAs hacc)

/-- Settles O23 (R125 to R131): the run of the accepted unit waits or ends as the pure list decoder does. -/
theorem decodeListMeaning : Obligations.DecodeListMeaning := by
  intro s hinv hfree hclean
  have hready : s.DecReady := ⟨hinv, hfree, hclean⟩
  have hacc := s.dec.accepted_decodeList
  obtain ⟨-, hinto⟩ := Dec.EndsAs.kept hready.decodeList_ends
  refine ⟨_, hready.exec_decodeList, rfl, Dec.runOn_consumed s.dec.acceptDecodeList, hinto nofun, ?_⟩
  exact hready.decodeList_ends.imp (Dec.Waits.waitsFor hacc) (Dec.EndsAs.endedAs hacc)

/-! ### READ_INTO (R108 to R115) -/

theorem Dec.OverEnds.ended {x y : List Byte} {sz : Nat} {d0 e : Dec} (h : Dec.OverEnds x y sz d0 e) :
    ∃ r rest, d0.Ended e r (prefixFlags x) rest := by
  rcases h with ⟨n, -, -, -, hended, -⟩ | ⟨er, -, -, hended⟩
  · exact ⟨_, _, hended⟩
  · exact ⟨_, _, hended⟩

theorem Dec.IntoEnds.ended {d0 e : Dec} (h : d0.IntoEnds e) :
    ∃ r rest, d0.Ended e r (prefixFlags d0.src.rem) rest := by
  unfold Dec.IntoEnds at h
  split at h
  · exact h.elim
  · exact ⟨_, _, h.1⟩
  · split_ifs at h
    · exact ⟨_, _, h.1⟩
    · split at h
      · exact ⟨_, _, h⟩
      · exact h.elim
    · exact h.ended

theorem Dec.OverEnds.overread {x y : List Byte} {sz : Nat} {d d0 e : Dec} (hacc : Dec.Accepted .readInto d d0)
    (h : Dec.OverEnds x y sz d0 e) :
    d.overread e (prefixFlags x) sz y d0.unit.buf := by
  rcases h with ⟨n, hlow, hbuf, hy, hended, htake⟩ | ⟨er, herr, hshort, hended⟩
  · exact .inl ⟨n, hlow, le_min hbuf hy, hended.endedWith hacc, hended.rem, htake⟩
  · exact .inr ⟨er, hacc.src ▸ herr, hshort, hended.endedWith hacc, hended.rem⟩

/-- The cases of the run of READ_INTO are those of the statement. -/
theorem Dec.IntoEnds.endedInto {d e : Dec} {buf : List Byte} (h : (d.acceptReadInto buf).IntoEnds e) :
    d.endedInto e buf := by
  have hacc := d.accepted_readInto buf
  have hsrc : (d.acceptReadInto buf).src = d.src := rfl
  have hbuf : (d.acceptReadInto buf).unit.buf = buf := rfl
  unfold Dec.endedInto
  unfold Dec.IntoEnds at h
  rw [hsrc, hbuf] at h
  cases hparse : parsePrefix d.src.fin d.src.rem with
  | hang =>
    rw [hparse] at h
    exact h
  | stop r rest =>
    rw [hparse] at h
    obtain ⟨hended, hkept⟩ := h
    exact ⟨hended.endedWith hacc, hended.rem, hkept⟩
  | value v y =>
    rw [hparse] at h
    dsimp only at h ⊢
    split_ifs at h ⊢
    · obtain ⟨hended, hkept⟩ := h
      exact ⟨hended.endedWith hacc, hended.rem, hkept⟩
    · unfold atEnd at h ⊢
      cases hfin : d.src.fin with
      | eos =>
        rw [hfin] at h
        exact ⟨h.endedWith hacc, h.rem⟩
      | err er =>
        rw [hfin] at h
        exact ⟨h.endedWith hacc, h.rem⟩
      | never =>
        rw [hfin] at h
        exact h
    · exact h.overread hacc

/-- Settles O22 (R108 to R115): the run of the accepted unit waits or ends as READ_INTO can. -/
theorem readIntoMeaning : Obligations.ReadIntoMeaning := by
  intro s hinv hfree hclean hfits
  have hready : s.DecReady := ⟨hinv, hfree, hclean⟩
  refine ⟨_, hready.exec_readInto hfits, rfl, Dec.runOn_consumed (s.dec.acceptReadInto s.cmd.buf), ?_⟩
  rcases hready.readInto_ends hfits with hwaits | hends
  · exact ⟨hwaits.list nofun, hwaits.room, .inl (hwaits.waitsFor (s.dec.accepted_readInto _))⟩
  · obtain ⟨r, rest, hended⟩ := hends.ended
    exact ⟨hended.list nofun, hended.room, .inr hends.endedInto⟩

/-! ### Against a source that answers (R190) -/

/-- The command `op` took `s` to `t` and ended there with `r` and the flags `c`, the source being left at `rest`. -/
structure State.DecEnded (s t : State) (op : DecOp) (r : Result) (c : Chk) (rest : List Byte) : Prop where
  only : s.onlyDec t
  ends : s.dec.unit.endedWith t.dec.unit op r c
  rem : t.dec.src.rem = rest
  fin : t.dec.src.fin = s.dec.src.fin
  later : t.dec.src.later = s.dec.src.later

theorem Dec.Ended.state {s : State} {op : DecOp} {d0 e : Dec} {r : Result} {c : Chk} {rest : List Byte}
    (hacc : Dec.Accepted op s.dec d0) (h : d0.Ended e r c rest) : s.DecEnded { s with dec := e } op r c rest :=
  ⟨rfl, h.endedWith hacc, h.rem, hacc.src ▸ h.fin, hacc.src ▸ h.later⟩

section
variable {s : State} (h : s.DecReady) (hanswers : s.dec.src.answersAll)
include h hanswers

theorem State.DecReady.peekSize_value {ty : Byte} {sz : Nat} {y : List Byte}
    (hparse : parsePrefix s.dec.src.fin s.dec.src.rem = .value (ty, sz) y) :
    ∃ t, exec .peekSize s = .next t ∧
      s.DecEnded t .peekSize (.ok (.size (BitVec.ofNat 64 sz))) (prefixFlags s.dec.src.rem) y := by
  have hends := h.peekSize_ends.resolve_left (Dec.not_waits hanswers)
  rw [hparse] at hends
  exact ⟨_, h.exec_peekSize, Dec.Ended.state (s.dec.accepted .peekSize) hends⟩

theorem State.DecReady.readBytes_value {p y : List Byte}
    (hparse : parseFrame s.cfg.maxAlloc s.dec.src.fin s.dec.src.rem = .value p y) :
    ∃ t, exec .readBytes s = .next t ∧
      s.DecEnded t .readBytes (.ok (.payload p)) (prefixFlags s.dec.src.rem) y := by
  have hends := h.readBytes_ends.resolve_left (Dec.not_waits hanswers)
  rw [hparse] at hends
  exact ⟨_, h.exec_readBytes, Dec.Ended.state (s.dec.accepted .readBytes) hends⟩

theorem State.DecReady.readBytes_stop {r : Result} {y : List Byte}
    (hparse : parseFrame s.cfg.maxAlloc s.dec.src.fin s.dec.src.rem = .stop r y) :
    ∃ t, exec .readBytes s = .next t ∧ s.DecEnded t .readBytes r (prefixFlags s.dec.src.rem) y := by
  have hends := h.readBytes_ends.resolve_left (Dec.not_waits hanswers)
  rw [hparse] at hends
  exact ⟨_, h.exec_readBytes, Dec.Ended.state (s.dec.accepted .readBytes) hends⟩

theorem State.DecReady.decodeList_value {l : List (List Byte)} {y : List Byte}
    (hparse : decodeListOf s.cfg s.dec.src.fin s.dec.src.rem = .value l y) :
    ∃ t, exec .decodeList s = .next t ∧
      s.DecEnded t .decodeList (.ok (.items l)) (decodeListFlags s.cfg s.dec.src.fin s.dec.src.rem) y := by
  have hends := h.decodeList_ends.resolve_left (Dec.not_waits hanswers)
  rw [hparse] at hends
  exact ⟨_, h.exec_decodeList, Dec.Ended.state s.dec.accepted_decodeList hends⟩

theorem State.DecReady.readInto_endedInto (hfits : s.cmd.buf.length < 2 ^ 64) :
    ∃ t, exec .readInto s = .next t ∧ s.dec.endedInto t.dec s.cmd.buf ∧ t.dec.unit.buf.length = s.cmd.buf.length := by
  have hends := (h.readInto_ends hfits).resolve_left (Dec.not_waits hanswers)
  obtain ⟨r, rest, hended⟩ := hends.ended
  exact ⟨_, h.exec_readInto hfits, hends.endedInto, hended.room⟩

end

/-- A payload that the buffer and the stream both hold leads past the frame (R112). -/
theorem Dec.endedInto.overread {d e : Dec} {buf y : List Byte} {ty : Byte} {sz : Nat}
    (hparse : parsePrefix d.src.fin d.src.rem = .value (ty, sz) y) (hbuf : sz ≤ buf.length) (hy : sz ≤ y.length)
    (h : d.endedInto e buf) : d.overread e (prefixFlags d.src.rem) sz y buf := by
  unfold Dec.endedInto at h
  rw [hparse] at h
  dsimp only at h
  rwa [if_neg (Nat.not_lt.mpr hbuf), if_neg (Nat.not_lt.mpr hy)] at h

/-- Settles O24 (R97, R103, R105, R108, R125): with no request left unanswered, what is not a failure of the parse is a success; past
a frame a source that ends in `Eos` raises no error. -/
theorem decOperationsSucceed : Obligations.DecOperationsSucceed := by
  intro s hinv hfree hclean hanswers
  have hready : s.DecReady := ⟨hinv, hfree, hclean⟩
  refine ⟨fun ty sz y hparse => ?_, fun p y hparse => ?_, fun ty sz y hfits hparse hbuf hy heos => ?_,
    fun l y hparse => ?_⟩
  · obtain ⟨t, hexec, hended⟩ := hready.peekSize_value hanswers hparse
    exact ⟨t, hexec, hended.ends, hended.rem⟩
  · obtain ⟨t, hexec, hended⟩ := hready.readBytes_value hanswers hparse
    exact ⟨t, hexec, hended.ends, hended.rem⟩
  · obtain ⟨t, hexec, hended, -⟩ := hready.readInto_endedInto hanswers hfits
    rcases hended.overread hparse hbuf hy with ⟨n, hlow, hhigh, hends, hrem, htake⟩ | ⟨er, herr, -⟩
    · exact ⟨t, n, hexec, hlow, hhigh.trans (Nat.min_le_left _ _), hends, htake, hrem⟩
    · rw [heos] at herr
      cases herr
  · obtain ⟨t, hexec, hended⟩ := hready.decodeList_value hanswers hparse
    exact ⟨t, hexec, hended.ends, hended.rem⟩

/-- Settles O26 (R110): a buffer that is too small ends READ_INTO at the prefix; one of exactly the size has no room past the frame, so
the count is the size and no error past the frame can come. -/
theorem bufferCheckFirst : Obligations.BufferCheckFirst := by
  intro s ty sz y hinv hfree hclean hfits hanswers hparse
  obtain ⟨t, hexec, hended, hroom⟩ := State.DecReady.readInto_endedInto ⟨hinv, hfree, hclean⟩ hanswers hfits
  constructor
  · intro hsmall
    unfold Dec.endedInto at hended
    rw [hparse] at hended
    dsimp only at hended
    rw [if_pos hsmall] at hended
    obtain ⟨hends, hrem, hbuf⟩ := hended
    exact ⟨t, hexec, hends, hends.poison_eq, hbuf, hrem⟩
  · intro hexact hy
    rcases hended.overread hparse hexact.ge hy with ⟨n, hlow, hhigh, hends, hrem, htake⟩ | ⟨er, -, hshort, -⟩
    · obtain rfl : n = sz := le_antisymm ((hhigh.trans (Nat.min_le_left _ _)).trans_eq hexact) hlow
      refine ⟨t, hexec, hends, ?_, hrem⟩
      rw [← htake, List.take_of_length_le (hroom.trans hexact).le]
    · omega

/-! ### How the source cuts its bytes up (R41, R49) -/

/-- Two runs of one operation that end as one reading deliver the same, consume the same, and leave the same status. -/
theorem Dec.EndsAs.agree {α : Type} {f : α → Value} {rd : Reading α} {c : Chk} {op : DecOp}
    {d d' d0 d0' e e' : Dec} (hacc : Dec.Accepted op d d0) (h : d0.EndsAs e c f rd) (hacc' : Dec.Accepted op d' d0')
    (h' : d0'.EndsAs e' c f rd) (hout : d.unit.out = d'.unit.out) :
    e.unit.out = e'.unit.out ∧ e.src.rem = e'.src.rem ∧ e.unit.poison = e'.unit.poison ∧
      e.unit.result = e'.unit.result ∧ e.unit.chk = e'.unit.chk := by
  have agree {r : Result} {rest : List Byte} (h : d0.Ended e r c rest) (h' : d0'.Ended e' r c rest) :
      e.unit.out = e'.unit.out ∧ e.src.rem = e'.src.rem ∧ e.unit.poison = e'.unit.poison ∧
        e.unit.result = e'.unit.result ∧ e.unit.chk = e'.unit.chk := by
    obtain ⟨-, -, hresult, hpoison, hchk, hdel⟩ := h.endedWith hacc
    obtain ⟨-, -, hresult', hpoison', hchk', hdel'⟩ := h'.endedWith hacc'
    exact ⟨by rw [hdel, hdel', hout], h.rem.trans h'.rem.symm, hpoison.trans hpoison'.symm,
      hresult.trans hresult'.symm, hchk.trans hchk'.symm⟩
  cases rd with
  | value v rest => exact agree h h'
  | stop r rest => exact agree h h'
  | hang => exact h.elim

theorem Dec.Waits.not_idle {d0 e : Dec} (h : d0.Waits e) : e.unit.busy ≠ false := by
  obtain ⟨-, hbusy, -⟩ := h.waits
  simp [hbusy]

/-- A DEC command that goes on found its unit ready. -/
theorem State.DecReady.of_exec {i : Instr} {s t : State} (hi : i ∈ [Instr.peekSize, .readBytes, .decodeList])
    (hinv : s.dec.Inv s.cfg) (he : exec i s = .next t) : s.DecReady := by
  simp only [List.mem_cons, List.not_mem_nil, or_false] at hi
  rcases hi with rfl | rfl | rfl <;>
  · obtain ⟨hfree, hclean, -, -⟩ := admitted_next he
    exact ⟨hinv, hfree, hclean⟩

/-- Settles O28 (R41, R49): both runs end as the reading of one stream, in which the choices of the source have no part. -/
theorem chunkingDoesNotMatter : Obligations.ChunkingDoesNotMatter := by
  intro s t t' cuts later i hi hinv he he' hidle hidle'
  have hready := State.DecReady.of_exec hi hinv he
  have hready' := State.DecReady.of_exec
    (s := { s with dec := { s.dec with src := { s.dec.src with cuts := cuts, later := later } } }) hi
    (Dec.inv_src hinv _) he'
  simp only [List.mem_cons, List.not_mem_nil, or_false] at hi
  rcases hi with rfl | rfl | rfl
  · rw [hready.exec_peekSize] at he
    rw [hready'.exec_peekSize] at he'
    cases he
    cases he'
    exact Dec.EndsAs.agree (s.dec.accepted .peekSize) (hready.peekSize_ends.resolve_left fun hw => hw.not_idle hidle)
      (Dec.accepted _ .peekSize) (hready'.peekSize_ends.resolve_left fun hw => hw.not_idle hidle') rfl
  · rw [hready.exec_readBytes] at he
    rw [hready'.exec_readBytes] at he'
    cases he
    cases he'
    exact Dec.EndsAs.agree (s.dec.accepted .readBytes) (hready.readBytes_ends.resolve_left fun hw => hw.not_idle hidle)
      (Dec.accepted _ .readBytes) (hready'.readBytes_ends.resolve_left fun hw => hw.not_idle hidle') rfl
  · rw [hready.exec_decodeList] at he
    rw [hready'.exec_decodeList] at he'
    cases he
    cases he'
    exact Dec.EndsAs.agree s.dec.accepted_decodeList (hready.decodeList_ends.resolve_left fun hw => hw.not_idle hidle)
      (Dec.accepted_decodeList _) (hready'.decodeList_ends.resolve_left fun hw => hw.not_idle hidle') rfl

/-! ### Commands in sequence (R104, R117, R182) -/

/-- DEC is ready for the next command after one that ended with a kind that does not poison it. -/
theorem State.DecEnded.ready {s t : State} {op : DecOp} {r : Result} {c : Chk} {rest : List Byte}
    (h : s.DecEnded t op r c rest) (hinv : t.dec.Inv t.cfg) (hr : r.poisons = false) : t.DecReady := by
  obtain ⟨-, hbusy, -, hpoison, -⟩ := h.ends
  exact ⟨hinv, hbusy, hpoison.trans hr⟩

theorem State.DecEnded.out {s t : State} {op : DecOp} {r : Result} {c : Chk} {rest : List Byte}
    (h : s.DecEnded t op r c rest) : t.dec.unit.out = s.dec.unit.out ++ [⟨op, r, c⟩] := by
  obtain ⟨-, -, -, -, -, hout⟩ := h.ends
  exact hout

theorem State.DecEnded.answersAll {s t : State} {op : DecOp} {r : Result} {c : Chk} {rest : List Byte}
    (h : s.DecEnded t op r c rest) (hanswers : s.dec.src.answersAll) : t.dec.src.answersAll := by
  obtain ⟨hfin, hlater⟩ := hanswers
  exact ⟨h.fin ▸ hfin, h.later.trans hlater⟩

/-- What `onlyDec` keeps. -/
theorem State.DecEnded.kept {s t : State} {op : DecOp} {r : Result} {c : Chk} {rest : List Byte}
    (h : s.DecEnded t op r c rest) : t.enc = s.enc ∧ t.cfg = s.cfg ∧ t.moves = s.moves := by
  have honly := h.only
  rw [State.onlyDec] at honly
  rw [honly]
  exact ⟨rfl, rfl, rfl⟩

/-- A run goes on from where a step that answers leads. -/
theorem run_next {M : Host.Core} {s s' : M.State} (h : M.step s = .next s') (k : Nat) : M.run (k + 1) s = M.run k s' := by
  rw [Host.Core.run, h]

theorem core_run_next {s s' : State} (h : step s = .next s') (k : Nat) :
    Sys2Proof.core.run (k + 1) s = Sys2Proof.core.run k s' := run_next h k

theorem core_run_zero (s : State) : Sys2Proof.core.run 0 s = .next s := rfl

/-- The state a step with the command `op` begins its meaning at. -/
def State.atPort (s : State) (ms : List Move) : State := { s with moves := ms, cmd := Operands.none }

/-- One READ_BYTES over the frame in front of it: the step delivers its payload and leaves the machine ready for the next. -/
theorem step_readBytes_frame {s : State} {ms : List Move} {p rest : List Byte} (hinv : s.Inv)
    (hready : s.DecReady) (hanswers : s.dec.src.answersAll)
    (hm : s.moves = .command 0b101#3 Operands.none :: ms) (hp : p.length < 2 ^ 64)
    (hroom : passes s.cfg.maxAlloc p.length = false) (hrem : s.dec.src.rem = frame p ++ rest) :
    ∃ t, step s = .next t ∧ t.Inv ∧ t.DecReady ∧ t.dec.src.answersAll ∧ t.dec.src.fin = s.dec.src.fin ∧
      t.dec.src.rem = rest ∧ t.dec.unit.out = s.dec.unit.out ++ [⟨.readBytes, .ok (.payload p), Chk.clear⟩] ∧
      t.enc = s.enc ∧ t.cfg = s.cfg ∧ t.moves = ms := by
  have hready' : (s.atPort ms).DecReady := ⟨hready.inv, hready.free, hready.clean⟩
  obtain ⟨t, hexec, hended⟩ := hready'.readBytes_value hanswers
    (p := p) (y := rest) (by rw [State.atPort, hrem]; exact parseFrame_frame _ rest hp hroom)
  have hflags : prefixFlags (s.atPort ms).dec.src.rem = Chk.clear := by
    rw [State.atPort, hrem]
    exact prefixFlags_frame rest hp
  rw [hflags] at hended
  have hstep : step s = .next t := (step_command hm).trans hexec
  have hinv' := stepKeepsInv s t hinv hstep
  obtain ⟨henc, hcfg, hmoves⟩ := hended.kept
  exact ⟨t, hstep, hinv', hended.ready hinv'.dec rfl, hended.answersAll hanswers, hended.fin, hended.rem, hended.out,
    henc, hcfg, hmoves⟩

/-- Settles O57 (R117), by induction on the payloads: each READ_BYTES takes one frame, and the one at the end of the stream ends
with CLEAN_EOS. -/
theorem streamingConcatenation : Obligations.StreamingConcatenation := by
  intro s ps hinv hfree hclean hrem heos hlater hps hm
  induction ps generalizing s with
  | nil =>
    have hready : (s.atPort []).DecReady := ⟨hinv.dec, hfree, hclean⟩
    have hrem' : s.dec.src.rem = [] := hrem
    have hanswers : s.dec.src.answersAll := ⟨by rw [heos]; nofun, hlater⟩
    obtain ⟨t, hexec, hended⟩ := hready.readBytes_stop (r := .cleanEos) (y := []) hanswers
      (by rw [State.atPort, heos, hrem']; rfl)
    have hstep : step s = .next t := (step_command hm).trans hexec
    have hflags : prefixFlags (s.atPort []).dec.src.rem = Chk.clear := by rw [State.atPort, hrem']; rfl
    rw [hflags] at hended
    obtain ⟨henc, -, -⟩ := hended.kept
    refine ⟨t, core_run_next hstep 0, ?_, hended.rem, hended.ends.poison_eq, henc⟩
    rw [hended.out, List.map_nil, List.append_nil]
    rfl
  | cons p ps ih =>
    obtain ⟨⟨hp, hroom⟩, hps⟩ := List.forall_mem_cons.mp hps
    obtain ⟨t, hstep, hinv', hready', hanswers', hfin', hrem', hout', henc', hcfg', hmoves'⟩ :=
      step_readBytes_frame hinv ⟨hinv.dec, hfree, hclean⟩ ⟨by rw [heos]; nofun, hlater⟩ hm hp hroom
        (by rw [hrem, List.map_cons, List.flatten_cons])
    obtain ⟨u, hrun, hout, hend, hpoison, henc⟩ := ih t hinv' hready'.free hready'.clean hrem' (hfin'.trans heos)
      hanswers'.2 (hcfg' ▸ hps) hmoves'
    refine ⟨u, (core_run_next hstep _).trans hrun, ?_, hend, hpoison, henc.trans henc'⟩
    rw [hout, hout', List.map_cons]
    simp

/-- Settles O59 (R104, R182): PEEK_SIZE stops behind the prefix, the draw takes the payload, and READ_BYTES finds the second
frame. -/
theorem peekThenDraw : Obligations.PeekThenDraw := by
  intro s p q rest hinv hfree hclean hanswers hp hq hroom hrem hm
  have hready : (s.atPort [.draw p.length, .command 0b101#3 Operands.none]).DecReady := ⟨hinv.dec, hfree, hclean⟩
  rw [List.append_assoc] at hrem
  obtain ⟨t, hexec, hended⟩ := hready.peekSize_value hanswers
    (by rw [State.atPort, hrem]; exact parsePrefix_frame _ (frame q ++ rest) hp)
  have hflags : prefixFlags (s.atPort [.draw p.length, .command 0b101#3 Operands.none]).dec.src.rem = Chk.clear := by
    rw [State.atPort, hrem]
    exact prefixFlags_frame _ hp
  rw [hflags] at hended
  have hstep : step s = .next t := (step_command hm).trans hexec
  have hinv₁ := stepKeepsInv s t hinv hstep
  have hready₁ := hended.ready hinv₁.dec rfl
  obtain ⟨-, hcfg₁, hmoves₁⟩ := hended.kept
  have hdraw := (stepOfOtherMoves t [.command 0b101#3 Operands.none]).1 p.length hmoves₁ hready₁.free
  have hinv₂ := stepKeepsInv t _ hinv₁ hdraw
  obtain ⟨u, hstep₂, -, -, -, -, hrem₂, hout₂, -⟩ := step_readBytes_frame (p := q) (rest := rest) hinv₂
    ⟨hinv₂.dec, hready₁.free, hready₁.clean⟩ (hended.answersAll hanswers) rfl hq
    (by dsimp only; rw [hcfg₁]; exact hroom) (by dsimp only; rw [hended.rem, List.drop_left])
  refine ⟨u, ?_, ?_, hrem₂⟩
  · rw [core_run_next hstep, core_run_next hdraw, core_run_next hstep₂, core_run_zero]
  · rw [hout₂]
    dsimp only
    rw [hended.out, List.append_assoc]
    rfl

end Sys2Proof.Machine

namespace Sys2Proof.Machine

/-! ### How an ENC operation came out (R86 to R93, R119 to R123) -/

/-- The unit `u` is in the operation `op`, with the status and the results delivered that `u0`, clean, had before it. -/
structure EncUnit.Accepted (op : EncOp) (u0 u : EncUnit) : Prop where
  op : u.op = op
  busy : u.busy = true
  out : u.out = u0.out
  result : u.result = u0.result
  poison : u.poison = u0.poison
  clean : u0.poison = false

/-- A frame that was begun by an accepted operation comes out as its writes do. -/
theorem Enc.Ends.cameOut {op : EncOp} {e f : Enc} {u : EncUnit} {n : Nat} {o : Offer × Sink}
    (hacc : EncUnit.Accepted op e.unit u) (h : Enc.Ends u (BitVec.ofNat 65 n) o f) : Enc.cameOut op e f n o := by
  have hclean : u.poison = false := hacc.poison.trans hacc.clean
  obtain ⟨offer, snk⟩ := o
  cases offer with
  | done =>
    obtain ⟨ph, rfl⟩ := h
    exact ⟨rfl, rfl, rfl, rfl, by simp [hclean], by simp [hacc.op, hacc.out]⟩
  | waiting =>
    obtain ⟨ph, c, hph, rfl⟩ := h
    exact ⟨rfl, hph, hacc.busy, hacc.op, hacc.result, hacc.poison, hacc.out⟩
  | failed r =>
    obtain ⟨ph, c, rfl⟩ := h
    exact ⟨rfl, rfl, rfl, rfl, by simp [hclean], by simp [hacc.op, hacc.out]⟩

/-- A frame written to the bound sink leaves the buffers of ENCODE_LIST alone (R52). -/
theorem Enc.Ends.listKept {e f : Enc} {u : EncUnit} {n : Count} {o : Offer × Sink} (hlist : e.listKept ⟨u, e.snk⟩)
    (h : Enc.Ends u n o f) : e.listKept f := by
  obtain ⟨offer, snk⟩ := o
  cases offer with
  | done =>
    obtain ⟨ph, rfl⟩ := h
    exact hlist
  | waiting =>
    obtain ⟨ph, c, -, rfl⟩ := h
    exact hlist
  | failed r =>
    obtain ⟨ph, c, rfl⟩ := h
    exact hlist

/-- Settles O15 (R86 to R93): the accepted ENCODE is one frame into the bound sink. -/
theorem encodeOffersItsFrame : Obligations.EncodeOffersItsFrame := by
  intro s hinv hfree hclean hfits
  have hready : s.EncodeReady := ⟨hinv, hfree, hclean, hfits⟩
  have hlist : s.enc.listKept ⟨(s.enc.acceptEncode s.cmd.payload).unit, s.enc.snk⟩ := ⟨rfl, rfl, rfl⟩
  have hacc : EncUnit.Accepted .encode s.enc.unit (s.enc.acceptEncode s.cmd.payload).unit :=
    ⟨rfl, rfl, rfl, rfl, rfl, hclean⟩
  exact ⟨_, hready.exec_eq, rfl, hready.ends.listKept hlist, Enc.runOn_grown (s.enc.acceptEncode s.cmd.payload),
    hready.ends.cameOut hacc⟩

/-- A list within the contract (R123): each item fits, and so does the whole, or `IBUF_CAP` stops it. -/
theorem encodeListOk_cases {cfg : Config} {o : Operands} (h : o.encodeListOk cfg = true) :
    (∀ p ∈ o.items, p.length < 2 ^ 64) ∧
      ((frameAll o.items).length < 2 ^ 64 ∨ passes cfg.ibufCap (frameAll o.items).length = true) := by
  rw [Operands.encodeListOk, framedLength_eq, Bool.and_eq_true, List.all_eq_true, Bool.or_eq_true,
    decide_eq_true_eq] at h
  exact ⟨fun p hp => of_decide_eq_true (h.1 p hp), h.2⟩

/-- Settles O18 (R119 to R123): the cycles of the accepted ENCODE_LIST end at the first inner write past `IBUF_CAP`, or lead to the
outer frame, whose payload then is below `2^64` bytes. -/
theorem encodeListOffersItsFrame : Obligations.EncodeListOffersItsFrame := by
  intro s hinv hfree hclean hok
  obtain ⟨hitems, htotal⟩ := encodeListOk_cases hok
  have hrest := Enc.acceptEncodeList_rest hinv hclean s.cmd.items
  have hrun := Enc.list_runOn s.cmd.items hrest rfl rfl rfl hitems
  have hgrown := Enc.runOn_grown (cfg := s.cfg) (s.enc.acceptEncodeList s.cmd.items)
  rw [Enc.acceptEncodeList_snk] at hgrown
  refine ⟨_, admitted_free hfree hclean hok, rfl, hgrown, ?_⟩
  have accepted {u : EncUnit} (same : EncUnit.SameOp
      { s.enc.unit with op := .encodeList, busy := true, ibuf := [], items := s.cmd.items, idx := 0 } u) :
      EncUnit.Accepted .encodeList s.enc.unit u :=
    ⟨same.op, same.busy, same.out, same.result, same.poison, hclean⟩
  cases hfirst : firstPast s.cfg.ibufCap 0 (innerWrites s.cfg s.cmd.items) with
  | some n =>
    simp only [List.length_nil, hfirst] at hrun
    obtain ⟨u, same, hfinish⟩ := hrun
    have hacc := accepted same
    dsimp only
    rw [Enc.acceptEncodeList, hfinish]
    exact ⟨⟨rfl, rfl, rfl, by simp [hacc.poison, hclean], by simp [hacc.op, hacc.out]⟩, rfl⟩
  | none =>
    simp only [List.length_nil, hfirst, List.nil_append] at hrun
    have hroom := firstPast_none (passes_zero _) hfirst
    rw [innerWrites_flatten, Nat.zero_add] at hroom
    obtain ⟨u, same, hends⟩ := hrun (htotal.resolve_right (by simp [hroom]))
    rw [count_frame] at hends
    exact hends.cameOut (accepted same)

/-! ### Every operation ends when its requests are answered (R190) -/

/-- A sink that answers at once leaves no offer waiting. -/
theorem Sink.offerAll_ne_waiting (ws : List (List Byte)) {snk : Sink} (h : snk.later = .prompt) :
    (Sink.offerAll ws snk).1 ≠ .waiting := by
  induction ws generalizing snk with
  | nil => nofun
  | cons x xs ih =>
    unfold Sink.offerAll
    split
    · rename_i hans
      rw [(Sink.answer_none hans).2] at h
      cases h
    · rename_i hans
      split
      · exact ih ((Sink.answer_grown hans).later.trans h)
      · nofun
    · nofun
    · nofun

theorem Enc.cameOut.delivered {op : EncOp} {e f : Enc} {n : Nat} {o : Offer × Sink} (h : e.cameOut op f n o)
    (hgo : o.1 ≠ .waiting) : ∃ x, f.unit.busy = false ∧ f.unit.out = e.unit.out ++ [x] := by
  obtain ⟨offer, snk⟩ := o
  obtain ⟨-, h⟩ := h
  cases offer with
  | done =>
    obtain ⟨-, hbusy, -, -, hout⟩ := h
    exact ⟨_, hbusy, hout⟩
  | waiting => exact absurd rfl hgo
  | failed r =>
    obtain ⟨-, hbusy, -, -, hout⟩ := h
    exact ⟨_, hbusy, hout⟩

theorem Dec.Ended.delivered {op : DecOp} {d d0 e : Dec} {r : Result} {c : Chk} {rest : List Byte}
    (hacc : Dec.Accepted op d d0) (h : d0.Ended e r c rest) :
    ∃ x, e.unit.busy = false ∧ e.unit.out = d.unit.out ++ [x] := by
  obtain ⟨-, hbusy, -, -, -, hout⟩ := h.endedWith hacc
  exact ⟨_, hbusy, hout⟩

/-- Settles O56 (R190): an operation that does not wait has ended with one result. -/
theorem operationsEnd : Obligations.OperationsEnd := by
  intro s hinv hfreeEnc hfreeDec hcleanEnc hcleanDec
  have hready : s.DecReady := ⟨hinv.dec, hfreeDec, hcleanDec⟩
  refine ⟨fun hanswers => ⟨fun i hi => ?_, fun hfits => ?_⟩, fun hprompt => ⟨fun hfits => ?_, fun hok => ?_⟩⟩
  · simp only [List.mem_cons, List.not_mem_nil, or_false] at hi
    rcases hi with rfl | rfl | rfl
    · obtain ⟨r, rest, hended⟩ := (hready.peekSize_ends.resolve_left (Dec.not_waits hanswers)).ended
      obtain ⟨x, hbusy, hout⟩ := hended.delivered (s.dec.accepted .peekSize)
      exact ⟨_, x, hready.exec_peekSize, hbusy, hout⟩
    · obtain ⟨r, rest, hended⟩ := (hready.readBytes_ends.resolve_left (Dec.not_waits hanswers)).ended
      obtain ⟨x, hbusy, hout⟩ := hended.delivered (s.dec.accepted .readBytes)
      exact ⟨_, x, hready.exec_readBytes, hbusy, hout⟩
    · obtain ⟨r, rest, hended⟩ := (hready.decodeList_ends.resolve_left (Dec.not_waits hanswers)).ended
      obtain ⟨x, hbusy, hout⟩ := hended.delivered s.dec.accepted_decodeList
      exact ⟨_, x, hready.exec_decodeList, hbusy, hout⟩
  · obtain ⟨r, rest, hended⟩ := ((hready.readInto_ends hfits).resolve_left (Dec.not_waits hanswers)).ended
    obtain ⟨x, hbusy, hout⟩ := hended.delivered (s.dec.accepted_readInto _)
    exact ⟨_, x, hready.exec_readInto hfits, hbusy, hout⟩
  · obtain ⟨t, hexec, -, -, -, hcame⟩ := encodeOffersItsFrame s hinv.enc hfreeEnc hcleanEnc hfits
    obtain ⟨x, hbusy, hout⟩ := hcame.delivered (Sink.offerAll_ne_waiting _ hprompt)
    exact ⟨t, x, hexec, hbusy, hout⟩
  · obtain ⟨t, hexec, -, -, hcame⟩ := encodeListOffersItsFrame s hinv.enc hfreeEnc hcleanEnc hok
    split at hcame
    · obtain ⟨⟨-, hbusy, -, -, hout⟩, -⟩ := hcame
      exact ⟨t, _, hexec, hbusy, hout⟩
    · obtain ⟨x, hbusy, hout⟩ := hcame.delivered (Sink.offerAll_ne_waiting _ hprompt)
      exact ⟨t, x, hexec, hbusy, hout⟩

/-! ### A command is its transactions (R25) -/

/-- With no move to come, the steps of the machine are the transactions of DEC, which goes first, as long as it has any. -/
theorem core_run_dec {s : State} (hinv : s.Inv) (hm : s.moves = []) (fuel : Nat) {d : Dec}
    (hd : d.Inv s.cfg) :
    ∃ k, Sys2Proof.core.run k { s with dec := d } = .next { s with dec := Dec.run s.cfg fuel d } := by
  induction fuel generalizing d with
  | zero => exact ⟨0, rfl⟩
  | succ fuel ih =>
    cases ht : d.transact s.cfg with
    | none => exact ⟨0, by rw [Dec.run_of_quiet _ ht]; rfl⟩
    | some d' =>
      obtain ⟨k, hk⟩ := ih (Dec.transact_inv hd ht)
      have hstep := step_alone (s := { s with dec := d }) ⟨hinv.enc, hd⟩ hm
      dsimp only at hstep
      rw [ht] at hstep
      exact ⟨k + 1, by rw [core_run_next hstep, hk, Dec.run, ht]⟩

/-- With DEC idle and no move to come, the steps of the machine are the transactions of ENC. -/
theorem core_run_enc {s : State} (hinv : s.Inv) (hm : s.moves = []) (hidle : s.dec.unit.busy = false) (fuel : Nat) {e : Enc}
    (he : e.Inv s.cfg) :
    ∃ k, Sys2Proof.core.run k { s with enc := e } = .next { s with enc := Enc.run s.cfg fuel e } := by
  induction fuel generalizing e with
  | zero => exact ⟨0, rfl⟩
  | succ fuel ih =>
    cases ht : e.transact s.cfg with
    | none => exact ⟨0, by rw [Enc.run_of_quiet _ ht]; rfl⟩
    | some e' =>
      obtain ⟨k, hk⟩ := ih (Enc.transact_inv he ht)
      have hstep := step_alone (s := { s with enc := e }) ⟨he, hinv.dec⟩ hm
      dsimp only at hstep
      rw [Dec.transact_idle hidle, ht] at hstep
      exact ⟨k + 1, by rw [core_run_next hstep, hk, Enc.run, ht]⟩

/-- Settles O53 (R25): each command is `runOn` of its accepted unit, which the steps of the machine follow; for ENC that takes an
idle DEC. -/
theorem commandIsItsTransactions : Obligations.CommandIsItsTransactions := by
  intro s t hinv hm _ hidleDec
  refine ⟨fun he => ?_, fun he => ?_, fun he => ?_, fun he => ?_, fun he => ?_, fun he => ?_⟩
  · obtain ⟨-, hclean, -, rfl⟩ := admitted_next he
    exact core_run_dec hinv hm _ (Dec.accept_mid hinv.dec hclean _ nofun nofun)
  · obtain ⟨-, hclean, -, rfl⟩ := admitted_next he
    exact core_run_dec hinv hm _ (Dec.accept_mid hinv.dec hclean _ nofun nofun)
  · obtain ⟨-, hclean, hok, rfl⟩ := admitted_next he
    exact core_run_dec hinv hm _ (Dec.acceptReadInto_inv hinv.dec hclean (of_decide_eq_true hok))
  · obtain ⟨-, hclean, -, rfl⟩ := admitted_next he
    exact core_run_dec hinv hm _ (Dec.acceptDecodeList_inv hinv.dec hclean)
  · obtain ⟨-, hclean, -, rfl⟩ := admitted_next he
    exact core_run_enc hinv hm hidleDec _ (Enc.acceptEncode_inv hinv.enc hclean _)
  · obtain ⟨-, hclean, -, rfl⟩ := admitted_next he
    exact core_run_enc hinv hm hidleDec _ (Enc.acceptEncodeList_inv hinv.enc hclean _)

end Sys2Proof.Machine

namespace Sys2Proof.Machine

/-! ### A source that hands over the bytes a listed choice names (R41) -/

/-- The bound source after it has answered a request for `n` with what stood before `rest`, by the first choice listed. -/
def Source.gave (src : Source) (n : Nat) (rest : List Byte) (ks : List Nat) : Source :=
  { src with rem := rest, cuts := ks, asked := src.asked ++ [n] }

theorem Source.answer_cut {src : Source} {b rest : List Byte} {n : Nat} {ks : List Nat} (hrem : src.rem = b ++ rest)
    (hne : src.rem ≠ []) (hcuts : src.cuts = b.length :: ks) (hn : b.length ≤ n) :
    src.answer n = some (.data b, src.gave n rest ks) := by
  have hcut : min b.length (min n src.rem.length) = b.length := by
    rw [hrem, List.length_append]
    omega
  unfold Source.answer
  split
  · contradiction
  · rw [hcuts]
    dsimp only
    rw [Source.handOver, hcut, hrem, List.take_left, List.drop_left]
    rfl

theorem Dec.srcRead_answer {d : Dec} {n : Nat} {r : SrcReply} {src : Source} (hsel : d.unit.sel = .src)
    (hans : d.src.answer n = some (r, src)) : d.srcRead n = some (r, { d with src := src }) := by
  rw [Dec.srcRead, hsel]
  dsimp only
  rw [hans]

/-! ### The prefix, in one piece each (R97 to R100) -/

/-- A prefix that is read is a type byte of width at most 8 and the length field it announces. -/
theorem parsePrefix_split {fin : SrcEnd} {x y : List Byte} {ty : Byte} {sz : Nat}
    (h : parsePrefix fin x = .value (ty, sz) y) :
    ∃ f : List Byte, f.length = (typeLo ty).toNat ∧ (typeLo ty).toNat ≤ 8 ∧ leValue f = sz ∧ x = ty :: (f ++ y) := by
  have atEnd_ne {r : Result} : (atEnd fin r : Reading (Byte × Nat)) ≠ .value (ty, sz) y := by cases fin <;> nofun
  cases x with
  | nil => exact absurd h atEnd_ne
  | cons t z =>
    simp only [parsePrefix] at h
    split_ifs at h with hbad hshort
    · exact absurd h atEnd_ne
    · cases h
      exact ⟨z.take (typeLo ty).toNat, List.length_take_of_le (Nat.le_of_not_lt hshort), Nat.le_of_not_lt hbad, rfl,
        by rw [List.take_append_drop]⟩

/-- The choice that hands over a length field of `m` bytes in one piece; there is none to make for no bytes (R48). -/
def lengthCut (m : Nat) : List Nat := if m = 0 then [] else [m]

/-- The unit `u` with a whole prefix in: the type byte `ty`, and a scratch buffer `lb` that holds the length field. -/
def DecUnit.prefixIn (u : DecUnit) (ph : DecPhase) (ty : Byte) (lb : Vector Byte 8) (n : Size) : DecUnit :=
  { u with phase := ph, t := ty, m := typeLo ty, lb := lb, n := n }

/-- The whole length field arrives in one piece: the size is known (R100). -/
theorem Dec.takeLen_whole {cfg : Config} {d : Dec} {f : List Byte} (hn : d.unit.n = 0) (hlen : f.length = d.unit.m.toNat) :
    d.takeLen cfg f =
      Dec.sizeKnown cfg { d with unit := { d.unit with lb := writeLb d.unit.lb 0 f, n := d.unit.advance f } } := by
  have hm := d.unit.m.isLt
  have hzero : d.unit.n.toNat = 0 := by rw [hn]; rfl
  have hadv : (d.unit.advance f).toNat = f.length := by rw [DecUnit.toNat_advance (by omega), hzero, Nat.zero_add]
  simp only [Dec.takeLen, hadv, hzero]
  rw [if_neg (by omega)]

/-- The transaction of a unit that awaits a whole length field, when the source hands it over in one piece. -/
theorem Dec.transact_len {cfg : Config} {d : Dec} {src : Source} {f : List Byte} (hbusy : d.unit.busy = true)
    (hphase : d.unit.phase = .len) (hsel : d.unit.sel = .src) (hn : d.unit.n = 0)
    (hans : d.src.answer d.unit.m.toNat = some (.data f, src)) :
    d.transact cfg = some (Dec.takeLen cfg { d with src := src } f) := by
  have hread : d.srcRead (d.unit.m.toNat - d.unit.n.toNat) = some (.data f, { d with src := src }) :=
    Dec.srcRead_answer hsel (by rw [hn]; exact hans)
  rw [Dec.transact, if_pos hbusy, hphase]
  simp only [Dec.tickLen, hread]

/-- A prefix handed over in one piece for each request is in after one transaction, or two. -/
theorem Dec.runOn_prefix {cfg : Config} {d : Dec} {ty : Byte} {f y : List Byte} {ks : List Nat} (hinv : d.Inv cfg)
    (hdue : d.unit.typeDue = true) (hsel : d.unit.sel = .src) (hlen : f.length = (typeLo ty).toNat)
    (h8 : (typeLo ty).toNat ≤ 8) (hrem : d.src.rem = ty :: (f ++ y)) (hcuts : d.src.cuts = 1 :: (lengthCut f.length ++ ks)) :
    ∃ ph lb n src, leValue lb.toList = leValue f ∧ src.rem = y ∧ src.cuts = ks ∧
      let d₁ := Dec.sizeKnown cfg { d with unit := d.unit.prefixIn ph ty lb n, src := src }
      d₁.Inv cfg ∧ d.runOn cfg = d₁.runOn cfg := by
  obtain ⟨hbusy, hphase⟩ := DecUnit.typeDue_iff.mp hdue
  obtain ⟨hlb, -, -⟩ := hinv.type_clear hphase
  have hans := Source.answer_cut (b := [ty]) (n := 1) hrem (by rw [hrem]; nofun) hcuts le_rfl
  have htype := Dec.transact_type (cfg := cfg) hdue hsel hans
  have hinv₁ := Dec.transact_inv hinv htype
  rw [Dec.runOn_transact hinv htype]
  by_cases hzero : (typeLo ty).toNat = 0
  · obtain rfl : f = [] := List.eq_nil_of_length_eq_zero (hlen.trans hzero)
    rw [Dec.takeType, if_pos hzero] at hinv₁ ⊢
    exact ⟨d.unit.phase, d.unit.lb, 0, d.src.gave 1 y ks, by rw [hlb, leValue_lb_clear]; rfl, rfl, rfl, hinv₁, rfl⟩
  · rw [Dec.takeType, if_neg hzero, if_pos h8] at hinv₁ ⊢
    have hans₂ : (d.src.gave 1 (f ++ y) (lengthCut f.length ++ ks)).answer (typeLo ty).toNat =
        some (.data f, ((d.src.gave 1 (f ++ y) (lengthCut f.length ++ ks)).gave (typeLo ty).toNat y ks)) := by
      refine Source.answer_cut rfl ?_ ?_ hlen.le
      · exact List.append_ne_nil_of_left_ne_nil (List.ne_nil_of_length_pos (by omega)) y
      · change lengthCut f.length ++ ks = _
        rw [lengthCut, if_neg (by omega)]
        rfl
    have hlen₂ := Dec.transact_len (cfg := cfg)
      (d := Dec.takeWidth { d with src := d.src.gave 1 (f ++ y) (lengthCut f.length ++ ks) } ty) hbusy rfl hsel rfl hans₂
    have hinv₂ := Dec.transact_inv hinv₁ hlen₂
    rw [Dec.runOn_transact hinv₁ hlen₂]
    rw [Dec.takeLen_whole rfl hlen] at hinv₂ ⊢
    refine ⟨.len, writeLb d.unit.lb 0 f, _, _, ?_, rfl, rfl, hinv₂, rfl⟩
    rw [hlb]
    exact leValue_writeLb_zero f (hlen.trans_le h8)

/-! ### READ_INTO told how much to read (R111 to R113) -/

theorem Dec.afterSize_readInto {cfg : Config} {d : Dec} (hop : d.unit.op = .readInto)
    (hroom : d.unit.s.toNat ≤ d.unit.buf.length) :
    d.afterSize cfg = if d.unit.s = 0 then d.enterPay.enterOver else d.enterPay := by
  have hpay : d.enterPay.payDone = d.enterPay.enterOver := by simp only [Dec.payDone, Dec.enterPay_op, hop, Dec.enterOver]
  simp only [Dec.afterSize, hop]
  rw [if_neg (Nat.not_lt.mpr hroom), hpay]

/-- DEC, in READ_INTO and past the frame, holds the first `n` bytes of `y`, and will choose to stop. -/
structure Dec.FilledTo (u : DecUnit) (c : Chk) (y : List Byte) (n : Nat) (d : Dec) : Prop where
  phase : d.unit.phase = .over
  busy : d.unit.busy = true
  op : d.unit.op = .readInto
  clean : d.unit.poison = false
  out : d.unit.out = u.out
  chk : d.unit.chk = c
  count : d.unit.n = BitVec.ofNat 64 n
  bytes : d.unit.buf.take n = y.take n
  rem : d.src.rem = y.drop n
  stop : d.draws = [false]

/-- Whether the buffer is full or READ_INTO chooses to stop, it ends with what it holds. -/
theorem Dec.FilledTo.transact {cfg : Config} {u : DecUnit} {c : Chk} {y : List Byte} {n : Nat} {d : Dec}
    (h : Dec.FilledTo u c y n d) : ∃ ds, d.transact cfg = some (Dec.finishReadInto { d with draws := ds }) := by
  rw [Dec.transact, if_pos h.busy, h.phase]
  simp only [Dec.tickOver]
  split
  · exact ⟨d.draws, rfl⟩
  · refine ⟨[], ?_⟩
    simp [Dec.draw, h.stop]

theorem Dec.FilledTo.runOn {cfg : Config} {u : DecUnit} {c : Chk} {y : List Byte} {n : Nat} {d : Dec}
    (h : Dec.FilledTo u c y n d) (hinv : d.Inv cfg) (hn : n < 2 ^ 64) (hroom : n ≤ d.unit.buf.length) :
    u.endedWith (d.runOn cfg).unit .readInto (.ok (.filled (BitVec.ofNat 64 n))) c ∧
      (d.runOn cfg).unit.buf.take n = y.take n ∧ (d.runOn cfg).src.rem = y.drop n := by
  obtain ⟨ds, ht⟩ := h.transact (cfg := cfg)
  have hcount : d.unit.n.toNat = n := by rw [h.count, BitVec.toNat_ofNat, Nat.mod_eq_of_lt hn]
  rw [Dec.runOn_transact hinv ht, Dec.runOn_idle rfl]
  refine ⟨⟨rfl, rfl, rfl, ?_, h.chk, ?_⟩, ?_, h.rem⟩
  · simp [Dec.finishReadInto, h.clean, Result.poisons]
  · simp [Dec.finishReadInto, h.out, h.op, h.chk, h.count]
  · simp only [Dec.finishReadInto, Dec.finish_buf, Dec.spoilBufFrom_buf, hcount]
    rw [List.take_left' (List.length_take_of_le hroom), h.bytes]

/-- The first bytes to come into READ_INTO's buffer stand at its front (R108). -/
theorem Dec.store_first {d : Dec} {b : List Byte} (hop : d.unit.op = .readInto) (hn : d.unit.n = 0)
    (hroom : b.length ≤ d.unit.buf.length) :
    (d.store b).unit.n = BitVec.ofNat 64 b.length ∧ (d.store b).unit.buf.take b.length = b ∧
      (d.store b).unit.buf.length = d.unit.buf.length := by
  have hzero : d.unit.n.toNat = 0 := by rw [hn]; rfl
  obtain ⟨hbuf, -, -⟩ := Dec.store_readInto d b hop
  refine ⟨?_, ?_, ?_⟩
  · rw [Dec.store_n, DecUnit.advance, hn]
    exact BitVec.zero_add _
  · rw [hbuf, hzero, writeBuf, List.take_zero, List.nil_append, List.take_left]
  · rw [hbuf, writeBuf_length _ _ _ (by omega)]

/-- DEC, in READ_INTO, stands behind its prefix with nothing of the payload yet, and its source will hand over the first `n` bytes
of `y` in one piece. -/
structure Dec.ToFill (u : DecUnit) (c : Chk) (y : List Byte) (n : Nat) (d : Dec) : Prop where
  busy : d.unit.busy = true
  op : d.unit.op = .readInto
  sel : d.unit.sel = .src
  clean : d.unit.poison = false
  out : d.unit.out = u.out
  chk : d.unit.chk = c
  count : d.unit.n = 0
  room : n ≤ d.unit.buf.length
  rem : d.src.rem = y
  enough : n ≤ y.length
  cut : d.src.cuts = [n]

section
variable {cfg : Config} {u : DecUnit} {c : Chk} {y : List Byte} {n : Nat} {d : Dec}

/-- The answer to the request for the room in the buffer. -/
theorem Dec.ToFill.srcRead (h : Dec.ToFill u c y n d) (hpos : 0 < n) :
    d.srcRead d.unit.buf.length =
      some (.data (y.take n), { d with src := d.src.gave d.unit.buf.length (y.drop n) [] }) := by
  have hlen : (y.take n).length = n := List.length_take_of_le h.enough
  refine Dec.srcRead_answer h.sel (Source.answer_cut ?_ ?_ ?_ ?_)
  · rw [h.rem, List.take_append_drop]
  · rw [h.rem]
    exact List.ne_nil_of_length_pos (hpos.trans_le h.enough)
  · rw [h.cut, hlen]
  · rw [hlen]
    exact h.room

/-- Once those bytes are stored, and it is past the frame, DEC holds them. -/
theorem Dec.ToFill.store (h : Dec.ToFill u c y n d) {d' : Dec} {src : Source} (hsrc : src.rem = y.drop n)
    (hunit : d'.unit = { (Dec.store { d with src := src } (y.take n)).unit with phase := .over }) (hsrc' : d'.src = src)
    (hstop : d'.draws = [false]) :
    Dec.FilledTo u c y n d' ∧ d'.unit.buf.length = d.unit.buf.length := by
  have hlen : (y.take n).length = n := List.length_take_of_le h.enough
  obtain ⟨hcount, hbytes, hroom⟩ := Dec.store_first (d := { d with src := src }) (b := y.take n) h.op h.count
    (hlen.trans_le h.room)
  rw [hlen] at hcount hbytes
  refine ⟨⟨?_, ?_, ?_, ?_, ?_, ?_, ?_, ?_, ?_, hstop⟩, ?_⟩
  · rw [hunit]
  · rw [hunit]
    simpa using h.busy
  · rw [hunit]
    simpa using h.op
  · rw [hunit]
    simpa using h.clean
  · rw [hunit]
    simpa using h.out
  · rw [hunit]
    simpa using h.chk
  · rw [hunit]
    exact hcount
  · rw [hunit]
    exact hbytes
  · rw [hsrc', hsrc]
  · rw [hunit]
    exact hroom

/-- In phase PAY the bytes come with the one request of the payload (R111). -/
theorem Dec.ToFill.transact_pay (h : Dec.ToFill u c y n d) (hphase : d.unit.phase = .pay) (hpos : 0 < n) (hn : n < 2 ^ 64)
    (hs : d.unit.s.toNat ≤ n) (hstop : d.draws = [false]) :
    ∃ d', d.transact cfg = some d' ∧ Dec.FilledTo u c y n d' ∧ d'.unit.buf.length = d.unit.buf.length := by
  have hlen : (y.take n).length = n := List.length_take_of_le h.enough
  have hzero : d.unit.n.toNat = 0 := by rw [h.count]; rfl
  have hwant : d.unit.payRequest = d.unit.buf.length := by rw [DecUnit.payRequest_readInto h.op, hzero, Nat.sub_zero]
  refine ⟨Dec.enterOver (Dec.store { d with src := d.src.gave d.unit.buf.length (y.drop n) [] } (y.take n)), ?_,
    h.store rfl rfl (by simp [Dec.enterOver]) (by simpa [Dec.enterOver] using hstop)⟩
  rw [Dec.transact, if_pos h.busy, hphase]
  simp only [Dec.tickPay, hwant, h.srcRead hpos]
  have hadv : (d.unit.advance (y.take n)).toNat = n := by
    rw [DecUnit.toNat_advance (by omega), hzero, hlen, Nat.zero_add]
  rw [Dec.takePay, Dec.store_n, Dec.store_s, if_neg (by rw [hadv]; exact Nat.not_lt.mpr hs), Dec.payDone, Dec.store_op,
    h.op]
  rfl

theorem Dec.ToFill.set_draws (h : Dec.ToFill u c y n d) (ds : List Bool) : Dec.ToFill u c y n { d with draws := ds } :=
  ⟨h.busy, h.op, h.sel, h.clean, h.out, h.chk, h.count, h.room, h.rem, h.enough, h.cut⟩

/-- In phase OVER the bytes come when READ_INTO chooses to ask again (R113). -/
theorem Dec.ToFill.transact_over (h : Dec.ToFill u c y n d) (hphase : d.unit.phase = .over) (hpos : 0 < n)
    (hgo : d.draws = [true, false]) :
    ∃ d', d.transact cfg = some d' ∧ Dec.FilledTo u c y n d' ∧ d'.unit.buf.length = d.unit.buf.length := by
  have h' := h.set_draws [false]
  have hzero : d.unit.n.toNat = 0 := by rw [h.count]; rfl
  have hread := h'.srcRead hpos
  refine ⟨Dec.store { d with draws := [false], src := d.src.gave d.unit.buf.length (y.drop n) [] } (y.take n), ?_,
    h'.store rfl ?_ (Dec.store_src _ _) (Dec.store_draws _ _)⟩
  · rw [Dec.transact, if_pos h.busy, hphase]
    dsimp only at hread
    simp only [Dec.tickOver, Dec.draw, hgo, hzero, Nat.sub_zero, if_true, hread]
    rw [if_neg (by have := h.room; omega)]
  · have hover : (Dec.store { d with draws := [false], src := d.src.gave d.unit.buf.length (y.drop n) [] } (y.take n)).unit.phase
        = .over := (Dec.store_phase _ _).trans hphase
    rw [← hover]

/-- With nothing to read past the frame, the unit already holds what it is to hold. -/
theorem Dec.ToFill.nothing (h : Dec.ToFill u c y 0 d) (hphase : d.unit.phase = .over) (hstop : d.draws = [false]) :
    Dec.FilledTo u c y 0 d :=
  ⟨hphase, h.busy, h.op, h.clean, h.out, h.chk, h.count, rfl, h.rem, hstop⟩

/-- The draws under which READ_INTO takes `n` bytes of a payload of `sz`: past a frame of no payload it has to ask once. -/
def drawsFor (sz n : Nat) : List Bool := if sz = 0 ∧ 0 < n then [true, false] else [false]

/-- Behind the prefix, READ_INTO takes the bytes it is offered and stops. -/
theorem Dec.ToFill.runOn (h : Dec.ToFill u c y n d) (hn : n < 2 ^ 64) (hs : d.unit.s.toNat ≤ n)
    (hdraws : d.draws = drawsFor d.unit.s.toNat n) (hinv : (d.afterSize cfg).Inv cfg) :
    u.endedWith ((d.afterSize cfg).runOn cfg).unit .readInto (.ok (.filled (BitVec.ofNat 64 n))) c ∧
      ((d.afterSize cfg).runOn cfg).unit.buf.take n = y.take n ∧ ((d.afterSize cfg).runOn cfg).src.rem = y.drop n := by
  have ends {d₁ d₂ : Dec} (hinv₁ : d₁.Inv cfg) (ht : d₁.transact cfg = some d₂) (hfilled : Dec.FilledTo u c y n d₂)
      (hroom : d₂.unit.buf.length = d.unit.buf.length) :
      u.endedWith (d₁.runOn cfg).unit .readInto (.ok (.filled (BitVec.ofNat 64 n))) c ∧
        (d₁.runOn cfg).unit.buf.take n = y.take n ∧ (d₁.runOn cfg).src.rem = y.drop n := by
    rw [Dec.runOn_transact hinv₁ ht]
    exact hfilled.runOn (Dec.transact_inv hinv₁ ht) hn (hroom ▸ h.room)
  rw [Dec.afterSize_readInto h.op (hs.trans h.room)] at hinv ⊢
  by_cases hzero : d.unit.s = 0
  · have hs0 : d.unit.s.toNat = 0 := by rw [hzero]; rfl
    rw [if_pos hzero] at hinv ⊢
    have hover : Dec.ToFill u c y n d.enterPay.enterOver :=
      ⟨h.busy, h.op, h.sel, h.clean, h.out, h.chk, h.count, h.room, h.rem, h.enough, h.cut⟩
    rcases Nat.eq_zero_or_pos n with rfl | hpos
    · exact (hover.nothing rfl (hdraws.trans (if_neg fun hc => absurd hc.2 (Nat.lt_irrefl 0)))).runOn hinv hn h.room
    · obtain ⟨d', ht, hfilled, hroom⟩ := hover.transact_over (cfg := cfg) rfl hpos
        (hdraws.trans (if_pos ⟨hs0, hpos⟩))
      exact ends hinv ht hfilled hroom
  · have hs0 : d.unit.s.toNat ≠ 0 := fun h0 => hzero (BitVec.eq_of_toNat_eq h0)
    rw [if_neg hzero] at hinv ⊢
    have hpay : Dec.ToFill u c y n d.enterPay :=
      ⟨h.busy, h.op, h.sel, h.clean, h.out, h.chk, h.count, h.room, h.rem, h.enough, h.cut⟩
    obtain ⟨d', ht, hfilled, hroom⟩ := hpay.transact_pay (cfg := cfg) rfl (by omega) hn hs
      (hdraws.trans (if_neg fun hc => hs0 hc.1))
    exact ends hinv ht hfilled hroom

end

/-- The size and the flags of a whole prefix are in their registers (R97). -/
def Dec.sized (d : Dec) : Dec :=
  { d with unit :=
    { d.unit with
      s := BitVec.ofNat 64 (leValue d.unit.lb.toList)
      chk := check d.unit.t (leValue d.unit.lb.toList)
      n := 0 } }

theorem Dec.sizeKnown_eq (cfg : Config) (d : Dec) : d.sizeKnown cfg = d.sized.afterSize cfg := rfl

/-- `d` with the choices of its source and the draws of READ_INTO given. -/
def Dec.choosing (d : Dec) (cuts : List Nat) (draws : List Bool) : Dec :=
  { d with src := { d.src with cuts := cuts }, draws := draws }

theorem Dec.choosing_inv {cfg : Config} {d : Dec} (h : d.Inv cfg) (cuts : List Nat) (draws : List Bool) :
    (d.choosing cuts draws).Inv cfg :=
  Dec.inv_draws (Dec.inv_src h { d.src with cuts := cuts }) draws d.tick

/-- Settles O25 (R113): the source hands over the prefix in one piece for each request, then `n` bytes, and READ_INTO, past the frame
with them, chooses to stop. -/
theorem readIntoEveryCount : Obligations.ReadIntoEveryCount := by
  intro s ty sz n y hinv hfree hclean hfits hparse hlow hhigh
  obtain ⟨f, hlen, h8, rfl, hrem⟩ := parsePrefix_split hparse
  obtain ⟨hn, hy⟩ := Nat.le_min.mp hhigh
  have hinv' := Dec.choosing_inv hinv (1 :: (lengthCut f.length ++ [n])) (drawsFor (leValue f) n)
  have hready : State.DecReady
      { s with dec := s.dec.choosing (1 :: (lengthCut f.length ++ [n])) (drawsFor (leValue f) n) } :=
    ⟨hinv', hfree, hclean⟩
  obtain ⟨ph, lb, m, src, hlb, hsrc, hcuts, hinv₁, hrun⟩ := Dec.runOn_prefix (ks := [n])
    (Dec.acceptReadInto_inv hinv' hclean hfits) rfl rfl hlen h8 hrem rfl
  rw [Dec.sizeKnown_eq] at hinv₁ hrun
  refine ⟨_, _, _, hready.exec_readInto hfits, ?_⟩
  dsimp only
  rw [hrun]
  have hsize : (BitVec.ofNat 64 (leValue lb.toList)).toNat = leValue f := by
    rw [hlb, BitVec.toNat_ofNat, Nat.mod_eq_of_lt (by omega)]
  have hflags : check ty (leValue lb.toList) = prefixFlags s.dec.src.rem := by
    rw [hlb, hrem, prefixFlags_whole h8 hlen]
  refine Dec.ToFill.runOn (u := s.dec.unit) ⟨rfl, rfl, rfl, hclean, rfl, hflags, rfl, hn, hsrc, hy, hcuts⟩ (by omega) ?_ ?_ hinv₁
  · exact hsize.trans_le hlow
  · exact congrArg (drawsFor · n) hsize.symm

end Sys2Proof.Machine

namespace Sys2Proof.Machine

/-! ### The dead registers of DEC (R20, R30)

Two DEC that differ only in registers that are dead where they stand make the same transactions, and still differ only so. -/

/-- The registers of DEC that are dead somewhere in an operation. -/
structure DeadRegs where
  t : Byte
  m : Nibble
  s : Size
  pay : List Byte
  ibuf : List Byte
  items : List (List Byte)
  flags : Chk

def DecUnit.deadRegs (u : DecUnit) : DeadRegs := ⟨u.t, u.m, u.s, u.pay, u.ibuf, u.items, u.flags⟩

/-- `d` with other values in those registers. -/
def Dec.withDead (d : Dec) (w : DeadRegs) : Dec :=
  { d with unit :=
    { d.unit with
      t := w.t, m := w.m, s := w.s, pay := w.pay, ibuf := w.ibuf, items := w.items, flags := w.flags } }

/-- The registers of the list are live throughout a DECODE_LIST. -/
def DeadRegs.AgreesInList (w : DeadRegs) (d : Dec) : Prop :=
  d.unit.op = .decodeList → w.ibuf = d.unit.ibuf ∧ w.items = d.unit.items ∧ w.flags = d.unit.flags

/-- `w` has the values of `d` in the registers that are live in its phase. -/
structure DeadRegs.Agrees (w : DeadRegs) (d : Dec) : Prop where
  latched : d.unit.phase = .len → w.t = d.unit.t ∧ w.m = d.unit.m
  size : d.unit.phase = .pay → w.s = d.unit.s ∧ w.pay = d.unit.pay
  list : w.AgreesInList d

/-- `e` differs from `d` in dead registers only. -/
def Dec.Twin (d e : Dec) : Prop := ∃ w : DeadRegs, w.Agrees d ∧ e = d.withDead w

section
variable {cfg : Config} {d d' : Dec} {w : DeadRegs}

/-- In phases TYPE and OVER, and when idle, only the registers of the list can be live. -/
theorem DeadRegs.AgreesInList.agrees (h : w.AgreesInList d) (hlen : d.unit.phase ≠ .len) (hpay : d.unit.phase ≠ .pay) :
    w.Agrees d :=
  ⟨fun hp => absurd hp hlen, fun hp => absurd hp hpay, h⟩

theorem Dec.finish_twin (h : w.AgreesInList d) (r : Result) : Dec.Twin (d.finish r) ((d.withDead w).finish r) :=
  ⟨w, DeadRegs.AgreesInList.agrees h nofun nofun, rfl⟩

theorem DecUnit.inner_op {u : DecUnit} (h : u.inner = true) : u.op = .decodeList := by
  simp only [DecUnit.inner, Bool.and_eq_true, beq_iff_eq] at h
  exact h.1

theorem Dec.fail_twin (h : w.AgreesInList d) (r : Result) : Dec.Twin (d.fail r) ((d.withDead w).fail r) := by
  have hinner : (d.withDead w).unit.inner = d.unit.inner := rfl
  have hhanded : (d.withDead w).unit.bufHandedOut = d.unit.bufHandedOut := rfl
  unfold Dec.fail
  rw [hinner, hhanded]
  split
  · rename_i hin
    obtain ⟨hibuf, -, hflags⟩ := h (DecUnit.inner_op hin)
    refine ⟨{ w with items := [] }, ?_, ?_⟩
    · exact DeadRegs.AgreesInList.agrees (fun _ => ⟨hibuf, rfl, hflags⟩) nofun nofun
    · rw [← hflags]
      rfl
  · split
    · exact ⟨w, DeadRegs.AgreesInList.agrees h nofun nofun, rfl⟩
    · exact Dec.finish_twin h r

theorem Dec.finishReadInto_twin (h : w.AgreesInList d) : Dec.Twin d.finishReadInto (d.withDead w).finishReadInto :=
  ⟨w, DeadRegs.AgreesInList.agrees h nofun nofun, rfl⟩

theorem Dec.eosInType_twin (h : w.AgreesInList d) : Dec.Twin d.eosInType (d.withDead w).eosInType := by
  have hinner : (d.withDead w).unit.inner = d.unit.inner := rfl
  unfold Dec.eosInType
  rw [hinner]
  split
  · rename_i hin
    obtain ⟨hibuf, hitems, hflags⟩ := h (DecUnit.inner_op hin)
    refine ⟨w, DeadRegs.AgreesInList.agrees (fun _ => ⟨hibuf, hitems, hflags⟩) nofun nofun, ?_⟩
    simp only [Dec.listDone, Dec.withDead, Dec.finish, hitems, hflags]
  · exact Dec.finish_twin h _

/-- Where the payload is complete, the payload built is live as well. -/
theorem Dec.payDone_twin (hphase : d.unit.phase = .pay) (h : w.Agrees d) : Dec.Twin d.payDone (d.withDead w).payDone := by
  obtain ⟨-, hpay⟩ := h.size hphase
  have hop : (d.withDead w).unit.op = d.unit.op := rfl
  have hsel : (d.withDead w).unit.sel = d.unit.sel := rfl
  unfold Dec.payDone
  rw [hop, hsel]
  split
  · exact ⟨w, h, rfl⟩
  · rw [← hpay]
    exact ⟨w, DeadRegs.AgreesInList.agrees h.list nofun nofun, rfl⟩
  · exact ⟨w, DeadRegs.AgreesInList.agrees h.list nofun nofun, rfl⟩
  · rename_i ho
    obtain ⟨hibuf, hitems, hflags⟩ := h.list ho
    split
    · refine ⟨{ w with items := [], flags := d.unit.chk }, ?_, rfl⟩
      exact DeadRegs.AgreesInList.agrees (fun _ => ⟨hibuf, rfl, rfl⟩) nofun nofun
    · refine ⟨{ w with items := w.items ++ [w.pay], flags := w.flags.or d.unit.chk }, ?_, rfl⟩
      refine DeadRegs.AgreesInList.agrees (fun _ => ⟨hibuf, ?_, ?_⟩) nofun nofun
      · rw [hitems, hpay]
        rfl
      · rw [hflags]
        rfl

theorem Dec.enterPay_twin (hs : w.s = d.unit.s) (h : w.AgreesInList d) :
    ({ w with pay := [] } : DeadRegs).Agrees d.enterPay :=
  ⟨nofun, fun _ => ⟨hs, rfl⟩, h⟩

theorem Dec.withDead_enterPay (d : Dec) (w : DeadRegs) :
    (d.withDead w).enterPay = d.enterPay.withDead { w with pay := [] } := rfl

/-- With the size known, `S` is live. -/
theorem Dec.afterSize_twin (hs : w.s = d.unit.s) (h : w.AgreesInList d) :
    Dec.Twin (d.afterSize cfg) ((d.withDead w).afterSize cfg) := by
  have hpay := Dec.enterPay_twin hs h
  have hop : (d.withDead w).unit.op = d.unit.op := rfl
  have hsize : (d.withDead w).unit.s = d.unit.s := hs
  have hbound : (d.withDead w).unit.bound cfg = d.unit.bound cfg := rfl
  have hbuf : (d.withDead w).unit.buf = d.unit.buf := rfl
  unfold Dec.afterSize
  rw [hop, hsize, hbound, hbuf]
  split
  · exact Dec.finish_twin h _
  all_goals
    split
    · exact Dec.fail_twin h _
    · split
      · exact Dec.payDone_twin rfl hpay
      · exact ⟨_, hpay, rfl⟩

/-- Where the prefix is in, the type byte is live. -/
theorem Dec.sizeKnown_twin (ht : w.t = d.unit.t) (h : w.AgreesInList d) :
    Dec.Twin (d.sizeKnown cfg) ((d.withDead w).sizeKnown cfg) := by
  have hsized : (d.withDead w).sized = d.sized.withDead { w with s := d.sized.unit.s } := by
    simp only [Dec.sized, Dec.withDead, ht]
  rw [Dec.sizeKnown_eq, Dec.sizeKnown_eq, hsized]
  exact Dec.afterSize_twin rfl h

theorem Dec.takeType_twin (h : w.AgreesInList d) (t : Byte) :
    Dec.Twin (d.takeType cfg t) ((d.withDead w).takeType cfg t) := by
  unfold Dec.takeType
  split
  · exact Dec.sizeKnown_twin (d := d.latchType t) (w := { w with t := t, m := typeLo t }) rfl h
  · split
    · exact ⟨{ w with t := t, m := typeLo t }, ⟨fun _ => ⟨rfl, rfl⟩, nofun, h⟩, rfl⟩
    · exact Dec.fail_twin (d := d.latchBadWidth t) (w := { w with t := t, m := typeLo t }) h _

/-- The length bytes `b` are in. -/
def Dec.gotLen (d : Dec) (b : List Byte) : Dec :=
  { d with unit := { d.unit with lb := writeLb d.unit.lb d.unit.n.toNat b, n := d.unit.advance b } }

theorem Dec.takeLen_eq (cfg : Config) (d : Dec) (b : List Byte) :
    d.takeLen cfg b =
      if (d.gotLen b).unit.n.toNat < d.unit.m.toNat then d.gotLen b else (d.gotLen b).sizeKnown cfg := rfl

theorem Dec.takeLen_twin (hphase : d.unit.phase = .len) (h : w.Agrees d) (b : List Byte) :
    Dec.Twin (d.takeLen cfg b) ((d.withDead w).takeLen cfg b) := by
  obtain ⟨ht, hm⟩ := h.latched hphase
  have hwidth : (d.withDead w).unit.m = d.unit.m := hm
  have hgot : (d.withDead w).gotLen b = (d.gotLen b).withDead w := rfl
  have hn : ((d.gotLen b).withDead w).unit.n = (d.gotLen b).unit.n := rfl
  rw [Dec.takeLen_eq, Dec.takeLen_eq, hwidth, hgot, hn]
  split
  · exact ⟨w, ⟨h.latched, h.size, h.list⟩, rfl⟩
  · exact Dec.sizeKnown_twin (d := d.gotLen b) ht h.list

/-- The bytes stored, the registers of one DEC are still as the other's. -/
theorem Dec.store_twin (hphase : d.unit.phase = .pay ∨ d.unit.op = .readInto) (h : w.Agrees d) (b : List Byte) :
    ∃ w' : DeadRegs, w'.Agrees (d.store b) ∧ (d.withDead w).store b = (d.store b).withDead w' := by
  have hop : (d.withDead w).unit.op = d.unit.op := rfl
  have hsel : (d.withDead w).unit.sel = d.unit.sel := rfl
  unfold Dec.store
  rw [hop, hsel]
  cases hop : d.unit.op with
  | readInto => exact ⟨w, ⟨h.latched, h.size, h.list⟩, rfl⟩
  | decodeList =>
    have hpay : d.unit.phase = .pay := hphase.resolve_right (by simp [hop])
    obtain ⟨hs, hp⟩ := h.size hpay
    obtain ⟨hibuf, hitems, hflags⟩ := h.list hop
    cases d.unit.sel with
    | src =>
      refine ⟨{ w with ibuf := d.unit.ibuf ++ b }, ⟨h.latched, h.size, fun _ => ⟨rfl, hitems, hflags⟩⟩, ?_⟩
      rw [← hibuf]
      rfl
    | ibuf =>
      refine ⟨{ w with pay := d.unit.pay ++ b }, ⟨h.latched, fun _ => ⟨hs, rfl⟩, h.list⟩, ?_⟩
      rw [← hp]
      rfl
  | peekSize | readBytes =>
    have hpay : d.unit.phase = .pay := hphase.resolve_right (by simp [hop])
    obtain ⟨hs, hp⟩ := h.size hpay
    refine ⟨{ w with pay := d.unit.pay ++ b }, ⟨h.latched, fun _ => ⟨hs, rfl⟩, h.list⟩, ?_⟩
    rw [← hp]
    rfl

theorem Dec.takePay_twin (hphase : d.unit.phase = .pay) (h : w.Agrees d) (b : List Byte) :
    Dec.Twin (d.takePay b) ((d.withDead w).takePay b) := by
  obtain ⟨w', hw', hstore⟩ := Dec.store_twin (.inl hphase) h b
  have hstored : (d.store b).unit.phase = .pay := (Dec.store_phase d b).trans hphase
  obtain ⟨hs, -⟩ := hw'.size hstored
  have hsize : ((d.store b).withDead w').unit.s = (d.store b).unit.s := hs
  have hn : ((d.store b).withDead w').unit.n = (d.store b).unit.n := rfl
  unfold Dec.takePay
  rw [hstore, hsize, hn]
  split
  · exact ⟨w', hw', rfl⟩
  · exact Dec.payDone_twin hstored hw'

/-! What the source answers. -/

theorem Dec.srcRead_withDead_none {n : Nat} (h : d.srcRead n = none) : (d.withDead w).srcRead n = none := by
  have hsel : (d.withDead w).unit.sel = d.unit.sel := rfl
  have hsrc : (d.withDead w).src = d.src := rfl
  unfold Dec.srcRead at h ⊢
  rw [hsel, hsrc]
  cases hs : d.unit.sel with
  | src =>
    rw [hs] at h
    cases hanswer : d.src.answer n with
    | none => rfl
    | some p => simp [hanswer] at h
  | ibuf => simp [hs] at h

theorem Dec.srcRead_withDead_some {n : Nat} {r : SrcReply} (h : w.Agrees d)
    (hlist : d.unit.sel = .ibuf → d.unit.op = .decodeList) (hr : d.srcRead n = some (r, d')) :
    ∃ w' : DeadRegs, w'.Agrees d' ∧ (d.withDead w).srcRead n = some (r, d'.withDead w') := by
  have hsel : (d.withDead w).unit.sel = d.unit.sel := rfl
  have hsrc : (d.withDead w).src = d.src := rfl
  unfold Dec.srcRead at hr ⊢
  rw [hsel, hsrc]
  cases hs : d.unit.sel with
  | src =>
    rw [hs] at hr
    cases hanswer : d.src.answer n with
    | none => simp [hanswer] at hr
    | some p =>
      simp only [hanswer, Option.some.injEq, Prod.mk.injEq] at hr
      obtain ⟨rfl, rfl⟩ := hr
      exact ⟨w, ⟨h.latched, h.size, h.list⟩, rfl⟩
  | ibuf =>
    obtain ⟨hibuf, hitems, hflags⟩ := h.list (hlist hs)
    have hsame : (d.withDead w).unit.ibuf = d.unit.ibuf := hibuf
    rw [hs] at hr
    simp only [Option.some.injEq, Prod.mk.injEq] at hr
    obtain ⟨rfl, rfl⟩ := hr
    exact ⟨{ w with ibuf := (ibufAnswer d.unit.ibuf n).2 }, ⟨h.latched, h.size, fun _ => ⟨rfl, hitems, hflags⟩⟩,
      by simp only [hsame]; rfl⟩

theorem Dec.srcRead_phase_op {n : Nat} {r : SrcReply} (h : d.srcRead n = some (r, d')) :
    d'.unit.phase = d.unit.phase ∧ d'.unit.op = d.unit.op := by
  unfold Dec.srcRead at h
  split at h
  · split at h
    · simp only [Option.some.injEq, Prod.mk.injEq] at h
      obtain ⟨-, rfl⟩ := h
      exact ⟨rfl, rfl⟩
    · simp at h
  · simp only [Option.some.injEq, Prod.mk.injEq] at h
    obtain ⟨-, rfl⟩ := h
    exact ⟨rfl, rfl⟩

end

/-! One transaction. -/

section
variable {cfg : Config} {d : Dec} {w : DeadRegs}

theorem Dec.tickType_twin (h : w.Agrees d) (hlist : d.unit.sel = .ibuf → d.unit.op = .decodeList) :
    Option.Rel Dec.Twin (d.tickType cfg) ((d.withDead w).tickType cfg) := by
  unfold Dec.tickType
  cases hr : d.srcRead 1 with
  | none =>
    rw [Dec.srcRead_withDead_none hr]
    exact .none
  | some p =>
    obtain ⟨r, d'⟩ := p
    obtain ⟨w', hw', hr'⟩ := Dec.srcRead_withDead_some h hlist hr
    rw [hr']
    match r with
    | .data [] => exact .some ⟨w', hw', rfl⟩
    | .data (t :: _) => exact .some (Dec.takeType_twin hw'.list t)
    | .eos => exact .some (Dec.eosInType_twin hw'.list)
    | .err e => exact .some (Dec.fail_twin hw'.list _)

theorem Dec.tickLen_twin (hphase : d.unit.phase = .len) (h : w.Agrees d)
    (hlist : d.unit.sel = .ibuf → d.unit.op = .decodeList) :
    Option.Rel Dec.Twin (d.tickLen cfg) ((d.withDead w).tickLen cfg) := by
  obtain ⟨-, hm⟩ := h.latched hphase
  have hrequest : (d.withDead w).unit.m.toNat - (d.withDead w).unit.n.toNat = d.unit.m.toNat - d.unit.n.toNat := by
    rw [← hm]
    rfl
  unfold Dec.tickLen
  rw [hrequest]
  cases hr : d.srcRead (d.unit.m.toNat - d.unit.n.toNat) with
  | none =>
    rw [Dec.srcRead_withDead_none hr]
    exact .none
  | some p =>
    obtain ⟨r, d'⟩ := p
    obtain ⟨w', hw', hr'⟩ := Dec.srcRead_withDead_some h hlist hr
    rw [hr']
    match r with
    | .data b => exact .some (Dec.takeLen_twin ((Dec.srcRead_phase_op hr).1.trans hphase) hw' b)
    | .eos => exact .some (Dec.fail_twin hw'.list _)
    | .err e => exact .some (Dec.fail_twin hw'.list _)

theorem Dec.tickPay_twin (hphase : d.unit.phase = .pay) (h : w.Agrees d)
    (hlist : d.unit.sel = .ibuf → d.unit.op = .decodeList) :
    Option.Rel Dec.Twin d.tickPay (d.withDead w).tickPay := by
  obtain ⟨hs, -⟩ := h.size hphase
  have hrequest : (d.withDead w).unit.payRequest = d.unit.payRequest := by
    simp only [DecUnit.payRequest, Dec.withDead, hs]
  unfold Dec.tickPay
  rw [hrequest]
  cases hr : d.srcRead d.unit.payRequest with
  | none =>
    rw [Dec.srcRead_withDead_none hr]
    exact .none
  | some p =>
    obtain ⟨r, d'⟩ := p
    obtain ⟨w', hw', hr'⟩ := Dec.srcRead_withDead_some h hlist hr
    rw [hr']
    match r with
    | .data b => exact .some (Dec.takePay_twin ((Dec.srcRead_phase_op hr).1.trans hphase) hw' b)
    | .eos => exact .some (Dec.fail_twin hw'.list _)
    | .err e => exact .some (Dec.fail_twin hw'.list _)

/-- A draw reads and changes no register. -/
theorem Dec.draw_withDead (d : Dec) (w : DeadRegs) :
    (d.withDead w).draw = (d.draw.1, d.draw.2.withDead w) ∧ d.draw.2.unit = d.unit := by
  have hdraws : (d.withDead w).draws = d.draws := rfl
  unfold Dec.draw
  rw [hdraws]
  cases hd : d.draws <;> exact ⟨rfl, rfl⟩

theorem Dec.errInOver_eq (d : Dec) (e : EnvError) :
    d.errInOver e = if d.draw.1 then d.draw.2.finishReadInto else d.draw.2.fail (.sourceError e) := rfl

theorem Dec.errInOver_twin (h : w.AgreesInList d) (e : EnvError) :
    Dec.Twin (d.errInOver e) ((d.withDead w).errInOver e) := by
  obtain ⟨hdraw, hunit⟩ := Dec.draw_withDead d w
  have hdrawn : w.AgreesInList d.draw.2 := by
    unfold DeadRegs.AgreesInList
    rw [hunit]
    exact h
  rw [Dec.errInOver_eq, Dec.errInOver_eq, hdraw]
  cases d.draw.1 with
  | true => exact Dec.finishReadInto_twin hdrawn
  | false => exact Dec.fail_twin hdrawn _

theorem Dec.tickOver_twin (hop : d.unit.op = .readInto) (h : w.Agrees d)
    (hlist : d.unit.sel = .ibuf → d.unit.op = .decodeList) :
    Option.Rel Dec.Twin d.tickOver (d.withDead w).tickOver := by
  obtain ⟨hdraw, hunit⟩ := Dec.draw_withDead d w
  have hdrawn : w.Agrees d.draw.2 := by
    constructor
    · rw [hunit]
      exact h.latched
    · rw [hunit]
      exact h.size
    · unfold DeadRegs.AgreesInList
      rw [hunit]
      exact h.list
  have hroom : (d.withDead w).unit.buf.length ≤ (d.withDead w).unit.n.toNat ↔ d.unit.buf.length ≤ d.unit.n.toNat := Iff.rfl
  unfold Dec.tickOver
  rw [hdraw]
  simp only [hroom]
  split
  · exact .some (Dec.finishReadInto_twin h.list)
  · split
    · have hrequest : (d.draw.2.withDead w).unit.buf.length - (d.draw.2.withDead w).unit.n.toNat =
          d.draw.2.unit.buf.length - d.draw.2.unit.n.toNat := rfl
      rw [hrequest]
      cases hr : d.draw.2.srcRead (d.draw.2.unit.buf.length - d.draw.2.unit.n.toNat) with
      | none =>
        rw [Dec.srcRead_withDead_none hr]
        exact .none
      | some p =>
        obtain ⟨r, d'⟩ := p
        obtain ⟨w', hw', hr'⟩ := Dec.srcRead_withDead_some hdrawn (by rw [hunit]; exact hlist) hr
        rw [hr']
        match r with
        | .data b =>
          have hop' : d'.unit.op = .readInto := (Dec.srcRead_phase_op hr).2.trans (by rw [hunit, hop])
          obtain ⟨w'', hw'', hstore⟩ := Dec.store_twin (.inr hop') hw' b
          exact .some ⟨w'', hw'', hstore⟩
        | .eos => exact .some (Dec.finishReadInto_twin hw'.list)
        | .err e => exact .some (Dec.errInOver_twin hw'.list e)
    · exact .some (Dec.finishReadInto_twin hdrawn.list)

/-- Of two DEC that differ in dead registers only, both make the transaction or neither. -/
theorem Dec.transact_twin {e : Dec} (hinv : d.Inv cfg) (h : d.Twin e) :
    Option.Rel Dec.Twin (d.transact cfg) (e.transact cfg) := by
  obtain ⟨w, hw, rfl⟩ := h
  have hbusy : (d.withDead w).unit.busy = d.unit.busy := rfl
  have hphase : (d.withDead w).unit.phase = d.unit.phase := rfl
  unfold Dec.transact
  rw [hbusy, hphase]
  split
  · rename_i hb
    have hlist := hinv.inner_list hb
    match hp : d.unit.phase with
    | .idle => exact .none
    | .type => exact Dec.tickType_twin hw hlist
    | .len => exact Dec.tickLen_twin hp hw hlist
    | .pay => exact Dec.tickPay_twin hp hw hlist
    | .over => exact Dec.tickOver_twin (hinv.over_range hp).1 hw hlist
  · exact .none

theorem Dec.run_twin (k : Nat) {d e : Dec} (hinv : d.Inv cfg) (h : d.Twin e) :
    (Dec.run cfg k d).Twin (Dec.run cfg k e) := by
  induction k generalizing d e with
  | zero => exact h
  | succ k ih =>
    have hrel := Dec.transact_twin hinv h
    unfold Dec.run
    cases hd : d.transact cfg with
    | none =>
      rw [hd] at hrel
      cases he : e.transact cfg with
      | none => exact h
      | some e' =>
        rw [he] at hrel
        nomatch hrel
    | some d' =>
      rw [hd] at hrel
      cases he : e.transact cfg with
      | none =>
        rw [he] at hrel
        nomatch hrel
      | some e' =>
        rw [he] at hrel
        cases hrel with
        | some hnext => exact ih (Dec.transact_inv hinv hd) hnext

/-- More fuel than an operation needs changes nothing. -/
theorem Dec.run_eq_runOn (hinv : d.Inv cfg) {k : Nat} (hk : d.work ≤ k) : Dec.run cfg k d = d.runOn cfg := by
  have hsplit : k = d.work + (k - d.work) := by omega
  rw [hsplit, Dec.run_add]
  exact Dec.run_of_quiet _ (Dec.runOn_quiet hinv)

theorem Dec.runOn_twin {d e : Dec} (hd : d.Inv cfg) (he : e.Inv cfg) (h : d.Twin e) :
    (d.runOn cfg).Twin (e.runOn cfg) := by
  rw [← Dec.run_eq_runOn hd (Nat.le_max_left d.work e.work), ← Dec.run_eq_runOn he (Nat.le_max_right d.work e.work)]
  exact Dec.run_twin _ hd h

end

/-! An operation of DEC begins. -/

section
variable {d : Dec} {u : DecUnit}

/-- An operation other than DECODE_LIST begins with every one of the registers dead. -/
theorem Dec.accept_twin (h : d.unit.sameLive u) {op : DecOp} (hop : op ≠ .decodeList) :
    (d.accept op).Twin (Dec.accept { d with unit := u } op) := by
  obtain ⟨-, -, hpoison, hresult, -, hbuf, hout⟩ := h
  refine ⟨u.deadRegs, DeadRegs.AgreesInList.agrees (fun ho => absurd ho hop) nofun nofun, ?_⟩
  simp only [Dec.accept, Dec.enterType, Dec.withDead, DecUnit.deadRegs, hpoison, hresult, hbuf, hout]

theorem Dec.acceptReadInto_twin (h : d.unit.sameLive u) (buf : List Byte) :
    (d.acceptReadInto buf).Twin (Dec.acceptReadInto { d with unit := u } buf) := by
  obtain ⟨-, -, hpoison, hresult, -, -, hout⟩ := h
  refine ⟨u.deadRegs, DeadRegs.AgreesInList.agrees nofun nofun nofun, ?_⟩
  simp only [Dec.acceptReadInto, Dec.accept, Dec.enterType, Dec.withDead, DecUnit.deadRegs, hpoison, hresult, hout]

/-- DECODE_LIST clears the registers of the list (R30, R125). -/
theorem Dec.acceptDecodeList_twin (h : d.unit.sameLive u) :
    d.acceptDecodeList.Twin (Dec.acceptDecodeList { d with unit := u }) := by
  obtain ⟨-, -, hpoison, hresult, -, hbuf, hout⟩ := h
  refine ⟨{ u.deadRegs with ibuf := [], items := [], flags := Chk.clear },
    DeadRegs.AgreesInList.agrees (fun _ => ⟨rfl, rfl, rfl⟩) nofun nofun, ?_⟩
  simp only [Dec.acceptDecodeList, Dec.accept, Dec.enterType, Dec.withDead, DecUnit.deadRegs, hpoison, hresult, hbuf,
    hout]

theorem Dec.Twin.sameLive {d e : Dec} (h : d.Twin e) : d.unit.sameLive e.unit := by
  obtain ⟨w, -, rfl⟩ := h
  exact ⟨rfl, rfl, rfl, rfl, rfl, rfl, rfl⟩

theorem Dec.Twin.outside {d e : Dec} (h : d.Twin e) : d.src = e.src ∧ d.draws = e.draws ∧ d.tick = e.tick := by
  obtain ⟨w, -, rfl⟩ := h
  exact ⟨rfl, rfl, rfl⟩

end

/-! ### The dead registers of ENC (R20, R30)

ENCODE uses neither `IBUF_E` nor the list of ENCODE_LIST; ENCODE_LIST sets all it uses. -/

/-- `e` with the list registers of `u`. -/
def Enc.withList (e : Enc) (u : EncUnit) : Enc :=
  { e with unit := { e.unit with ibuf := u.ibuf, items := u.items, idx := u.idx } }

/-- `e` writes to its sink as `d` does, and differs from it in the list registers only. -/
def Enc.Twin (d e : Enc) : Prop := d.unit.dst = .snk ∧ ∃ u : EncUnit, e = d.withList u

section
variable {cfg : Config} {d e : Enc}

theorem Enc.Twin.finish (h : d.Twin e) (r : Result) : (d.finish r).Twin (e.finish r) := by
  obtain ⟨hdst, u, rfl⟩ := h
  exact ⟨hdst, u, rfl⟩

theorem Enc.emit_twin {k : Enc → Enc} (x : List Byte) (h : d.Twin e)
    (hk : ∀ f g : Enc, f.Twin g → (k f).Twin (k g)) : Option.Rel Enc.Twin (d.emit cfg x k) (e.emit cfg x k) := by
  have htwin := h
  obtain ⟨hdst, u, rfl⟩ := h
  have hdst' : (d.withList u).unit.dst = .snk := hdst
  have hsnk : (d.withList u).snk = d.snk := rfl
  unfold Enc.emit
  split
  · exact .some (hk _ _ htwin)
  · rw [Enc.sinkWrite_snk hdst, Enc.sinkWrite_snk hdst', hsnk]
    cases d.snk.answer x with
    | none => exact .none
    | some p =>
      obtain ⟨r, snk⟩ := p
      have hnext : Enc.Twin { d with snk := snk } { d.withList u with snk := snk } := ⟨hdst, u, rfl⟩
      cases r with
      | wrote n =>
        simp only [Option.map_some]
        split
        · exact .some (hk _ _ ⟨hdst, u, rfl⟩)
        · exact .some (hnext.finish _)
      | err er => exact .some (hnext.finish _)
      | full size => exact .some (hnext.finish _)

theorem Enc.frameDone_twin (h : d.Twin e) : d.frameDone.Twin e.frameDone := by
  have htwin := h
  obtain ⟨hdst, u, rfl⟩ := h
  have hdst' : (d.withList u).unit.dst = .snk := hdst
  rw [Enc.frameDone_snk hdst, Enc.frameDone_snk hdst']
  exact htwin.finish _

theorem Enc.transact_twin (h : d.Twin e) : Option.Rel Enc.Twin (d.transact cfg) (e.transact cfg) := by
  have htwin := h
  obtain ⟨-, u, rfl⟩ := h
  have hbusy : (d.withList u).unit.busy = d.unit.busy := rfl
  have hphase : (d.withList u).unit.phase = d.unit.phase := rfl
  have hgoesOn : ∀ (ph : EncPhase) (f g : Enc), f.Twin g →
      Enc.Twin { f with unit := { f.unit with phase := ph } } { g with unit := { g.unit with phase := ph } } := by
    rintro ph f g ⟨hdst, v, rfl⟩
    exact ⟨hdst, v, rfl⟩
  unfold Enc.transact
  rw [hbusy, hphase]
  split
  · cases d.unit.phase with
    | idle => exact .none
    | wType => exact Enc.emit_twin _ htwin (hgoesOn .wLen)
    | wLen => exact Enc.emit_twin _ htwin (hgoesOn .wPay)
    | wPay => exact Enc.emit_twin _ htwin (fun _ _ => Enc.frameDone_twin)
  · exact .none

theorem Enc.run_twin (k : Nat) (h : d.Twin e) : (Enc.run cfg k d).Twin (Enc.run cfg k e) := by
  induction k generalizing d e with
  | zero => exact h
  | succ k ih =>
    have hrel := Enc.transact_twin (cfg := cfg) h
    unfold Enc.run
    cases hd : d.transact cfg with
    | none =>
      rw [hd] at hrel
      cases he : e.transact cfg with
      | none => exact h
      | some e' =>
        rw [he] at hrel
        nomatch hrel
    | some d' =>
      rw [hd] at hrel
      cases he : e.transact cfg with
      | none =>
        rw [he] at hrel
        nomatch hrel
      | some e' =>
        rw [he] at hrel
        cases hrel with
        | some hnext => exact ih hnext

/-- The bound on the transactions of a frame into the sink does not count the list. -/
theorem Enc.Twin.work (h : d.Twin e) : d.work = e.work := by
  obtain ⟨hdst, u, rfl⟩ := h
  simp only [Enc.work, Enc.withList, hdst]

theorem Enc.runOn_twin (h : d.Twin e) : (d.runOn cfg).Twin (e.runOn cfg) := by
  unfold Enc.runOn
  rw [← h.work]
  exact Enc.run_twin _ h

theorem Enc.Twin.sameLive (h : d.Twin e) : d.unit.sameLive e.unit := by
  obtain ⟨-, u, rfl⟩ := h
  exact ⟨rfl, rfl, rfl, rfl, rfl⟩

theorem Enc.Twin.sink (h : d.Twin e) : d.snk = e.snk := by
  obtain ⟨-, u, rfl⟩ := h
  rfl

end

section
variable {e : Enc} {v : EncUnit}

theorem Enc.acceptEncode_twin (h : e.unit.sameLive v) (p : List Byte) :
    (e.acceptEncode p).Twin (Enc.acceptEncode { e with unit := v } p) := by
  obtain ⟨-, -, hpoison, hresult, hout⟩ := h
  refine ⟨rfl, v, ?_⟩
  simp only [Enc.acceptEncode, Enc.startFrame, Enc.withList, hpoison, hresult, hout]

/-- ENCODE_LIST sets every register it uses. -/
theorem Enc.acceptEncodeList_eq (h : e.unit.sameLive v) (items : List (List Byte)) :
    Enc.acceptEncodeList { e with unit := v } items = e.acceptEncodeList items := by
  obtain ⟨-, -, hpoison, hresult, hout⟩ := h
  cases items <;> simp [Enc.acceptEncodeList, Enc.nextFrame, Enc.startFrame, hpoison, hresult, hout]

end

/-! ### No operation depends on a dead register (R20) -/

/-- `t` and `t'` differ at most in dead registers. -/
def State.Twin (t t' : State) : Prop :=
  t.dec.unit.sameLive t'.dec.unit ∧ t.dec.src = t'.dec.src ∧ t.dec.draws = t'.dec.draws ∧ t.dec.tick = t'.dec.tick ∧
    t.enc.unit.sameLive t'.enc.unit ∧ t.enc.snk = t'.enc.snk

/-- Both outcomes are the same refusal, or go on to states that differ at most in dead registers. -/
def OutcomesTwin : Host.Outcome State Fault Refusal → Host.Outcome State Fault Refusal → Prop
  | .next t, .next t' => t.Twin t'
  | .refused r, .refused r' => r = r'
  | _, _ => False

/-- Two admissions on the same status bits are refused alike, or both go on. -/
theorem admitted_twin {b p o b' p' : Bool} {t t' : State} (hb : b = b') (hp : p = p')
    (h : b = false → p = false → o = true → t.Twin t') : OutcomesTwin (admitted b p o t) (admitted b' p' o t') := by
  subst hb hp
  cases b with
  | true => exact rfl
  | false =>
    cases p with
    | true => exact rfl
    | false =>
      cases o with
      | true => exact h rfl rfl rfl
      | false => exact rfl

section
variable {s : State} {u : DecUnit} {v : EncUnit} {ok : Bool}

/-- A command of DEC, where its runs come to the same but for dead registers. -/
theorem admitted_twin_dec {d d' : Dec} (hu : s.dec.unit.sameLive u) (hv : s.enc.unit.sameLive v)
    (h : s.dec.unit.poison = false → ok = true → d.Twin d') :
    OutcomesTwin (admitted s.dec.unit.busy s.dec.unit.poison ok { s with dec := d })
      (admitted u.busy u.poison ok { s with dec := d', enc := { s.enc with unit := v } }) := by
  refine admitted_twin hu.busy hu.poison (fun _ hclean hok => ?_)
  have htwin := h hclean hok
  obtain ⟨hsrc, hdraws, htick⟩ := htwin.outside
  exact ⟨htwin.sameLive, hsrc, hdraws, htick, hv, rfl⟩

/-- A command of ENC, likewise. -/
theorem admitted_twin_enc {e e' : Enc} (hu : s.dec.unit.sameLive u) (hv : s.enc.unit.sameLive v)
    (hlive : e.unit.sameLive e'.unit) (hsnk : e.snk = e'.snk) :
    OutcomesTwin (admitted s.enc.unit.busy s.enc.unit.poison ok { s with enc := e })
      (admitted v.busy v.poison ok { s with dec := { s.dec with unit := u }, enc := e' }) :=
  admitted_twin hv.busy hv.poison (fun _ _ _ => ⟨hu, rfl, rfl, rfl, hlive, hsnk⟩)

/-- Each of the six operations, at two states that differ in dead registers. -/
theorem exec_twin {i : Instr} (hi : i ∈ [Instr.encode, .encodeList, .peekSize, .readBytes, .readInto, .decodeList])
    (hinv : s.Inv) (hu : s.dec.unit.sameLive u) (huinv : Dec.Inv s.cfg { s.dec with unit := u })
    (hv : s.enc.unit.sameLive v) :
    OutcomesTwin (exec i s)
      (exec i { s with dec := { s.dec with unit := u }, enc := { s.enc with unit := v } }) := by
  have hclean : s.dec.unit.poison = false → u.poison = false := fun h => hu.poison ▸ h
  simp only [List.mem_cons, List.not_mem_nil, or_false] at hi
  rcases hi with rfl | rfl | rfl | rfl | rfl | rfl
  · have htwin := Enc.runOn_twin (cfg := s.cfg) (Enc.acceptEncode_twin hv s.cmd.payload)
    exact admitted_twin_enc hu hv htwin.sameLive htwin.sink
  · have hsame := congrArg (Enc.runOn s.cfg) (Enc.acceptEncodeList_eq hv s.cmd.items)
    refine admitted_twin_enc hu hv ?_ ?_
    · rw [hsame]
      exact ⟨rfl, rfl, rfl, rfl, rfl⟩
    · rw [hsame]
  · exact admitted_twin_dec hu hv (fun hp _ => Dec.runOn_twin (Dec.accept_mid hinv.dec hp _ nofun nofun)
      (Dec.accept_mid huinv (hclean hp) _ nofun nofun) (Dec.accept_twin hu nofun))
  · exact admitted_twin_dec hu hv (fun hp _ => Dec.runOn_twin (Dec.accept_mid hinv.dec hp _ nofun nofun)
      (Dec.accept_mid huinv (hclean hp) _ nofun nofun) (Dec.accept_twin hu nofun))
  · exact admitted_twin_dec hu hv (fun hp hok =>
      Dec.runOn_twin (Dec.acceptReadInto_inv hinv.dec hp (of_decide_eq_true hok))
        (Dec.acceptReadInto_inv huinv (hclean hp) (of_decide_eq_true hok)) (Dec.acceptReadInto_twin hu _))
  · exact admitted_twin_dec hu hv (fun hp _ => Dec.runOn_twin (Dec.acceptDecodeList_inv hinv.dec hp)
      (Dec.acceptDecodeList_inv huinv (hclean hp)) (Dec.acceptDecodeList_twin hu))

end

/-- Settles O46 (R20): the registers that differ stay dead, or are set before they are read, in every transaction. -/
theorem deadRegisters : Obligations.DeadRegisters := by
  rintro s u v i hi hinv ⟨hu, -, huinv⟩ ⟨hv, -, -⟩
  have htwin := exec_twin hi hinv hu huinv hv
  revert htwin
  cases exec i s <;> cases exec i { s with dec := { s.dec with unit := u }, enc := { s.enc with unit := v } } <;>
    exact id

end Sys2Proof.Machine
